-- ==== Sys2Proof/Word.lean ====
section
/-! DEFINITION. Word.lean: the byte, the one word type that the exchange RAM, the radio line and the store use. -/

namespace Sys2Proof

/-- One byte of the exchange RAM, of a stored entry or of the radio line. -/
abbrev Byte := BitVec 8

end Sys2Proof
end

