-- ==== Sys2Proof/Syntax.lean ====
section
/-! DEFINITION. Syntax.lean: the commands of the block, one constructor per row of spec/opcode_table.json, each
with the data its event brings from outside. -/

namespace Sys2Proof

/-- One value for each of the three phases. -/
structure PerPhase (α : Type) where
  a : α
  b : α
  c : α
  deriving DecidableEq, Repr

/-- The MFE's period result for one phase (section 1.1). -/
structure PhaseResult where
  /-- signed mean of the sample products, −67,108,863..67,108,863 -/
  pRaw : Int
  vRaw : BitVec 16
  iRaw : BitVec 16
  deriving DecidableEq, Repr

/-- The eight tamper kinds, index 0 to 7 (section 6.1). -/
inductive Kind where
  | coverMain
  | coverTerminal
  | magnet
  | reverse
  | imbalance
  | bypass
  | noVoltage
  | watchLost
  deriving DecidableEq, Repr

/-- The hand-offs of one billed period, which carry no mutual order (R11, R106). -/
inductive Arrival where
  /-- the CE's billing, and the EE's profile bookkeeping that follows it (R11) -/
  | billing
  /-- the SWC's load limiter (R94) -/
  | limiter
  | reverse
  | imbalance
  | bypass
  | noVoltage
  | magnet
  deriving DecidableEq, Repr

/-- What a period-end event brings (R1, R98, R107). -/
structure PeriodInput where
  phases : PerPhase PhaseResult
  /-- neutral residual, 0..160,000 mA -/
  iRes : Nat
  /-- samples of the magnetic sensor at or above 160, of 3,200 -/
  magnetHits : Nat
  /-- load-side voltages sensed at the event, in units of 10 mV -/
  loadSide : PerPhase Nat
  /-- the order in which the hand-offs are taken -/
  order : List Arrival
  deriving DecidableEq, Repr

/-- The three sources of top-up codes (R47). -/
inductive Source where
  | keypad
  | radio
  | exchange
  deriving DecidableEq, Repr

/-- A key of the keypad (R60). -/
inductive Key where
  | digit (d : Fin 10)
  | star
  | hash
  deriving DecidableEq, Repr

/-- The two cover switches (R110). -/
inductive Cover where
  | main
  | terminal
  deriving DecidableEq, Repr

/-- Line-side and load-side voltage of one phase at a sense (R89), in units of 10 mV. -/
structure PhaseVolts where
  line : Nat
  load : Nat
  deriving DecidableEq, Repr

/-- How the verify of a PROGRAM_RECORD ended (R143). -/
inductive RecordVerify where
  | pass
  | bodyFails
  | markFails
  deriving DecidableEq, Repr

/-- A command of the block: one constructor per row of the table. -/
inductive Instr where
  | periodEnd (p : PeriodInput)
  /-- the limiter's part of a hand-off of T' (mW) that brings the over-limit count to 30 -/
  | loadTrip (tPrime : Nat)
  | tripMemoryQuiet
  | minuteTimerExpiry
  | blockTimerExpiry (src : Source)
  | keyPress (k : Key)
  | keypadIdleTimerExpiry
  | codeDecision
  | packageDecision
  /-- the bytes of a burst on the radio line, sync bytes included -/
  | radioCall (bytes : List Byte)
  | radioGapTimerExpiry
  | buttonPress
  | coilPulseEnd
  | driveConfirm (v : PerPhase PhaseVolts)
  | recoveryTimerExpiry
  | coverChange (cover : Cover) (toOpen : Bool)
  /-- samples at or above 160, of the second's 32 -/
  | magnetSamplerSecond (hits : Nat)
  | programRecordDone (verify : RecordVerify)
  | programEntryDone (pass : Bool)
  | programBitDone (pass : Bool)
  | eraseBlockDone (pass : Bool)
  | eraseSuspended
  | suspendGuardExpiry
  | periodicTimerExpiry
  | mainsFailingAssert
  /-- line-side voltages of the phases as the mains detector finds them, in units of 10 mV (R151) -/
  | mainsAppears (v : PerPhase Nat)
  | mainsPresenceEnds (v : PerPhase Nat)
  | mainsFailingDeassert
  | batteryExhausted
  /-- the voltages of the start-up confirm, and the last step (1..9) taken before the sender's next event -/
  | settleTimerExpiry (v : PerPhase PhaseVolts) (upTo : Nat)
  /-- `some a`: a new transaction at address a; `none`: the open one goes on. n data bytes; `rise`: chip-select rises -/
  | read (addr : Option (BitVec 16)) (n : Nat) (rise : Bool)
  | write (addr : Option (BitVec 16)) (data : List Byte) (rise : Bool)
  /-- n status bytes are clocked out -/
  | status (n : Nat)
  | voidCommand (cmd : Byte) (n : Nat)
  | slotTake (i : Fin 16)
  | slotContinue (i : Fin 16)
  | slotCancel (i : Fin 16)
  | slotFree (i : Fin 16)
  /-- the host writes v to the state byte of slot i -/
  | exchangeFault (i : Fin 16) (v : Byte)
  | noticeRelease
  | captureRelease
  | pauseTimerExpiry
  /-- at most `reads` places or prepared entries are examined in this step -/
  | bulkChunk (reads : Nat)
  | xrstAssert
  | xrstDeassert
  | applyCode
  | applyPackage
  | takeEmergency
  | setTime
  | switchOpen
  | switchRelease
  | testSwitch
  | calibrate
  | identify
  | installKey
  | commission
  | readLive
  | readProfile
  | readTamperLog
  | readEvidence
  | readCodes
  | readSettings
  /-- a byte of the radio line; `framed` is false when its stop bit is found low -/
  | radioLineByte (b : Byte) (framed : Bool)
  | supplyCollapse
  deriving DecidableEq, Repr

end Sys2Proof
end

