-- ==== Sys2Proof/Decode.lean ====
section
/-! DEFINITION. Decode.lean: the command that a word spells by the table's bits. No row of spec/opcode_table.json
gives bits (spec/98_reader.md counts 0 rows with fixed bits), so no word spells a command. -/

namespace Sys2Proof

/-- The command that the word w of nbits bits spells: none, since no row of the table has bits. -/
def decodeTableWord (_nbits _w : Nat) : Option Instr := none

end Sys2Proof
end

