-- ==== Sys2Proof/Config.lean ====
section
/-! DEFINITION. Config.lean: what the spec fixes outside the manual (the keyed functions) and the free values. -/

namespace Sys2Proof

/-- What an erase that did not complete leaves of one place: as it was, erased, or damaged. -/
inductive Remnant where
  | kept
  | cleared
  | spoiled
  deriving DecidableEq, Repr, Inhabited

/-- The code authentication function (00 scope, R52): a fixed keyed function of the code key and the
integer X, whose construction the manual leaves out. It returns the 59-bit clear block. Log 8. -/
opaque Config.authenticate : BitVec 128 → Nat → BitVec 59

/-- The keyed check over kind, issue number and value (R52), a fixed keyed function. Log 8. -/
opaque Config.codeCheck : BitVec 128 → Nat → Nat → Nat → Nat

/-- The package check (R75), a fixed keyed function of every byte before the check field. Log 8. -/
opaque Config.packageCheck : BitVec 128 → List Byte → BitVec 64

/-- Free value: what an interrupted or failed erase leaves of a place (first argument: the free counter,
second: the place). Log 9. -/
opaque Config.eraseRemnant : Nat → Nat → Remnant

/-- Free value: whether a one-way bit program cut short by the supply's collapse set its bit. Log 10. -/
opaque Config.cutBit : Nat → Bool

/-- Free value: the length byte of a profile entry whose length formula (R18) has a negative value. Log 24. -/
opaque Config.freeLength : Nat → Nat

/-- Free value: the outage length reported by a warm start that has no HOLD begin time. Log 25. -/
opaque Config.freeOutage : Nat → BitVec 32

/-- Free value: what the 4-byte import, export or fallback field of a profile entry holds of a number above the field's
range, as a function of that number. Log 63. -/
opaque Config.freeEnergyField : Nat → BitVec 32

end Sys2Proof
end

