-- ==== Sys2Proof/Machine/State.lean ====
section
/-! DEFINITION. Machine/State.lean: every piece of state the spec gives the block, as plain data, and its value right
after the factory part's first start (log 3). -/

namespace Sys2Proof.Machine

/-! ### Names and small records -/

/-- Power states (R150). -/
inductive Power where
  | off
  | battery
  | run
  | hold
  deriving DecidableEq, Repr

/-- Switch states (section 5.2). -/
inductive SwitchState where
  | unknown
  | opened
  | ready
  | closing
  | closed
  | opening
  | fault
  deriving DecidableEq, Repr

/-- Direction of a drive (R88). -/
inductive Direction where
  | toOpen
  | toClose
  deriving DecidableEq, Repr

/-- Result of a load-side sense (R89). -/
inductive Sense where
  | sensedOpen
  | sensedClosed
  | sensedMixed
  deriving DecidableEq, Repr

/-- State of a tamper kind (R105). -/
inductive KindState where
  | quiet
  | warning
  | declared
  deriving DecidableEq, Repr

/-- Events of the tamper log (R124). -/
inductive LogEvent where
  | warningBegin
  | warningEnd
  | declared
  | cleared
  | clearRefused
  deriving DecidableEq, Repr

/-- Clock sources (R38). -/
inductive ClockSource where
  | none
  | hostSet
  | authenticated
  deriving DecidableEq, Repr

/-- Start kinds (R158). -/
inductive StartKind where
  | warm
  | cold
  | xrst
  deriving DecidableEq, Repr

/-- The open reasons (R85). -/
inductive Reason where
  | credit
  | loadLimit
  | lockout
  | tamper
  | remote
  deriving DecidableEq, Repr

/-- The open-reason set (R85). -/
structure Reasons where
  credit : Bool
  loadLimit : Bool
  lockout : Bool
  tamper : Bool
  remote : Bool
  deriving DecidableEq, Repr

/-- Outcomes of requests, codes and packages (section 10.5). -/
inductive Result where
  | ok
  | accepted
  | partly
  | pending
  | badRequest
  | noRoom
  | cancelled
  | timeout
  | notNow
  | busy
  | blocked
  | notCommissioned
  | badFormat
  | badCheck
  | badKind
  | old
  | used
  | bitFailed
  | storeFault
  | wrongMeter
  | badValue
  | notOffered
  | already
  | notYet
  | frozen
  | overLimit
  deriving DecidableEq, Repr

/-- One value for each tamper kind. -/
structure PerKind (α : Type) where
  coverMain : α
  coverTerminal : α
  magnet : α
  reverse : α
  imbalance : α
  bypass : α
  noVoltage : α
  watchLost : α
  deriving DecidableEq, Repr

/-- One value for each code source. -/
structure PerSource (α : Type) where
  keypad : α
  radio : α
  exchange : α
  deriving DecidableEq, Repr

/-- A timer that counts seconds: 0 is stopped; `due` says that its last second has run out and its expiry event
stands out (log 2). -/
structure Timer where
  left : Nat
  due : Bool
  deriving DecidableEq, Repr

/-- A stopped timer. -/
def Timer.stopped : Timer := ⟨0, false⟩

/-! ### Energy engine -/

/-- The nine calibration gains (R2). -/
structure Gains where
  v : PerPhase Nat
  i : PerPhase Nat
  p : PerPhase Nat
  deriving DecidableEq, Repr

/-- Registers in mWh and residues in mJ (R8 to R10). -/
structure Energy where
  imp : Nat
  exp : Nat
  fb : Nat
  rImp : Nat
  rExp : Nat
  rFb : Nat
  deriving DecidableEq, Repr

/-- Live values of one phase (R12). -/
structure PhaseLive where
  v : Nat
  i : Nat
  p : Int
  overrange : Bool
  noVoltage : Bool
  creep : Bool
  reverse : Bool
  deriving DecidableEq, Repr

/-- The live values (R12). -/
structure LiveValues where
  phases : PerPhase PhaseLive
  iRes : Nat
  tPrime : Nat
  x : Nat
  energy : Energy
  endTime : Nat
  deriving DecidableEq, Repr

/-- The flags of a profile interval (R17). -/
structure ProfileFlags where
  supplyOpen : Bool
  tamper : Bool
  powerOut : Bool
  clockInvalid : Bool
  timeSteered : Bool
  short : Bool
  saturated : Bool
  overrange : Bool
  deriving DecidableEq, Repr

/-- The open profile interval (R15). -/
structure Interval where
  start : Nat
  nominalEnd : Nat
  imp : Nat
  exp : Nat
  fb : Nat
  credit : Nat
  maxW : Nat
  lastBilled : Nat
  flags : ProfileFlags
  deriving DecidableEq, Repr

/-- Head of an entry area: entries present, place and entry sequence of the newest (R22, R124). -/
structure Head where
  count : Nat
  place : Nat
  seq : Nat
  deriving DecidableEq, Repr

/-- Energy engine. -/
structure Ee where
  gains : Gains
  energy : Energy
  live : LiveValues
  interval : Option Interval
  head : Head
  deriving DecidableEq, Repr

/-! ### Credit engine -/

/-- The money state that the save record carries (section 2.1, R44). -/
structure Money where
  b : Int
  cRes : Nat
  u : Nat
  emergency : Bool
  lastDay : Nat
  deriving DecidableEq, Repr

/-- Credit engine. -/
structure Ce where
  money : Money
  arm1 : Bool
  arm2 : Bool
  deferral : Bool
  band : Nat
  window : Bool
  minuteDue : Bool
  deriving DecidableEq, Repr

/-! ### Settings and packages -/

/-- Policy of a tamper kind (R114). -/
structure Policy where
  opens : Bool
  freezes : Bool
  deriving DecidableEq, Repr

/-- A point of a day schedule (R28). -/
structure SwitchPoint where
  minute : Nat
  band : Nat
  deriving DecidableEq, Repr

/-- A friendly window (R36). -/
structure Window where
  first : Nat
  stop : Nat
  deriving DecidableEq, Repr

/-- The metering settings (R4). -/
structure Metering where
  separate : Bool
  pStart : Nat
  pDef : Nat
  iMin : Nat
  vNom : Nat
  deriving DecidableEq, Repr

/-- The active settings (R76, R77). -/
structure Settings where
  price0 : Nat
  price1 : Nat
  price2 : Nat
  price3 : Nat
  weekday : List SwitchPoint
  weekend : List SwitchPoint
  friendlyWeekday : List Window
  friendlyWeekend : List Window
  e : Nat
  o : Nat
  l1 : Nat
  l2 : Nat
  fixed : Nat
  pMax : Nat
  policies : PerKind Policy
  metering : Metering
  groups : List (List Byte)
  /-- profile interval length in minutes -/
  intervalLen : Nat
  deriving DecidableEq, Repr

/-- A section of a package, its fields as sent (R73). -/
inductive Section where
  | bandPrices (p0 p1 p2 p3 : Nat)
  | daySchedule (weekend : Bool) (points : List SwitchPoint)
  | friendly (weekend : Bool) (windows : List Window)
  | emergency (e o : Nat)
  | thresholds (l1 l2 : Nat)
  | fixedCharge (f : Nat)
  | loadLimit (pMax : Nat)
  | tamperPolicy (p : PerKind Nat)
  | metering (reverse pStart pDef iMin vNom : Nat)
  | groupAddresses (addrs : List (List Byte))
  | profileInterval (len : Nat)
  | clock (t : Nat)
  deriving DecidableEq, Repr

/-- The pending package (R80); `released` says that its PENDING outcome has been given or has ended in
STORE_FAULT, or that it came from a save record (R82). -/
structure PendingPkg where
  number : Nat
  effTime : Nat
  sections : List Section
  released : Bool
  deriving DecidableEq, Repr

/-! ### Tamper kinds -/

/-- The kind record of R105, without the cover state. -/
structure KindRec where
  state : KindState
  counter : Nat
  count : Nat
  first : Option Nat
  last : Option Nat
  cleared : Option Nat
  deriving DecidableEq, Repr

/-- An entry of the tamper log (R124). -/
structure TamperEntry where
  time : Nat
  kind : Kind
  event : LogEvent
  power : Power
  switch : SwitchState
  balance : Int
  counter : Nat
  deriving DecidableEq, Repr

/-- An entry of the load profile (R18). -/
structure ProfileEntry where
  endTime : Nat
  imp : Nat
  exp : Nat
  fb : Nat
  credit : Nat
  balance : Int
  maxW : Nat
  length : Nat
  flags : ProfileFlags
  deriving DecidableEq, Repr

/-! ### The store -/

/-- The ten one-way bits (R129). -/
structure OneWay where
  ever : PerKind Bool
  commissioned : Bool
  keyInstalled : Bool
  deriving DecidableEq, Repr

/-- The name of a one-way bit. -/
inductive BitName where
  | ever (k : Kind)
  | commissioned
  | keyInstalled
  deriving DecidableEq, Repr

/-- The used-code table and floor (R54). -/
structure Codes where
  table : List Nat
  floor : Nat
  deriving DecidableEq, Repr

/-- A save record (R136): its sequence and its body. The record check and the completion mark have no layout in
the spec; a record place says whether they agree (log 30). -/
structure SaveRecord where
  seq : Nat
  energy : Energy
  money : Money
  codes : Codes
  lastPkg : Nat
  settings : Settings
  pendingPkg : Option PendingPkg
  kinds : PerKind KindRec
  set : Reasons
  consent : Bool
  tripMem : Nat
  time : Nat
  gains : Gains
  serial : Nat
  radioAddr : List Byte
  key : BitVec 128
  interval : Option Interval
  suspendedErase : Option Nat
  deriving DecidableEq, Repr

/-- The condition of a record place (R128). -/
inductive RecordPlace where
  | erased
  | good (r : SaveRecord)
  | damaged
  deriving DecidableEq, Repr

/-- What an entry place that is not erased holds: its 32 bytes, or bytes that a failed or interrupted program left,
which are never good (R143). -/
inductive PlaceData where
  | bytes (bs : List Byte)
  | damaged
  deriving DecidableEq, Repr

/-- The places of an entry area that are not erased, by place number, rising (R128). -/
abbrev Places := List (Nat × PlaceData)

/-- The two entry areas (R141). -/
inductive Area where
  | log
  | profile
  deriving DecidableEq, Repr

/-- The non-volatile array and the one-way bit area; kept in every power state (R128, R129). -/
structure Flash where
  records : List RecordPlace
  log : Places
  profile : Places
  bits : OneWay
  /-- entry blocks whose erase ended by FAULT or was interrupted, with the good entries each held, until a start has
  erased them (R142, R144, R148; log 17) -/
  removed : List (Nat × Nat)
  deriving DecidableEq, Repr

/-- The saves of R137. -/
inductive SaveKind where
  | powerFail
  | code
  | emergency
  | package
  | activation
  | lifecycle
  | tamper
  | periodic
  deriving DecidableEq, Repr

/-- An entry to append. -/
inductive Entry where
  | log (e : TamperEntry)
  | profile (e : ProfileEntry)
  deriving DecidableEq, Repr

/-- An operation of the store (R130). Reads are `Stc.readWait`. The erase carries its class and, for a reuse
erase, the good entries its block held when it was first begun (R142). -/
inductive StoreOp where
  | save (k : SaveKind)
  | append (e : Entry)
  | bit (b : BitName)
  | erase (block cls : Nat) (good : Option Nat)
  deriving DecidableEq, Repr

/-- An operation that waits in the operation queue (R131); `retry` marks the retry of R143. -/
structure QItem where
  op : StoreOp
  retry : Bool
  deriving DecidableEq, Repr

/-- The program in progress (R130). -/
inductive Prog where
  | record (saves : List SaveKind) (image : SaveRecord)
  | entry (e : Entry)
  | bit (b : BitName)
  deriving DecidableEq, Repr

/-- The erase in progress (R133, R134): `guarded` within 2 ms of a resume. -/
structure EraseRun where
  block : Nat
  cls : Nat
  good : Nat
  suspended : Bool
  guarded : Bool
  startup : Bool
  deriving DecidableEq, Repr

/-- Write position and next entry sequence of an entry area (R141). -/
structure AreaPos where
  place : Nat
  nextSeq : Nat
  deriving DecidableEq, Repr

/-- Store controller. -/
structure Stc where
  copy : OneWay
  curBlock : Nat
  nextPlace : Nat
  nextSeq : Nat
  logPos : AreaPos
  profPos : AreaPos
  queue : List QItem
  prog : Option Prog
  erase : Option EraseRun
  startErases : List Nat
  readWait : Bool
  failCount : Nat
  fault : Bool
  periodic : Timer
  deriving DecidableEq, Repr

/-! ### Code acceptance unit, keypad, radio -/

/-- An entry of the code queue (R47). -/
structure CodeEntry where
  src : Source
  chars : List Byte
  slot : Option (Fin 16)
  deriving DecidableEq, Repr

/-- What the apply of the head entry did, kept until its commit save ends (R58, R59). -/
structure Applied where
  result : Result
  kind : Nat
  issue : Nat
  /-- the amount field of R190: CREDIT value, or the cleared and kept masks -/
  amount : Nat
  deriving DecidableEq, Repr

/-- Where a package in the CAU stands (R72, R81). -/
inductive PkgStage where
  | decoding
  | committing (result : Result) (number effTime discarded : Nat)
  deriving DecidableEq, Repr

/-- The package in the CAU (R71). -/
structure PkgRun where
  bytes : List Byte
  slot : Option (Fin 16)
  stage : PkgStage
  deriving DecidableEq, Repr

/-- Penalty state of a source (R49). -/
structure Penalty where
  count : Nat
  timer : Timer
  deriving DecidableEq, Repr

/-- Code acceptance unit. -/
structure Cau where
  queue : List CodeEntry
  applied : Option Applied
  codes : Codes
  lastPkg : Nat
  settings : Settings
  pendingPkg : Option PendingPkg
  pkg : Option PkgRun
  serial : Nat
  key : BitVec 128
  deriving DecidableEq, Repr

/-- Keypad scanner. -/
structure Kps where
  buf : List (Fin 10)
  idle : Timer
  deriving DecidableEq, Repr

/-- The recognizer of the radio line (R66, R67); the states after SYNC carry the bytes taken so far, the first
address byte first, and those after ADDRESS whether the match was with the meter's own address (R68, R163). -/
inductive Recognizer where
  | hunt (count : Nat)
  | sync
  | address (taken : List Byte)
  | kind (own : Bool) (taken : List Byte)
  | length (own : Bool) (taken : List Byte)
  | payload (own : Bool) (taken : List Byte) (left : Nat)
  | check (own : Bool) (taken : List Byte)
  deriving DecidableEq, Repr

/-- Radio line receiver. -/
structure Rlr where
  rx : Recognizer
  radioAddr : List Byte
  captureHeld : Bool
  /-- the bytes of the call held; the rest of the 64-byte area is 0 -/
  capture : List Byte
  deriving DecidableEq, Repr

/-! ### Switch controller -/

/-- A drive in progress (R88). -/
structure Drive where
  dir : Direction
  attempt : Nat
  /-- the coil pulse has ended and the settle interval runs -/
  settling : Bool
  /-- a TEST_SWITCH attempt (R100) -/
  test : Bool
  /-- the slot of the TEST_SWITCH, unless an exchange reset took it -/
  slot : Option (Fin 16)
  deriving DecidableEq, Repr

/-- Switch controller. -/
structure Swc where
  set : Reasons
  consent : Bool
  sw : SwitchState
  drive : Option Drive
  overLimit : Nat
  tripMem : Nat
  quiet : Nat
  recovery : Timer
  mark : Bool
  lastSense : PerPhase PhaseVolts
  deriving DecidableEq, Repr

/-! ### Battery domain -/

/-- The battery domain (R154). -/
structure Bat where
  clock : Nat
  clockValid : Bool
  clockSource : ClockSource
  steerDay : Nat
  steerUsed : Nat
  kinds : PerKind KindRec
  /-- debounced cover states; true is OPEN -/
  coverMain : Bool
  coverTerminal : Bool
  notes : PerKind (Option TamperEntry)
  penalties : PerSource Penalty
  eraseNote : Option Nat
  valid : Bool
  holdBegin : Option Nat
  deriving DecidableEq, Repr

/-! ### Notices -/

/-- The notices of section 10.7, with the fields that each carries. -/
inductive NoticeBody where
  | exchangeStart (kind : StartKind) (outage : BitVec 32) (found storeFault inService : Bool)
  | slotFault (slot found written : Nat)
  | markFault (mark oldest count : Nat)
  | codeResult (src : Source) (result : Result) (kind issue amount : Nat) (balance : Int)
  | emergencyResult (result : Result) (e : Nat) (balance : Int)
  | packageResult (result : Result) (number : Nat)
  | packageActivated (number effTime sub : Nat)
  | packageDiscarded (number effTime sub : Nat)
  | creditLow1 (b : Int) (l1 : Nat)
  | creditLow2 (b : Int) (l2 : Nat)
  | disconnectDeferred (b d : Int)
  | supplyChanged (sw : SwitchState) (dir : Direction) (attempts : Nat) (set : Reasons)
  | switchFault (dir : Direction) (attempts : Nat) (sense : Sense) (volts : PerPhase PhaseVolts)
  | loadTrip (tripMem power pMax : Nat)
  | lockout
  | tamperWarning (k : Kind) (counter : Nat)
  | tamperDeclared (k : Kind) (fromNote : Bool) (counter count time : Nat)
  | tamperCleared (k : Kind) (counter : Nat)
  | storeFault (operation region block place : Nat)
  | clockInvalid (time : Nat)
  deriving DecidableEq, Repr

/-- A notice of the list (R183). -/
structure Notice where
  seq : Nat
  time : Nat
  body : NoticeBody
  deriving DecidableEq, Repr

/-! ### Exchange controller -/

/-- The bytes of the exchange RAM that the host can write and the part reads back: work slots and bulk region.
Addresses strictly rising, no entry 0; an unlisted byte reads 0, as after initialization (R186). -/
abbrev Memory := List Host.Cell

/-- The requests (section 10.5). -/
inductive ReqKind where
  | applyCode
  | applyPackage
  | takeEmergency
  | setTime
  | switchOpen
  | switchRelease
  | calibrate
  | identify
  | installKey
  | commission
  | testSwitch
  | readLive
  | readProfile
  | readTamperLog
  | readEvidence
  | readCodes
  | readSettings
  deriving DecidableEq, Repr

/-- What a bulk request's take records (R179): prepared entries, or the bounds of a scan of an entry area. -/
inductive Snapshot where
  | none
  | prepared (entries : List (List Byte))
  | emptyScan
  | scan (oldest newest : Nat)
  deriving DecidableEq, Repr

/-- A taken request: its slot and the 56 parameter bytes latched at the take (R174). -/
structure Request where
  slot : Fin 16
  kind : ReqKind
  params : List Byte
  snap : Snapshot
  deriving DecidableEq, Repr

/-- A request lane (R175); `begun` says that its head is in execution and has not completed. -/
structure Lane where
  queue : List Request
  begun : Bool
  deriving DecidableEq, Repr

/-- A standing READ_LIVE (R14); `since` counts the billed periods since its last result. -/
structure Standing where
  slot : Fin 16
  totals : Bool
  every : Nat
  since : Nat
  deriving DecidableEq, Repr

/-- Which entries a scan selects (R23, R125). -/
inductive Selector where
  | profile (first last : Nat)
  | log (mask : Nat)
  deriving DecidableEq, Repr

/-- What remains of a bulk request: entries to deliver, or the scan of R181. -/
inductive BulkSource where
  | entries (rest : List (List Byte))
  | scan (area : Area) (sel : Selector) (expect place bound : Nat)
  | finished
  deriving DecidableEq, Repr

/-- The bulk request in execution (R179 to R182). -/
structure BulkRun where
  slot : Fin 16
  /-- window offset in the bulk region and its entry places -/
  offset : Nat
  room : Nat
  source : BulkSource
  filled : Nat
  skipped : Nat
  total : Nat
  /-- results 22 (skipped count) and GAP belong to the scans only (section 10.5) -/
  gaps : Bool
  /-- PAUSED: the chunk has been handed over -/
  paused : Bool
  pause : Timer
  deriving DecidableEq, Repr

/-- A WRITE transaction in progress (R168, R174): the slots' states before it, the control cells it covered, and
whether chip-select has risen with acts of the rise still to be taken. -/
structure WriteTxn where
  addr : Nat
  before : List Nat
  mark : Bool
  capture : Bool
  risen : Bool
  deriving DecidableEq, Repr

/-- The serial transaction in progress. -/
inductive Bus where
  | idle
  | reading (addr : Nat)
  | writing (t : WriteTxn)
  deriving DecidableEq, Repr

/-- The summary page as last applied (R171, section 10.4). -/
structure Summary where
  live : LiveValues
  b : Int
  cRes : Nat
  u : Nat
  d : Int
  emergency : Bool
  band : Nat
  window : Bool
  deferral : Bool
  price : Nat
  time : Nat
  clockValid : Bool
  clockSource : ClockSource
  allowance : Nat
  keys : List (Fin 10)
  set : Reasons
  sw : SwitchState
  attempt : Nat
  tripMem : Nat
  states : PerKind KindState
  counters : PerKind Nat
  freeze : Bool
  tamperRequired : Bool
  fallback : Bool
  storeFault : Bool
  erasedPlaces : Nat
  inService : Bool
  startKind : StartKind
  oldest : Nat
  count : Nat
  standing : Nat
  deriving DecidableEq, Repr

/-- Exchange controller. -/
structure Exc where
  live : Bool
  xrst : Bool
  takeCtr : Nat
  mem : Memory
  markReg : Nat
  notices : List Notice
  oldest : Nat
  overflow : Bool
  page : Summary
  image : List Notice
  code : Lane
  control : Lane
  query : Lane
  standing : List Standing
  bulk : Option BulkRun
  bus : Bus
  /-- deferred rewrites of standing requests: address and bytes, oldest first (R171) -/
  deferred : List (Nat × List Byte)
  attn : Bool
  wake : Bool
  dataOut : List Byte
  deriving DecidableEq, Repr

/-! ### Power supervisor -/

/-- A lifecycle request (R162 to R165). -/
inductive Lifecycle where
  | calibrate
  | identify
  | installKey
  | commission (time : Nat)
  deriving DecidableEq, Repr

/-- The lifecycle request in progress (R167). -/
structure LifecycleReq where
  req : Lifecycle
  slot : Option (Fin 16)
  deriving DecidableEq, Repr

/-- The start sequence in progress (R156): the step that comes next, the last step asked for, and the voltages of
the start-up confirm (log 26). -/
structure StartSeq where
  next : Nat
  upTo : Nat
  volts : PerPhase PhaseVolts
  deriving DecidableEq, Repr

/-- The modules that lose their supply in BATTERY, and reload at a start. -/
structure Modules where
  ee : Ee
  ce : Ce
  cau : Cau
  kps : Kps
  rlr : Rlr
  swc : Swc
  tmoHead : Head
  stc : Stc
  deriving DecidableEq, Repr

/-- Power supervisor. -/
structure Psv where
  power : Power
  mainsPresent : Bool
  failing : Bool
  /-- a battery is fitted and can hold the battery domain (R153) -/
  battery : Bool
  settle : Timer
  holdWait : Bool
  seq : Option StartSeq
  /-- the modules before step 1, for an abandoned start (R160) -/
  dropped : Option Modules
  inService : Bool
  startKind : StartKind
  recordFound : Bool
  req : Option LifecycleReq
  startNotices : List NoticeBody
  deriving DecidableEq, Repr

/-- The state of the block. `pending` and `free` are the model's own: the queue of commands, and the counter from
which every free value is drawn (log 1, log 5). -/
structure State extends Modules where
  bat : Bat
  flash : Flash
  psv : Psv
  exc : Exc
  pending : List Instr
  free : Nat
  deriving DecidableEq, Repr

/-- The block stops with a fault at no command: the spec names no condition that stops it, and its own faults
(store FAULT, switch FAULT, EXCHANGE_FAULT) are states and notices. Raised by nobody; safe. -/
inductive Fault where
  deriving DecidableEq, Repr

/-- Why a command has no meaning. -/
inductive Refusal where
  /-- Raised by an arm of exec whose command has no meaning yet; safe. No arm raises it now. -/
  | notModelled (mnemonic : String)
  deriving DecidableEq, Repr

/-! ### Reset -/

/-- The same value for every kind. -/
def PerKind.all {α : Type} (x : α) : PerKind α := ⟨x, x, x, x, x, x, x, x⟩

/-- Settings until a package changes them (R4, R15, R25, R94, R114; no group address). -/
def Settings.initial : Settings where
  price0 := 0
  price1 := 0
  price2 := 0
  price3 := 0
  weekday := [⟨0, 0⟩]
  weekend := [⟨0, 0⟩]
  friendlyWeekday := []
  friendlyWeekend := []
  e := 0
  o := 0
  l1 := 0
  l2 := 0
  fixed := 0
  pMax := 0
  policies :=
    { coverMain := ⟨true, true⟩, coverTerminal := ⟨false, true⟩, magnet := ⟨false, false⟩,
      reverse := ⟨false, false⟩, imbalance := ⟨false, false⟩, bypass := ⟨true, false⟩,
      noVoltage := ⟨false, false⟩, watchLost := ⟨false, true⟩ }
  metering := { separate := false, pStart := 2000, pDef := 3000000, iMin := 100, vNom := 23000 }
  groups := []
  intervalLen := 30

/-- Registers and residues with no complete record (R10). -/
def Energy.zero : Energy := ⟨0, 0, 0, 0, 0, 0⟩

/-- Nominal gains (R2). -/
def Gains.nominal : Gains := ⟨⟨20000, 20000, 20000⟩, ⟨40000, 40000, 40000⟩, ⟨16384, 16384, 16384⟩⟩

/-- Live values of a phase at a start (R12). -/
def PhaseLive.zero : PhaseLive := ⟨0, 0, 0, false, false, false, false⟩

/-- Live values at a start: the given registers and residues, all else 0 (R12). -/
def LiveValues.atStart (e : Energy) : LiveValues :=
  ⟨⟨PhaseLive.zero, PhaseLive.zero, PhaseLive.zero⟩, 0, 0, 0, e, 0⟩

/-- Flags all clear. -/
def ProfileFlags.clear : ProfileFlags := ⟨false, false, false, false, false, false, false, false⟩

/-- Money with no complete record (R45). -/
def Money.zero : Money := ⟨0, 0, 0, false, 0⟩

/-- A kind record with no complete record (R123). -/
def KindRec.quiet : KindRec := ⟨.quiet, 0, 0, none, none, none⟩

/-- The empty open-reason set. -/
def Reasons.empty : Reasons := ⟨false, false, false, false, false⟩

/-- All one-way bits clear: the factory part. -/
def OneWay.clear : OneWay := ⟨PerKind.all false, false, false⟩

/-- No penalty (R50, cold start). -/
def Penalty.zero : Penalty := ⟨0, Timer.stopped⟩

/-- Six zero bytes: the radio address with no complete record (R163). -/
def zeroAddr : List Byte := [0, 0, 0, 0, 0, 0]

/-- An empty lane. -/
def Lane.empty : Lane := ⟨[], false⟩

/-- An empty head. -/
def Head.empty : Head := ⟨0, 0, 0⟩

/-- Line voltage present and load side at 0 V on each phase (log 4). -/
def restVolts : PerPhase PhaseVolts := ⟨⟨23000, 0⟩, ⟨23000, 0⟩, ⟨23000, 0⟩⟩

/-- The array as it leaves the factory: all 36 blocks erased (R128). -/
def Flash.factory : Flash where
  records := List.replicate 16 .erased
  log := []
  profile := []
  bits := OneWay.clear
  removed := []

/-- The notices after the first start: EXCHANGE_START, then CLOCK_INVALID (R158, R45). -/
def resetNotices : List Notice :=
  [⟨1, 0, .exchangeStart .cold 0xFFFFFFFF false false false⟩, ⟨2, 0, .clockInvalid 0⟩]

/-- The open-reason set after the first start: the evaluation at entry to RUN finds B = 0 ≤ D = 0 (R35). -/
def resetSet : Reasons := { Reasons.empty with credit := true }

/-- The summary page after the first start. -/
def Summary.reset : Summary where
  live := LiveValues.atStart Energy.zero
  b := 0
  cRes := 0
  u := 0
  d := 0
  emergency := false
  band := 0
  window := false
  deferral := false
  price := 0
  time := 0
  clockValid := false
  clockSource := .none
  allowance := 900
  keys := []
  set := resetSet
  sw := .opened
  attempt := 0
  tripMem := 0
  states := PerKind.all .quiet
  counters := PerKind.all 0
  freeze := false
  tamperRequired := false
  fallback := false
  storeFault := false
  erasedPlaces := 16
  inService := false
  startKind := .cold
  oldest := 1
  count := 2
  standing := 0

/-- The block right after the factory part's first start, a cold start with no complete record, in RUN: every field
as the spec's tables "State after each start" give it (column "No complete record"); the rest as log 4 names it. -/
def State.reset : State where
  ee :=
    { gains := Gains.nominal, energy := Energy.zero, live := LiveValues.atStart Energy.zero,
      interval := some
        { start := 0, nominalEnd := 1800, imp := 0, exp := 0, fb := 0, credit := 0, maxW := 0, lastBilled := 0,
          flags := { ProfileFlags.clear with supplyOpen := true, clockInvalid := true } },
      head := Head.empty }
  ce :=
    { money := Money.zero, arm1 := true, arm2 := true, deferral := false, band := 0, window := false,
      minuteDue := false }
  cau :=
    { queue := [], applied := none, codes := ⟨[], 0⟩, lastPkg := 0, settings := Settings.initial,
      pendingPkg := none, pkg := none, serial := 0, key := 0 }
  kps := { buf := [], idle := Timer.stopped }
  rlr := { rx := .hunt 0, radioAddr := zeroAddr, captureHeld := false, capture := [] }
  swc :=
    { set := resetSet, consent := false, sw := .opened, drive := none, overLimit := 0, tripMem := 0, quiet := 0,
      recovery := Timer.stopped, mark := false, lastSense := restVolts }
  tmoHead := Head.empty
  stc :=
    { copy := OneWay.clear, curBlock := 0, nextPlace := 0, nextSeq := 1, logPos := ⟨0, 0⟩, profPos := ⟨0, 0⟩,
      queue := [], prog := none, erase := none, startErases := [], readWait := false, failCount := 0,
      fault := false, periodic := ⟨900, false⟩ }
  bat :=
    { clock := 0, clockValid := false, clockSource := .none, steerDay := 0, steerUsed := 0,
      kinds := PerKind.all KindRec.quiet, coverMain := false, coverTerminal := false, notes := PerKind.all none,
      penalties := ⟨Penalty.zero, Penalty.zero, Penalty.zero⟩, eraseNote := none, valid := true,
      holdBegin := none }
  flash := Flash.factory
  psv :=
    { power := .run, mainsPresent := true, failing := false, battery := true, settle := Timer.stopped,
      holdWait := false, seq := none, dropped := none, inService := false, startKind := .cold,
      recordFound := false, req := none, startNotices := [] }
  exc :=
    { live := true, xrst := false, takeCtr := 1, mem := [], markReg := 0, notices := resetNotices, oldest := 1,
      overflow := false, page := Summary.reset, image := resetNotices, code := Lane.empty,
      control := Lane.empty, query := Lane.empty, standing := [], bulk := none, bus := .idle, deferred := [],
      attn := true, wake := false, dataOut := [] }
  pending := []
  free := 0

end Sys2Proof.Machine
end

