-- ==== Sys2Proof/Machine/Ops.lean ====
section
/-! DEFINITION. Machine/Ops.lean: named operations over containers, bytes, memory, time, timers, slots and notices. -/

namespace Sys2Proof.Machine

open Sys2Proof

/-! ### Containers -/

/-- The value of kind k. -/
def PerKind.get {α : Type} (p : PerKind α) : Kind → α
  | .coverMain => p.coverMain
  | .coverTerminal => p.coverTerminal
  | .magnet => p.magnet
  | .reverse => p.reverse
  | .imbalance => p.imbalance
  | .bypass => p.bypass
  | .noVoltage => p.noVoltage
  | .watchLost => p.watchLost

/-- p with the value of kind k set. -/
def PerKind.set {α : Type} (p : PerKind α) (k : Kind) (x : α) : PerKind α :=
  match k with
  | .coverMain => { p with coverMain := x }
  | .coverTerminal => { p with coverTerminal := x }
  | .magnet => { p with magnet := x }
  | .reverse => { p with reverse := x }
  | .imbalance => { p with imbalance := x }
  | .bypass => { p with bypass := x }
  | .noVoltage => { p with noVoltage := x }
  | .watchLost => { p with watchLost := x }

/-- Every value through f. -/
def PerKind.map {α β : Type} (f : α → β) (p : PerKind α) : PerKind β :=
  ⟨f p.coverMain, f p.coverTerminal, f p.magnet, f p.reverse, f p.imbalance, f p.bypass, f p.noVoltage,
    f p.watchLost⟩

/-- The values in index order 0 to 7. -/
def PerKind.toList {α : Type} (p : PerKind α) : List α :=
  [p.coverMain, p.coverTerminal, p.magnet, p.reverse, p.imbalance, p.bypass, p.noVoltage, p.watchLost]

/-- The kinds in index order. -/
def kinds : List Kind :=
  [.coverMain, .coverTerminal, .magnet, .reverse, .imbalance, .bypass, .noVoltage, .watchLost]

/-- The index of a kind (section 6.1). -/
def kindIndex : Kind → Nat
  | .coverMain => 0
  | .coverTerminal => 1
  | .magnet => 2
  | .reverse => 3
  | .imbalance => 4
  | .bypass => 5
  | .noVoltage => 6
  | .watchLost => 7

/-- The value of a source. -/
def PerSource.get {α : Type} (p : PerSource α) : Source → α
  | .keypad => p.keypad
  | .radio => p.radio
  | .exchange => p.exchange

/-- p with the value of a source set. -/
def PerSource.set {α : Type} (p : PerSource α) (src : Source) (x : α) : PerSource α :=
  match src with
  | .keypad => { p with keypad := x }
  | .radio => { p with radio := x }
  | .exchange => { p with exchange := x }

/-- Every phase's value through f. -/
def mapPhase {α β : Type} (f : α → β) (p : PerPhase α) : PerPhase β := ⟨f p.a, f p.b, f p.c⟩

/-- Whether some phase's value satisfies f. -/
def anyPhase {α : Type} (f : α → Bool) (p : PerPhase α) : Bool := f p.a || f p.b || f p.c

/-- The sum over the phases. -/
def sumPhase {α : Type} (f : α → Nat) (p : PerPhase α) : Nat := f p.a + f p.b + f p.c

/-- The largest over the phases. -/
def maxPhase {α : Type} (f : α → Nat) (p : PerPhase α) : Nat := max (f p.a) (max (f p.b) (f p.c))

/-- Membership in the open-reason set (R85). -/
def hasReason (p : Reasons) : Reason → Bool
  | .credit => p.credit
  | .loadLimit => p.loadLimit
  | .lockout => p.lockout
  | .tamper => p.tamper
  | .remote => p.remote

/-- The set with a reason's membership put to x. -/
def putReason (p : Reasons) (r : Reason) (x : Bool) : Reasons :=
  match r with
  | .credit => { p with credit := x }
  | .loadLimit => { p with loadLimit := x }
  | .lockout => { p with lockout := x }
  | .tamper => { p with tamper := x }
  | .remote => { p with remote := x }

/-- Whether the set is empty. -/
def noReason (p : Reasons) : Bool := !(p.credit || p.loadLimit || p.lockout || p.tamper || p.remote)

/-- The bit of a one-way area (R129). -/
def bitOf (w : OneWay) : BitName → Bool
  | .ever k => w.ever.get k
  | .commissioned => w.commissioned
  | .keyInstalled => w.keyInstalled

/-- The one-way area with a bit set; there is no operation that clears one (R129). -/
def setBit (w : OneWay) : BitName → OneWay
  | .ever k => { w with ever := w.ever.set k true }
  | .commissioned => { w with commissioned := true }
  | .keyInstalled => { w with keyInstalled := true }

/-! ### Bytes -/

/-- n bytes of v, little-endian (R188). -/
def le : Nat → Nat → List Byte
  | 0, _ => []
  | n + 1, v => BitVec.ofNat 8 v :: le n (v / 256)

/-- A signed value in n bytes of two's complement (R188). -/
def leInt (n : Nat) (v : Int) : List Byte := le n (v % (256 ^ n : Nat)).toNat

/-- The number that little-endian bytes hold. -/
def fromLe : List Byte → Nat
  | [] => 0
  | b :: bs => b.toNat + 256 * fromLe bs

/-- A 32-bit number as a signed one. -/
def signed32 (v : Nat) : Int := if v < 2147483648 then v else (v : Int) - 4294967296

/-- A flag as a byte (R188). -/
def flagByte (x : Bool) : Byte := if x then 1 else 0

/-- A flag as a number. -/
def flagNat (x : Bool) : Nat := if x then 1 else 0

/-- n zero bytes. -/
def zeros (n : Nat) : List Byte := List.replicate n 0

/-- bs, filled up with zero bytes to n. -/
def padTo (n : Nat) (bs : List Byte) : List Byte := bs ++ zeros (n - bs.length)

/-- The n bytes of bs from offset off; missing bytes are 0. -/
def slice (bs : List Byte) (off n : Nat) : List Byte := padTo n ((bs.drop off).take n)

/-- The little-endian field of n bytes at offset off. -/
def field (bs : List Byte) (off n : Nat) : Nat := fromLe (slice bs off n)

/-! ### Memory -/

/-- The byte at address a; an unlisted byte reads 0. -/
def readByte : Memory → Nat → Byte
  | [], _ => 0
  | (k, v) :: rest, a => if k = a then v else readByte rest a

/-- The memory with byte b at address a, in canonical form. -/
def writeByte : Memory → Nat → Byte → Memory
  | [], a, b => if b = 0 then [] else [(a, b)]
  | (k, v) :: rest, a, b =>
    if a < k then (if b = 0 then (k, v) :: rest else (a, b) :: (k, v) :: rest)
    else if a = k then (if b = 0 then rest else (k, b) :: rest)
    else (k, v) :: writeByte rest a b

/-- The bytes bs written from address a upward. -/
def writeBytes (m : Memory) (a : Nat) : List Byte → Memory
  | [] => m
  | b :: bs => writeBytes (writeByte m a b) (a + 1) bs

/-- The n bytes from address a upward. -/
def readBytes (m : Memory) (a : Nat) : Nat → List Byte
  | 0 => []
  | n + 1 => readByte m a :: readBytes m (a + 1) n

/-- The canonical form from a lower bound on: addresses strictly rising, no entry 0. -/
def wfFrom (lo : Nat) : Memory → Bool
  | [] => true
  | (k, v) :: rest => decide (lo ≤ k) && v != 0 && wfFrom (k + 1) rest

/-- The canonical form of the memory. -/
def Memory.wf (m : Memory) : Bool := wfFrom 0 m

/-! ### Meter time (00, Conventions) -/

/-- The clock's modulus, 2^32 (R38). -/
def timeSpan : Nat := 4294967296

/-- The local day number of a meter time. -/
def dayOf (t : Nat) : Nat := t / 86400

/-- The minute of day. -/
def minuteOf (t : Nat) : Nat := t % 86400 / 60

/-- Saturday or Sunday; day 0 is a Saturday. -/
def isWeekend (t : Nat) : Bool := decide (dayOf t % 7 < 2)

/-! ### Timers -/

/-- A timer started at n seconds. -/
def startTimer (n : Nat) : Timer := ⟨n, false⟩

/-- One second of a running timer: at its last second the timer becomes due and waits for its expiry event. -/
def tickTimer (t : Timer) : Timer :=
  if t.left = 0 then t else if t.left = 1 then ⟨1, true⟩ else ⟨t.left - 1, t.due⟩

/-! ### Slots -/

/-- Address of slot i (R170). -/
def slotAddr (i : Fin 16) : Nat := 512 + 64 * i.val

/-- Slot states (section 9.3). -/
def FREE : Nat := 0
def POSTED : Nat := 1
def TAKEN : Nat := 2
def PAUSED : Nat := 3
def DONE : Nat := 4
def CANCEL : Nat := 5

/-- The state byte of slot i. -/
def slotState (m : Memory) (i : Fin 16) : Nat := (readByte m (slotAddr i)).toNat

/-- The state bytes of the 16 slots. -/
def slotStates (m : Memory) : List Nat := (List.finRange 16).map (slotState m)

/-- Whether some slot is DONE or PAUSED (R169, R185). -/
def slotsReady (m : Memory) : Bool := (slotStates m).any (fun x => x == DONE || x == PAUSED)

/-- The memory with the state byte of slot i put to v. -/
def putState (m : Memory) (i : Fin 16) (v : Nat) : Memory := writeByte m (slotAddr i) (BitVec.ofNat 8 v)

/-- Fields of a slot written in order, each at its offset. -/
def putFields (m : Memory) (i : Fin 16) : List (Nat × List Byte) → Memory
  | [] => m
  | (off, bs) :: rest => putFields (writeBytes m (slotAddr i + off) bs) i rest

/-- The code of an outcome (section 10.5). -/
def resultCode : Result → Nat
  | .ok => 0
  | .accepted => 1
  | .partly => 2
  | .pending => 3
  | .badRequest => 4
  | .noRoom => 5
  | .cancelled => 6
  | .timeout => 7
  | .notNow => 8
  | .busy => 9
  | .blocked => 10
  | .notCommissioned => 11
  | .badFormat => 12
  | .badCheck => 13
  | .badKind => 14
  | .old => 15
  | .used => 16
  | .bitFailed => 17
  | .storeFault => 18
  | .wrongMeter => 19
  | .badValue => 20
  | .notOffered => 21
  | .already => 22
  | .notYet => 23
  | .frozen => 24
  | .overLimit => 25

/-- Outcome, flags and count of a slot, then the named results (R175). -/
def resultFields (r : Result) (flags count : Nat) (results : List (Nat × List Byte)) : List (Nat × List Byte) :=
  (4, [BitVec.ofNat 8 (resultCode r)]) :: (5, [BitVec.ofNat 8 flags]) :: (6, le 2 count) :: results

/-- A slot is completed: outcome, flags, count and results, then DONE; ATTN rises (R175, R185). -/
def Exc.complete (i : Fin 16) (r : Result) (flags count : Nat) (results : List (Nat × List Byte)) (x : Exc) : Exc :=
  { x with mem := putState (putFields x.mem i (resultFields r flags count results)) i DONE, attn := true }

/-- A slot is completed. -/
def complete (i : Fin 16) (r : Result) (flags count : Nat) (results : List (Nat × List Byte)) (s : State) : State :=
  { s with exc := s.exc.complete i r flags count results }

/-- The head leaves a lane. -/
def Lane.pop (l : Lane) : Lane := ⟨l.queue.tail, false⟩

/-- The head of the CODE lane leaves it. -/
def popCode (s : State) : State := { s with exc := { s.exc with code := s.exc.code.pop } }

/-- The head of the CONTROL lane leaves it. -/
def popControl (s : State) : State := { s with exc := { s.exc with control := s.exc.control.pop } }

/-- The head of the QUERY lane leaves it, and the bulk request with it. -/
def popQuery (s : State) : State := { s with exc := { s.exc with query := s.exc.query.pop, bulk := none } }

/-! ### Notices -/

/-- A notice is posted at meter time t (R183): it joins the list, is lost with OVERFLOW when the list is full, and
is discarded when the exchange is not live. -/
def Exc.post (t : Nat) (body : NoticeBody) (x : Exc) : Exc :=
  if x.live then
    if x.notices.length < 32 then
      { x with notices := x.notices ++ [⟨(x.oldest + x.notices.length) % 65536, t, body⟩], attn := true }
    else { x with overflow := true }
  else x

/-- A module posts a notice. -/
def post (body : NoticeBody) (s : State) : State := { s with exc := s.exc.post s.bat.clock body }

/-- A notice kept for the moment the exchange is live or RUN is entered (R111, R147). -/
def keepNotice (body : NoticeBody) (s : State) : State :=
  { s with psv := { s.psv with startNotices := s.psv.startNotices ++ [body] } }

/-- Notices posted one after another. -/
def postAll (bodies : List NoticeBody) (s : State) : State := bodies.foldl (fun t b => post b t) s

/-! ### Free values -/

/-- The free counter advances past the free values that a step has drawn (log 5). -/
def drawFree (s : State) : State := { s with free := s.free + 1 }

end Sys2Proof.Machine
end

