-- ==== Sys2Proof/Machine/Flags.lean ====
section
/-! DEFINITION. Machine/Flags.lean: every flag, status and condition that the modules derive from the state. -/

namespace Sys2Proof.Machine

open Sys2Proof

/-! ### Switch -/

/-- The wanted state is CLOSED when the set is empty and the consent flag is set, else OPEN (R86). -/
def wantsClosed (w : Swc) : Bool := noReason w.set && w.consent

/-- The direction that leads to the wanted state. -/
def wantedDir (w : Swc) : Direction := if wantsClosed w then .toClose else .toOpen

/-- The switch is held open (R98). -/
def heldOpen (inService : Bool) (w : Swc) : Bool :=
  match w.sw with
  | .opened => true
  | .ready => true
  | .fault => inService && !wantsClosed w
  | _ => false

/-- A phase's line voltage is present at 40 V or more (R89). -/
def linePresent (v : PhaseVolts) : Bool := decide (4000 ≤ v.line)

/-- Result of a load-side sense (R89). -/
def senseOf (p : PerPhase PhaseVolts) : Sense :=
  if !anyPhase (fun v => decide (4000 ≤ v.load)) p then .sensedOpen
  else if anyPhase linePresent p && !anyPhase (fun v => linePresent v && decide (v.load ≤ 4000)) p then .sensedClosed
  else .sensedMixed

/-- The sense matches a direction (R90); SENSED_MIXED matches neither. -/
def senseMatches (r : Sense) (d : Direction) : Bool :=
  match r, d with
  | .sensedOpen, .toOpen => true
  | .sensedClosed, .toClose => true
  | _, _ => false

/-- A drive may begin: in RUN, or in a start sequence after the start-up confirm (R87, R103, R104). -/
def mayDrive (p : Psv) : Bool :=
  match p.power, p.seq with
  | .run, _ => true
  | .battery, some q => decide (8 ≤ q.next)
  | _, _ => false

/-! ### Tamper -/

/-- Kind k is DECLARED. -/
def isDeclared (s : State) (k : Kind) : Bool := (s.bat.kinds.get k).state == .declared

/-- Some kind is DECLARED (R17). -/
def anyDeclared (s : State) : Bool := kinds.any (isDeclared s)

/-- The TAMPER reason is required (R114). -/
def tamperRequired (s : State) : Bool :=
  s.psv.inService && kinds.any (fun k => isDeclared s k && (s.cau.settings.policies.get k).opens)

/-- Freeze is in force (R115). -/
def freezeInForce (s : State) : Bool :=
  s.psv.inService && kinds.any (fun k => isDeclared s k && (s.cau.settings.policies.get k).freezes)

/-- The magnet fallback is in force while MAGNET is in WARNING or DECLARED (R117). -/
def fallbackInForce (s : State) : Bool := s.bat.kinds.magnet.state != .quiet

/-- From the beginning of HOLD until the tamper state is loaded at step 2 (R122). -/
def outageSpan (p : Psv) : Bool :=
  match p.power, p.seq with
  | .hold, _ => true
  | .battery, none => true
  | .battery, some q => decide (q.next ≤ 2)
  | _, _ => false

/-! ### Money and time -/

/-- The disconnect limit D: 0, or −E while the emergency state is ACTIVE (R35). -/
def creditLimit (s : State) : Int := if s.ce.money.emergency then -(s.cau.settings.e : Int) else 0

/-- The price of a band. -/
def priceOf (c : Settings) (band : Nat) : Nat :=
  match band with
  | 0 => c.price0
  | 1 => c.price1
  | 2 => c.price2
  | _ => c.price3

/-- The band of the last point at or before a minute of day. -/
def bandIn : List SwitchPoint → Nat → Nat → Nat
  | [], _, band => band
  | p :: rest, m, band => if p.minute ≤ m then bandIn rest m p.band else band

/-- The band in force at meter time t (R28). -/
def bandAt (s : State) (t : Nat) : Nat :=
  if s.bat.clockValid then
    bandIn (if isWeekend t then s.cau.settings.weekend else s.cau.settings.weekday) (minuteOf t) 0
  else 0

/-- The friendly-window status at meter time t (R36). -/
def windowAt (s : State) (t : Nat) : Bool :=
  s.bat.clockValid &&
    (if isWeekend t then s.cau.settings.friendlyWeekend else s.cau.settings.friendlyWeekday).any
      (fun w => decide (w.first ≤ minuteOf t ∧ minuteOf t < w.stop))

/-! ### Store -/

/-- The record places of save block b (R128). -/
def blockRecords (records : List RecordPlace) (b : Nat) : List RecordPlace := (records.drop (8 * b)).take 8

/-- Save block b is fully erased. -/
def saveBlockErased (records : List RecordPlace) (b : Nat) : Bool :=
  (blockRecords records b).all (fun p => p == .erased)

/-- The erased places of the save area (R138). -/
def erasedPlaces (t : Stc) (f : Flash) : Nat :=
  (8 - t.nextPlace) + (if saveBlockErased f.records (1 - t.curBlock) then 8 else 0)

/-! ### Exchange -/

/-- A READ transaction is in progress (R171). -/
def isReading (x : Exc) : Bool :=
  match x.bus with
  | .reading _ => true
  | _ => false

/-- The level of ATTN (R185). -/
def attnLevel (x : Exc) : Bool := !x.notices.isEmpty || slotsReady x.mem

/-- ATTN is recomputed (R185). -/
def Exc.recomputeAttn (x : Exc) : Exc := { x with attn := attnLevel x }

/-- The serial port is powered: in RUN and HOLD, and from step 8 of a start sequence (R150, R168). -/
def portPowered (p : Psv) : Bool :=
  match p.power, p.seq with
  | .run, _ => true
  | .hold, _ => true
  | .battery, some q => decide (9 ≤ q.next)
  | _, _ => false

/-- READ and WRITE are acted on: the exchange is live, XRST is deasserted, and the port is powered (R170). -/
def portActs (s : State) : Bool := portPowered s.psv && s.exc.live && !s.exc.xrst

/-- The status byte (R169): LIVE, NOTICES, SLOTS_READY, OVERFLOW, CAPTURE, STORE_FAULT, UNCOMMISSIONED, HOLD in
bits 0 to 7 (section 10.2). -/
def statusByte (s : State) : Byte :=
  BitVec.ofNat 8
    (flagNat s.exc.live + 2 * flagNat (!s.exc.notices.isEmpty) + 4 * flagNat (slotsReady s.exc.mem) +
      8 * flagNat s.exc.overflow + 16 * flagNat s.rlr.captureHeld + 32 * flagNat s.stc.fault +
      64 * flagNat (!s.psv.inService) + 128 * flagNat (s.psv.power == .hold))

/-- The remaining steer allowance (R39). -/
def allowanceLeft (b : Bat) : Nat := 900 - b.steerUsed

/-- The drive attempt count shown: 0 while no drive is in progress (R88; log 21). -/
def attemptShown (w : Swc) : Nat :=
  match w.drive with
  | some d => d.attempt
  | none => 0

/-- What the summary page shows of the state (R171). -/
def summaryOf (s : State) : Summary where
  live := s.ee.live
  b := s.ce.money.b
  cRes := s.ce.money.cRes
  u := s.ce.money.u
  d := creditLimit s
  emergency := s.ce.money.emergency
  band := s.ce.band
  window := s.ce.window
  deferral := s.ce.deferral
  price := priceOf s.cau.settings s.ce.band
  time := s.bat.clock
  clockValid := s.bat.clockValid
  clockSource := s.bat.clockSource
  allowance := allowanceLeft s.bat
  keys := s.kps.buf
  set := s.swc.set
  sw := s.swc.sw
  attempt := attemptShown s.swc
  tripMem := s.swc.tripMem
  states := s.bat.kinds.map (fun k => k.state)
  counters := s.bat.kinds.map (fun k => k.counter)
  freeze := freezeInForce s
  tamperRequired := tamperRequired s
  fallback := fallbackInForce s
  storeFault := s.stc.fault
  erasedPlaces := erasedPlaces s.stc s.flash
  inService := s.psv.inService
  startKind := s.psv.startKind
  oldest := s.exc.oldest
  count := s.exc.notices.length
  standing := s.exc.standing.length

/-- The summary page and the notice image are brought up to date, unless a READ transaction defers it (R171, R183);
done at the end of every command that changes state (log 11). -/
def refresh (s : State) : State :=
  if s.exc.live && !isReading s.exc then
    { s with exc := { s.exc with page := summaryOf s, image := s.exc.notices } }
  else s

/-- A command's effect is complete: the next state, with the exchange's pictures brought up to date. -/
def done (s : State) : Host.Outcome State Fault Refusal := .next (refresh s)

end Sys2Proof.Machine
end

