-- ==== Sys2Proof/Machine/Layouts.lean ====
section
/-! DEFINITION. Machine/Layouts.lean: the byte layouts of chapter 10 that the part writes: summary page, notices, stored
entries, bulk entries, sections. -/

namespace Sys2Proof.Machine

open Sys2Proof

/-! ### Value codes (section 10.3) -/

/-- Code of a switch state. -/
def switchCode : SwitchState → Nat
  | .unknown => 0
  | .opened => 1
  | .ready => 2
  | .closing => 3
  | .closed => 4
  | .opening => 5
  | .fault => 6

/-- Code of a kind state. -/
def kindStateCode : KindState → Nat
  | .quiet => 0
  | .warning => 1
  | .declared => 2

/-- Code of a clock source. -/
def clockSourceCode : ClockSource → Nat
  | .none => 0
  | .hostSet => 1
  | .authenticated => 2

/-- Code of a start kind. -/
def startKindCode : StartKind → Nat
  | .warm => 0
  | .cold => 1
  | .xrst => 2

/-- Code of a sense result. -/
def senseCode : Sense → Nat
  | .sensedOpen => 0
  | .sensedClosed => 1
  | .sensedMixed => 2

/-- Code of a power state. -/
def powerCode : Power → Nat
  | .off => 0
  | .battery => 1
  | .run => 2
  | .hold => 3

/-- Code of a tamper log event. -/
def logEventCode : LogEvent → Nat
  | .warningBegin => 0
  | .warningEnd => 1
  | .declared => 2
  | .cleared => 3
  | .clearRefused => 4

/-- Code of a code source. -/
def sourceCode : Source → Nat
  | .keypad => 0
  | .radio => 1
  | .exchange => 2

/-- Code of a direction, 0 OPEN or 1 CLOSE. -/
def dirCode : Direction → Nat
  | .toOpen => 0
  | .toClose => 1

/-- The open-reason set as a byte's value. -/
def setCode (p : Reasons) : Nat :=
  flagNat p.credit + 2 * flagNat p.loadLimit + 4 * flagNat p.lockout + 8 * flagNat p.tamper + 16 * flagNat p.remote

/-- The per-phase flags as a byte's value. -/
def phaseFlagCode (p : PhaseLive) : Nat :=
  flagNat p.overrange + 2 * flagNat p.noVoltage + 4 * flagNat p.creep + 8 * flagNat p.reverse

/-- The phase sense byte: bit 0 line voltage present, bits 1–2 the load side against 40 V. -/
def phaseSenseCode (v : PhaseVolts) : Nat :=
  flagNat (linePresent v) + 2 * (if v.load < 4000 then 0 else if v.load = 4000 then 1 else 2)

/-- Code of a policy. -/
def policyCode (p : Policy) : Nat := flagNat p.opens + 2 * flagNat p.freezes

/-- One byte of a value. -/
def byte (v : Nat) : Byte := BitVec.ofNat 8 v

/-! ### Summary page (section 10.4) -/

/-- The 16-byte block of a phase: V_p, I_p, P_p, flags, three bytes 0. -/
def phaseBlock (p : PhaseLive) : List Byte := le 4 p.v ++ le 4 p.i ++ leInt 4 p.p ++ [byte (phaseFlagCode p), 0, 0, 0]

/-- The 256 bytes of the summary page. -/
def pageBytes (p : Summary) : List Byte :=
  padTo 256 (
    le 4 p.live.endTime ++ phaseBlock p.live.phases.a ++ phaseBlock p.live.phases.b ++ phaseBlock p.live.phases.c ++
    le 4 p.live.iRes ++ le 4 p.live.tPrime ++ le 4 p.live.x ++
    le 8 p.live.energy.imp ++ le 8 p.live.energy.exp ++ le 8 p.live.energy.fb ++
    le 2 p.live.energy.rImp ++ le 2 p.live.energy.rExp ++ le 2 p.live.energy.rFb ++ [0, 0] ++
    leInt 4 p.b ++ le 4 p.cRes ++ le 4 p.u ++ leInt 4 p.d ++
    [flagByte p.emergency, byte p.band, flagByte p.window, flagByte p.deferral] ++
    le 4 p.price ++ le 4 p.time ++ [flagByte p.clockValid, byte (clockSourceCode p.clockSource)] ++ le 2 p.allowance ++
    byte p.keys.length :: slice (p.keys.map (fun d => byte (48 + d.val))) 0 18 ++ [0] ++
    [byte (setCode p.set), byte (switchCode p.sw), byte p.attempt, byte p.tripMem] ++
    p.states.toList.map (fun k => byte (kindStateCode k)) ++ p.counters.toList.map byte ++
    [byte (flagNat p.freeze + 2 * flagNat p.tamperRequired + 4 * flagNat p.fallback)] ++
    [flagByte p.storeFault, byte p.erasedPlaces, flagByte p.inService, byte (startKindCode p.startKind), 0] ++
    le 2 p.oldest ++ [byte p.count, byte p.standing])

/-! ### Notices (section 10.7) -/

/-- A distance of 0..254 as it is, else 255 (R189). -/
def distanceByte (d : Nat) : Nat := if d < 255 then d else 255

/-- The result number of a code's CODE_RESULT (R190). -/
def codeResultNumber (r : Result) (kind : Nat) : Nat :=
  match r with
  | .notCommissioned => 0
  | .badFormat => 1
  | .badCheck => 2
  | .busy => 3
  | .blocked => 4
  | .frozen => 5
  | .overLimit => 6
  | .partly => 7
  | .old => 8 + kind
  | .used => 11 + kind
  | .storeFault => 14 + kind
  | .accepted => 17 + kind
  | .badKind => 20 + kind
  | _ => 0

/-- The result number of an emergency request (R190). -/
def emergencyNumber : Result → Nat
  | .notCommissioned => 36
  | .notOffered => 37
  | .already => 38
  | .notYet => 39
  | .frozen => 40
  | _ => 41

/-- The result number of a package (R190). -/
def packageNumber : Result → Nat
  | .notCommissioned => 42
  | .badFormat => 43
  | .badCheck => 44
  | .wrongMeter => 45
  | .old => 46
  | .badValue => 47
  | .storeFault => 48
  | .accepted => 49
  | _ => 50

/-- Kind byte, sub byte and detail of a code or emergency result (R190). -/
def codeResultBytes (src result issue amount : Nat) (balance : Int) : Nat × Nat × List Byte :=
  let field := (balance + 2000000).toNat
  (3 + 32 * (field / 16777216 % 8), src + 4 * result,
    le 8 (issue % 65536 + 65536 * (amount % 16777216) + 1099511627776 * (field % 16777216)))

/-- Kind byte, sub byte and detail of a notice (section 10.7, R189, R190). -/
def noticeParts : NoticeBody → Nat × Nat × List Byte
  | .exchangeStart k out found fault inService =>
    (1, startKindCode k, le 4 out.toNat ++ [flagByte found, flagByte fault, flagByte inService, 0])
  | .slotFault slot found written => (2, 0, padTo 8 [byte slot, byte found, byte written])
  | .markFault m oldest count => (2, 1, padTo 8 (le 2 m ++ le 2 oldest ++ [byte count]))
  | .codeResult src r kind issue amount b => codeResultBytes (sourceCode src) (codeResultNumber r kind) issue amount b
  | .emergencyResult r e b => codeResultBytes (sourceCode .keypad) (emergencyNumber r) 0 e b
  | .packageResult r n => (3, sourceCode .exchange + 4 * packageNumber r, padTo 8 (le 4 n))
  | .packageActivated n eff sub => (4, sub, le 4 n ++ le 4 eff)
  | .packageDiscarded n eff sub => (5, sub, le 4 n ++ le 4 eff)
  | .creditLow1 b l => (6, 0, leInt 4 b ++ le 4 l)
  | .creditLow2 b l => (7, 0, leInt 4 b ++ le 4 l)
  | .disconnectDeferred b d => (8, 0, leInt 4 b ++ leInt 4 d)
  | .supplyChanged sw dir n set => (9, switchCode sw, padTo 8 [byte (dirCode dir), byte n, byte (setCode set)])
  | .switchFault dir n r v =>
    (10, dirCode dir, padTo 8 [byte n, byte (senseCode r), byte (phaseSenseCode v.a), byte (phaseSenseCode v.b),
      byte (phaseSenseCode v.c)])
  | .loadTrip mem power pMax => (11, mem, le 4 power ++ le 4 pMax)
  | .lockout => (12, 0, zeros 8)
  | .tamperWarning k c => (13, kindIndex k, padTo 8 [byte c])
  | .tamperDeclared k note c count t =>
    (14, kindIndex k + 128 * flagNat note, [byte c, 0] ++ le 2 count ++ le 4 t)
  | .tamperCleared k c => (15, kindIndex k, padTo 8 [byte c])
  | .storeFault op region block place => (16, 0, padTo 8 [byte op, byte region, byte block, byte place])
  | .clockInvalid t => (17, 0, padTo 8 (le 4 t))

/-- The 16 bytes of a notice (section 10.7). -/
def noticeBytes (n : Notice) : List Byte :=
  let p := noticeParts n.body
  le 2 n.seq ++ [byte p.1, byte p.2.1] ++ le 4 n.time ++ p.2.2

/-- The 16 bytes at position j of the notice list image: the notice whose sequence is j modulo 32, or 0 (R183). -/
def imagePosition (l : List Notice) (j : Nat) : List Byte :=
  match l.find? (fun n => n.seq % 32 == j) with
  | some n => noticeBytes n
  | none => zeros 16

/-! ### Stored entries (section 10.9, R191) -/

/-- The profile flags as a byte's value. -/
def profileFlagCode (f : ProfileFlags) : Nat :=
  flagNat f.supplyOpen + 2 * flagNat f.tamper + 4 * flagNat f.powerOut + 8 * flagNat f.clockInvalid +
    16 * flagNat f.timeSteered + 32 * flagNat f.short + 64 * flagNat f.saturated + 128 * flagNat f.overrange

/-- An accumulator of mWh in its 4-byte field: a number above the field's range, for which R191 states no bytes, leaves
free bytes (log 63). -/
def energyField (n : Nat) : List Byte :=
  le 4 (if n ≤ 4294967295 then n else (Config.freeEnergyField n).toNat)

/-- The 29 bytes of an entry before its check. -/
def entryBody : Entry → List Byte
  | .log e =>
    padTo 29 (le 4 e.time ++
      [byte (kindIndex e.kind), byte (logEventCode e.event), byte (powerCode e.power), byte (switchCode e.switch)] ++
      leInt 4 e.balance ++ [byte e.counter])
  | .profile e =>
    le 4 e.endTime ++ energyField e.imp ++ energyField e.exp ++ energyField e.fb ++
      le 4 (min e.credit 4294967295) ++ leInt 4 e.balance ++ le 3 e.maxW ++
      [byte e.length, byte (profileFlagCode e.flags)]

/-- The sum of bytes modulo 256. -/
def byteSum (bs : List Byte) : Nat := bs.foldl (fun a b => (a + b.toNat) % 256) 0

/-- The 32 bytes that PROGRAM_ENTRY writes: the entry, the check that makes the sum 0x5A, the sequence (R191). -/
def entryBytes (e : Entry) (seq : Nat) : List Byte :=
  let body := entryBody e
  let tail := le 2 seq
  body ++ byte (256 + 90 - (byteSum body + byteSum tail) % 256) :: tail

/-! ### Sections (section 10.8) -/

/-- A number as the policy kinds' bytes. -/
def policyBytes (p : PerKind Nat) : List Byte := p.toList.map byte

/-- Type and body of a section. -/
def sectionParts : Section → Nat × List Byte
  | .bandPrices a b c d => (1, le 4 a ++ le 4 b ++ le 4 c ++ le 4 d)
  | .daySchedule w ps =>
    (2, flagByte w :: byte ps.length :: ps.flatMap (fun p => le 2 p.minute ++ [byte p.band]))
  | .friendly w ws => (3, flagByte w :: byte ws.length :: ws.flatMap (fun x => le 2 x.first ++ le 2 x.stop))
  | .emergency e o => (4, le 4 e ++ le 4 o)
  | .thresholds a b => (5, le 4 a ++ le 4 b)
  | .fixedCharge f => (6, le 4 f)
  | .loadLimit p => (7, le 4 p)
  | .tamperPolicy p => (8, policyBytes p)
  | .metering r a b c d => (9, byte r :: le 4 a ++ le 4 b ++ le 2 c ++ le 2 d)
  | .groupAddresses l => (10, byte l.length :: l.flatten)
  | .profileInterval n => (11, [byte n])
  | .clock t => (12, le 4 t)

/-- The 32-byte READ_SETTINGS entry of a section: marker, type, body length, body (section 10.6). -/
def sectionEntry (marker : Nat) (x : Section) : List Byte :=
  let p := sectionParts x
  padTo 32 (byte marker :: byte p.1 :: byte p.2.length :: p.2)

/-- The active settings as the thirteen sections of READ_SETTINGS (R84). -/
def activeSections (c : Settings) : List Section :=
  [.bandPrices c.price0 c.price1 c.price2 c.price3, .daySchedule false c.weekday, .daySchedule true c.weekend,
    .friendly false c.friendlyWeekday, .friendly true c.friendlyWeekend, .emergency c.e c.o,
    .thresholds c.l1 c.l2, .fixedCharge c.fixed, .loadLimit c.pMax, .tamperPolicy (c.policies.map policyCode),
    .metering (flagNat c.metering.separate) c.metering.pStart c.metering.pDef c.metering.iMin c.metering.vNom,
    .groupAddresses c.groups, .profileInterval c.intervalLen]

/-- The entries of READ_SETTINGS (R84, section 10.6). -/
def settingsEntries (c : Cau) : List (List Byte) :=
  let summary := match c.pendingPkg with
    | some p => padTo 32 (zeros 4 ++ le 4 c.lastPkg ++ [1, 0, 0, 0] ++ le 4 p.number ++ le 4 p.effTime ++
        [byte p.sections.length])
    | none => padTo 32 (zeros 4 ++ le 4 c.lastPkg)
  let held := match c.pendingPkg with
    | some p => p.sections.map (sectionEntry 2)
    | none => []
  summary :: (activeSections c.settings).map (sectionEntry 1) ++ held

/-- A penalty in a READ_CODES summary. -/
def penaltyBytes (p : Penalty) : List Byte := [byte p.count, 0] ++ le 2 p.timer.left

/-- The entries of READ_CODES (R70, section 10.6). -/
def codesEntries (c : Cau) (pen : PerSource Penalty) : List (List Byte) :=
  let issues := fun (l : List Nat) => padTo 32 (l.flatMap (le 2))
  let rows := if c.codes.table.isEmpty then []
    else if c.codes.table.length ≤ 16 then [issues c.codes.table]
    else [issues (c.codes.table.take 16), issues (c.codes.table.drop 16)]
  padTo 32 (le 2 c.codes.floor ++ [byte c.codes.table.length, 0] ++ le 4 c.lastPkg ++ penaltyBytes pen.keypad ++
    penaltyBytes pen.radio ++ penaltyBytes pen.exchange) :: rows

end Sys2Proof.Machine
end

