-- ==== Sys2Proof/Machine/Store.lean ====
section
/-! DEFINITION. Machine/Store.lean: the store controller's array, record image, operation queue and arbiter (chapter 07). -/

namespace Sys2Proof.Machine

open Sys2Proof

/-! ### Entry areas (R128, R141) -/

/-- Places in an entry area. -/
def areaSize : Area → Nat
  | .log => 256
  | .profile => 4096

/-- First block of an entry area. -/
def areaFirst : Area → Nat
  | .log => 2
  | .profile => 4

/-- The area that an entry belongs to. -/
def areaOf : Entry → Area
  | .log _ => .log
  | .profile _ => .profile

/-- The area of an entry block. -/
def blockArea (block : Nat) : Area := if block < 4 then .log else .profile

/-- The block that holds a place of an area. -/
def placeBlock (a : Area) (place : Nat) : Nat := areaFirst a + place / 128

/-- The places of an area that are not erased. -/
def placesOf (f : Flash) : Area → Places
  | .log => f.log
  | .profile => f.profile

/-- The array with the places of an area replaced. -/
def putPlaces (f : Flash) (a : Area) (p : Places) : Flash :=
  match a with
  | .log => { f with log := p }
  | .profile => { f with profile := p }

/-- Write position and next sequence of an area. -/
def posOf (t : Stc) : Area → AreaPos
  | .log => t.logPos
  | .profile => t.profPos

/-- The store controller with the position of an area replaced. -/
def putPos (t : Stc) (a : Area) (p : AreaPos) : Stc :=
  match a with
  | .log => { t with logPos := p }
  | .profile => { t with profPos := p }

/-- What a place that is not erased holds. -/
def placeAt : Places → Nat → Option PlaceData
  | [], _ => none
  | (k, v) :: rest, n => if k = n then some v else placeAt rest n

/-- The places with one more place not erased, rising. -/
def putPlace : Places → Nat → PlaceData → Places
  | [], n, d => [(n, d)]
  | (k, v) :: rest, n, d =>
    if n < k then (n, d) :: (k, v) :: rest else if n = k then (n, d) :: rest else (k, v) :: putPlace rest n d

/-- The places with the block of 128 places number rel erased. -/
def clearBlock (p : Places) (rel : Nat) : Places := p.filter (fun x => x.1 / 128 != rel)

/-- The condition of a place, and the content of a good one (R128, R191). -/
inductive PlaceCond where
  | erased
  | damaged
  | good (seq : Nat) (bytes : List Byte)
  deriving DecidableEq, Repr

/-- A stored place is erased when all its bytes are 0xFF, good when they sum to 0x5A, else damaged (R191). -/
def judge : Option PlaceData → PlaceCond
  | none => .erased
  | some .damaged => .damaged
  | some (.bytes bs) =>
    if bs.all (fun b => b == 0xFF) then .erased
    else if byteSum bs = 90 then .good (field bs 30 2) bs else .damaged

/-- A place holds a good entry. -/
def isGood (d : PlaceData) : Bool :=
  match judge (some d) with
  | .good _ _ => true
  | _ => false

/-- Good entries in the block of 128 places number rel. -/
def goodInBlock (p : Places) (rel : Nat) : Nat := (p.filter (fun x => x.1 / 128 == rel && isGood x.2)).length

/-- The block of 128 places number rel is fully erased. -/
def entryBlockErased (p : Places) (rel : Nat) : Bool := p.all (fun x => x.1 / 128 != rel || judge (some x.2) == .erased)

/-- An area is full: its write position is at place 0 of a block that is not fully erased (R142). -/
def areaFull (f : Flash) (t : Stc) (a : Area) : Bool :=
  let n := (posOf t a).place
  n % 128 == 0 && !entryBlockErased (placesOf f a) (n / 128)

/-- The place that follows in circular order (R141). -/
def nextPlaceIn (a : Area) (n : Nat) : Nat := (n + 1) % areaSize a

/-- The good entries of a block that is about to be erased; save blocks have none to report. -/
def goodInEraseBlock (f : Flash) (block : Nat) : Nat :=
  if block < 2 then 0 else goodInBlock (placesOf f (blockArea block)) (block - areaFirst (blockArea block))

/-! ### Save records (R136, R147) -/

/-- Sequence a is later than b, compared modulo m (R136, R141). -/
def laterSeq (m a b : Nat) : Bool := a != b && decide ((a + m - b % m) % m < m / 2)

/-- The newest complete record and its place (R147). -/
def newestFrom : List RecordPlace → Nat → Option (Nat × SaveRecord) → Option (Nat × SaveRecord)
  | [], _, best => best
  | .good r :: rest, n, best =>
    newestFrom rest (n + 1)
      (match best with
        | some (m, b) => if laterSeq timeSpan r.seq b.seq then some (n, r) else some (m, b)
        | none => some (n, r))
  | _ :: rest, n, best => newestFrom rest (n + 1) best

/-- The newest complete record of the save area. -/
def newestRecord (records : List RecordPlace) : Option (Nat × SaveRecord) := newestFrom records 0 none

/-- The first erased place of save block b at or after place n, or 8 (R147). -/
def firstErased (records : List RecordPlace) (b : Nat) : Nat → Nat → Nat
  | 0, _ => 8
  | fuel + 1, n =>
    if n < 8 then (if records.getD (8 * b + n) .damaged == .erased then n else firstErased records b fuel (n + 1)) else 8

/-- The block whose erase is suspended (R136). -/
def suspendedBlock (t : Stc) : Option Nat :=
  match t.erase with
  | some e => if e.suspended then some e.block else none
  | none => none

/-- The record image formed from the modules' state (R136). -/
def imageOf (s : State) : SaveRecord where
  seq := s.stc.nextSeq
  energy := s.ee.energy
  money := s.ce.money
  codes := s.cau.codes
  lastPkg := s.cau.lastPkg
  settings := s.cau.settings
  pendingPkg := s.cau.pendingPkg
  kinds := s.bat.kinds
  set := s.swc.set
  consent := s.swc.consent
  tripMem := s.swc.tripMem
  time := s.bat.clock
  gains := s.ee.gains
  serial := s.cau.serial
  radioAddr := s.rlr.radioAddr
  key := s.cau.key
  interval := s.ee.interval
  suspendedErase := suspendedBlock s.stc

/-! ### The operation queue and the arbiter (R131, R132, R139, R140) -/

/-- Class of a save (R137). -/
def saveClass : SaveKind → Nat
  | .powerFail => 1
  | .code | .emergency | .package | .activation | .lifecycle => 2
  | .tamper => 4
  | .periodic => 6

/-- Class of a waiting operation; a retry comes before every class (R131, R143). -/
def rank (q : QItem) : Nat :=
  if q.retry then 0
  else match q.op with
    | .save k => saveClass k
    | .bit _ => 3
    | .append (.log _) => 4
    | .append (.profile _) => 5
    | .erase _ c _ => c

/-- A waiting operation is a save. -/
def isSave (q : QItem) : Bool :=
  match q.op with
  | .save _ => true
  | _ => false

/-- A waiting operation is an entry append. -/
def isAppend (q : QItem) : Bool :=
  match q.op with
  | .append _ => true
  | _ => false

/-- A waiting operation erases block b. -/
def erasesBlock (b : Nat) (q : QItem) : Bool :=
  match q.op with
  | .erase n _ _ => n == b
  | _ => false

/-- The saves among waiting operations. -/
def savesOf (l : List QItem) : List SaveKind :=
  l.filterMap (fun q => match q.op with | .save k => some k | _ => none)

/-- A waiting operation may begin: a save other than POWER_FAIL needs two erased places (R139). -/
def mayBegin (erased : Nat) (q : QItem) : Bool :=
  match q.op with
  | .save .powerFail => decide (1 ≤ erased)
  | .save _ => decide (2 ≤ erased)
  | _ => true

/-- A save that waits under the reservation raises the waiting ERASE of the non-current save block to class 2
(R139, R140). -/
def raiseErase (f : Flash) (t : Stc) : Stc :=
  if erasedPlaces t f < 2 && t.queue.any isSave then
    { t with queue := t.queue.map (fun q => match q.op with
        | .erase b c g => if b == 1 - t.curBlock && c == 8 then { q with op := .erase b 2 g } else q
        | _ => q) }
  else t

/-- The lowest rank among the operations that may begin. -/
def bestRank (erased : Nat) (l : List QItem) : Option Nat :=
  (l.filter (mayBegin erased)).foldl (fun best q => some (match best with
    | some r => min r (rank q)
    | none => rank q)) none

/-- The operation that the arbiter chooses: the highest class, and within it the first to arrive (R131). A waiting
READ comes before class 8. -/
def choose (f : Flash) (t : Stc) : Option QItem :=
  match bestRank (erasedPlaces t f) t.queue with
  | some r =>
    if t.readWait && 8 ≤ r then none
    else t.queue.find? (fun q => mayBegin (erasedPlaces t f) q && rank q == r)
  | none => none

/-- PROGRAM_RECORD begins: it serves every waiting save (R132), takes the next sequence (R136), and goes on to the
other save block when the current one has no place left (R138). -/
def beginRecord (image : SaveRecord) (extra : List SaveKind) (t : Stc) : Stc :=
  { t with
    prog := some (.record (extra ++ savesOf t.queue)
      { image with seq := t.nextSeq, suspendedErase := suspendedBlock t }),
    queue := t.queue.filter (fun q => !isSave q),
    curBlock := if t.nextPlace = 8 then 1 - t.curBlock else t.curBlock,
    nextPlace := if t.nextPlace = 8 then 0 else t.nextPlace,
    nextSeq := (t.nextSeq + 1) % timeSpan }

/-- ERASE_BLOCK begins (R142: the good entries are counted when it is first begun). -/
def beginErase (f : Flash) (block cls : Nat) (good : Option Nat) (startup : Bool) (t : Stc) : Stc :=
  { t with
    erase := some ⟨block, cls, good.getD (goodInEraseBlock f block), false, false, startup⟩ }

/-- A chosen operation begins. An append that finds its area full begins the reuse ERASE of the block at its write
position, and goes on waiting (R142). -/
def beginOp (f : Flash) (image : SaveRecord) (q : QItem) (t : Stc) : Stc :=
  match q.op with
  | .save _ => beginRecord image [] t
  | .bit b => { t with prog := some (.bit b), queue := t.queue.erase q }
  | .erase b c g => beginErase f b c g false { t with queue := t.queue.erase q }
  | .append e =>
    if areaFull f t (areaOf e) then
      let block := placeBlock (areaOf e) (posOf t (areaOf e)).place
      let cls := match areaOf e with
        | .log => 4
        | .profile => 5
      match t.queue.find? (erasesBlock block) with
      | some w =>
        (match w.op with
          | .erase b c g => beginErase f b c g false { t with queue := t.queue.erase w }
          | _ => t)
      | none => beginErase f block cls none false t
    else { t with prog := some (.entry e), queue := t.queue.erase q }

/-- The array is free. -/
def arrayFree (t : Stc) : Bool := t.prog.isNone && t.erase.isNone

/-- The arbiter: when the array is free, the next operation begins (R131). A program of a bit already set in the
copy is not performed (R129). -/
def arbitrate (f : Flash) (image : SaveRecord) (t : Stc) : Stc :=
  let t := { t with queue := t.queue.filter (fun q => match q.op with
    | .bit b => !bitOf t.copy b
    | _ => true) }
  let t := raiseErase f t
  if arrayFree t then
    match choose f t with
    | some q => beginOp f image q t
    | none => t
  else t

/-- An operation joins the queue: a bit already set or already waiting adds nothing (R129, R132), and a 33rd append
is lost (R131). -/
def enqueue (op : StoreOp) (t : Stc) : Stc :=
  let joined := { t with queue := t.queue ++ [⟨op, false⟩] }
  match op with
  | .bit b => if bitOf t.copy b || t.queue.any (fun q => q.op == .bit b) then t else joined
  | .append _ => if (t.queue.filter isAppend).length < 32 then joined else t
  | _ => joined

/-- The store takes operations: in RUN, and in a start sequence; in HOLD they are lost (R146; log 18). -/
def storeTakes (p : Psv) : Bool :=
  match p.power with
  | .run => true
  | .battery => p.seq.isSome
  | _ => false

/-- Operations may begin: in RUN, and in a start sequence once its start-up erase is done (R148). -/
def storeRuns (p : Psv) : Bool :=
  match p.power, p.seq with
  | .run, _ => true
  | .battery, some q => decide (5 ≤ q.next)
  | _, _ => false

/-- The arbiter runs, where the store may begin operations. -/
def runArbiter (s : State) : State :=
  if storeRuns s.psv then { s with stc := arbitrate s.flash (imageOf s) s.stc } else s

/-- A module queues an operation with the store (R130, R131); in FAULT it ends at its arrival (R145). -/
def arrive (op : StoreOp) (s : State) : State :=
  if s.stc.fault || !storeTakes s.psv then s else runArbiter { s with stc := enqueue op s.stc }

/-! ### Reads of entry places (R133 to R135) -/

/-- Entry blocks whose entries are removed, with the good entries each held: in an erase, waiting for its repeat, or
removed at an entry to FAULT (R142, R144). -/
def removedBlocks (s : State) : List (Nat × Nat) :=
  (match s.stc.erase with
    | some e => [(e.block, e.good)]
    | none => []) ++
  s.stc.queue.filterMap (fun q => match q.op with
    | .erase b _ (some g) => some (b, g)
    | _ => none) ++ s.flash.removed

/-- The answer to a READ of a place of an entry area (R135). -/
inductive ReadAnswer where
  | removed
  | erased
  | damaged
  | entry (seq : Nat) (bytes : List Byte)
  deriving DecidableEq, Repr

/-- A READ of an entry place is answered (R135). -/
def readPlace (s : State) (a : Area) (place : Nat) : ReadAnswer :=
  if (removedBlocks s).any (fun x => x.1 == placeBlock a place) then .removed
  else match judge (placeAt (placesOf s.flash a) place) with
    | .erased => .erased
    | .damaged => .damaged
    | .good q bs => .entry q bs

/-- A READ of a place can be answered now: the array is free, the erase is suspended, or the place lies in the
block being erased (R130, R133). -/
def canRead (t : Stc) (block : Nat) : Bool :=
  match t.prog, t.erase with
  | none, none => true
  | none, some e => e.suspended || e.block == block
  | some _, _ => false

/-- A READ waits; it suspends a running erase when R134 allows, at ERASE_SUSPENDED. -/
def waitForRead (s : State) : State := { s with stc := { s.stc with readWait := true } }

/-- No READ waits any longer, a chunk having ended (log 52): a suspended erase resumes, with its 2 ms guard (R133, R134),
and a free array is given to the next operation. -/
def readsDone (s : State) : State :=
  let t := { s.stc with readWait := false, erase := s.stc.erase.map (fun e =>
    if e.suspended && s.psv.power == .run then { e with suspended := false, guarded := true } else e) }
  runArbiter { s with stc := t }

/-! ### Periodic timer (R137) -/

/-- PERIODIC_TIMER_EXPIRY: a PERIODIC save is queued unless one waits, and the timer restarts at 900 s; in FAULT
nothing is queued (R137, R145). -/
def periodicExpiry (s : State) : State :=
  if s.psv.power == .run && s.stc.periodic.due then
    let s := { s with stc := { s.stc with periodic := startTimer 900 } }
    if s.stc.queue.any (fun q => q.op == .save .periodic) then s else arrive (.save .periodic) s
  else s

/-- PERIODIC_TIMER_EXPIRY. -/
def execPeriodicTimerExpiry (s : State) : Host.Outcome State Fault Refusal := done (periodicExpiry s)

end Sys2Proof.Machine
end

