-- ==== Sys2Proof/Machine/Profile.lean ====
section
/-! DEFINITION. Machine/Profile.lean: the energy engine's open profile interval (section 1.9). -/

namespace Sys2Proof.Machine

open Sys2Proof

/-- Every flag of the open interval is changed by f; nothing happens while no interval is open. -/
def flagInterval (f : ProfileFlags → ProfileFlags) (s : State) : State :=
  { s with ee := { s.ee with interval := s.ee.interval.map (fun v => { v with flags := f v.flags }) } }

/-- The interval opened at meter time t (R15, R17). Its nominal end may lie above 4,294,967,295 when no boundary is left
before the clock rolls over, by the model's choice (log 42). -/
def newInterval (t : Nat) (s : State) : Interval where
  start := t
  nominalEnd := (t / (s.cau.settings.intervalLen * 60) + 1) * (s.cau.settings.intervalLen * 60)
  imp := 0
  exp := 0
  fb := 0
  credit := 0
  maxW := 0
  lastBilled := t
  flags :=
    { ProfileFlags.clear with
      supplyOpen := s.swc.sw != .closed, tamper := anyDeclared s, clockInvalid := !s.bat.clockValid }

/-- An interval is opened at meter time t. -/
def openInterval (t : Nat) (s : State) : State := { s with ee := { s.ee with interval := some (newInterval t s) } }

/-- The flags of a closing interval: its own as changed by f, with SHORT when it is shorter than its length (R18). -/
def closingFlags (v : Interval) (endTime len : Nat) (f : ProfileFlags → ProfileFlags) : ProfileFlags :=
  let g := f v.flags
  { g with short := g.short || decide ((endTime : Int) - v.start < (len * 60 : Nat)) }

/-- The length byte of an interval: (end time − start time + 59) div 60, which truncates toward zero (R18), so it is 0
up to 118 s before the start; where the quotient is negative, further before it, a free value (log 24). -/
def entryLength (start endTime free : Nat) : Nat :=
  if start < endTime + 119 then (endTime + 59 - start) / 60 else Config.freeLength free

/-- The entry of an interval closed at a meter time (R18); len is the interval length in minutes. -/
def profileEntry (v : Interval) (endTime len : Nat) (f : ProfileFlags → ProfileFlags) (s : State) : ProfileEntry where
  endTime := endTime
  imp := v.imp
  exp := v.exp
  fb := v.fb
  credit := v.credit
  balance := s.ce.money.b
  maxW := v.maxW
  length := entryLength v.start endTime s.free
  flags := closingFlags v endTime len f

/-- The open interval is closed with an end time and a new one opens at meter time t; no entry is made when the end
time equals the start time (R18). -/
def rollInterval (endTime len : Nat) (f : ProfileFlags → ProfileFlags) (t : Nat) (s : State) : State :=
  match s.ee.interval with
  | some v =>
    if endTime = v.start then openInterval t s
    else drawFree (arrive (.append (.profile (profileEntry v endTime len f s))) (openInterval t s))
  | none => openInterval t s

/-- The interval length in force, in minutes (R15). -/
def lenOf (s : State) : Nat := s.cau.settings.intervalLen

/-- A clock step from t0 to t1 is reported to the EE (R19); a step of 0 s is not. -/
def reportStep (t0 t1 : Nat) (s : State) : State :=
  if t0 = t1 then s
  else if t0 / (lenOf s * 60) = t1 / (lenOf s * 60) then flagInterval (fun g => { g with timeSteered := true }) s
  else rollInterval t0 (lenOf s) (fun g => { g with timeSteered := true }) t1 s

/-- A billed period is added to the open interval (R16): n, m and f mWh, the maximum T' in W, the period end time; and
the flags of R17 that a period sets. -/
def billInterval (n m f tPrime endTime : Nat) (overrange : Bool) (s : State) : State :=
  { s with ee := { s.ee with interval := s.ee.interval.map (fun v =>
      { v with
        imp := v.imp + n, exp := v.exp + m, fb := v.fb + f, maxW := max v.maxW (tPrime / 1000),
        lastBilled := endTime,
        flags := { v.flags with
          overrange := v.flags.overrange || overrange,
          clockInvalid := v.flags.clockInvalid || !s.bat.clockValid } }) } }

/-- The interval's nominal end is tested at a billed period's end (R18). -/
def testBoundary (endTime : Nat) (s : State) : State :=
  match s.ee.interval with
  | some v => if v.nominalEnd ≤ endTime then rollInterval v.nominalEnd (lenOf s) id v.nominalEnd s else s
  | none => s

/-- A deduction from the balance is counted in the open interval (R16). -/
def reportDeduction (k : Nat) (s : State) : State :=
  { s with ee := { s.ee with interval := s.ee.interval.map (fun v => { v with credit := v.credit + k }) } }

end Sys2Proof.Machine
end

