-- ==== Sys2Proof/Machine/Switch.lean ====
section
/-! DEFINITION. Machine/Switch.lean: the switch controller (chapter 05). -/

namespace Sys2Proof.Machine

open Sys2Proof

/-! ### State changes and drives -/

/-- The switch state becomes w: the over-limit count falls to 0 at a departure from CLOSED (R94), the held-open mark
at a departure from the held-open states (R98), and a state other than CLOSED marks the open interval SUPPLY_OPEN
(R17). -/
def setSwitch (w : SwitchState) (s : State) : State :=
  let n := { s.swc with sw := w, overLimit := if w = SwitchState.closed then s.swc.overLimit else 0 }
  let s := { s with swc := { n with mark := n.mark && heldOpen s.psv.inService n } }
  if w = SwitchState.closed then s else flagInterval (fun g => { g with supplyOpen := true }) s

/-- A drive is put in progress or taken away. -/
def setDrive (d : Option Drive) (s : State) : State := { s with swc := { s.swc with drive := d } }

/-- A drive begins at attempt 1 (R88); the mark is cleared (R98). -/
def beginDrive (d : Direction) (s : State) : State :=
  let s := setSwitch (match d with
    | .toOpen => .opening
    | .toClose => .closing) s
  { s with swc := { s.swc with drive := some ⟨d, 1, false, false, none⟩, mark := false } }

/-- The SWC responds to a set change or a consent change (R87, R92); `before` tells whether the wanted state was
CLOSED before it. -/
def respond (before : Bool) (s : State) : State :=
  if !s.psv.inService || s.swc.drive.isSome then s
  else match s.swc.sw with
    | .opened => if noReason s.swc.set then setSwitch .ready s else s
    | .ready =>
      if !noReason s.swc.set then setSwitch .opened s
      else if s.swc.consent && mayDrive s.psv then beginDrive .toClose s else s
    | .closed => if !wantsClosed s.swc && mayDrive s.psv then beginDrive .toOpen s else s
    | .fault => if before != wantsClosed s.swc && mayDrive s.psv then beginDrive (wantedDir s.swc) s else s
    | .unknown | .closing | .opening => s

/-- A reason is added (R85): the consent flag is cleared (R86) and the SWC responds. A present reason is no change. -/
def addReason (r : Reason) (s : State) : State :=
  if hasReason s.swc.set r then s
  else respond (wantsClosed s.swc) { s with swc := { s.swc with set := putReason s.swc.set r true, consent := false } }

/-- A reason is removed (R85). An absent reason is no change. -/
def removeReason (r : Reason) (s : State) : State :=
  if hasReason s.swc.set r then
    respond (wantsClosed s.swc) { s with swc := { s.swc with set := putReason s.swc.set r false } }
  else s

/-! ### Confirm (R89, R90) -/

/-- A drive ends in success in direction d: the state, and SUPPLY_CHANGED with the drive's own direction and the
attempts it took (R90, R91; log 20). -/
def succeed (d driven : Direction) (attempts : Nat) (s : State) : State :=
  let w := match d with
    | .toClose => SwitchState.closed
    | .toOpen => if noReason s.swc.set then .ready else .opened
  let s := setDrive none (setSwitch w s)
  post (.supplyChanged w driven attempts s.swc.set) s

/-- A drive toward the wanted state begins where it may (R103); else the contactor's position is not known (log 19). -/
def driveWanted (s : State) : State :=
  if mayDrive s.psv then beginDrive (wantedDir s.swc) s else setDrive none (setSwitch .unknown s)

/-- The confirm of a drive in service (R90). -/
def confirmDrive (d : Drive) (r : Sense) (v : PerPhase PhaseVolts) (s : State) : State :=
  let wanted := wantedDir s.swc
  if senseMatches r d.dir then
    let s := succeed d.dir d.dir d.attempt s
    if wanted = d.dir then s else if mayDrive s.psv then beginDrive wanted s else s
  else if wanted = d.dir then
    if d.attempt = 1 then
      if mayDrive s.psv then setDrive (some { d with attempt := 2, settling := false }) s
      else setDrive none (setSwitch .unknown s)
    else post (.switchFault d.dir 2 r v) (setDrive none (setSwitch .fault s))
  else if senseMatches r wanted then succeed wanted d.dir d.attempt s
  else driveWanted s

/-- The state that the sense alone gives (R100, R104). -/
def sensedState : Sense → SwitchState
  | .sensedOpen => .opened
  | .sensedClosed => .closed
  | .sensedMixed => .fault

/-- The confirm of a TEST_SWITCH attempt (R100): the state, and the results, unless the slot has been lost. -/
def confirmTest (d : Drive) (r : Sense) (v : PerPhase PhaseVolts) (s : State) : State :=
  let s := setDrive none (setSwitch (sensedState r) s)
  match d.slot with
  | some i =>
    if s.exc.live then
      popControl (complete i .ok (8 * flagNat (senseMatches r d.dir)) 0
        [(8, [byte (senseCode r), byte (phaseSenseCode v.a), byte (phaseSenseCode v.b), byte (phaseSenseCode v.c)])] s)
    else s
  | none => s

/-- DRIVE_CONFIRM at the end of the settle interval (R88 to R90, R100). -/
def driveConfirm (v : PerPhase PhaseVolts) (s : State) : State :=
  match s.swc.drive with
  | some d =>
    if d.settling then
      let s := { s with swc := { s.swc with lastSense := v } }
      if d.test then confirmTest d (senseOf v) v s else confirmDrive d (senseOf v) v s
    else s
  | none => s

/-- DRIVE_CONFIRM. -/
def execDriveConfirm (v : PerPhase PhaseVolts) (s : State) : Host.Outcome State Fault Refusal := done (driveConfirm v s)

/-- COIL_PULSE_END: the pulse of the attempt ends and its settle interval begins (R88). -/
def coilPulseEnd (s : State) : State :=
  match s.swc.drive with
  | some d => setDrive (some { d with settling := true }) s
  | none => s

/-- COIL_PULSE_END. -/
def execCoilPulseEnd (s : State) : Host.Outcome State Fault Refusal := done (coilPulseEnd s)

/-! ### Customer button (R93) -/

/-- BUTTON_PRESS: in RUN and in service, in READY or in FAULT with the set empty, consent is set and a closing drive
begins; else the press is ignored (R92, R93). -/
def buttonPress (s : State) : State :=
  if s.psv.power == .run && s.psv.inService then
    match s.swc.sw with
    | .ready => respond false { s with swc := { s.swc with consent := true } }
    | .fault =>
      if noReason s.swc.set then beginDrive .toClose { s with swc := { s.swc with consent := true } } else s
    | _ => s
  else s

/-- BUTTON_PRESS. -/
def execButtonPress (s : State) : Host.Outcome State Fault Refusal := done (buttonPress s)

/-! ### Load limiter (R94 to R97) -/

/-- The limiter trips (R94, R96) at a period of power W: LOAD_LIMIT is added, the recovery timer starts, the trip
memory rises and the quiet count restarts, LOAD_TRIP is posted; a trip memory of 3 adds LOCKOUT, posts it, and
returns to 0. -/
def trip (power : Nat) (s : State) : State :=
  let s := addReason .loadLimit s
  let m := s.swc.tripMem + 1
  let s := { s with swc := { s.swc with
    recovery := startTimer 60, tripMem := if 3 ≤ m then 0 else m, quiet := 0, overLimit := 0 } }
  let s := post (.loadTrip m power s.cau.settings.pMax) s
  if 3 ≤ m then post .lockout (addReason .lockout s) else s

/-- The over-limit count after a hand-off of power W (R94). -/
def overLimitAfter (power : Nat) (s : State) : Nat :=
  if s.cau.settings.pMax ≠ 0 ∧ s.swc.sw = .closed ∧ s.cau.settings.pMax < power then s.swc.overLimit + 1 else 0

/-- The quiet count's part of a hand-off (R96). -/
def quietStep (s : State) : State :=
  if s.swc.tripMem = 0 then s
  else if s.swc.quiet + 1 = 600 then { s with swc := { s.swc with tripMem := s.swc.tripMem - 1, quiet := 0 } }
  else { s with swc := { s.swc with quiet := s.swc.quiet + 1 } }

/-- The over-limit count's part of a hand-off (R94): the count, and the trip in the same event when it reaches 30. -/
def limitStep (tPrime : Nat) (s : State) : State :=
  let n := overLimitAfter (tPrime / 1000) s
  let s := { s with swc := { s.swc with overLimit := n } }
  if 30 ≤ n then trip (tPrime / 1000) s else s

/-- The limiter takes the hand-off of a billed period (R94, R96, R101): first the quiet count, then the over-limit
count (log 28). Before commissioning it does neither. -/
def limiterHandOff (tPrime : Nat) (s : State) : State :=
  if s.psv.inService then limitStep tPrime (quietStep s) else s

/-- LOAD_TRIP: the over-limit part of a hand-off whose count reaches 30; at any other hand-off there is no such event
(log 6). -/
def loadTrip (tPrime : Nat) (s : State) : State :=
  if s.psv.power == .run && s.psv.inService && decide (30 ≤ overLimitAfter (tPrime / 1000) s) then limitStep tPrime s else s

/-- LOAD_TRIP. -/
def execLoadTrip (tPrime : Nat) (s : State) : Host.Outcome State Fault Refusal := done (loadTrip tPrime s)

/-- TRIP_MEMORY_QUIET: the quiet part of a hand-off whose count reaches 600; at any other there is no such event
(log 6). -/
def tripMemoryQuiet (s : State) : State :=
  if s.psv.power == .run && s.psv.inService && decide (s.swc.tripMem ≠ 0 ∧ s.swc.quiet + 1 = 600) then quietStep s else s

/-- TRIP_MEMORY_QUIET. -/
def execTripMemoryQuiet (s : State) : Host.Outcome State Fault Refusal := done (tripMemoryQuiet s)

/-- RECOVERY_TIMER_EXPIRY: 60 s after the trip LOAD_LIMIT is removed (R95). -/
def recoveryExpiry (s : State) : State :=
  if s.psv.power == .run && s.swc.recovery.due then
    removeReason .loadLimit { s with swc := { s.swc with recovery := Timer.stopped } }
  else s

/-- RECOVERY_TIMER_EXPIRY. -/
def execRecoveryTimerExpiry (s : State) : Host.Outcome State Fault Refusal := done (recoveryExpiry s)

/-- An applied LOAD_UNLOCK code: LOCKOUT removed, trip memory and quiet count 0 (R57, R97). -/
def loadUnlock (s : State) : State :=
  removeReason .lockout { s with swc := { s.swc with tripMem := 0, quiet := 0 } }

/-! ### Bypass sense (R98) -/

/-- At a period-end event the held-open mark is set anew for the following period. -/
def markPeriod (s : State) : State :=
  { s with swc := { s.swc with mark := heldOpen s.psv.inService s.swc } }

/-! ### Lifecycle, HOLD and starts (R102 to R104) -/

/-- The lifecycle change (R102). -/
def commissionSwitch (s : State) : State :=
  let set := putReason (putReason s.swc.set .loadLimit false) .lockout false
  let s := { s with swc := { s.swc with
    consent := false, overLimit := 0, tripMem := 0, quiet := 0, recovery := Timer.stopped, set := set } }
  match s.swc.sw with
  | .opened => if noReason set then setSwitch .ready s else s
  | .closed | .fault | .unknown => if mayDrive s.psv then beginDrive .toOpen s else s
  | .ready | .closing | .opening => s

/-- The drives are cut: a drive in progress stops and the state becomes UNKNOWN (R103). -/
def cutDrives (s : State) : State :=
  if s.swc.drive.isSome then setDrive none (setSwitch .unknown s) else s

/-- The start-up confirm (R104). -/
def startConfirm (v : PerPhase PhaseVolts) (s : State) : State :=
  let s := { s with swc := { s.swc with lastSense := v } }
  let r := senseOf v
  if s.psv.inService then
    if senseMatches r (wantedDir s.swc) then
      setSwitch (match wantedDir s.swc with
        | .toClose => .closed
        | .toOpen => if noReason s.swc.set then .ready else .opened) s
    else beginDrive (wantedDir s.swc) s
  else setSwitch (sensedState r) s

end Sys2Proof.Machine
end

