-- ==== Sys2Proof/Machine/Credit.lean ====
section
/-! DEFINITION. Machine/Credit.lean: the credit engine and the meter clock (chapter 02). -/

namespace Sys2Proof.Machine

open Sys2Proof

/-! ### Balance -/

/-- The balance's floor and ceiling (R24). -/
def balanceFloor : Int := -2000000
def balanceCeiling : Int := 99999999

/-- The largest uncollected total (R24). -/
def uncollectedMax : Nat := 4294967295

/-- The part of a deduction of k CU by which the balance falls (R24, R26). -/
def deductible (b : Int) (k : Nat) : Nat := min k (b - balanceFloor).toNat

/-- The money after a deduction of k CU: B saturates at the floor, and the part not deducted is charged to U, which
saturates too (R24). -/
def moneyAfter (m : Money) (k : Nat) : Money :=
  let d := deductible m.b k
  { m with b := m.b - d, u := min uncollectedMax (m.u + (k - d)) }

/-- A deduction of k CU, reported to the EE (R24, R26): the deducted part to the open interval, and SATURATED when
some of it is charged to U. -/
def deduct (k : Nat) (s : State) : State :=
  let d := deductible s.ce.money.b k
  let s := reportDeduction d { s with ce := { s.ce with money := moneyAfter s.ce.money k } }
  if d < k then flagInterval (fun g => { g with saturated := true }) s else s

/-- F is deducted once for each of n days, one day at a time (R30). -/
def chargeDays : Nat → State → State
  | 0, s => s
  | n + 1, s => chargeDays n (deduct s.cau.settings.fixed s)

/-- The last charged day becomes d (R31). -/
def setLastDay (d : Nat) (s : State) : State := { s with ce := { s.ce with money := { s.ce.money with lastDay := d } } }

/-- The fixed charge at local day d: due when the clock is valid, the part is IN_SERVICE, and d is above the last
charged day (R30). -/
def fixedCharge (d : Nat) (s : State) : State :=
  if s.bat.clockValid && s.psv.inService && decide (s.ce.money.lastDay < d) then
    setLastDay d (chargeDays (d - s.ce.money.lastDay) s)
  else s

/-- The cost stage (R26): n mWh at the band in force at the period end time. -/
def costStage (n endTime : Nat) (s : State) : State :=
  let c := s.ce.money.cRes + n * priceOf s.cau.settings (bandAt s endTime)
  deduct (c / 1000000) { s with ce := { s.ce with money := { s.ce.money with cRes := c % 1000000 } } }

/-! ### Thresholds and the disconnect limit -/

/-- One arming flag against its threshold (R32): the flag afterwards, and whether the notice is posted. -/
def armStep (armed : Bool) (b : Int) (threshold : Nat) : Bool × Bool :=
  if armed then (if b < threshold then (false, true) else (true, false))
  else (decide ((threshold : Int) < b), false)

/-- The low-credit check, L1 first (R32). -/
def lowCredit (s : State) : State :=
  let b := s.ce.money.b
  let r1 := armStep s.ce.arm1 b s.cau.settings.l1
  let r2 := armStep s.ce.arm2 b s.cau.settings.l2
  let s := { s with ce := { s.ce with arm1 := r1.1, arm2 := r2.1 } }
  let s := if r1.2 then post (.creditLow1 b s.cau.settings.l1) s else s
  if r2.2 then post (.creditLow2 b s.cau.settings.l2) s else s

/-- The arming flags set afresh at entry to RUN and at COMMISSION (R32). -/
def rearm (s : State) : State :=
  { s with ce := { s.ce with
    arm1 := decide ((s.cau.settings.l1 : Int) ≤ s.ce.money.b), arm2 := decide ((s.cau.settings.l2 : Int) ≤ s.ce.money.b) } }

/-- The deferral flag is put to x. -/
def setDeferral (x : Bool) (s : State) : State := { s with ce := { s.ce with deferral := x } }

/-- A disconnect evaluation (R35). -/
def evaluate (s : State) : State :=
  if creditLimit s < s.ce.money.b then setDeferral false (removeReason .credit s)
  else if s.swc.set.credit then s
  else if s.ce.window then
    let t := setDeferral true s
    if s.ce.deferral then t else post (.disconnectDeferred s.ce.money.b (creditLimit s)) t
  else setDeferral false (addReason .credit s)

/-- The CE bills a period (R27): fixed charges, cost stage, low-credit check, and one evaluation if B changed. -/
def billPeriod (n endTime : Nat) (s : State) : State :=
  let t := lowCredit (costStage n endTime (fixedCharge (dayOf endTime) s))
  if t.ce.money.b = s.ce.money.b then t else evaluate t

/-- Credit of k CU is added, as one event of the CE whatever k is (R55): an ACTIVE emergency state ends if B is now 0 or
above (R34), then the low-credit check and one evaluation (R32, R35). -/
def addCredit (k : Nat) (s : State) : State :=
  let b := s.ce.money.b + k
  let m := { s.ce.money with b := b, emergency := s.ce.money.emergency && decide (b < 0) }
  evaluate (lowCredit { s with ce := { s.ce with money := m } })

/-- The decision of a TAKE_EMERGENCY (R33). -/
def emergencyResult (s : State) : Result :=
  if !s.psv.inService then .notCommissioned
  else if s.cau.settings.e = 0 then .notOffered
  else if s.ce.money.emergency then .already
  else if (s.cau.settings.o : Int) ≤ s.ce.money.b then .notYet
  else if freezeInForce s then .frozen
  else .accepted

/-- A TAKE_EMERGENCY is decided; on ACCEPTED the state becomes ACTIVE, an evaluation runs and a CODE save is queued
(R33). -/
def decideEmergency (s : State) : State :=
  if emergencyResult s = .accepted then
    arrive (.save .emergency) (evaluate { s with ce := { s.ce with money := { s.ce.money with emergency := true } } })
  else s

/-! ### Band, window, clock -/

/-- The active band is recomputed (R29). -/
def recomputeBand (s : State) : State := { s with ce := { s.ce with band := bandAt s s.bat.clock } }

/-- The friendly-window status is recomputed, with an evaluation when it changes (R36, R37). -/
def recomputeWindow (s : State) : State :=
  let w := windowAt s s.bat.clock
  if w = s.ce.window then s else evaluate { s with ce := { s.ce with window := w } }

/-- The steer day rule (R39). -/
def steerRule (s : State) : State :=
  if s.bat.steerDay < dayOf s.bat.clock then
    { s with bat := { s.bat with steerDay := dayOf s.bat.clock, steerUsed := 0 } }
  else s

/-- MINUTE_TIMER_EXPIRY in RUN: band, window status, and at local midnight the steer day rule (R38). -/
def minuteExpiry (s : State) : State :=
  if s.psv.power == .run && s.ce.minuteDue then
    let s := recomputeWindow (recomputeBand { s with ce := { s.ce with minuteDue := false } })
    if s.bat.clock % 86400 = 0 then steerRule s else s
  else s

/-- MINUTE_TIMER_EXPIRY. -/
def execMinuteTimerExpiry (s : State) : Host.Outcome State Fault Refusal := done (minuteExpiry s)

/-- What follows a clock step or a validity change from t0, once the clock shows the new time (R43): the report to the
EE, band and window status, the steer day rule, and at a validity change the last charged day (R31). The minute timer
starts anew. R43 lists these without an order. By the model's choice the report comes before the evaluation of a window
status change: an entry that the step closes is not marked SUPPLY_OPEN by an opening that the same step causes (log 72). -/
def clockStep (t0 : Nat) (nowValid : Bool) (s : State) : State :=
  let s := { s with ce := { s.ce with minuteDue := false } }
  let s := reportStep t0 s.bat.clock s
  let s := if nowValid then setLastDay (dayOf s.bat.clock) s else s
  steerRule (recomputeWindow (recomputeBand s))

/-- The clock is set outright to t1 by a source (R41, R42): valid, allowance 0 used, steer day of t1; then the
consequences of a step or of a validity change. -/
def setClock (src : ClockSource) (t1 : Nat) (s : State) : State :=
  let t0 := s.bat.clock
  let was := s.bat.clockValid
  let s := { s with bat := { s.bat with
    clock := t1, clockValid := true, clockSource := src, steerDay := dayOf t1, steerUsed := 0 } }
  if was && decide (t0 = t1) then s else clockStep t0 (!was) s

/-- The step that a DELTA request of x seconds applies: clamped to the remaining allowance, then to the clock's range
(R40). -/
def appliedStep (x : Int) (b : Bat) : Int :=
  let r : Int := allowanceLeft b
  let a := if x > r then r else if x < -r then -r else x
  if (b.clock : Int) + a < 0 then -(b.clock : Int)
  else if (b.clock : Int) + a > 4294967295 then 4294967295 - b.clock
  else a

/-- A DELTA step a is applied (R40): the clock, the allowance, and for a step other than 0 its consequences. -/
def steer (a : Int) (s : State) : State :=
  let t0 := s.bat.clock
  let s := { s with bat := { s.bat with clock := ((t0 : Int) + a).toNat, steerUsed := s.bat.steerUsed + a.natAbs } }
  if a = 0 then steerRule s else clockStep t0 false s

/-! ### Lifecycle and starts -/

/-- The CE at COMMISSION (R46). -/
def commissionCredit (s : State) : State :=
  evaluate (rearm { s with ce := { s.ce with money :=
    { b := 0, cRes := 0, u := 0, emergency := false, lastDay := dayOf s.bat.clock } } })

/-- Missed days at a start: the fixed charge up to the current day (R45), when a record was found. -/
def missedDays (s : State) : State :=
  if s.psv.recordFound then fixedCharge (dayOf s.bat.clock) s else s

/-- The CE's entry to RUN: steer day rule, band, window status, arming flags, and one evaluation (R45); the CLOCK_INVALID
of a cold start is among the notices kept since step 2. -/
def enterRunCredit (s : State) : State :=
  let s := recomputeBand (steerRule s)
  evaluate (rearm { s with ce := { s.ce with window := windowAt s s.bat.clock, minuteDue := false } })

end Sys2Proof.Machine
end

