-- ==== Sys2Proof/Machine/Tamper.lean ====
section
/-! DEFINITION. Machine/Tamper.lean: the tamper monitor (chapter 06). -/

namespace Sys2Proof.Machine

open Sys2Proof

/-! ### Kind records -/

/-- The record of kind k is changed by f. -/
def mapKind (k : Kind) (f : KindRec → KindRec) (s : State) : State :=
  { s with bat := { s.bat with kinds := s.bat.kinds.set k (f (s.bat.kinds.get k)) } }

/-- Kind k takes a state. -/
def setKindState (k : Kind) (x : KindState) (s : State) : State := mapKind k (fun r => { r with state := x }) s

/-- The kinds with a suspicion counter, 2 to 6 (R105). -/
def hasCounter : Kind → Bool
  | .magnet | .reverse | .imbalance | .bypass | .noVoltage => true
  | .coverMain | .coverTerminal | .watchLost => false

/-- The log entry of an event of kind k as the state stands (R124). -/
def logEntry (k : Kind) (ev : LogEvent) (s : State) : TamperEntry :=
  ⟨s.bat.clock, k, ev, s.psv.power, s.swc.sw, s.ce.money.b, (s.bat.kinds.get k).counter⟩

/-- A log entry of an event is queued as an append (R124). -/
def appendLog (k : Kind) (ev : LogEvent) (s : State) : State := arrive (.append (.log (logEntry k ev s))) s

/-- The TAMPER reason is made to agree with its requirement (R114). -/
def tamperAgree (s : State) : State := if tamperRequired s then addReason .tamper s else removeReason .tamper s

/-! ### Declaration (R112, R122) -/

/-- Kind k becomes DECLARED, with its count and times (R112 step 1). -/
def countDeclaration (k : Kind) (s : State) : State :=
  mapKind k (fun r =>
    { r with
      state := .declared, count := min 65535 (r.count + 1), last := some s.bat.clock,
      first := match r.first with
        | some t => some t
        | none => some s.bat.clock }) s

/-- An ever bit is programmed if it is clear (R112 step 4, R113). -/
def programEver (k : Kind) (s : State) : State :=
  if bitOf s.stc.copy (.ever k) then s else arrive (.bit (.ever k)) s

/-- TAMPER_DECLARED is posted in RUN, and kept for entry to RUN in a start sequence (R112 step 7). -/
def announceDeclared (body : NoticeBody) (s : State) : State :=
  if s.psv.power == .run then post body s else keepNotice body s

/-- The declaration of R112, with a log entry made from the state after its policy has been applied (log 23). -/
def declareWith (k : Kind) (entry : State → TamperEntry) (s : State) : State :=
  let s := flagInterval (fun g => { g with tamper := true }) (countDeclaration k s)
  let s := programEver k (tamperAgree s)
  let s := arrive (.save .tamper) (arrive (.append (.log (entry s))) s)
  let r := s.bat.kinds.get k
  announceDeclared (.tamperDeclared k false r.counter r.count s.bat.clock) s

/-- The declaration of R122, from the beginning of HOLD to the loading of the tamper state: evidence, policy and an
outage note. It does not mark the carried interval TAMPER (R17), by the model's choice (log 55). -/
def declareInOutage (k : Kind) (s : State) : State :=
  let s := tamperAgree (countDeclaration k s)
  match s.bat.notes.get k with
  | some _ => s
  | none => { s with bat := { s.bat with notes := s.bat.notes.set k (some (logEntry k .declared s)) } }

/-- Kind k is declared, by R112 or by R122. -/
def declareKind (k : Kind) (s : State) : State :=
  if outageSpan s.psv then declareInOutage k s else declareWith k (logEntry k .declared) s

/-! ### Warnings and indicators (R108, R109, R120) -/

/-- Kind k goes to WARNING; in RUN with its entry and notice (R109). -/
def warningBegin (k : Kind) (s : State) : State :=
  let s := setKindState k .warning s
  if s.psv.power == .run then
    post (.tamperWarning k (s.bat.kinds.get k).counter) (appendLog k .warningBegin s)
  else s

/-- Kind k returns from WARNING to QUIET; in RUN with its entry (R109). -/
def warningEnd (k : Kind) (s : State) : State :=
  let s := setKindState k .quiet s
  if s.psv.power == .run then appendLog k .warningEnd s else s

/-- The counter after an indicator (R108). -/
def counterAfter (positive : Bool) (c : Nat) : Nat := if positive then min 255 (c + 8) else c - 1

/-- The state moves by the counter (R109); before commissioning no kind enters DECLARED (R120). -/
def moveKind (k : Kind) (s : State) : State :=
  let r := s.bat.kinds.get k
  match r.state with
  | .quiet =>
    if r.counter < 96 then s
    else if 128 ≤ r.counter ∧ s.psv.inService = true then declareKind k (warningBegin k s)
    else warningBegin k s
  | .warning =>
    if r.counter < 96 then warningEnd k s
    else if 128 ≤ r.counter ∧ s.psv.inService = true then declareKind k s
    else s
  | .declared => s

/-- An indicator of kind k arrives (R108, R109). -/
def indicator (k : Kind) (positive : Bool) (s : State) : State :=
  moveKind k (mapKind k (fun r => { r with counter := counterAfter positive r.counter }) s)

/-- MAGNET_SAMPLER_SECOND: in HOLD and BATTERY a second is judged positive when more than 16 of its 32 samples are at
or above 160 (R107). -/
def magnetSecond (hits : Nat) (s : State) : State :=
  if s.psv.power == .hold || s.psv.power == .battery then indicator .magnet (decide (16 < hits)) s else s

/-- MAGNET_SAMPLER_SECOND. -/
def execMagnetSamplerSecond (hits : Nat) (s : State) : Host.Outcome State Fault Refusal := done (magnetSecond hits s)

/-! ### Covers (R110) -/

/-- The kind of a cover. -/
def coverKind : Cover → Kind
  | .main => .coverMain
  | .terminal => .coverTerminal

/-- The debounced state of a cover; true is OPEN. -/
def coverOpen (b : Bat) : Cover → Bool
  | .main => b.coverMain
  | .terminal => b.coverTerminal

/-- The debounced state of a cover becomes x. -/
def setCover (c : Cover) (x : Bool) (s : State) : State :=
  match c with
  | .main => { s with bat := { s.bat with coverMain := x } }
  | .terminal => { s with bat := { s.bat with coverTerminal := x } }

/-- The cover kind moves at a change of the debounced state to OPEN. -/
def coverOpens (k : Kind) (s : State) : State :=
  match (s.bat.kinds.get k).state with
  | .quiet => if s.psv.inService then declareKind k s else warningBegin k s
  | .warning => if s.psv.inService then declareKind k s else s
  | .declared => s

/-- The cover kind moves at a change of the debounced state to CLOSED. -/
def coverCloses (k : Kind) (s : State) : State :=
  match (s.bat.kinds.get k).state with
  | .warning => warningEnd k s
  | .quiet | .declared => s

/-- COVER_CHANGE: a change of the debounced state, outside OFF. -/
def coverChange (c : Cover) (toOpen : Bool) (s : State) : State :=
  if s.psv.power == .off || coverOpen s.bat c == toOpen then s
  else if toOpen then coverOpens (coverKind c) (setCover c true s)
  else coverCloses (coverKind c) (setCover c false s)

/-- COVER_CHANGE. -/
def execCoverChange (cover : Cover) (toOpen : Bool) (s : State) : Host.Outcome State Fault Refusal :=
  done (coverChange cover toOpen s)

/-! ### Clearing (R118, R119) -/

/-- The clearing condition of kind k is present (R118). -/
def conditionPresent (b : Bat) : Kind → Bool
  | .coverMain => b.coverMain
  | .coverTerminal => b.coverTerminal
  | .watchLost => false
  | k => decide (96 ≤ (b.kinds.get k).counter)

/-- Kind k is named by a mask. -/
def inMask (mask : Nat) (k : Kind) : Bool := mask / 2 ^ kindIndex k % 2 == 1

/-- The kinds that satisfy p, as a mask. -/
def maskOf (p : Kind → Bool) : Nat := (kinds.map (fun k => if p k then 2 ^ kindIndex k else 0)).sum

/-- The kinds that a clearing clears (R118). -/
def clearedMask (mask : Nat) (s : State) : Nat :=
  maskOf (fun k => inMask mask k && isDeclared s k && !conditionPresent s.bat k)

/-- The declared kinds that a clearing keeps (R118). -/
def keptMask (mask : Nat) (s : State) : Nat :=
  maskOf (fun k => inMask mask k && isDeclared s k && conditionPresent s.bat k)

/-- One kind of the mask is taken. Its entry carries the switch state as it stands before TAMPER is recomputed, by the
model's choice (log 51). -/
def clearKind (s : State) (k : Kind) : State :=
  if isDeclared s k then
    if conditionPresent s.bat k then appendLog k .clearRefused s
    else
      let s := mapKind k (fun r => { r with state := .quiet, cleared := some s.bat.clock }) s
      post (.tamperCleared k (s.bat.kinds.get k).counter) (appendLog k .cleared s)
  else s

/-- A CLEAR_TAMPER code clears the kinds of its mask, in index order; then TAMPER is made to agree (R118, R119). -/
def clearTamper (mask : Nat) (s : State) : State := tamperAgree ((kinds.filter (inMask mask)).foldl clearKind s)

/-! ### Lifecycle, HOLD and starts (R121 to R123) -/

/-- A kind at COMMISSION: counter 0; WARNING becomes QUIET with its entry (R121). -/
def commissionKind (s : State) (k : Kind) : State :=
  let s := mapKind k (fun r => { r with counter := 0 }) s
  if (s.bat.kinds.get k).state = KindState.warning then warningEnd k s else s

/-- The lifecycle change of the TMO (R121). The kinds are taken in index order, by the model's choice, and so are their
WARNING_END entries (log 59). -/
def commissionTamper (s : State) : State := tamperAgree (kinds.foldl commissionKind s)

/-- The DECLARED entry of kind k, made in RUN, that waits as an append: the last one (R122). An entry of another power state
is by the model's choice none of these, and HOLD makes no note for it: one of WATCH_LOST, of a cover or MAGNET declared in
a start sequence after its step 2 (R112), or from a processed note of an outage (log 61). When the append of the kind's
last declaration was lost as a 33rd one, the last entry that waits is that of an earlier declaration, and by the model's
choice the note holds it (log 41). -/
def waitingDeclared (q : List QItem) (k : Kind) : Option TamperEntry :=
  (q.filterMap (fun x => match x.op with
    | .append (.log e) => if e.kind = k ∧ e.event = .declared ∧ e.power = .run then some e else none
    | _ => none)).getLast?

/-- An outage note is made for kind k at HOLD (R122). -/
def noteAtHold (s : State) (k : Kind) : State :=
  match s.bat.notes.get k, waitingDeclared s.stc.queue k with
  | none, some e => { s with bat := { s.bat with notes := s.bat.notes.set k (some e) } }
  | _, _ => s

/-- Outage notes for the DECLARED entries that wait when HOLD begins (R122). An append in progress then does not wait, and
makes no note even if it fails afterwards, by the model's choice (log 71). -/
def notesAtHold (s : State) : State := kinds.foldl noteAtHold s

/-- An outage note is processed: its append, its ever bit, a TAMPER save, and its notice; then it is removed (R123). -/
def processNote (s : State) (k : Kind) : State :=
  match s.bat.notes.get k with
  | some e =>
    let s := programEver k (arrive (.append (.log e)) s)
    let s := arrive (.save .tamper) s
    let s := { s with bat := { s.bat with notes := s.bat.notes.set k none } }
    let r := s.bat.kinds.get k
    keepNotice (.tamperDeclared k true e.counter r.count e.time) s
  | none => s

/-- The ever bit of kind k is programmed when it is clear and the kind has been declared (R113). -/
def everCheck (s : State) (k : Kind) : State := if 0 < (s.bat.kinds.get k).count then programEver k s else s

/-- Step 3 of a start sequence (R123, R156): the notes in kind index order, as R123 says; then the ever bit check (R113),
in kind index order too, by the model's choice (log 60). -/
def startTamper (s : State) : State := tamperAgree (kinds.foldl everCheck (kinds.foldl processNote s))

/-- WATCH_LOST is declared at a cold start in service (R111). -/
def declareWatchLost (s : State) : State :=
  declareWith .watchLost (fun t => ⟨t.bat.clock, .watchLost, .declared, .off, .unknown, t.ce.money.b, 0⟩) s

end Sys2Proof.Machine
end

