-- ==== Sys2Proof/WellFormed.lean ====
section
/-! DEFINITION. WellFormed.lean: the ranges that the spec gives the data of an event, where the operand's type does
not hold them already. -/

namespace Sys2Proof

/-- All hand-offs of a period, in the order of the spec's listing. -/
def Arrival.all : List Arrival :=
  [.billing, .limiter, .reverse, .imbalance, .bypass, .noVoltage, .magnet]

/-- P_raw lies in its range (section 1.1). -/
def PhaseResult.wf (r : PhaseResult) : Bool := decide (-67108863 ≤ r.pRaw ∧ r.pRaw ≤ 67108863)

/-- The period results are in the ranges of section 1.1, the magnetic samples are at most 3,200 (R107), and the
order names every hand-off exactly once. -/
def PeriodInput.wf (p : PeriodInput) : Bool :=
  p.phases.a.wf && p.phases.b.wf && p.phases.c.wf && decide (p.iRes ≤ 160000) &&
    decide (p.magnetHits ≤ 3200) && decide (p.order.length = 7) && Arrival.all.all (fun x => p.order.contains x)

/-- The data of a command are what the hardware can deliver. -/
def Instr.wf : Instr → Bool
  | .periodEnd p => p.wf
  | .loadTrip tPrime => decide (tPrime ≤ 132000000)
  | .magnetSamplerSecond hits => decide (hits ≤ 32)
  | .settleTimerExpiry _ upTo => decide (1 ≤ upTo ∧ upTo ≤ 9)
  | .voidCommand cmd _ => cmd != 0xA1 && cmd != 0xA2 && cmd != 0xA4
  | .tripMemoryQuiet | .minuteTimerExpiry | .blockTimerExpiry _ | .keyPress _ | .keypadIdleTimerExpiry
  | .codeDecision | .packageDecision | .radioCall _ | .radioGapTimerExpiry | .buttonPress | .coilPulseEnd
  | .driveConfirm _ | .recoveryTimerExpiry | .coverChange _ _ | .programRecordDone _ | .programEntryDone _
  | .programBitDone _ | .eraseBlockDone _ | .eraseSuspended | .suspendGuardExpiry | .periodicTimerExpiry
  | .mainsFailingAssert | .mainsAppears _ | .mainsPresenceEnds _ | .mainsFailingDeassert | .batteryExhausted
  | .read _ _ _ | .write _ _ _ | .status _ | .slotTake _ | .slotContinue _ | .slotCancel _ | .slotFree _
  | .exchangeFault _ _ | .noticeRelease | .captureRelease | .pauseTimerExpiry | .bulkChunk _ | .xrstAssert
  | .xrstDeassert | .applyCode | .applyPackage | .takeEmergency | .setTime | .switchOpen | .switchRelease
  | .testSwitch | .calibrate | .identify | .installKey | .commission | .readLive | .readProfile
  | .readTamperLog | .readEvidence | .readCodes | .readSettings | .radioLineByte _ _ | .supplyCollapse => true

end Sys2Proof
end

