-- ==== Sys2Proof/Machine/Energy.lean ====
section
/-! DEFINITION. Machine/Energy.lean: the energy engine's stages 1 to 4, the period's indicators and the live values
(chapter 01). -/

namespace Sys2Proof.Machine

open Sys2Proof

/-! ### Stage 1: scaling (R3) -/

/-- The scaled values of a phase. -/
structure Scaled where
  v : Nat
  i : Nat
  p : Int
  overrange : Bool
  deriving DecidableEq, Repr

/-- A signed value clamped to −m..m. -/
def clampInt (m : Nat) (x : Int) : Int := if x > m then m else if x < -(m : Int) then -(m : Int) else x

/-- Stage 1 of a phase with its three gains (R3). -/
def scale (r : PhaseResult) (gv gi gp : Nat) : Scaled :=
  let v := r.vRaw.toNat * gv / 32768
  let i := r.iRaw.toNat * gi / 16384
  let p := Int.tdiv (r.pRaw * gp) 16384
  { v := min v 50000, i := min i 160000, p := clampInt 44000000 p,
    overrange := decide (50000 < v) || decide (160000 < i) || clampInt 44000000 p != p }

/-- Stage 1 of the three phases. -/
def scaleAll (r : PerPhase PhaseResult) (g : Gains) : PerPhase Scaled :=
  ⟨scale r.a g.v.a g.i.a g.p.a, scale r.b g.v.b g.i.b g.p.b, scale r.c g.v.c g.i.c g.p.c⟩

/-! ### Stage 2: effective power (R5) -/

/-- What stage 2 gives for a phase. -/
structure Effective where
  imp : Nat
  exp : Nat
  noVoltage : Bool
  creep : Bool
  reverse : Bool
  deriving DecidableEq, Repr

/-- Stage 2 of a phase: the first case whose condition holds (R5). -/
def effective (m : Metering) (x : Scaled) : Effective :=
  if x.v < 4000 ∧ m.iMin ≤ x.i then ⟨x.i * m.vNom / 100, 0, true, false, false⟩
  else if x.p.natAbs < m.pStart ∨ x.p = 0 then ⟨0, 0, false, true, false⟩
  else if 0 < x.p then ⟨x.p.natAbs, 0, false, false, false⟩
  else if m.separate then ⟨0, x.p.natAbs, false, false, true⟩
  else ⟨x.p.natAbs, 0, false, false, true⟩

/-! ### Stages 3 and 4 (R7 to R10) -/

/-- The billed total T' (R7). -/
def billedTotal (fallback : Bool) (pDef t : Nat) : Nat := if fallback && decide (t < pDef) then pDef else t

/-- The modulus of the registers (R10). -/
def registerSpan : Nat := 1000000000000

/-- Whole mWh of a residue (R8). -/
def wholeMwh (residue mJ : Nat) : Nat := (residue + mJ) / 3600

/-- Stage 4: each register takes the whole mWh of its residue and keeps the rest (R8 to R10). -/
def quantize (e : Energy) (tPrime x excess : Nat) : Energy where
  imp := (e.imp + wholeMwh e.rImp tPrime) % registerSpan
  exp := (e.exp + wholeMwh e.rExp x) % registerSpan
  fb := (e.fb + wholeMwh e.rFb excess) % registerSpan
  rImp := (e.rImp + tPrime) % 3600
  rExp := (e.rExp + x) % 3600
  rFb := (e.rFb + excess) % 3600

/-! ### A period's results -/

/-- Everything that stages 1 to 4 and the indicators give for a period, from its latched inputs (R1). -/
structure PeriodOut where
  energy : Energy
  live : LiveValues
  n : Nat
  m : Nat
  f : Nat
  tPrime : Nat
  overrange : Bool
  reverse : Bool
  noVoltage : Bool
  imbalance : Bool
  bypass : Bool
  magnet : Bool
  deriving DecidableEq, Repr

/-- The live values of a phase (R12). -/
def phaseLive (x : Scaled) (e : Effective) : PhaseLive := ⟨x.v, x.i, x.p, x.overrange, e.noVoltage, e.creep, e.reverse⟩

/-- The imbalance test (R6). -/
def imbalanced (m : Metering) (iMax iRes : Nat) : Bool := decide (m.iMin ≤ iMax ∧ max 500 (iMax / 8) < iRes)

/-- The bypass test (R98): the mark taken for the period, and load-side voltage above 40 V or current. -/
def bypassed (mark : Bool) (m : Metering) (loadSide : PerPhase Nat) (iMax : Nat) : Bool :=
  mark && (anyPhase (fun v => decide (4000 < v)) loadSide || decide (m.iMin ≤ iMax))

/-- The results of the period that ends in state s (R1, R3 to R9). -/
def periodOut (p : PeriodInput) (s : State) : PeriodOut :=
  let m := s.cau.settings.metering
  let x := scaleAll p.phases s.ee.gains
  let e := mapPhase (effective m) x
  let t := sumPhase (fun y => y.imp) e
  let export_ := sumPhase (fun y => y.exp) e
  let tp := billedTotal (fallbackInForce s) m.pDef t
  let iMax := maxPhase (fun y => y.i) x
  let g := quantize s.ee.energy tp export_ (tp - t)
  { energy := g,
    live := ⟨⟨phaseLive x.a e.a, phaseLive x.b e.b, phaseLive x.c e.c⟩, p.iRes, tp, export_, g, s.bat.clock⟩,
    n := wholeMwh s.ee.energy.rImp tp, m := wholeMwh s.ee.energy.rExp export_, f := wholeMwh s.ee.energy.rFb (tp - t),
    tPrime := tp, overrange := anyPhase (fun y => y.overrange) x,
    reverse := anyPhase (fun y => y.reverse) e, noVoltage := anyPhase (fun y => y.noVoltage) e,
    imbalance := imbalanced m iMax p.iRes, bypass := bypassed s.swc.mark m p.loadSide iMax,
    magnet := decide (1600 < p.magnetHits) }

/-- The registers, residues and live values of a billed period (R8 to R12). -/
def takeResults (o : PeriodOut) (s : State) : State := { s with ee := { s.ee with energy := o.energy, live := o.live } }

/-- One hand-off of a billed period (R11, R106). R27 puts the boundary test after its steps 1 and 2; that it also comes
after the disconnect evaluation of step 4 is the model's choice (log 64). -/
def handOff (o : PeriodOut) (s : State) : Arrival → State
  | .billing =>
    testBoundary o.live.endTime
      (billInterval o.n o.m o.f o.tPrime o.live.endTime o.overrange (billPeriod o.n o.live.endTime s))
  | .limiter => limiterHandOff o.tPrime s
  | .reverse => indicator .reverse o.reverse s
  | .imbalance => indicator .imbalance o.imbalance s
  | .bypass => indicator .bypass o.bypass s
  | .noVoltage => indicator .noVoltage o.noVoltage s
  | .magnet => indicator .magnet o.magnet s

/-- Each hand-off once: those of the order given, then the rest (log 6). -/
def eachOnce (order : List Arrival) : List Arrival :=
  (order ++ Arrival.all).foldl (fun seen a => if seen.contains a then seen else seen ++ [a]) []

/-- The hand-offs of a period in order. -/
def handOffs (o : PeriodOut) (order : List Arrival) (s : State) : State := (eachOnce order).foldl (handOff o) s

/-! ### READ_LIVE results (R13, section 10.5) -/

/-- The result bytes of a part of the live values, from slot offset 12. -/
def liveResult (totals : Bool) (v : LiveValues) : List Byte :=
  if totals then
    le 4 v.endTime ++ le 4 v.iRes ++ le 4 v.tPrime ++ le 4 v.x ++ le 8 v.energy.imp ++ le 8 v.energy.exp ++
      le 8 v.energy.fb ++ le 2 v.energy.rImp ++ le 2 v.energy.rExp ++ le 2 v.energy.rFb
  else le 4 v.endTime ++ phaseBlock v.phases.a ++ phaseBlock v.phases.b ++ phaseBlock v.phases.c

/-- Writes that were deferred are made, in order (R171). -/
def applyDeferred (m : Memory) (l : List (Nat × List Byte)) : Memory := l.foldl (fun n w => writeBytes n w.1 w.2) m

/-- A standing request's rewrite: the count raised by 1, and the result; deferred past a READ in progress (R14). -/
def rewriteStanding (q : Standing) (v : LiveValues) (x : Exc) : Exc :=
  let a := slotAddr q.slot
  let count := (fromLe (readBytes (applyDeferred x.mem x.deferred) (a + 6) 2) + 1) % 65536
  let w := [(a + 6, le 2 count), (a + 12, liveResult q.totals v)]
  if isReading x then { x with deferred := x.deferred ++ w } else { x with mem := applyDeferred x.mem w }

/-- One standing request at a billed period end (R14). -/
def standStep (v : LiveValues) (x : Exc) (q : Standing) : Exc :=
  if q.every ≤ q.since + 1 then
    let x := rewriteStanding q v x
    { x with standing := x.standing ++ [{ q with since := 0 }] }
  else { x with standing := x.standing ++ [{ q with since := q.since + 1 }] }

/-- Every standing request counts the billed period (R14). -/
def standingPeriod (s : State) : State :=
  { s with exc := s.exc.standing.foldl (standStep s.ee.live) { s.exc with standing := [] } }

end Sys2Proof.Machine
end

