-- ==== Sys2Proof/Machine/Operands.lean ====
section
/-! DEFINITION. Machine/Operands.lean: what the commands read: slot parameters, code strings and clear blocks (R51, R52),
packages (R73 to R77) and windows (R71, R178). -/

namespace Sys2Proof.Machine

open Sys2Proof

/-! ### Slot parameters -/

/-- The parameter of n bytes at slot offset off, from the bytes latched at the take (R174). -/
def Request.par (r : Request) (off n : Nat) : Nat := field r.params (off - 8) n

/-- The request that a kind byte names (section 10.5). -/
def reqKind (code : Nat) : Option ReqKind :=
  match code with
  | 0x01 => some .applyCode
  | 0x02 => some .applyPackage
  | 0x03 => some .takeEmergency
  | 0x10 => some .setTime
  | 0x11 => some .switchOpen
  | 0x12 => some .switchRelease
  | 0x13 => some .calibrate
  | 0x14 => some .identify
  | 0x15 => some .installKey
  | 0x16 => some .commission
  | 0x17 => some .testSwitch
  | 0x20 => some .readLive
  | 0x21 => some .readProfile
  | 0x22 => some .readTamperLog
  | 0x23 => some .readEvidence
  | 0x24 => some .readCodes
  | 0x25 => some .readSettings
  | _ => none

/-- A window of the bulk region as R178 clamps and rounds it: its entry places, or none when it is refused. -/
def windowRoom (offset len : Nat) : Option Nat :=
  if 4096 ≤ offset then none
  else
    let places := min len (4096 - offset) / 32
    if places = 0 then none else some places

/-! ### Codes (R51, R52) -/

/-- A byte is an ASCII digit. -/
def isDigit (b : Byte) : Bool := decide (48 ≤ b.toNat ∧ b.toNat ≤ 57)

/-- The decimal number of digit characters, the first most significant. -/
def decimal (cs : List Byte) : Nat := cs.foldl (fun a b => 10 * a + (b.toNat - 48)) 0

/-- The integer X of a code string, or none when it is malformed (R51). -/
def codeNumber (cs : List Byte) : Option Nat :=
  if cs.length = 18 ∧ cs.all isDigit = true ∧ decimal cs < 576460752303423488 then some (decimal cs) else none

/-- The fields of a clear block (R52). -/
structure ClearBlock where
  kind : Nat
  issue : Nat
  value : Nat
  check : Nat
  deriving DecidableEq, Repr

/-- The fields as the 59 bits hold them: check in bits 0 to 14, value 15 to 38, issue 39 to 54, kind 55 to 58. -/
def clearFields (w : BitVec 59) : ClearBlock :=
  ⟨w.toNat / 2 ^ 55 % 16, w.toNat / 2 ^ 39 % 65536, w.toNat / 2 ^ 15 % 16777216, w.toNat % 32768⟩

/-- An authentic block's kind or value is refused (R52). -/
def badKind (b : ClearBlock) : Bool :=
  decide (3 ≤ b.kind) || (b.kind == 2 && b.value != 0) || (b.kind == 1 && decide (256 ≤ b.value))

/-! ### Package structure (R73, R74) -/

/-- The body length that a section type requires, from its body's count byte where it has one (R73); none when the
type or the count is out of range. -/
def bodyLength (type : Nat) (body : List Byte) : Option Nat :=
  match type with
  | 1 => some 16
  | 2 => let n := field body 1 1; if 1 ≤ n ∧ n ≤ 8 then some (2 + 3 * n) else none
  | 3 => let n := field body 1 1; if n ≤ 4 then some (2 + 4 * n) else none
  | 4 => some 8
  | 5 => some 8
  | 6 => some 4
  | 7 => some 4
  | 8 => some 8
  | 9 => some 13
  | 10 => let n := field body 0 1; if n ≤ 4 then some (1 + 6 * n) else none
  | 11 => some 1
  | 12 => some 4
  | _ => none

/-- Items of a fixed width read from a body, from an offset on. -/
def items {α : Type} (f : Nat → α) (off width : Nat) : Nat → List α
  | 0 => []
  | n + 1 => f off :: items f (off + width) width n

/-- The fields of a well-formed body (section 10.8). -/
def parseBody (type : Nat) (body : List Byte) : Section :=
  match type with
  | 1 => .bandPrices (field body 0 4) (field body 4 4) (field body 8 4) (field body 12 4)
  | 2 => .daySchedule (field body 0 1 == 1) (items (fun o => ⟨field body o 2, field body (o + 2) 1⟩) 2 3 (field body 1 1))
  | 3 => .friendly (field body 0 1 == 1) (items (fun o => ⟨field body o 2, field body (o + 2) 2⟩) 2 4 (field body 1 1))
  | 4 => .emergency (field body 0 4) (field body 4 4)
  | 5 => .thresholds (field body 0 4) (field body 4 4)
  | 6 => .fixedCharge (field body 0 4)
  | 7 => .loadLimit (field body 0 4)
  | 8 => .tamperPolicy ⟨field body 0 1, field body 1 1, field body 2 1, field body 3 1, field body 4 1, field body 5 1,
      field body 6 1, field body 7 1⟩
  | 9 => .metering (field body 0 1) (field body 1 4) (field body 5 4) (field body 9 2) (field body 11 2)
  | 10 => .groupAddresses (items (fun o => slice body o 6) 1 6 (field body 0 1))
  | 11 => .profileInterval (field body 0 1)
  | _ => .clock (field body 0 4)

/-- Which sections exclude each other: the type, and for schedules and windows the day type too (R74). -/
def sectionKey (type : Nat) (body : List Byte) : Nat :=
  2 * type + (if type = 2 ∨ type = 3 then field body 0 1 else 0)

/-- A section's body is as R74 asks, and no earlier section excludes it. -/
def bodyOk (type : Nat) (body : List Byte) (seen : List Nat) : Bool :=
  bodyLength type body == some body.length && ((type != 2 && type != 3) || decide (field body 0 1 ≤ 1)) &&
    !seen.contains (sectionKey type body)

/-- The sections read one after another: the faulty section's index, or the sections and the bytes after them
(R74; log 13). -/
def readSections : Nat → Nat → List Byte → List Nat → Except Nat (List Section × List Byte)
  | 0, _, bs, _ => .ok ([], bs)
  | n + 1, i, bs, seen =>
    let type := field bs 0 1
    let len := field bs 1 1
    let body := (bs.drop 2).take len
    if bs.length < 2 + len then .error i
    else if bodyOk type body seen then
      match readSections n (i + 1) (bs.drop (2 + len)) (sectionKey type body :: seen) with
      | .ok (l, rest) => .ok (parseBody type body :: l, rest)
      | .error j => .error j
    else .error i

/-- The sections of a package, or the section index of its first structural fault, 0 for the header or the total
length (R74). -/
def parsePackage (bs : List Byte) : Except Nat (List Section) :=
  let count := field bs 12 1
  if bs.length < 13 ∨ count = 0 ∨ 16 < count then .error 0
  else match readSections count 1 (bs.drop 13) [] with
    | .ok (l, rest) => if rest.length = 8 then .ok l else .error 0
    | .error i => .error i

/-- A header field of a package; when the package is shorter than its header, 0: R81 says so of the number, and the
effective time is the model's choice (log 50). -/
def headerField (bs : List Byte) (off : Nat) : Nat := if bs.length < 13 then 0 else field bs off 4

/-- The package check agrees (R75). -/
def checkAgrees (key : BitVec 128) (bs : List Byte) : Bool :=
  let body := bs.take (bs.length - 8)
  Config.packageCheck key body == BitVec.ofNat 64 (fromLe (bs.drop (bs.length - 8)))

/-! ### Ranges (R76, R77) -/

/-- The minutes of a schedule rise strictly and the bands are 0 to 3. -/
def risingPoints : List SwitchPoint → Bool
  | [] => true
  | [p] => decide (p.minute ≤ 1439 ∧ p.band ≤ 3)
  | p :: q :: rest => decide (p.minute ≤ 1439 ∧ p.band ≤ 3 ∧ p.minute < q.minute) && risingPoints (q :: rest)

/-- A day schedule is valid: its first point is at minute 0 too. -/
def scheduleOk (l : List SwitchPoint) : Bool := ((l.head?).map (fun p => p.minute) == some 0) && risingPoints l

/-- Windows lie within a day and share no minute. -/
def windowsOk : List Window → Bool
  | [] => true
  | w :: rest =>
    decide (w.first < w.stop ∧ w.stop ≤ 1440) && rest.all (fun x => decide (w.stop ≤ x.first ∨ x.stop ≤ w.first)) &&
      windowsOk rest

/-- Every value of a section lies in its range (R76, R77). -/
def sectionOk : Section → Bool
  | .bandPrices a b c d => decide (a ≤ 9999999 ∧ b ≤ 9999999 ∧ c ≤ 9999999 ∧ d ≤ 9999999)
  | .daySchedule _ l => scheduleOk l
  | .friendly _ l => windowsOk l
  | .emergency e o => decide (e ≤ 2000000 ∧ o ≤ 2000000)
  | .thresholds l1 l2 => decide (l1 ≤ 99999999 ∧ l2 ≤ l1)
  | .fixedCharge f => decide (f ≤ 1000000)
  | .loadLimit p => decide (p ≤ 132000)
  | .tamperPolicy p => p.toList.all (fun x => decide (x ≤ 3))
  | .metering r a b c d => decide (r ≤ 1 ∧ a ≤ 50000 ∧ b ≤ 40000000 ∧ 10 ≤ c ∧ c ≤ 1000 ∧ 20000 ≤ d ∧ d ≤ 25000)
  | .groupAddresses _ => true
  | .profileInterval n => n == 15 || n == 30 || n == 60
  | .clock _ => true

/-- A section is a CLOCK section. -/
def isClock : Section → Bool
  | .clock _ => true
  | _ => false

/-- The 1-based index of the first section that satisfies p, or 0. -/
def firstIndex (p : Section → Bool) (l : List Section) : Nat := if l.any p then l.findIdx p + 1 else 0

/-- The section index that BAD_VALUE names, or 0: a CLOCK section beside an effective time, else the first bad value
(R75, R76). -/
def badValueIndex (effTime : Nat) (l : List Section) : Nat :=
  if effTime ≠ 0 ∧ l.any isClock = true then firstIndex isClock l else firstIndex (fun x => !sectionOk x) l

/-! ### The package decision (R78) -/

/-- What the decision finds: the outcome, the section index it names, and the sections. -/
structure PackageVerdict where
  result : Result
  section_ : Nat
  sections : List Section
  deriving DecidableEq, Repr

/-- The target serial agrees with the meter serial (R75). With no complete record no package reaches that (R163; log 54). -/
def serialAgrees (target : Nat) (s : State) : Bool := target == s.cau.serial && (newestRecord s.flash.records).isSome

/-- The first outcome of R78 whose condition holds. -/
def judgePackage (bs : List Byte) (s : State) : PackageVerdict :=
  if !s.psv.inService then ⟨.notCommissioned, 0, []⟩
  else match parsePackage bs with
    | .error i => ⟨.badFormat, i, []⟩
    | .ok l =>
      if !checkAgrees s.cau.key bs then ⟨.badCheck, 0, []⟩
      else if !serialAgrees (headerField bs 4) s then ⟨.wrongMeter, 0, []⟩
      else if headerField bs 0 ≤ s.cau.lastPkg then ⟨.old, 0, []⟩
      else if badValueIndex (headerField bs 8) l ≠ 0 then ⟨.badValue, badValueIndex (headerField bs 8) l, []⟩
      else if s.stc.fault then ⟨.storeFault, 0, []⟩
      else if headerField bs 8 = 0 then ⟨.accepted, 0, l⟩
      else ⟨.pending, 0, l⟩

end Sys2Proof.Machine
end

