-- ==== Sys2Proof/Machine/Codes.lean ====
section
/-! DEFINITION. Machine/Codes.lean: the code acceptance unit's queue, penalties, decisions and outcomes, the keypad and
TAKE_EMERGENCY (chapter 03). -/

namespace Sys2Proof.Machine

open Sys2Proof

/-! ### Lanes -/

/-- The CODE lane is occupied by a code or package that has lost its slot (R64, R175). -/
def codeOccupied (c : Cau) : Bool :=
  c.queue.any (fun e => decide (e.src = .exchange) && e.slot.isNone) ||
    (match c.pkg with
      | some p => p.slot.isNone
      | none => false)

/-- The CONTROL lane is occupied by a lifecycle request or a TEST_SWITCH attempt that has lost its slot (R175). -/
def controlOccupied (s : State) : Bool :=
  (match s.psv.req with
    | some r => r.slot.isNone
    | none => false) ||
  (match s.swc.drive with
    | some d => d.test && d.slot.isNone
    | none => false)

/-- The head of a lane that is free to begin it, when it is of kind k. -/
def headOf (free : Bool) (l : Lane) (k : ReqKind) : Option Request :=
  match l.queue with
  | r :: _ => if free && !l.begun && decide (r.kind = k) then some r else none
  | [] => none

/-- Requests begin in RUN while the exchange is live (R175, R187). That a request taken between steps 8 and 9 of a start,
when the exchange is live already, waits at the head of its lane until RUN is the model's choice (log 70). -/
def lanesRun (s : State) : Bool := s.psv.power == .run && s.exc.live

/-- The head of the CODE lane, about to begin, when it is of kind k. -/
def codeHead (k : ReqKind) (s : State) : Option Request :=
  headOf (lanesRun s && !codeOccupied s.cau) s.exc.code k

/-- The head of the CONTROL lane, about to begin, when it is of kind k. -/
def controlHead (k : ReqKind) (s : State) : Option Request :=
  headOf (lanesRun s && !controlOccupied s) s.exc.control k

/-- The head of the QUERY lane, about to begin, when it is of kind k. -/
def queryHead (k : ReqKind) (s : State) : Option Request := headOf (lanesRun s) s.exc.query k

/-- The head of the CODE lane is in execution. -/
def beginCode (s : State) : State := { s with exc := { s.exc with code := { s.exc.code with begun := true } } }

/-- The head of the CONTROL lane is in execution. -/
def beginControl (s : State) : State := { s with exc := { s.exc with control := { s.exc.control with begun := true } } }

/-! ### Penalties (R49, R50) -/

/-- A source is blocked (R49). -/
def blocked (src : Source) (s : State) : Bool := decide (0 < (s.bat.penalties.get src).timer.left)

/-- The penalty of a source is changed by f. -/
def mapPenalty (src : Source) (f : Penalty → Penalty) (s : State) : State :=
  { s with bat := { s.bat with penalties := s.bat.penalties.set src (f (s.bat.penalties.get src)) } }

/-- The penalty after an outcome (R50, R78). -/
def penaltyAfter (r : Result) (p : Penalty) : Penalty :=
  match r with
  | .badFormat | .badCheck | .badKind => ⟨min 11 (p.count + 1), startTimer (min 1024 (2 ^ p.count))⟩
  | .accepted | .partly | .pending => { p with count := 0 }
  | _ => p

/-- BLOCK_TIMER_EXPIRY: the source is no longer blocked (R50). -/
def blockExpiry (src : Source) (s : State) : State :=
  if s.psv.power == .run && (s.bat.penalties.get src).timer.due then
    mapPenalty src (fun p => { p with timer := Timer.stopped }) s
  else s

/-- BLOCK_TIMER_EXPIRY. -/
def execBlockTimerExpiry (src : Source) (s : State) : Host.Outcome State Fault Refusal := done (blockExpiry src s)

/-! ### Submission (R47, R49) -/

/-- The refusal that a submission meets, if any: the penalty test, then the queue test. -/
def submissionRefusal (src : Source) (s : State) : Option Result :=
  if blocked src s then some .blocked else if 4 ≤ s.cau.queue.length then some .busy else none

/-- A submission joins the tail of the code queue (R47). -/
def enqueueCode (e : CodeEntry) (s : State) : State := { s with cau := { s.cau with queue := s.cau.queue ++ [e] } }

/-! ### Outcomes (R59) -/

/-- The amount bytes of the results, from slot offset 12: for a CLEAR_TAMPER code the cleared and the kept mask alone,
else 10 times the value of a CREDIT code, or 0 (R59, section 10.5). -/
def amountBytes (kind amount : Nat) : List Byte :=
  if kind = 1 then le 2 amount else le 4 (if kind = 0 then 10 * amount else amount)

/-- The results of a code in its slot (section 10.5); bytes that they do not name keep what they held (R172). -/
def codeResults (kind issue amount : Nat) (b : Int) : List (Nat × List Byte) :=
  [(8, [byte kind]), (10, le 2 issue), (12, amountBytes kind amount), (16, leInt 4 b)]

/-- A code's outcome is given to its source (R59): to the slot while it has one, else as a CODE_RESULT notice. -/
def giveOutcome (src : Source) (slot : Option (Fin 16)) (r : Result) (kind issue amount : Nat) (s : State) : State :=
  match slot with
  | some i => popCode (complete i r 0 0 (codeResults kind issue amount s.ce.money.b) s)
  | none => post (.codeResult src r kind issue amount s.ce.money.b) s

/-- The head entry leaves the code queue. -/
def dropHead (s : State) : State := { s with cau := { s.cau with queue := s.cau.queue.tail, applied := none } }

/-! ### The decision (R53) -/

/-- What the decision gives the head entry. -/
inductive CodeVerdict where
  | refused (r : Result) (kind issue amount : Nat)
  | apply (b : ClearBlock)
  deriving DecidableEq, Repr

/-- Outcomes 5 to 10 of an authentic, valid block (R53). -/
def judgeBlock (b : ClearBlock) (s : State) : CodeVerdict :=
  let amount := if b.kind = 0 then b.value else 0
  if b.issue ≤ s.cau.codes.floor then .refused .old b.kind b.issue amount
  else if s.cau.codes.table.contains b.issue then .refused .used b.kind b.issue amount
  else if b.kind = 0 ∧ freezeInForce s = true then .refused .frozen b.kind b.issue amount
  else if b.kind = 0 ∧ balanceCeiling < s.ce.money.b + (10 * b.value : Nat) then
    .refused .overLimit b.kind b.issue amount
  else if s.stc.fault then .refused .storeFault b.kind b.issue amount
  else .apply b

/-- The clear block of an integer X under the code key (R52). -/
def decodeBlock (key : BitVec 128) (x : Nat) : ClearBlock := clearFields (Config.authenticate key x)

/-- The check field of a block agrees (R52). -/
def blockAuthentic (key : BitVec 128) (b : ClearBlock) : Bool := Config.codeCheck key b.kind b.issue b.value == b.check

/-- The first outcome of R53 whose condition holds. -/
def judgeCode (chars : List Byte) (s : State) : CodeVerdict :=
  if !s.psv.inService then .refused .notCommissioned 0 0 0
  else match codeNumber chars with
    | none => .refused .badFormat 0 0 0
    | some x =>
      let b := decodeBlock s.cau.key x
      if !blockAuthentic s.cau.key b then .refused .badCheck 0 0 0
      else if badKind b then .refused .badKind b.kind b.issue 0
      else judgeBlock b s

/-- An issue number at its place in ascending order. -/
def insertSorted (n : Nat) : List Nat → List Nat
  | [] => [n]
  | x :: rest => if n < x then n :: x :: rest else x :: insertSorted n rest

/-- The issue number is inserted; the smallest of 33 becomes the floor (R54). -/
def insertIssue (n : Nat) (c : Codes) : Codes :=
  let t := insertSorted n c.table
  match t with
  | x :: rest => if 32 < t.length then ⟨rest, x⟩ else ⟨t, c.floor⟩
  | [] => c

/-- The effect of an applied code (R55 to R57). -/
def codeEffect (b : ClearBlock) (s : State) : State :=
  match b.kind with
  | 0 => addCredit (10 * b.value) s
  | 1 => clearTamper b.value s
  | _ => loadUnlock s

/-- What the apply keeps for its outcome: ACCEPTED, or PARTIAL when declared kinds are kept (R56), with the amount
field of R190. -/
def appliedOf (b : ClearBlock) (s : State) : Applied :=
  if b.kind = 1 then
    ⟨if keptMask b.value s = 0 then .accepted else .partly, 1, b.issue, clearedMask b.value s + 256 * keptMask b.value s⟩
  else ⟨.accepted, b.kind, b.issue, if b.kind = 0 then b.value else 0⟩

/-- An apply (R53): the issue number, the effect of the kind, and the CODE save, in that order. -/
def applyBlock (b : ClearBlock) (s : State) : State :=
  let a := appliedOf b s
  let s := codeEffect b { s with cau := { s.cau with codes := insertIssue b.issue s.cau.codes } }
  arrive (.save .code) { s with cau := { s.cau with applied := some a } }

/-- CODE_DECISION: the head entry, whose decode has ended, is decided in RUN (R48, R53, R65). -/
def codeDecision (s : State) : State :=
  match s.cau.queue, s.cau.applied with
  | e :: _, none =>
    if s.psv.power == .run then
      match judgeCode e.chars s with
      | .refused r kind issue amount =>
        dropHead (giveOutcome e.src e.slot r kind issue amount (mapPenalty e.src (penaltyAfter r) s))
      | .apply b => applyBlock b s
    else s
  | _, _ => s

/-- CODE_DECISION. -/
def execCodeDecision (s : State) : Host.Outcome State Fault Refusal := done (codeDecision s)

/-- The commit save of the head entry ends (R58): its outcome, or STORE_FAULT; the penalty state follows an outcome
of an applied code only. -/
def codeCommitted (ok : Bool) (s : State) : State :=
  match s.cau.queue, s.cau.applied with
  | e :: _, some a =>
    let r := if ok then a.result else Result.storeFault
    dropHead (giveOutcome e.src e.slot r a.kind a.issue a.amount (mapPenalty e.src (penaltyAfter r) s))
  | _, _ => s

/-! ### APPLY_CODE and TAKE_EMERGENCY (R62, R63) -/

/-- APPLY_CODE at the head of the CODE lane (R63). -/
def applyCode (s : State) : State :=
  match codeHead .applyCode s with
  | some r =>
    let n := r.par 8 1
    if 40 < n then popCode (complete r.slot .badRequest 0 0 [] s)
    else match submissionRefusal .exchange s with
      | some x => giveOutcome .exchange (some r.slot) x 0 0 0 s
      | none => beginCode (enqueueCode ⟨.exchange, slice r.params 1 n, some r.slot⟩ s)
  | none => s

/-- APPLY_CODE. -/
def execApplyCode (s : State) : Host.Outcome State Fault Refusal := done (applyCode s)

/-- TAKE_EMERGENCY at the head of the CODE lane: decided at once, with E and B (R33, R62). -/
def takeEmergency (s : State) : State :=
  match codeHead .takeEmergency s with
  | some r =>
    let x := emergencyResult s
    let s := decideEmergency s
    popCode (complete r.slot x 0 0 [(12, le 4 s.cau.settings.e), (16, leInt 4 s.ce.money.b)] s)
  | none => s

/-- TAKE_EMERGENCY. -/
def execTakeEmergency (s : State) : Host.Outcome State Fault Refusal := done (takeEmergency s)

/-! ### Keypad (R60, R61) -/

/-- The entry buffer after a key; the idle timer restarts, and is stopped while the buffer is empty (R61). -/
def setKeys (l : List (Fin 10)) (s : State) : State :=
  { s with kps := ⟨l, if l.isEmpty then Timer.stopped else startTimer 30⟩ }

/-- A digit as its ASCII character. -/
def digitByte (d : Fin 10) : Byte := byte (48 + d.val)

/-- '#' with digits in the buffer: "000" asks for emergency credit, any other entry is submitted as a code (R60). -/
def submitKeys (s : State) : State :=
  if s.kps.buf = [0, 0, 0] then
    let x := emergencyResult s
    let s := decideEmergency s
    setKeys [] (post (.emergencyResult x s.cau.settings.e s.ce.money.b) s)
  else match submissionRefusal .keypad s with
    | some r => setKeys s.kps.buf (giveOutcome .keypad none r 0 0 0 s)
    | none => setKeys [] (enqueueCode ⟨.keypad, s.kps.buf.map digitByte, none⟩ s)

/-- KEY_PRESS in RUN (R60). -/
def keyPress (k : Key) (s : State) : State :=
  if s.psv.power == .run then
    match k with
    | .digit d => if s.kps.buf.length < 18 then setKeys (s.kps.buf ++ [d]) s else setKeys s.kps.buf s
    | .star => setKeys s.kps.buf.dropLast s
    | .hash => if s.kps.buf.isEmpty then s else submitKeys s
  else s

/-- KEY_PRESS. -/
def execKeyPress (k : Key) (s : State) : Host.Outcome State Fault Refusal := done (keyPress k s)

/-- KEYPAD_IDLE_TIMER_EXPIRY: the buffer is cleared without notice (R61). -/
def keypadIdle (s : State) : State := if s.psv.power == .run && s.kps.idle.due then setKeys [] s else s

/-- KEYPAD_IDLE_TIMER_EXPIRY. -/
def execKeypadIdleTimerExpiry (s : State) : Host.Outcome State Fault Refusal := done (keypadIdle s)

end Sys2Proof.Machine
end

