-- ==== Sys2Proof/Machine/Radio.lean ====
section
/-! DEFINITION. Machine/Radio.lean: the radio line receiver (section 3.12). -/

namespace Sys2Proof.Machine

open Sys2Proof

/-- The recognizer takes a state. -/
def setRx (x : Recognizer) (s : State) : State := { s with rlr := { s.rlr with rx := x } }

/-- The address is the meter's own radio address (R68). -/
def ownAddress (s : State) (a : List Byte) : Bool := a != zeroAddr && a == s.rlr.radioAddr

/-- The address matches: the radio address or a group address, never six zero bytes (R68). -/
def addressMatches (s : State) (a : List Byte) : Bool :=
  a != zeroAddr && (a == s.rlr.radioAddr || s.cau.settings.groups.contains a)

/-- The check of a call over its kind, length and payload bytes, at offset 18 of the bytes taken (R67). -/
def callCheck (taken : List Byte) : Nat :=
  let len := field taken 19 1
  (65536 - (((taken.drop 18).take (2 + len)).foldl (fun a b => a + b.toNat) 0) % 65536) % 65536

/-- The two check bytes of a call, high byte first, agree (R67). -/
def callValid (taken : List Byte) : Bool :=
  let len := field taken 19 1
  decide (256 * field taken (20 + len) 1 + field taken (21 + len) 1 = callCheck taken)

/-- The call is captured unless a capture is held (R69). -/
def captureCall (call : List Byte) (s : State) : State :=
  if s.rlr.captureHeld then s
  else { s with rlr := { s.rlr with captureHeld := true, capture := call }, exc := { s.exc with wake := true } }

/-- A payload is submitted as a RADIO code; a refusal drops it and is reported (R68). -/
def submitRadio (payload : List Byte) (s : State) : State :=
  match submissionRefusal .radio s with
  | some r => giveOutcome .radio none r 0 0 0 s
  | none => enqueueCode ⟨.radio, payload, none⟩ s

/-- A valid call (R68, R69): the capture, then the submission of a 'C' call whose match was with the meter's own
address. -/
def takeCall (own : Bool) (call : List Byte) (s : State) : State :=
  let s := captureCall call s
  if field call 18 1 = 67 ∧ own = true then submitRadio (slice call 20 (field call 19 1)) s else s

/-- A byte in HUNT (R66). -/
def huntByte (count : Nat) (b : Byte) : Recognizer :=
  if b = 0x96 then (if count + 1 = 4 then .sync else .hunt (count + 1)) else .hunt 0

/-- A byte in ADDRESS: copies agree with the first, and the eighteenth byte needs a match, made with the address of
that moment (R67, R163). -/
def addressByte (s : State) (taken : List Byte) (b : Byte) : Recognizer :=
  let all := taken ++ [b]
  if 6 ≤ taken.length ∧ taken.getD (taken.length % 6) 0 ≠ b then .hunt 0
  else if all.length = 18 then (if addressMatches s (all.take 6) then .kind (ownAddress s (all.take 6)) all else .hunt 0)
  else .address all

/-- A byte in LENGTH (R67). -/
def lengthByte (own : Bool) (taken : List Byte) (b : Byte) : Recognizer :=
  if 40 < b.toNat then .hunt 0
  else if b.toNat = 0 then .check own (taken ++ [b])
  else .payload own (taken ++ [b]) b.toNat

/-- A byte in CHECK: the second one ends the call (R67). -/
def checkByte (own : Bool) (taken : List Byte) (b : Byte) (s : State) : State :=
  let all := taken ++ [b]
  if all.length < 22 + field taken 19 1 then setRx (.check own all) s
  else if callValid all then takeCall own all (setRx (.hunt 0) s)
  else setRx (.hunt 0) s

/-- A byte whose stop bit is as it should be moves the recognizer (R66, R67). -/
def framedByte (b : Byte) (s : State) : State :=
  match s.rlr.rx with
  | .hunt n => setRx (huntByte n b) s
  | .sync => if b = 0x96 then s else setRx (.address [b]) s
  | .address taken => setRx (addressByte s taken b) s
  | .kind own taken => setRx (.length own (taken ++ [b])) s
  | .length own taken => setRx (lengthByte own taken b) s
  | .payload own taken left =>
    setRx (if left ≤ 1 then .check own (taken ++ [b]) else .payload own (taken ++ [b]) (left - 1)) s
  | .check own taken => checkByte own taken b s

/-- A byte of the radio line in RUN; a framing error is a mismatch (R66, R67). -/
def lineByte (b : Byte) (framed : Bool) (s : State) : State :=
  if s.psv.power == .run then (if framed then framedByte b s else setRx (.hunt 0) s) else s

/-- RADIO_LINE_BYTE. -/
def execRadioLineByte (b : Byte) (framed : Bool) (s : State) : Host.Outcome State Fault Refusal :=
  done (lineByte b framed s)

/-- RADIO_CALL: the bytes of a burst, each with its stop bit (log 6). -/
def radioCall (bytes : List Byte) (s : State) : State := bytes.foldl (fun t b => lineByte b true t) s

/-- RADIO_CALL. -/
def execRadioCall (bytes : List Byte) (s : State) : Host.Outcome State Fault Refusal := done (radioCall bytes s)

/-- The recognizer is in HUNT. -/
def inHunt : Recognizer → Bool
  | .hunt _ => true
  | _ => false

/-- RADIO_GAP_TIMER_EXPIRY: outside HUNT, recognition restarts (R66). -/
def radioGap (s : State) : State := if s.psv.power == .run && !inHunt s.rlr.rx then setRx (.hunt 0) s else s

/-- RADIO_GAP_TIMER_EXPIRY. -/
def execRadioGapTimerExpiry (s : State) : Host.Outcome State Fault Refusal := done (radioGap s)

/-- The capture is released: the flag and the area are cleared and WAKE is deasserted (R69). -/
def clearCapture (s : State) : State :=
  { s with rlr := { s.rlr with captureHeld := false, capture := [] }, exc := { s.exc with wake := false } }

end Sys2Proof.Machine
end

