-- ==== Sys2Proof/Machine/Control.lean ====
section
/-! DEFINITION. Machine/Control.lean: the CONTROL lane: SET_TIME, the switch requests, and the lifecycle (chapters 02,
05, 08). -/

namespace Sys2Proof.Machine

open Sys2Proof

/-- The head of the CONTROL lane completes (R175). -/
def finishControl (i : Fin 16) (r : Result) (flags : Nat) (results : List (Nat × List Byte)) (s : State) : State :=
  popControl (complete i r flags 0 results s)

/-! ### SET_TIME (R40, R41) -/

/-- The results of a SET_TIME that is taken: applied step, new meter time, remaining allowance. -/
def timeResults (step : Int) (s : State) : List (Nat × List Byte) :=
  [(12, leInt 4 step), (16, le 4 s.bat.clock), (20, le 2 (allowanceLeft s.bat))]

/-- A step as reported: clamped to the signed 32-bit range (R41). -/
def reportedStep (x : Int) : Int :=
  if x > 2147483647 then 2147483647 else if x < -2147483648 then -2147483648 else x

/-- SET_TIME in DELTA mode (R40). -/
def setDelta (i : Fin 16) (x : Int) (s : State) : State :=
  if s.bat.clockValid then
    let a := appliedStep x s.bat
    let s := steer a s
    finishControl i .ok (2 * flagNat (a != x)) (timeResults a s) s
  else finishControl i .notNow 0 [] s

/-- SET_TIME in ABSOLUTE mode (R41). -/
def setAbsolute (i : Fin 16) (t1 : Nat) (s : State) : State :=
  if s.bat.clockValid && s.psv.inService then finishControl i .notNow 0 [] s
  else
    let step := reportedStep ((t1 : Int) - s.bat.clock)
    let s := setClock .hostSet t1 s
    finishControl i .ok 0 (timeResults step s) s

/-- SET_TIME at the head of the CONTROL lane. -/
def setTime (s : State) : State :=
  match controlHead .setTime s with
  | some r =>
    (match r.par 8 1 with
      | 0 => setDelta r.slot (signed32 (r.par 12 4)) s
      | 1 => setAbsolute r.slot (r.par 12 4) s
      | _ => finishControl r.slot .badRequest 0 [] s)
  | none => s

/-- SET_TIME. -/
def execSetTime (s : State) : Host.Outcome State Fault Refusal := done (setTime s)

/-! ### Switch requests (R99, R100) -/

/-- The results of SWITCH_OPEN and SWITCH_RELEASE. -/
def switchResults (s : State) : List (Nat × List Byte) := [(8, [byte (setCode s.swc.set), byte (switchCode s.swc.sw)])]

/-- SWITCH_OPEN at the head of the CONTROL lane: REMOTE is added (R99). -/
def switchOpen (s : State) : State :=
  match controlHead .switchOpen s with
  | some r =>
    let changed := !s.swc.set.remote
    let s := addReason .remote s
    finishControl r.slot .ok (4 * flagNat changed) (switchResults s) s
  | none => s

/-- SWITCH_OPEN. -/
def execSwitchOpen (s : State) : Host.Outcome State Fault Refusal := done (switchOpen s)

/-- SWITCH_RELEASE at the head of the CONTROL lane: REMOTE is removed (R99). -/
def switchRelease (s : State) : State :=
  match controlHead .switchRelease s with
  | some r =>
    let changed := s.swc.set.remote
    let s := removeReason .remote s
    finishControl r.slot .ok (4 * flagNat changed) (switchResults s) s
  | none => s

/-- SWITCH_RELEASE. -/
def execSwitchRelease (s : State) : Host.Outcome State Fault Refusal := done (switchRelease s)

/-- One attempt of TEST_SWITCH begins in a direction (R100); the mark is cleared (R98). -/
def beginTest (d : Direction) (i : Fin 16) (s : State) : State :=
  let s := setSwitch (match d with
    | .toOpen => .opening
    | .toClose => .closing) s
  beginControl { s with swc := { s.swc with drive := some ⟨d, 1, false, true, some i⟩, mark := false } }

/-- TEST_SWITCH at the head of the CONTROL lane (R100). -/
def testSwitch (s : State) : State :=
  match controlHead .testSwitch s with
  | some r =>
    let d := r.par 8 1
    if 1 < d then finishControl r.slot .badRequest 0 [] s
    else if s.psv.inService then finishControl r.slot .notNow 0 [] s
    else beginTest (if d = 0 then .toOpen else .toClose) r.slot s
  | none => s

/-- TEST_SWITCH. -/
def execTestSwitch (s : State) : Host.Outcome State Fault Refusal := done (testSwitch s)

/-! ### Lifecycle requests (R162 to R167) -/

/-- A lifecycle request is taken: the PSV carries it, and its first store operation is queued. -/
def takeLifecycle (q : Lifecycle) (i : Fin 16) (op : StoreOp) (s : State) : State :=
  arrive op (beginControl { s with psv := { s.psv with req := some ⟨q, some i⟩ } })

/-- The nine gains of a CALIBRATE (R162). -/
def gainsOf (r : Request) : Gains :=
  ⟨⟨r.par 8 2, r.par 10 2, r.par 12 2⟩, ⟨r.par 14 2, r.par 16 2, r.par 18 2⟩, ⟨r.par 20 2, r.par 22 2, r.par 24 2⟩⟩

/-- The gains as bytes. -/
def gainBytes (g : Gains) : List Byte :=
  le 2 g.v.a ++ le 2 g.v.b ++ le 2 g.v.c ++ le 2 g.i.a ++ le 2 g.i.b ++ le 2 g.i.c ++ le 2 g.p.a ++ le 2 g.p.b ++
    le 2 g.p.c

/-- CALIBRATE at the head of the CONTROL lane (R162). -/
def calibrate (s : State) : State :=
  match controlHead .calibrate s with
  | some r =>
    if s.psv.inService then finishControl r.slot .notNow 0 [] s
    else if s.stc.fault then finishControl r.slot .storeFault 0 [] s
    else takeLifecycle .calibrate r.slot (.save .lifecycle) { s with ee := { s.ee with gains := gainsOf r } }
  | none => s

/-- CALIBRATE. -/
def execCalibrate (s : State) : Host.Outcome State Fault Refusal := done (calibrate s)

/-- IDENTIFY at the head of the CONTROL lane (R163). -/
def identify (s : State) : State :=
  match controlHead .identify s with
  | some r =>
    if s.psv.inService then finishControl r.slot .notNow 0 [] s
    else if s.stc.fault then finishControl r.slot .storeFault 0 [] s
    else
      takeLifecycle .identify r.slot (.save .lifecycle)
        { s with cau := { s.cau with serial := r.par 8 4 }, rlr := { s.rlr with radioAddr := slice r.params 4 6 } }
  | none => s

/-- IDENTIFY. -/
def execIdentify (s : State) : Host.Outcome State Fault Refusal := done (identify s)

/-- INSTALL_KEY at the head of the CONTROL lane (R164). -/
def installKey (s : State) : State :=
  match controlHead .installKey s with
  | some r =>
    if s.psv.inService || s.stc.copy.keyInstalled then finishControl r.slot .notNow 0 [] s
    else if s.stc.fault then finishControl r.slot .storeFault 0 [] s
    else
      takeLifecycle .installKey r.slot (.save .lifecycle)
        { s with cau := { s.cau with key := BitVec.ofNat 128 (r.par 8 16) } }
  | none => s

/-- INSTALL_KEY. -/
def execInstallKey (s : State) : Host.Outcome State Fault Refusal := done (installKey s)

/-- COMMISSION at the head of the CONTROL lane (R165). -/
def commission (s : State) : State :=
  match controlHead .commission s with
  | some r =>
    if s.psv.inService then finishControl r.slot .notNow 0 [(8, [1])] s
    else if !s.stc.copy.keyInstalled then finishControl r.slot .notNow 0 [(8, [2])] s
    else if !s.bat.clockValid then finishControl r.slot .notNow 0 [(8, [3])] s
    else if s.stc.fault then finishControl r.slot .storeFault 0 [(8, [0])] s
    else takeLifecycle (.commission 0) r.slot (.bit .commissioned) s
  | none => s

/-- COMMISSION. -/
def execCommission (s : State) : Host.Outcome State Fault Refusal := done (commission s)

/-- The lifecycle request ends (R162 to R167); its result is lost when its slot is. -/
def finishRequest (q : LifecycleReq) (r : Result) (results : List (Nat × List Byte)) (s : State) : State :=
  let s := { s with psv := { s.psv with req := none } }
  match q.slot with
  | some i => finishControl i r 0 results s
  | none => s

/-- The results with which a lifecycle save's completion ends a request; none when the request goes on (R164 step 3). That
COMMISSION returns the open-reason set as it stands at this completion, and not at the lifecycle change, is the model's choice
(log 69). -/
def lifecycleResults (q : Lifecycle) (s : State) : Option (List (Nat × List Byte)) :=
  match q with
  | .calibrate => some [(8, gainBytes s.ee.gains)]
  | .identify => some [(8, le 4 s.cau.serial), (12, s.rlr.radioAddr)]
  | .installKey => none
  | .commission t => some [(8, [0]), (12, le 4 t), (16, leInt 4 0), (20, [byte (setCode s.swc.set)])]

/-- The results of a lifecycle request that ends without success: COMMISSION's detail 0, else none. -/
def failResults : Lifecycle → List (Nat × List Byte)
  | .commission _ => [(8, [0])]
  | _ => []

/-- The save of a lifecycle request ends (R162 to R166). -/
def lifecycleSaved (ok : Bool) (s : State) : State :=
  match s.psv.req with
  | some q =>
    if ok then
      match lifecycleResults q.req s with
      | some results => finishRequest q .ok results s
      | none => arrive (.bit .keyInstalled) s
    else finishRequest q .storeFault (failResults q.req) s
  | none => s

/-- The EE at the lifecycle change: the open interval closes at the meter time, the registers and residues become 0, and
the new interval opens (R20, R10). -/
def commissionEnergy (s : State) : State :=
  let s := rollInterval s.bat.clock (lenOf s) id s.bat.clock s
  { s with ee := { s.ee with energy := Energy.zero } }

/-- The lifecycle change (R166): IN_SERVICE; then EE, CE, TMO and SWC, each as its own event, in this order by the model's
choice (log 34). -/
def lifecycleChange (s : State) : State :=
  commissionSwitch (commissionTamper (commissionCredit (commissionEnergy
    { s with psv := { s.psv with inService := true } })))

/-- How a bit program ended for its owner. -/
inductive BitEnd where
  | passed
  | failed
  | byFault
  deriving DecidableEq, Repr

/-- The request that queued a bit program is told of its end (R164, R165). In HOLD a passed commissioned bit makes the
lifecycle change, and no save is queued (R167). -/
def bitEnded (b : BitName) (e : BitEnd) (s : State) : State :=
  match b, e with
  | .commissioned, .passed =>
    let s := lifecycleChange s
    let s := { s with psv := { s.psv with req := s.psv.req.map (fun q => { q with req := .commission s.bat.clock }) } }
    arrive (.save .lifecycle) s
  | .keyInstalled, .passed =>
    (match s.psv.req with
      | some q => if s.exc.live then finishRequest q .ok [] s else s
      | none => s)
  | .ever _, _ => s
  | _, .failed =>
    (match s.psv.req with
      | some q => if s.exc.live then finishRequest q .bitFailed (failResults q.req) s else s
      | none => s)
  | _, .byFault =>
    (match s.psv.req with
      | some q => if s.exc.live then finishRequest q .storeFault (failResults q.req) s else s
      | none => s)

end Sys2Proof.Machine
end

