-- ==== Sys2Proof/Machine/Packages.lean ====
section
/-! DEFINITION. Machine/Packages.lean: settings packages, their application and activation (chapter 04), and the
PERIOD_END event that a pending package waits for. -/

namespace Sys2Proof.Machine

open Sys2Proof

/-! ### Settings (R79) -/

/-- A policy from its code (R114). -/
def policyOf (x : Nat) : Policy := ⟨x % 2 == 1, x / 2 % 2 == 1⟩

/-- The settings with a section's own replaced (R79 step 3). -/
def settingsWith (c : Settings) : Section → Settings
  | .bandPrices p0 p1 p2 p3 => { c with price0 := p0, price1 := p1, price2 := p2, price3 := p3 }
  | .daySchedule w l => if w then { c with weekend := l } else { c with weekday := l }
  | .friendly w l => if w then { c with friendlyWeekend := l } else { c with friendlyWeekday := l }
  | .emergency e o => { c with e := e, o := o }
  | .thresholds l1 l2 => { c with l1 := l1, l2 := l2 }
  | .fixedCharge f => { c with fixed := f }
  | .loadLimit p => { c with pMax := p }
  | .tamperPolicy p => { c with policies := p.map policyOf }
  | .metering r a b i v => { c with metering := ⟨r == 1, a, b, i, v⟩ }
  | .groupAddresses l => { c with groups := l }
  | .profileInterval n => { c with intervalLen := n }
  | .clock _ => c

/-- Each module takes a section's settings into use (R79 step 4); c is the settings before the activation. -/
def takeIntoUse (c : Settings) (s : State) : Section → State
  | .bandPrices _ _ _ _ => recomputeBand s
  | .daySchedule _ _ => recomputeBand s
  | .friendly _ _ => recomputeWindow s
  | .emergency e _ => if s.ce.money.emergency && e != c.e then evaluate s else s
  | .thresholds _ _ => lowCredit s
  | .fixedCharge _ => s
  | .loadLimit p => if p = c.pMax then s else { s with swc := { s.swc with overLimit := 0 } }
  | .tamperPolicy _ => tamperAgree s
  | .metering _ _ _ _ _ => s
  | .groupAddresses _ => s
  | .profileInterval n => if n = c.intervalLen then s else rollInterval s.bat.clock c.intervalLen id s.bat.clock s
  | .clock _ => s

/-- A CLOCK section is taken last (R79 step 5, R42). -/
def takeClock (s : State) : Section → State
  | .clock t => setClock .authenticated t s
  | _ => s

/-- The sections become the active settings and are taken into use (R79 steps 3 to 5): in byte order, with CLOCK last, by
the model's choice (log 48). -/
def applySections (l : List Section) (s : State) : State :=
  let c := s.cau.settings
  let s := { s with cau := { s.cau with settings := l.foldl settingsWith c } }
  l.foldl takeClock (l.foldl (takeIntoUse c) s)

/-! ### The pending package (R79, R80, R82) -/

/-- The pending package is discarded, displaced by package n (R80, R189). -/
def discardPending (n : Nat) (s : State) : State :=
  match s.cau.pendingPkg with
  | some p =>
    post (.packageDiscarded p.number p.effTime (distanceByte (n - p.number)))
      { s with cau := { s.cau with pendingPkg := none } }
  | none => s

/-- The number of the pending package, or 0. -/
def pendingNumber (c : Cau) : Nat :=
  match c.pendingPkg with
  | some p => p.number
  | none => 0

/-- The pending package is due after a billing that ended at endTime (R82). -/
def pendingDue (endTime : Nat) (s : State) : Option PendingPkg :=
  match s.cau.pendingPkg with
  | some p => if p.released && s.bat.clockValid && decide (p.effTime ≤ endTime) then some p else none
  | none => none

/-- The sub byte of PACKAGE_ACTIVATED (R189). -/
def activationDistance (now endTime : Nat) : Nat := if now < endTime then 255 else distanceByte (now - endTime)

/-- A due pending package is activated (R82). -/
def activatePending (endTime : Nat) (s : State) : State :=
  match pendingDue endTime s with
  | some p =>
    let s := applySections p.sections s
    let s := { s with cau := { s.cau with pendingPkg := none } }
    arrive (.save .activation)
      (post (.packageActivated p.number p.effTime (activationDistance s.bat.clock endTime)) s)
  | none => s

/-! ### The decision and its commit (R78 to R81) -/

/-- The results of a package in its slot (R81): its number, its effective time, the section index, and for ACCEPTED and
PENDING alone the number of the package discarded; other outcomes leave those bytes as they are (R172). -/
def packageResults (p : PkgRun) (sect : Nat) (discarded : Option Nat) : List (Nat × List Byte) :=
  (12, le 4 (headerField p.bytes 0)) :: (16, le 4 (headerField p.bytes 8)) :: (20, [byte sect]) ::
    (match discarded with
      | some n => [(24, le 4 n)]
      | none => [])

/-- A package's outcome is given: to its slot, or as a CODE_RESULT notice (R81). -/
def givePackage (p : PkgRun) (r : Result) (sect : Nat) (discarded : Option Nat) (s : State) : State :=
  let s := { s with cau := { s.cau with pkg := none } }
  match p.slot with
  | some i => popCode (complete i r 0 0 (packageResults p sect discarded) s)
  | none => post (.packageResult r (headerField p.bytes 0)) s

/-- A package with outcome ACCEPTED or PENDING: the pending package is discarded, the number is taken, the sections are
applied or held, and the PACKAGE save is queued (R79, R80). -/
def takePackage (p : PkgRun) (v : PackageVerdict) (s : State) : State :=
  let n := headerField p.bytes 0
  let eff := headerField p.bytes 8
  let old := pendingNumber s.cau
  let s := discardPending n s
  let s := { s with cau := { s.cau with
    lastPkg := n, pkg := some { p with stage := .committing v.result n eff old } } }
  let s :=
    if v.result = .accepted then applySections v.sections s
    else { s with cau := { s.cau with pendingPkg := some ⟨n, eff, v.sections, false⟩ } }
  arrive (.save .package) s

/-- PACKAGE_DECISION: the package whose decode has ended is decided in RUN (R72, R78). -/
def packageDecision (s : State) : State :=
  match s.cau.pkg with
  | some p =>
    if s.psv.power == .run && decide (p.stage = .decoding) then
      let v := judgePackage p.bytes s
      if v.result = .accepted ∨ v.result = .pending then takePackage p v s
      else givePackage p v.result v.section_ none (mapPenalty .exchange (penaltyAfter v.result) s)
    else s
  | none => s

/-- PACKAGE_DECISION. -/
def execPackageDecision (s : State) : Host.Outcome State Fault Refusal := done (packageDecision s)

/-- The pending package may be activated from now on: its PENDING outcome has been given, or has ended in
STORE_FAULT (R82). -/
def releasePending (n : Nat) (s : State) : State :=
  { s with cau := { s.cau with pendingPkg := s.cau.pendingPkg.map (fun p =>
      if p.number = n then { p with released := true } else p) } }

/-- The PACKAGE save of the package in the CAU ends (R81). -/
def packageCommitted (ok : Bool) (s : State) : State :=
  match s.cau.pkg with
  | some p =>
    (match p.stage with
      | .committing r n _ old =>
        let x := if ok then r else Result.storeFault
        givePackage p x 0 (if ok then some old else none) (mapPenalty .exchange (penaltyAfter x) (releasePending n s))
      | .decoding => s)
  | none => s

/-- APPLY_PACKAGE at the head of the CODE lane (R71). -/
def applyPackage (s : State) : State :=
  match codeHead .applyPackage s with
  | some r =>
    let off := r.par 8 2
    let len := r.par 10 2
    if len = 0 ∨ 1024 < len ∨ 4096 < off + len then popCode (complete r.slot .badRequest 0 0 [] s)
    else if blocked .exchange s then popCode (complete r.slot .blocked 0 0 [] s)
    else
      beginCode { s with cau := { s.cau with
        pkg := some ⟨readBytes s.exc.mem (4096 + off) len, some r.slot, .decoding⟩ } }
  | none => s

/-- APPLY_PACKAGE. -/
def execApplyPackage (s : State) : Host.Outcome State Fault Refusal := done (applyPackage s)

/-! ### PERIOD_END (R1) -/

/-- PERIOD_END in RUN: the period's results from the inputs latched at the event, the registers and live values, the
bypass mark for the following period (R98), the hand-offs, the standing requests, and a due pending package (R82). -/
def periodEnd (p : PeriodInput) (s : State) : State :=
  if s.psv.power == .run then
    let o := periodOut p s
    activatePending s.bat.clock (standingPeriod (handOffs o p.order (markPeriod (takeResults o s))))
  else s

/-- PERIOD_END. -/
def execPeriodEnd (p : PeriodInput) (s : State) : Host.Outcome State Fault Refusal := done (periodEnd p s)

end Sys2Proof.Machine
end

