-- ==== Sys2Proof/Machine/StoreDone.lean ====
section
/-! DEFINITION. Machine/StoreDone.lean: how the store's programs and erases end, and its entry to FAULT (R136 to R144). -/

namespace Sys2Proof.Machine

open Sys2Proof

/-! ### Owners (R132, R137) -/

/-- The owner of a save is told of its end, complete or ended by FAULT. In HOLD nobody is told (log 18). -/
def tellSave (ok : Bool) (s : State) (k : SaveKind) : State :=
  if s.psv.power == .hold then s
  else match k with
    | .code => codeCommitted ok s
    | .package => packageCommitted ok s
    | .lifecycle => lifecycleSaved ok s
    | .powerFail | .emergency | .activation | .tamper | .periodic => s

/-- The owners of the saves that a record served are told, in order of arrival (R132). -/
def tellSaves (ok : Bool) (l : List SaveKind) (s : State) : State := l.foldl (tellSave ok) s

/-- The bits whose programs wait. -/
def bitsOf (l : List QItem) : List BitName :=
  l.filterMap (fun q => match q.op with
    | .bit b => some b
    | _ => none)

/-- Entry blocks among waiting erases that have been begun before, with their good entries. -/
def begunErases (l : List QItem) : List (Nat × Nat) :=
  l.filterMap (fun q => match q.op with
    | .erase b _ (some g) => if 2 ≤ b then some (b, g) else none
    | _ => none)

/-- The entries of blocks stay removed until a start erases them (R142, R144). -/
def stayRemoved (l : List (Nat × Nat)) (s : State) : State :=
  { s with flash := { s.flash with removed := s.flash.removed ++ l } }

/-- What an erase that comes to no end leaves removed: the entries of an entry block. -/
def leavesRemoved (e : EraseRun) : List (Nat × Nat) := if 2 ≤ e.block then [(e.block, e.good)] else []

/-- A STORE_FAULT notice is posted while the exchange is live; in a start sequence it is kept (R144, R147). -/
def announceFault (body : NoticeBody) (s : State) : State :=
  if s.psv.power == .battery && !s.exc.live then keepNotice body s else post body s

/-- The store enters FAULT at the third consecutive verify failure (R144): the waiting operations and the failed one
end, FAULT stands, STORE_FAULT is posted. `failed` are the saves of the failed operation. -/
def enterFault (failed : List SaveKind) (bits : List BitName) (body : NoticeBody) (s : State) : State :=
  let q := s.stc.queue
  let s := stayRemoved (begunErases q) { s with stc := { s.stc with queue := [], fault := true } }
  let s := tellSaves false (failed ++ savesOf q) s
  let s := (bits ++ bitsOf q).foldl (fun t b => bitEnded b .byFault t) s
  announceFault body s

/-- A verify fails: the consecutive failure count rises (R144). -/
def countFailure (s : State) : State := { s with stc := { s.stc with failCount := s.stc.failCount + 1 } }

/-- A verify passes: the count returns to 0 (R144). -/
def countPass (s : State) : State := { s with stc := { s.stc with failCount := 0 } }

/-- The count has reached 3 (R144). -/
def failedThrice (s : State) : Bool := decide (3 ≤ s.stc.failCount)

/-- The program in progress has ended. -/
def programOver (s : State) : State := { s with stc := { s.stc with prog := none } }

/-- Operations join the front of the queue (R142, R143). -/
def requeue (l : List QItem) (s : State) : State := { s with stc := { s.stc with queue := l ++ s.stc.queue } }

/-! ### Save area (R138 to R140) -/

/-- The store works on: in RUN, and in a start sequence; not in HOLD. -/
def storeWorks (p : Psv) : Bool := p.power != .hold

/-- R140's conditions for an ERASE of the non-current save block. -/
def eraseNeeded (f : Flash) (t : Stc) : Bool :=
  decide (8 - t.nextPlace < 4) && !saveBlockErased f.records (1 - t.curBlock) &&
    (match newestRecord f.records with
      | some (n, _) => n / 8 != 1 - t.curBlock
      | none => true) &&
    !t.queue.any (erasesBlock (1 - t.curBlock)) &&
    (match t.erase with
      | some e => e.block != 1 - t.curBlock
      | none => true)

/-- The erased places are counted again: an ERASE of the non-current save block is queued in class 8 when R140 asks for
it. The arbiter raises it (R139). -/
def recount (s : State) : State :=
  if storeWorks s.psv && !s.stc.fault && eraseNeeded s.flash s.stc then
    { s with stc := { s.stc with queue := s.stc.queue ++ [⟨.erase (1 - s.stc.curBlock) 8 none, false⟩] } }
  else s

/-- The number of the record place being programmed. -/
def recordIndex (t : Stc) : Nat := 8 * t.curBlock + t.nextPlace

/-- A record place takes a condition, and the next place advances (R138). -/
def putRecord (p : RecordPlace) (s : State) : State :=
  { s with
    flash := { s.flash with records := s.flash.records.set (recordIndex s.stc) p },
    stc := { s.stc with nextPlace := s.stc.nextPlace + 1 } }

/-- STORE_FAULT for a PROGRAM_RECORD at the place before the next one. -/
def recordFault (t : Stc) : NoticeBody := .storeFault 1 0 t.curBlock (t.nextPlace - 1)

/-- The failure count at the verifies of a record that is not complete (R143, R144): the mark is programmed after the
body's verify has passed (R136), which returns the count to 0 before the mark's failure raises it. -/
def countRecordFailure (v : RecordVerify) (s : State) : State :=
  match v with
  | .markFails => countFailure (countPass s)
  | .pass | .bodyFails => countFailure s

/-- A record that is not complete: its saves are retried before every other operation, unless the store falls into FAULT
(R143, R144) or HOLD takes no retry (R146). A retry that R139 makes wait keeps that precedence, by the model's choice
(log 73). -/
def recordFails (saves : List SaveKind) (s : State) : State :=
  if failedThrice s then programOver (enterFault saves [] (recordFault s.stc) s)
  else if s.psv.power == .hold then programOver s
  else programOver (recount (requeue (saves.map (fun k => ⟨.save k, true⟩)) s))

/-- PROGRAM_RECORD ends with its verify (R136, R143): complete, its owners told; or its place is damaged. -/
def recordEnds (saves : List SaveKind) (image : SaveRecord) (v : RecordVerify) (s : State) : State :=
  match v with
  | .pass => programOver (tellSaves true saves (recount (countPass (putRecord (.good image) s))))
  | .bodyFails | .markFails => recordFails saves (countRecordFailure v (putRecord .damaged s))

/-! ### Entry areas (R141, R142) -/

/-- The head of an area. -/
def headOfArea (s : State) : Area → Head
  | .log => s.tmoHead
  | .profile => s.ee.head

/-- The head of an area becomes h (R22, R124). -/
def putHead (a : Area) (h : Head) (s : State) : State :=
  match a with
  | .log => { s with tmoHead := h }
  | .profile => { s with ee := { s.ee with head := h } }

/-- A place of an area takes bytes, and the write position advances (R141). -/
def putEntry (a : Area) (d : PlaceData) (nextSeq : Nat) (s : State) : State :=
  let n := (posOf s.stc a).place
  { s with
    flash := putPlaces s.flash a (putPlace (placesOf s.flash a) n d),
    stc := putPos s.stc a ⟨nextPlaceIn a n, nextSeq⟩ }

/-- The region code of an area in STORE_FAULT (section 10.7). -/
def regionCode : Area → Nat
  | .log => 1
  | .profile => 2

/-- PROGRAM_ENTRY ends with its verify (R141, R143): appended, and the owner's head advances; or the place is damaged
and the same entry and sequence are retried at the next place, before every other operation unless that place lies in a
block that is not fully erased: then in the entry's class, behind the reuse ERASE (R142), where by the model's choice it
stays when its place has been erased, without precedence over the classes above it (log 73). In HOLD no retry is taken
(R146), and by the model's choice the entry, a DECLARED one too, is lost without an outage note (log 71). -/
def entryEnds (e : Entry) (pass : Bool) (s : State) : State :=
  let a := areaOf e
  let pos := posOf s.stc a
  if pass then
    let s := putEntry a (.bytes (entryBytes e pos.nextSeq)) ((pos.nextSeq + 1) % 65536) (countPass s)
    programOver (putHead a ⟨(headOfArea s a).count + 1, pos.place, pos.nextSeq⟩ s)
  else
    let s := countFailure (putEntry a .damaged pos.nextSeq s)
    if failedThrice s then
      programOver (enterFault [] [] (.storeFault 2 (regionCode a) (placeBlock a pos.place) (pos.place % 128)) s)
    else if s.psv.power == .hold then programOver s
    else programOver (requeue [⟨.append e, !areaFull s.flash s.stc a⟩] s)

/-! ### One-way bits (R129, R143) -/

/-- The number of a one-way bit in STORE_FAULT's place field (log 40). -/
def bitNumber : BitName → Nat
  | .ever k => kindIndex k
  | .commissioned => 8
  | .keyInstalled => 9

/-- A one-way bit is set in the area and in the copy (R129). -/
def putBit (b : BitName) (s : State) : State :=
  { s with flash := { s.flash with bits := setBit s.flash.bits b }, stc := { s.stc with copy := setBit s.stc.copy b } }

/-- PROGRAM_BIT ends with its verify (R129, R143): set, or left clear and reported failed to its owner. -/
def bitEnds (b : BitName) (pass : Bool) (s : State) : State :=
  if pass then programOver (bitEnded b .passed (putBit b (countPass s)))
  else
    let s := countFailure s
    if failedThrice s then programOver (enterFault [] [b] (.storeFault 3 3 0 (bitNumber b)) s)
    else programOver (bitEnded b .failed s)

/-! ### Erases (R142, R143) -/

/-- A record place after an erase that did not complete. -/
def remnantRecord (r : Remnant) (p : RecordPlace) : RecordPlace :=
  match r with
  | .kept => p
  | .cleared => .erased
  | .spoiled => .damaged

/-- An entry place after an erase that did not complete. -/
def remnantEntry (r : Remnant) (d : Option PlaceData) : Option PlaceData :=
  match r with
  | .kept => d
  | .cleared => none
  | .spoiled => some .damaged

/-- The records with those of save block b changed by place. -/
def mapBlock (b : Nat) (f : Nat → RecordPlace → RecordPlace) (l : List RecordPlace) : List RecordPlace :=
  l.mapIdx (fun i p => if i / 8 = b then f (i % 8) p else p)

/-- The places with those of the block of 128 places number rel changed by place, from place n down. -/
def mapPlaces (rel : Nat) (f : Nat → Option PlaceData → Option PlaceData) : Nat → Places → Places
  | 0, p => p
  | n + 1, p =>
    match f n (placeAt p (128 * rel + n)) with
    | some d => mapPlaces rel f n (putPlace p (128 * rel + n) d)
    | none => mapPlaces rel f n (p.filter (fun x => x.1 != 128 * rel + n))

/-- What an erase that did not complete leaves of a block: a free value for every place (log 9). A block that fails its
verify is not fully erased: its place 0 is damaged when `failed`. -/
def remnants (block : Nat) (failed : Bool) (s : State) : State :=
  let g := fun n => if failed && n == 0 then Remnant.spoiled else Config.eraseRemnant s.free n
  let f := s.flash
  let a := blockArea block
  let after :=
    if block < 2 then { f with records := mapBlock block (fun n p => remnantRecord (g n) p) f.records }
    else putPlaces f a (mapPlaces (block - areaFirst a) (fun n d => remnantEntry (g n) d) 128 (placesOf f a))
  drawFree { s with flash := after }

/-- A block is fully erased. -/
def eraseBlock (block : Nat) (s : State) : State :=
  let f := s.flash
  let a := blockArea block
  let after :=
    if block < 2 then { f with records := mapBlock block (fun _ _ => .erased) f.records }
    else putPlaces f a (clearBlock (placesOf f a) (block - areaFirst a))
  { s with flash := after }

/-- The head of an area falls by the good entries of the block erased for reuse (R142). -/
def lowerHead (block good : Nat) (s : State) : State :=
  if block < 2 then s
  else
    let a := blockArea block
    putHead a { headOfArea s a with count := (headOfArea s a).count - good } s

/-- The erase in progress has ended. -/
def eraseOver (s : State) : State := { s with stc := { s.stc with erase := none } }

/-- The region code of a block in STORE_FAULT. -/
def blockRegion (block : Nat) : Nat := if block < 2 then 0 else regionCode (blockArea block)

/-- An erase passes its verify (R142): the save area is counted again, or the owner of the entry area is told; a
start-up erase reports to nobody, since the heads are rebuilt after it (R149), and its block is no longer removed
(R144). -/
def erasePasses (e : EraseRun) (s : State) : State :=
  let s := eraseBlock e.block (countPass s)
  if e.startup then
    eraseOver { s with flash := { s.flash with removed := s.flash.removed.filter (fun x => x.1 != e.block) } }
  else if e.block < 2 then recount (eraseOver s)
  else lowerHead e.block e.good (eraseOver s)

/-- An erase fails its verify (R143, R144): it is queued again, a reuse erase ahead of the appends that wait for it; a
start-up erase is repeated; the third failure in a row is FAULT, and an entry block stays removed. -/
def eraseFails (e : EraseRun) (s : State) : State :=
  let s := countFailure (remnants e.block true s)
  if failedThrice s then
    eraseOver (enterFault [] [] (.storeFault 4 (blockRegion e.block) e.block 0)
      (stayRemoved (leavesRemoved e) { s with stc := { s.stc with startErases := [] } }))
  else if e.startup then eraseOver { s with stc := { s.stc with startErases := e.block :: s.stc.startErases } }
  else
    let item : QItem := ⟨.erase e.block e.cls (some e.good), false⟩
    eraseOver (if e.block < 2 then { s with stc := { s.stc with queue := s.stc.queue ++ [item] } } else requeue [item] s)

end Sys2Proof.Machine
end

