-- ==== Sys2Proof/Machine/Power.lean ====
section
/-! DEFINITION. Machine/Power.lean: the power states, the power-fail sequence, the start sequence, and the ends of the
store's operations, which carry both on (chapters 07 and 08). -/

namespace Sys2Proof.Machine

open Sys2Proof

/-! ### Battery domain and settle (R154, R155) -/

/-- The battery domain in its cleared condition (R154; log 36). -/
def clearedDomain : Bat where
  clock := 0
  clockValid := false
  clockSource := .none
  steerDay := 0
  steerUsed := 0
  kinds := PerKind.all KindRec.quiet
  coverMain := false
  coverTerminal := false
  notes := PerKind.all none
  penalties := ⟨Penalty.zero, Penalty.zero, Penalty.zero⟩
  eraseNote := none
  valid := false
  holdBegin := none

/-- The power state becomes p. -/
def setPower (p : Power) (s : State) : State := { s with psv := { s.psv with power := p } }

/-- The settle timer becomes t. -/
def setSettle (t : Timer) (s : State) : State := { s with psv := { s.psv with settle := t } }

/-- What the supply's collapse leaves of the program in progress: a record place is damaged (R136, R153); so is an entry
place, and a bit program leaves a free value (log 10). -/
def cutProgram (s : State) : State :=
  match s.stc.prog with
  | some (.record _ _) => putRecord .damaged s
  | some (.entry e) => putEntry (areaOf e) .damaged (posOf s.stc (areaOf e)).nextSeq s
  | some (.bit b) =>
    drawFree (if Config.cutBit s.free then { s with flash := { s.flash with bits := setBit s.flash.bits b } } else s)
  | none => s

/-- The supply's end stops the store: the program in progress is cut, and the waiting operations are lost (R146, R153);
a reuse erase that had begun and waits to be repeated leaves its entries removed, as one in progress does (log 17). -/
def cutStore (s : State) : State :=
  let s := cutProgram s
  let t := stayRemoved (begunErases s.stc.queue) s
  { t with stc := { t.stc with queue := [] } }

/-- An operation that the end of the sequence finds unfinished stops: an erase leaves its block partly erased (R146,
R148; log 9), with its entries removed (R142). -/
def interruptStore (s : State) : State :=
  let s := match s.stc.erase with
    | some e => eraseOver (stayRemoved (leavesRemoved e) (remnants e.block false s))
    | none => s
  programOver s

/-- The transaction that an initialization of the exchange finds open goes on in it: the address stands, every slot was
FREE before, and nothing has been covered; a WRITE that has risen is over (R168, R186; log 39). -/
def busAfterInit : Bus → Bus
  | .writing t =>
    if t.risen then .idle else .writing { t with before := slotStates [], mark := false, capture := false }
  | b => b

/-- The exchange as it is initialized, or emptied by a reset in HOLD (R186, R187). -/
def Exc.init (live : Bool) (x : Exc) : Exc :=
  { x with
    live := live, takeCtr := 1, mem := [], markReg := 0, notices := [], oldest := 1, overflow := false, image := [],
    code := Lane.empty, control := Lane.empty, query := Lane.empty, standing := [], bulk := none,
    bus := busAfterInit x.bus, deferred := [], attn := false, wake := false }

/-- The exchange does not survive an outage: it is emptied where its port loses its supply (R150, R187). -/
def Exc.lost (x : Exc) : Exc := { x.init false with bus := .idle }

/-- The domain loses its supply: OFF, where nothing runs, the mains detector included (R150; log 44). The domain's
contents are lost (R154), and every operation in progress stops as at a collapse of the supply. -/
def domainLost (s : State) : State :=
  let s := interruptStore (cutDrives (cutStore s))
  { s with
    exc := s.exc.lost, bat := clearedDomain,
    psv := { s.psv with
      power := .off, mainsPresent := false, settle := Timer.stopped, seq := none, dropped := none, startNotices := [],
      holdWait := false } }

/-- The settle starts when mains is present and the mains-failing input is deasserted (R155). -/
def beginSettle (s : State) : State :=
  if s.psv.power == .battery && s.psv.seq.isNone && s.psv.mainsPresent && !s.psv.failing then setSettle (startTimer 2) s
  else s

/-- The settle is stopped; a domain that only the mains held is lost (R155). -/
def stopSettle (s : State) : State :=
  let s := setSettle Timer.stopped s
  if s.psv.battery then s else domainLost s

/-! ### The power-fail sequence (R152, R153) -/

/-- Entry to BATTERY (R153): the exchange is emptied (R187); OFF at once without a battery, and from there to BATTERY
again while mains is present (log 27); the settle begins when mains allows it. -/
def enterBattery (s : State) : State :=
  let s := setPower .battery { s with exc := s.exc.lost }
  if s.psv.battery then beginSettle s
  else if s.psv.mainsPresent then
    let s := domainLost s
    beginSettle { s with psv := { s.psv with power := .battery, mainsPresent := true } }
  else domainLost s

/-- The end of the sequence: the drives are cut (R103), then BATTERY. -/
def finishHold (s : State) : State :=
  let s := interruptStore (cutDrives s)
  enterBattery { s with psv := { s.psv with holdWait := false } }

/-- The POWER_FAIL save begins (R146 step 4). -/
def beginPowerFail (s : State) : State := { s with stc := beginRecord (imageOf s) [.powerFail] s.stc }

/-- The array has come to rest in HOLD: no program, and no erase that is not suspended. -/
def holdReady (t : Stc) : Bool :=
  t.prog.isNone &&
    (match t.erase with
      | some e => e.suspended
      | none => true)

/-- The POWER_FAIL save is possible: not in FAULT, and a place is erased (R146, R152). -/
def canSave (s : State) : Bool := !s.stc.fault && decide (1 ≤ erasedPlaces s.stc s.flash)

/-- The block of the suspended erase goes into the erase note, and the waiting operations are discarded (R146): of the
erases among them those begun before leave their entries removed (R142). The one note is overwritten, by the model's
choice, when a start-up erase is suspended; a block noted before and not yet redone stays removed (log 49). -/
def discardWaiting (s : State) : State :=
  let note := match s.stc.erase with
    | some e => some e.block
    | none => s.bat.eraseNote
  let s := stayRemoved (begunErases s.stc.queue) s
  { s with stc := { s.stc with queue := [], readWait := false, startErases := [] },
           bat := { s.bat with eraseNote := note }, psv := { s.psv with holdWait := false } }

/-- Steps 3 and 4 of the sequence, once the array is at rest. -/
def holdContinue (s : State) : State :=
  if s.psv.holdWait && holdReady s.stc then
    let s := discardWaiting s
    if canSave s then beginPowerFail s else finishHold s
  else s

/-- HOLD begins (R152 steps 1 and 2): the exchange stops being live, POWER_OUT is set (R21), outage notes are made for
waiting DECLARED entries (R122); then the store's steps. Notices kept by a start that HOLD interrupts are dropped, by the
model's choice (log 57). -/
def beginHold (s : State) : State :=
  let s := { s with
    psv := { s.psv with power := .hold, holdWait := true, seq := none, dropped := none, startNotices := [],
                        settle := Timer.stopped },
    exc := { s.exc with live := false } }
  holdContinue (notesAtHold (flagInterval (fun g => { g with powerOut := true }) s))

/-- A start abandoned before the battery-domain-valid flag has been set: nothing it has done is kept (R160). The lifecycle
state that step 1 took from the commissioned bit stands all the same, by the model's choice, since R161 gives it from the bit
(log 68). -/
def abandonStart (s : State) : State :=
  let m := s.psv.dropped.getD s.toModules
  stopSettle { s with
    toModules := m, psv := { s.psv with seq := none, dropped := none, startNotices := [] } }

/-- MAINS_FAILING_ASSERT (R152, R155, R160). -/
def failingAssert (s : State) : State :=
  if s.psv.failing then s
  else
    let s := { s with psv := { s.psv with failing := true } }
    match s.psv.power, s.psv.seq with
    | .run, _ => beginHold { s with bat := { s.bat with holdBegin := some s.bat.clock } }
    | .battery, some q => if 3 ≤ q.next then beginHold s else abandonStart s
    | .battery, none => stopSettle s
    | _, _ => s

/-- MAINS_FAILING_ASSERT. -/
def execMainsFailingAssert (s : State) : Host.Outcome State Fault Refusal := done (failingAssert s)

/-- Mains presence as the mains detector judges it: at least one phase's line-side voltage is 150 V or more (R151). -/
def mainsJudged (v : PerPhase Nat) : Bool := anyPhase (fun x => decide (15000 ≤ x)) v

/-- MAINS_APPEARS: the detector's judgement becomes present (R151, R155). -/
def mainsAppear (v : PerPhase Nat) (s : State) : State :=
  if s.psv.mainsPresent || !mainsJudged v then s
  else
    let s := { s with psv := { s.psv with mainsPresent := true } }
    beginSettle (if s.psv.power == .off then setPower .battery s else s)

/-- MAINS_APPEARS. -/
def execMainsAppears (s : State) (v : PerPhase Nat) : Host.Outcome State Fault Refusal := done (mainsAppear v s)

/-- MAINS_PRESENCE_ENDS: the detector's judgement becomes absent (R151); in BATTERY the settle is stopped (R155); in a
start sequence it is noted (log 38). -/
def mainsEnd (v : PerPhase Nat) (s : State) : State :=
  if s.psv.mainsPresent && !mainsJudged v then
    let s := { s with psv := { s.psv with mainsPresent := false } }
    if s.psv.power == .battery && s.psv.seq.isNone then stopSettle s else s
  else s

/-- MAINS_PRESENCE_ENDS. -/
def execMainsPresenceEnds (s : State) (v : PerPhase Nat) : Host.Outcome State Fault Refusal := done (mainsEnd v s)

/-- MAINS_FAILING_DEASSERT (R155). -/
def failingDeassert (s : State) : State :=
  if s.psv.failing then beginSettle { s with psv := { s.psv with failing := false } } else s

/-- MAINS_FAILING_DEASSERT. -/
def execMainsFailingDeassert (s : State) : Host.Outcome State Fault Refusal := done (failingDeassert s)

/-- BATTERY_EXHAUSTED: in BATTERY without mains the domain is lost (R150; log 29). -/
def batteryExhausted (s : State) : State :=
  let s := { s with psv := { s.psv with battery := false } }
  if s.psv.power == .battery && !s.psv.mainsPresent then domainLost s else s

/-- BATTERY_EXHAUSTED. -/
def execBatteryExhausted (s : State) : Host.Outcome State Fault Refusal := done (batteryExhausted s)

/-- SUPPLY_COLLAPSE in HOLD (R153): what the store was doing, and what waits in it, ends there (log 10, log 17). -/
def supplyCollapse (s : State) : State := if s.psv.power == .hold then finishHold (cutStore s) else s

/-- SUPPLY_COLLAPSE. -/
def execSupplyCollapse (s : State) : Host.Outcome State Fault Refusal := done (supplyCollapse s)

/-! ### The start sequence, step by step (R156) -/

/-- The step that comes next. -/
def nextStep (n : Nat) (s : State) : State :=
  { s with psv := { s.psv with seq := s.psv.seq.map (fun q => { q with next := n }) } }

/-- The store controller after reading the save area (R147). -/
def loadStore (f : Flash) (t : Stc) : Stc :=
  let t := { t with copy := f.bits, queue := [], prog := none, erase := none, startErases := [], readWait := false,
                    failCount := 0 }
  match newestRecord f.records with
  | some (n, r) =>
    { t with curBlock := n / 8, nextPlace := firstErased f.records (n / 8) 8 (n % 8 + 1),
             nextSeq := (r.seq + 1) % timeSpan }
  | none => { t with curBlock := 0, nextPlace := 0, nextSeq := 1 }

/-- The EE loads its state (R2, R10, R12, R15). -/
def loadEe (r : Option SaveRecord) (e : Ee) : Ee :=
  match r with
  | some r => { e with gains := r.gains, energy := r.energy, live := LiveValues.atStart r.energy, interval := r.interval }
  | none => { e with gains := Gains.nominal, energy := Energy.zero, live := LiveValues.atStart Energy.zero, interval := none }

/-- The CE loads its money state (R45); the deferral flag is clear (R37). -/
def loadCe (r : Option SaveRecord) (c : Ce) : Ce :=
  let m := match r with
    | some r => r.money
    | none => Money.zero
  { c with money := m, deferral := false, minuteDue := false }

/-- The CAU loads its state; the code queue is emptied (R54, R65, R83, R163, R164). -/
def loadCau (r : Option SaveRecord) : Cau :=
  match r with
  | some r =>
    { queue := [], applied := none, codes := r.codes, lastPkg := r.lastPkg, settings := r.settings,
      pendingPkg := r.pendingPkg.map (fun p => { p with released := true }), pkg := none, serial := r.serial, key := r.key }
  | none =>
    { queue := [], applied := none, codes := ⟨[], 0⟩, lastPkg := 0, settings := Settings.initial, pendingPkg := none,
      pkg := none, serial := 0, key := 0 }

/-- The SWC loads the set, the consent flag and the trip memory; the switch state is UNKNOWN (R85, R86, R96, R104), which
by the model's choice does not mark the loaded interval SUPPLY_OPEN (log 56). -/
def loadSwc (r : Option SaveRecord) (w : Swc) : Swc :=
  let w := { w with sw := .unknown, drive := none, overLimit := 0, quiet := 0, recovery := Timer.stopped, mark := false }
  match r with
  | some r => { w with set := r.set, consent := r.consent, tripMem := r.tripMem }
  | none => { w with set := Reasons.empty, consent := false, tripMem := 0 }

/-- The radio receiver loads the radio address; HUNT, and no capture (R66, R69, R163). -/
def loadRlr (r : Option SaveRecord) : Rlr :=
  let a := match r with
    | some r => r.radioAddr
    | none => zeroAddr
  { rx := .hunt 0, radioAddr := a, captureHeld := false, capture := [] }

/-- Step 1 (R147, R161): the store reads its area, the lifecycle state follows the commissioned bit, each module loads;
a commissioned part without a complete record enters store FAULT, and its STORE_FAULT names operation 0, none; that region,
block and place are 0 beside it is the model's choice (log 67). -/
def stepLoad (s : State) : State :=
  let r := (newestRecord s.flash.records).map (fun x => x.2)
  let bare := r.isNone && s.flash.bits.commissioned
  let stc := loadStore s.flash s.stc
  let psv := { s.psv with dropped := some s.toModules, inService := s.flash.bits.commissioned, recordFound := r.isSome,
                          req := none, startNotices := [] }
  let s := { s with
    ee := loadEe r s.ee, ce := loadCe r s.ce, cau := loadCau r, kps := ⟨[], Timer.stopped⟩, rlr := loadRlr r,
    swc := loadSwc r s.swc, stc := { stc with fault := stc.fault || bare }, psv := psv }
  nextStep 2 (if bare then keepNotice (.storeFault 0 0 0 0) s else s)

/-- The battery domain of a cold start (R157). -/
def coldDomain (r : Option SaveRecord) (b : Bat) : Bat :=
  let t := match r with
    | some r => r.time
    | none => 0
  let k := match r with
    | some r => r.kinds
    | none => PerKind.all KindRec.quiet
  { b with
    clock := t, clockValid := false, clockSource := .none, steerDay := dayOf t, steerUsed := 0, kinds := k,
    notes := PerKind.all none, penalties := ⟨Penalty.zero, Penalty.zero, Penalty.zero⟩, eraseNote := none,
    holdBegin := none }

/-- An invalid clock at a start: no friendly window is in force (R36), and a loaded interval is CLOCK_INVALID (R17). -/
def clockChecked (s : State) : State :=
  if s.bat.clockValid then s
  else flagInterval (fun g => { g with clockInvalid := true }) { s with ce := { s.ce with window := false } }

/-- Step 2 of a cold start: CLOCK_INVALID is kept with the time at which the clock restarts (R45), and a part in service
declares WATCH_LOST (R111), without a complete record too (log 45). That CLOCK_INVALID is kept first, and is posted first
at entry to RUN, is the model's choice (log 65). -/
def coldNotices (s : State) : State :=
  let s := keepNotice (.clockInvalid s.bat.clock) s
  if s.psv.inService then declareWatchLost s else s

/-- Step 2 (R157): warm or cold by the flag, which is then set; the cover debounce restarts from CLOSED (R110), and that
is no change to CLOSED: a cover kind loaded in WARNING stays in it (log 46). A warm start without a complete record keeps
the HOLD begin time, as R157 says and the table "State after each start" does not (log 62). -/
def stepDomain (s : State) : State :=
  let warm := s.bat.valid
  let r := (newestRecord s.flash.records).map (fun x => x.2)
  let b := if warm then s.bat else coldDomain r s.bat
  let s := clockChecked { s with
    bat := { b with valid := true, coverMain := false, coverTerminal := false },
    psv := { s.psv with startKind := if warm then .warm else .cold } }
  nextStep 3 (if warm then s else coldNotices s)

/-- In a block of 128 places a place that is not erased follows an erased one (R148). -/
def blockGap (p : Places) (rel : Nat) : Bool :=
  let full := p.filter (fun x => x.1 / 128 == rel && judge (some x.2) != .erased)
  full.any (fun x => (full.filter (fun y => decide (y.1 < x.1))).length != x.1 % 128)

/-- The blocks of an area, by number. -/
def areaBlocks : Area → List Nat
  | .log => [2, 3]
  | .profile => (List.range 32).map (fun n => n + 4)

/-- The blocks of both entry areas. -/
def entryBlocks : List Nat := areaBlocks .log ++ areaBlocks .profile

/-- In an entry block a place that is not erased follows an erased one (R148). -/
def gapIn (f : Flash) (b : Nat) : Bool := blockGap (placesOf f (blockArea b)) (b - areaFirst (blockArea b))

/-- The entry blocks that the start-up erase erases, in the order of R148's list, each once: the noted blocks, those
with a gap, those still removed by an erase that came to no end (R142, R144). Within each group the blocks rise, the tamper
log area first, by the model's choice (log 58). -/
def entryErases (f : Flash) (noted : List Nat) : List Nat :=
  entryBlocks.filter noted.contains ++ entryBlocks.filter (fun b => !noted.contains b && gapIn f b) ++
    entryBlocks.filter (fun b => !noted.contains b && !gapIn f b && f.removed.any (fun x => x.1 == b))

/-- The suspended-erase field of the newest record. -/
def recordNote (f : Flash) : Option Nat :=
  match newestRecord f.records with
  | some (_, r) => r.suspendedErase
  | none => none

/-- The blocks of the start-up erase, in order (R148): named by the erase note or by the record's field, at a warm and at
a cold start alike (log 16). -/
def startupErases (s : State) : List Nat :=
  let noted := s.bat.eraseNote.toList ++ (recordNote s.flash).toList
  (if saveBlockErased s.flash.records (1 - s.stc.curBlock) then [] else [1 - s.stc.curBlock]) ++
    entryErases s.flash noted

/-- The newest of the good entries: place and sequence (R149). -/
def newestEntry (l : List (Nat × Nat)) : Option (Nat × Nat) :=
  l.foldl (fun best x => match best with
    | some b => if laterSeq 65536 x.2 b.2 then some x else some b
    | none => some x) none

/-- The first erased place at or after n in circular order, or d when none is erased (log 53). -/
def erasedFrom (a : Area) (p : Places) (d : Nat) : Nat → Nat → Nat
  | 0, _ => d
  | fuel + 1, n => if judge (placeAt p n) = .erased then n else erasedFrom a p d fuel (nextPlaceIn a n)

/-- The good entries of an area that are not in a removed block: place and sequence (R144, R149). -/
def goodEntries (f : Flash) (a : Area) : List (Nat × Nat) :=
  (placesOf f a).filterMap (fun x =>
    if f.removed.any (fun y => y.1 == placeBlock a x.1) then none
    else match judge (some x.2) with
      | .good q _ => some (x.1, q)
      | _ => none)

/-- An entry area is rebuilt from its places (R149). With no place erased, the write position is place 0 of the block after
the newest entry's, by the model's choice (log 53). -/
def rebuildArea (a : Area) (s : State) : State :=
  let l := goodEntries s.flash a
  match newestEntry l with
  | some (n, q) =>
    let w := erasedFrom a (placesOf s.flash a) ((n / 128 + 1) * 128 % areaSize a) (areaSize a) (nextPlaceIn a n)
    putHead a ⟨l.length, n, q⟩ { s with stc := putPos s.stc a ⟨w, (q + 1) % 65536⟩ }
  | none => putHead a Head.empty { s with stc := putPos s.stc a ⟨0, 0⟩ }

/-- Step 4 ends: the areas and heads are rebuilt, blocks still removed count no entry twice, and waiting operations may
begin (R148, R149). -/
def storeRebuilt (s : State) : State :=
  let s := rebuildArea .profile (rebuildArea .log s)
  runArbiter (nextStep 5 { s with flash := { s.flash with
    removed := s.flash.removed.map (fun x => (x.1, 0)) } })

/-- The start-up verify passes: HEALTHY, and the erase note is cleared (R148). -/
def startupPasses (s : State) : State :=
  storeRebuilt { s with
    stc := { s.stc with fault := false }, bat := { s.bat with eraseNote := none },
    flash := { s.flash with removed := [] } }

/-- The next start-up erase begins, or the start-up verify passes (R148). -/
def nextStartupErase (s : State) : State :=
  match s.stc.startErases with
  | b :: rest => { s with stc := beginErase s.flash b 8 none true { s.stc with startErases := rest } }
  | [] => startupPasses s

/-- Step 4 (R148): no erase for a commissioned part without a record, which stays in FAULT. -/
def stepStore (s : State) : State :=
  if s.psv.inService && !s.psv.recordFound then storeRebuilt s
  else nextStartupErase { s with stc := { s.stc with failCount := 0, startErases := startupErases s } }

/-- Step 6 (R21): the loaded interval is closed when its nominal end has passed. -/
def stepInterval (s : State) : State :=
  nextStep 7
    (match s.ee.interval with
      | some v =>
        if v.nominalEnd ≤ s.bat.clock then
          rollInterval v.lastBilled (lenOf s) (fun g => { g with powerOut := true }) s.bat.clock s
        else s
      | none => s)

/-- The exchange is initialized, and the capture with it (R69, R186): a live one has its summary page written whole, at
once. -/
def initExchange (live : Bool) (s : State) : State :=
  let s := clearCapture s
  let s := { s with exc := s.exc.init live }
  if live then { s with exc := { s.exc with page := summaryOf s } } else s

/-- The outage length of EXCHANGE_START (R158; log 25). -/
def outageLength (s : State) : BitVec 32 :=
  match s.psv.startKind, s.bat.holdBegin with
  | .warm, some t => BitVec.ofInt 32 ((s.bat.clock : Int) - t)
  | .warm, none => Config.freeOutage s.free
  | .cold, _ => 0xFFFFFFFF
  | .xrst, _ => 0

/-- A STORE_FAULT notice, which is posted at step 8; the other kept notices are posted at entry to RUN. -/
def isStoreFault : NoticeBody → Bool
  | .storeFault _ _ _ _ => true
  | _ => false

/-- Step 8 (R158, R187): the exchange is initialized and EXCHANGE_START posted, then a STORE_FAULT of the start. That the
store state in it is the one that stands at step 8 is the model's choice (log 66). -/
def stepExchange (s : State) : State :=
  let s := initExchange true s
  let s := drawFree (post (.exchangeStart s.psv.startKind (outageLength s) s.psv.recordFound s.stc.fault s.psv.inService) s)
  let kept := s.psv.startNotices
  nextStep 9 (postAll (kept.filter isStoreFault)
    { s with psv := { s.psv with startNotices := kept.filter (fun b => !isStoreFault b) } })

/-- The recovery timer starts when LOAD_LIMIT is in the set at entry to RUN (R95). -/
def enterRunSwitch (s : State) : State :=
  if s.swc.set.loadLimit then { s with swc := { s.swc with recovery := startTimer 60 } } else s

/-- An interval is opened at entry to RUN when none was loaded (R15). -/
def enterRunEnergy (s : State) : State :=
  match s.ee.interval with
  | some _ => s
  | none => openInterval s.bat.clock s

/-- Step 9 (R159): RUN, and each module's entry to it (log 34); the kept notices are posted in the order in which they
were kept (log 65). -/
def stepRun (s : State) : State :=
  let kept := s.psv.startNotices
  let s := { s with
    psv := { s.psv with power := .run, seq := none, dropped := none, startNotices := [] },
    stc := { s.stc with periodic := startTimer 900 }, rlr := { s.rlr with rx := .hunt 0 } }
  postAll kept (enterRunSwitch (enterRunCredit (enterRunEnergy s)))

/-- Step n of the start sequence. -/
def startStep (n : Nat) (v : PerPhase PhaseVolts) (s : State) : State :=
  match n with
  | 1 => stepLoad s
  | 2 => stepDomain s
  | 3 => nextStep 4 (startTamper s)
  | 4 => stepStore s
  | 5 => nextStep 6 (missedDays s)
  | 6 => stepInterval s
  | 7 => nextStep 8 (startConfirm v s)
  | 8 => stepExchange s
  | _ => stepRun s

/-- A start-up erase is in progress, and the sequence waits for it (R156). -/
def startWaits (t : Stc) : Bool :=
  match t.erase with
  | some e => e.startup
  | none => false

/-- The sequence runs on through the last step asked for, at most fuel steps, unless a start-up erase holds it. -/
def runSteps : Nat → State → State
  | 0, s => s
  | fuel + 1, s =>
    match s.psv.seq with
    | some q =>
      if startWaits s.stc || decide (q.upTo < q.next) then s else runSteps fuel (startStep q.next q.volts s)
    | none => s

/-- SETTLE_TIMER_EXPIRY: the start sequence begins at the expiry, or goes on after the sender's other events (R156;
log 26). -/
def settleExpiry (v : PerPhase PhaseVolts) (upTo : Nat) (s : State) : State :=
  if s.psv.power == .battery then
    match s.psv.seq with
    | some q => runSteps 9 { s with psv := { s.psv with seq := some { q with upTo := upTo, volts := v } } }
    | none =>
      if s.psv.settle.due then
        runSteps 9 { s with psv := { s.psv with settle := Timer.stopped, seq := some ⟨1, upTo, v⟩ } }
      else s
  else s

/-- SETTLE_TIMER_EXPIRY. -/
def execSettleTimerExpiry (v : PerPhase PhaseVolts) (upTo : Nat) (s : State) : Host.Outcome State Fault Refusal :=
  done (settleExpiry v upTo s)

/-! ### The ends of the store's operations -/

/-- After an operation has ended: in HOLD the power-fail sequence goes on, else the arbiter chooses (R131, R146). -/
def afterStore (s : State) : State := if s.psv.power == .hold then holdContinue s else runArbiter s

/-- After an attempt of the POWER_FAIL save (R146 step 4): a failed one is retried while a place remains. -/
def afterPowerFail (ok : Bool) (s : State) : State := if !ok && canSave s then beginPowerFail s else finishHold s

/-- PROGRAM_RECORD_DONE. -/
def recordDone (v : RecordVerify) (s : State) : State :=
  match s.stc.prog with
  | some (.record saves image) =>
    if s.psv.power == .hold && !s.psv.holdWait then afterPowerFail (decide (v = .pass)) (recordEnds saves image v s)
    else afterStore (recordEnds saves image v s)
  | _ => s

/-- PROGRAM_RECORD_DONE. -/
def execProgramRecordDone (verify : RecordVerify) (s : State) : Host.Outcome State Fault Refusal :=
  done (recordDone verify s)

/-- PROGRAM_ENTRY_DONE. -/
def entryDone (pass : Bool) (s : State) : State :=
  match s.stc.prog with
  | some (.entry e) => afterStore (entryEnds e pass s)
  | _ => s

/-- PROGRAM_ENTRY_DONE. -/
def execProgramEntryDone (pass : Bool) (s : State) : Host.Outcome State Fault Refusal := done (entryDone pass s)

/-- PROGRAM_BIT_DONE. -/
def bitDone (pass : Bool) (s : State) : State :=
  match s.stc.prog with
  | some (.bit b) => afterStore (bitEnds b pass s)
  | _ => s

/-- PROGRAM_BIT_DONE. -/
def execProgramBitDone (pass : Bool) (s : State) : Host.Outcome State Fault Refusal := done (bitDone pass s)

/-- A start-up erase has ended: the next one, or the rest of step 4 and the steps after it; in FAULT no erase follows
(R148). -/
def afterStartupErase (s : State) : State :=
  if s.psv.power == .battery then runSteps 9 (if failedThrice s then storeRebuilt s else nextStartupErase s)
  else afterStore s

/-- ERASE_BLOCK_DONE: a running erase ends with its verify. -/
def eraseDone (pass : Bool) (s : State) : State :=
  match s.stc.erase with
  | some e =>
    if e.suspended then s
    else
      let t := if pass then erasePasses e s else eraseFails e s
      if e.startup then afterStartupErase t else afterStore t
  | none => s

/-- ERASE_BLOCK_DONE. -/
def execEraseBlockDone (pass : Bool) (s : State) : Host.Outcome State Fault Refusal := done (eraseDone pass s)

/-- A running erase may be stopped: for the power-fail sequence at once, for a READ outside the 2 ms after a resume
(R133, R134, R146). -/
def maySuspend (s : State) (e : EraseRun) : Bool :=
  !e.suspended && ((s.psv.power == .hold && s.psv.holdWait) || (s.stc.readWait && !e.guarded))

/-- ERASE_SUSPENDED. -/
def eraseSuspends (s : State) : State :=
  match s.stc.erase with
  | some e =>
    if maySuspend s e then
      holdContinue { s with stc := { s.stc with erase := some { e with suspended := true, guarded := false } } }
    else s
  | none => s

/-- ERASE_SUSPENDED. -/
def execEraseSuspended (s : State) : Host.Outcome State Fault Refusal := done (eraseSuspends s)

/-- SUSPEND_GUARD_EXPIRY: the 2 ms after a resume have passed, and READs that waited stop the erase (R134). -/
def guardExpiry (s : State) : State :=
  match s.stc.erase with
  | some e => { s with stc := { s.stc with erase := some { e with guarded := false } } }
  | none => s

/-- SUSPEND_GUARD_EXPIRY. -/
def execSuspendGuardExpiry (s : State) : Host.Outcome State Fault Refusal := done (guardExpiry s)

end Sys2Proof.Machine
end

