-- ==== Sys2Proof/Machine/Bulk.lean ====
section
/-! DEFINITION. Machine/Bulk.lean: the QUERY lane: READ_LIVE, READ_EVIDENCE and the bulk requests with their chunks
(chapters 01, 06, 09). -/

namespace Sys2Proof.Machine

open Sys2Proof

/-- The head of the QUERY lane completes with a count of entries (R175). -/
def finishQuery (i : Fin 16) (r : Result) (flags count : Nat) (results : List (Nat × List Byte)) (s : State) : State :=
  popQuery (complete i r flags count results s)

/-! ### READ_LIVE (R13, R14, R176) -/

/-- A READ_LIVE becomes a standing request: first result, count 1, and the lane goes on (R14). -/
def beginStanding (r : Request) (totals : Bool) (every : Nat) (s : State) : State :=
  let m := putFields s.exc.mem r.slot [(6, le 2 1), (12, liveResult totals s.ee.live)]
  popQuery { s with exc := { s.exc with mem := m, standing := s.exc.standing ++ [⟨r.slot, totals, every, 0⟩] } }

/-- READ_LIVE at the head of the QUERY lane (R13, R176). -/
def readLive (s : State) : State :=
  match queryHead .readLive s with
  | some r =>
    let part := r.par 8 1
    let every := r.par 10 2
    if 1 < part ∨ 3600 < every then finishQuery r.slot .badRequest 0 0 [] s
    else if every = 0 then finishQuery r.slot .ok 0 1 [(12, liveResult (decide (part = 1)) s.ee.live)] s
    else if 4 ≤ s.exc.standing.length then finishQuery r.slot .noRoom 0 0 [] s
    else beginStanding r (decide (part = 1)) every s
  | none => s

/-- READ_LIVE. -/
def execReadLive (s : State) : Host.Outcome State Fault Refusal := done (readLive s)

/-! ### READ_EVIDENCE (R126) -/

/-- A time that may be absent, as its value and its present flag. -/
def timeOf : Option Nat → Nat
  | some t => t
  | none => 0

/-- The flags byte of the summary page's tamper group (section 10.4, offset 0xA8). -/
def tamperFlags (s : State) : Nat :=
  flagNat (freezeInForce s) + 2 * flagNat (tamperRequired s) + 4 * flagNat (fallbackInForce s)

/-- The debounced cover state of a kind: 0 for the kinds without a cover. -/
def coverByte (b : Bat) : Kind → Byte
  | .coverMain => flagByte b.coverMain
  | .coverTerminal => flagByte b.coverTerminal
  | _ => 0

/-- The evidence of one kind, from slot offset 12. -/
def kindEvidence (k : Kind) (s : State) : List Byte :=
  let r := s.bat.kinds.get k
  [byte (kindStateCode r.state), byte r.counter, flagByte (s.stc.copy.ever.get k),
    byte (policyCode (s.cau.settings.policies.get k))] ++
    le 2 r.count ++
    [byte (flagNat r.first.isSome + 2 * flagNat r.last.isSome + 4 * flagNat r.cleared.isSome +
      8 * flagNat (s.bat.notes.get k).isSome), coverByte s.bat k] ++
    le 4 (timeOf r.first) ++ le 4 (timeOf r.last) ++ le 4 (timeOf r.cleared)

/-- The evidence of all kinds, from slot offset 12. -/
def allEvidence (s : State) : List Byte :=
  s.bat.kinds.toList.map (fun r => byte (kindStateCode r.state)) ++ s.bat.kinds.toList.map (fun r => byte r.counter) ++
    [byte (maskOf (fun k => s.stc.copy.ever.get k)), byte (tamperFlags s)]

/-- READ_EVIDENCE at the head of the QUERY lane (R126). -/
def readEvidence (s : State) : State :=
  match queryHead .readEvidence s with
  | some r =>
    let sel := r.par 8 1
    if 8 < sel then finishQuery r.slot .badRequest 0 0 [] s
    else
      let body := match kinds[sel]? with
        | some k => kindEvidence k s
        | none => allEvidence s
      finishQuery r.slot .ok 0 1 [(12, body)] s
  | none => s

/-- READ_EVIDENCE. -/
def execReadEvidence (s : State) : Host.Outcome State Fault Refusal := done (readEvidence s)

/-! ### Bulk requests begin (R178, R179) -/

/-- The place of the good entry with sequence q; the write position when there is none (log 37). -/
def placeOfSeq (s : State) (a : Area) (q : Nat) : Nat :=
  match (goodEntries s.flash a).find? (fun x => x.2 == q) with
  | some x => x.1
  | none => (posOf s.stc a).place

/-- What a bulk request has to deliver, from the snapshot of its take. -/
def bulkSource (a : Area) (sel : Selector) (snap : Snapshot) (s : State) : BulkSource :=
  match snap with
  | .prepared l => .entries l
  | .scan oldest newest => .scan a sel oldest (placeOfSeq s a oldest) newest
  | .emptyScan | .none => .finished

/-- A bulk request is in execution: its first chunk is to be produced (R179). -/
def beginBulk (r : Request) (room : Nat) (src : BulkSource) (gaps : Bool) (s : State) : State :=
  { s with exc := { s.exc with
    query := { s.exc.query with begun := true },
    bulk := some ⟨r.slot, r.par 16 2, room, src, 0, 0, 0, gaps, false, Timer.stopped⟩ } }

/-- A bulk request at the head of the QUERY lane: refused, or begun (R178). -/
def startBulk (k : ReqKind) (bad : Request → Bool) (a : Area) (sel : Request → Selector) (gaps : Bool) (s : State) :
    State :=
  match queryHead k s with
  | some r =>
    (match windowRoom (r.par 16 2) (r.par 18 2) with
      | some room =>
        if bad r then finishQuery r.slot .badRequest 0 0 [] s
        else beginBulk r room (bulkSource a (sel r) r.snap s) gaps s
      | none => finishQuery r.slot .badRequest 0 0 [] s)
  | none => s

/-- READ_PROFILE (R23). -/
def execReadProfile (s : State) : Host.Outcome State Fault Refusal :=
  done (startBulk .readProfile (fun r => decide (r.par 12 4 < r.par 8 4)) .profile
    (fun r => .profile (r.par 8 4) (r.par 12 4)) true s)

/-- READ_TAMPER_LOG (R125). -/
def execReadTamperLog (s : State) : Host.Outcome State Fault Refusal :=
  done (startBulk .readTamperLog (fun r => decide (r.par 8 1 = 0)) .log (fun r => .log (r.par 8 1)) true s)

/-- READ_CODES (R70). -/
def execReadCodes (s : State) : Host.Outcome State Fault Refusal :=
  done (startBulk .readCodes (fun _ => false) .log (fun _ => .log 0) false s)

/-- READ_SETTINGS (R84). -/
def execReadSettings (s : State) : Host.Outcome State Fault Refusal :=
  done (startBulk .readSettings (fun _ => false) .log (fun _ => .log 0) false s)

/-! ### Chunks (R179 to R181) -/

/-- An entry is selected (R23, R125). -/
def selects (sel : Selector) (bytes : List Byte) : Bool :=
  match sel with
  | .profile first last => decide (first ≤ field bytes 0 4 ∧ field bytes 0 4 ≤ last)
  | .log mask => mask / 2 ^ field bytes 4 1 % 2 == 1

/-- The bulk request becomes b. -/
def setBulk (b : BulkRun) (s : State) : State := { s with exc := { s.exc with bulk := some b } }

/-- An entry goes into the next place of the window. -/
def deliver (bytes : List Byte) (b : BulkRun) (s : State) : State :=
  let m := writeBytes s.exc.mem (4096 + b.offset + 32 * b.filled) bytes
  setBulk { b with filled := b.filled + 1 } { s with exc := { s.exc with mem := m } }

/-- The source after the entry expected has been passed. -/
def advanceScan (a : Area) (sel : Selector) (expect place bound : Nat) : BulkSource :=
  if expect = bound then .finished else .scan a sel ((expect + 1) % 65536) (nextPlaceIn a place) bound

/-- Good entries of removed blocks of an area, which are no longer present (log 22). -/
def removedGoods (s : State) (a : Area) : Nat :=
  (((removedBlocks s).filter (fun x => decide (2 ≤ x.1) && decide (blockArea x.1 = a))).map (fun x => x.2)).sum

/-- The sequence of the oldest entry now present in an area, or none (R22, R181). -/
def oldestPresent (s : State) (a : Area) : Option Nat :=
  let h := headOfArea s a
  let n := h.count - removedGoods s a
  if n = 0 then none else some ((h.seq + 65537 - n) % 65536)

/-- The answer at the expected place is a removal (R181): the entries from the expected one up to the oldest present, or
to the bound, are skipped, and the scan resumes at the oldest present. That may be the expected entry itself, when only
places passed over as damaged have been reused: then none is skipped. -/
def skipRemoved (a : Area) (sel : Selector) (expect bound : Nat) (b : BulkRun) (s : State) : State :=
  let span := (bound + 65536 - expect) % 65536
  let skipAll := setBulk { b with source := .finished, skipped := b.skipped + span + 1 } s
  match oldestPresent s a with
  | some q =>
    let d := (q + 65536 - expect) % 65536
    if span < d then skipAll
    else setBulk { b with source := .scan a sel q (placeOfSeq s a q) bound, skipped := b.skipped + d } s
  | none => skipAll

/-- One place of the scan is examined (R181). -/
def examine (a : Area) (sel : Selector) (expect place bound : Nat) (b : BulkRun) (s : State) : State :=
  match readPlace s a place with
  | .entry q bytes =>
    if q = expect then
      let b := { b with source := advanceScan a sel expect place bound }
      if selects sel bytes then deliver bytes b s else setBulk b s
    else skipRemoved a sel expect bound b s
  | .damaged => setBulk { b with source := .scan a sel expect (nextPlaceIn a place) bound } s
  | .removed | .erased => skipRemoved a sel expect bound b s

/-- The results of a chunk: the delivered total, and for the scans the skipped count (section 10.5). -/
def chunkResults (b : BulkRun) : List (Nat × List Byte) :=
  (20, le 2 (b.total + b.filled)) :: (if b.gaps then [(22, le 2 b.skipped)] else [])

/-- The GAP flag of a chunk (R181). -/
def chunkFlags (b : BulkRun) : Nat := flagNat (b.gaps && decide (0 < b.skipped))

/-- The last chunk: DONE with OK (R179). -/
def chunkDone (b : BulkRun) (s : State) : State :=
  readsDone (finishQuery b.slot .ok (chunkFlags b) b.filled (chunkResults b) s)

/-- The window is full and entries remain: PAUSED, with the pause timer (R179, R182). -/
def chunkPaused (b : BulkRun) (s : State) : State :=
  let m := putFields s.exc.mem b.slot ((5, [byte (chunkFlags b)]) :: (6, le 2 b.filled) :: chunkResults b)
  let b := { b with total := b.total + b.filled, filled := 0, skipped := 0, paused := true, pause := startTimer 60 }
  readsDone (setBulk b { s with exc := { s.exc with mem := putState m b.slot PAUSED, attn := true } })

/-- At most fuel places or prepared entries are examined; a READ that the store cannot answer now waits. The READs of one
chunk wait as one, by the model's choice: an erase they suspend resumes at the chunk's end (log 52). -/
def chunkLoop : Nat → State → State
  | fuel, s =>
    match s.exc.bulk with
    | none => s
    | some b =>
      if b.paused then s
      else match b.source with
        | .finished => chunkDone b s
        | .entries [] => chunkDone b s
        | .entries (e :: rest) =>
          if b.filled = b.room then chunkPaused b s
          else (match fuel with
            | 0 => s
            | n + 1 => chunkLoop n (deliver e { b with source := .entries rest } s))
        | .scan a sel expect place bound =>
          if b.filled = b.room then chunkPaused b s
          else (match fuel with
            | 0 => s
            | n + 1 =>
              if canRead s.stc (placeBlock a place) then chunkLoop n (examine a sel expect place bound b s)
              else waitForRead s)

/-- BULK_CHUNK (R179): the bulk request in execution goes on with its chunk (log 32). -/
def bulkChunk (reads : Nat) (s : State) : State := if lanesRun s then chunkLoop reads s else s

/-- BULK_CHUNK. -/
def execBulkChunk (reads : Nat) (s : State) : Host.Outcome State Fault Refusal := done (bulkChunk reads s)

/-- PAUSE_TIMER_EXPIRY: the paused request completes with TIMEOUT and the delivered total (R182). -/
def pauseExpiry (s : State) : State :=
  match s.exc.bulk with
  | some b =>
    if lanesRun s && b.paused && b.pause.due then finishQuery b.slot .timeout 0 b.total [] s else s
  | none => s

/-- PAUSE_TIMER_EXPIRY. -/
def execPauseTimerExpiry (s : State) : Host.Outcome State Fault Refusal := done (pauseExpiry s)

end Sys2Proof.Machine
end

