-- ==== Sys2Proof/Machine/Port.lean ====
section
/-! DEFINITION. Machine/Port.lean: the serial port, the control cells, exchange reset (chapter 09). -/

namespace Sys2Proof.Machine

open Sys2Proof

/-! ### Takes (R174) -/

/-- How many parameter bytes of the slot a take clears: all 56 for a lifecycle request, so that the slot then shows only
its results (R161). -/
def secretBytes : ReqKind → Nat
  | .calibrate | .identify | .installKey | .commission => 56
  | _ => 0

/-- The snapshot of an entry area's head (R179). -/
def headSnapshot (h : Head) : Snapshot :=
  if h.count = 0 then .emptyScan else .scan ((h.seq + 65537 - h.count) % 65536) h.seq

/-- What a take records for a bulk request (R179). -/
def snapshotOf (k : ReqKind) (s : State) : Snapshot :=
  match k with
  | .readProfile => headSnapshot s.ee.head
  | .readTamperLog => headSnapshot s.tmoHead
  | .readCodes => .prepared (codesEntries s.cau s.bat.penalties)
  | .readSettings => .prepared (settingsEntries s.cau)
  | _ => .none

/-- A request joins the tail of its kind's lane (R174). -/
def joinLane (r : Request) (x : Exc) : Exc :=
  match r.kind with
  | .applyCode | .applyPackage | .takeEmergency => { x with code := { x.code with queue := x.code.queue ++ [r] } }
  | .setTime | .switchOpen | .switchRelease | .calibrate | .identify | .installKey | .commission | .testSwitch =>
    { x with control := { x.control with queue := x.control.queue ++ [r] } }
  | .readLive | .readProfile | .readTamperLog | .readEvidence | .readCodes | .readSettings =>
    { x with query := { x.query with queue := x.query.queue ++ [r] } }

/-- A slot is taken (R174): stamped; completed BAD_REQUEST when its kind names no request; else its parameters are
latched, it becomes TAKEN and joins its lane. -/
def takeSlot (i : Fin 16) (s : State) : State :=
  let m := writeBytes s.exc.mem (slotAddr i + 2) (le 2 s.exc.takeCtr)
  let s := { s with exc := { s.exc with mem := m, takeCtr := (s.exc.takeCtr + 1) % 65536 } }
  match reqKind (readByte m (slotAddr i + 1)).toNat with
  | none => complete i .badRequest 0 0 [] s
  | some k =>
    let r : Request := ⟨i, k, readBytes m (slotAddr i + 8) 56, snapshotOf k s⟩
    let m := putState (writeBytes m (slotAddr i + 8) (zeros (secretBytes k))) i TAKEN
    { s with exc := joinLane r { s.exc with mem := m } }

/-! ### Acts of the chip-select rise -/

/-- The state of slot i before the transaction. -/
def stateBefore (t : WriteTxn) (i : Fin 16) : Nat := t.before.getD i.val FREE

/-- Slot i is to be taken at the rise (R174; log 31). -/
def takes (t : WriteTxn) (m : Memory) (i : Fin 16) : Bool := slotState m i == POSTED && stateBefore t i == FREE

/-- Slot i is the next to be taken at the rise: the slots to be taken are taken in slot number order (R174). -/
def takesNext (t : WriteTxn) (m : Memory) (i : Fin 16) : Bool :=
  takes t m i && (List.finRange 16).all (fun j => decide (i ≤ j) || !takes t m j)

/-- Slot i is to be continued at the rise: the slot of the PAUSED bulk request stands POSTED, whether it was PAUSED before
the transaction or became so in it (R180). -/
def continues (b : Option BulkRun) (m : Memory) (i : Fin 16) : Bool :=
  slotState m i == POSTED && b.any (fun b => decide (b.slot = i) && b.paused)

/-- Slot i is to be cancelled at the rise (R177). -/
def cancels (m : Memory) (i : Fin 16) : Bool := slotState m i == CANCEL

/-- The open WRITE transaction. -/
def openWrite (x : Exc) : Option WriteTxn :=
  match x.bus with
  | .writing t => some t
  | _ => none

/-- A continue (R180): the pause timer stops, the slot becomes TAKEN, and the next chunk is to be produced. -/
def continueSlot (i : Fin 16) (s : State) : State :=
  match s.exc.bulk with
  | some b =>
    if b.slot = i ∧ b.paused = true then
      { s with exc := { s.exc with
        mem := putState s.exc.mem i TAKEN, bulk := some { b with paused := false, pause := Timer.stopped } } }
    else s
  | none => s

/-- The lane without slot i. -/
def Lane.remove (i : Fin 16) (l : Lane) : Lane := { l with queue := l.queue.filter (fun r => decide (r.slot ≠ i)) }

/-- Slot i stands at the head of a lane. -/
def atHead (i : Fin 16) (l : Lane) : Bool :=
  match l.queue with
  | r :: _ => decide (r.slot = i)
  | [] => false

/-- Slot i stands in a lane. -/
def inLane (i : Fin 16) (l : Lane) : Bool := l.queue.any (fun r => decide (r.slot = i))

/-- A queued request is removed from its lane: DONE with CANCELLED, count 0 (R177). -/
def cancelQueued (i : Fin 16) (s : State) : State :=
  let x := s.exc
  complete i .cancelled 0 0 []
    { s with exc := { x with code := x.code.remove i, control := x.control.remove i, query := x.query.remove i } }

/-- The cancel is ignored: the state byte returns to TAKEN (R177). -/
def ignoreCancel (i : Fin 16) (s : State) : State := { s with exc := { s.exc with mem := putState s.exc.mem i TAKEN } }

/-- A standing request is cancelled: its count stays (R177). -/
def cancelStanding (i : Fin 16) (s : State) : State :=
  let m := putFields s.exc.mem i [(4, [byte (resultCode .cancelled)]), (5, [0])]
  { s with exc := { s.exc with
    mem := putState m i DONE, standing := s.exc.standing.filter (fun q => decide (q.slot ≠ i)), attn := true } }

/-- A request whose single result is being written when it reaches the head: READ_EVIDENCE, and a READ_LIVE without a
repeat interval (R177; log 47). -/
def singleResult (r : Request) : Bool :=
  match r.kind with
  | .readLive => decide (r.par 10 2 = 0)
  | .readEvidence => true
  | _ => false

/-- A lane's head is a request whose result is written at once. -/
def headIsSingle (l : Lane) : Bool :=
  match l.queue with
  | r :: _ => singleResult r
  | [] => false

/-- A cancel acts by where its request is (R177). The head of a CODE or CONTROL lane that no slotless request occupies counts
as in execution, and a READ_EVIDENCE or one-shot READ_LIVE at the QUERY head as being written; that this holds of a head which
waits for RUN too is the model's choice (log 70). -/
def cancelSlot (i : Fin 16) (s : State) : State :=
  let x := s.exc
  if atHead i x.code then (if codeOccupied s.cau then cancelQueued i s else ignoreCancel i s)
  else if atHead i x.control then (if controlOccupied s then cancelQueued i s else ignoreCancel i s)
  else if atHead i x.query then
    (match x.bulk with
      | some b => readsDone (finishQuery i .cancelled 0 b.total [] s)
      | none => if headIsSingle x.query then ignoreCancel i s else cancelQueued i s)
  else if inLane i x.code || inLane i x.control || inLane i x.query then cancelQueued i s
  else cancelStanding i s

/-- The release mark is acted on (R184). -/
def releaseNotices (s : State) : State :=
  let x := s.exc
  let r := (x.markReg + 65537 - x.oldest) % 65536
  if r = 0 then s
  else if r ≤ x.notices.length then
    let y := { x with notices := x.notices.drop r, oldest := (x.oldest + r) % 65536, overflow := false }
    { s with exc := y.recomputeAttn }
  else post (.markFault x.markReg x.oldest x.notices.length) s

/-- Some act of the rise remains to be taken. -/
def actsRemain (t : WriteTxn) (x : Exc) : Bool :=
  t.mark || t.capture ||
    (List.finRange 16).any (fun i => takes t x.mem i || continues x.bulk x.mem i || cancels x.mem i)

/-- The transaction is over: ATTN is recomputed (R185). -/
def endWrite (s : State) : State := { s with exc := Exc.recomputeAttn { s.exc with bus := .idle } }

/-- The transaction has risen; it is over once no act remains. -/
def afterAct (t : WriteTxn) (s : State) : State :=
  if actsRemain t s.exc then { s with exc := { s.exc with bus := .writing { t with risen := true } } } else endWrite s

/-- One act of the rise of the open WRITE transaction, when its condition holds (log 6). -/
def riseAct (cond : WriteTxn → Memory → Bool) (mark capture : WriteTxn → Bool) (act : State → State) (s : State) : State :=
  match openWrite s.exc with
  | some t =>
    if portActs s && cond t s.exc.mem then afterAct { t with mark := mark t, capture := capture t } (act s) else s
  | none => s

/-- SLOT_TAKE (R174). -/
def execSlotTake (i : Fin 16) (s : State) : Host.Outcome State Fault Refusal :=
  done (riseAct (fun t m => takesNext t m i) (fun t => t.mark) (fun t => t.capture) (takeSlot i) s)

/-- SLOT_CONTINUE (R180). -/
def execSlotContinue (i : Fin 16) (s : State) : Host.Outcome State Fault Refusal :=
  done (riseAct (fun _ m => continues s.exc.bulk m i) (fun t => t.mark) (fun t => t.capture) (continueSlot i) s)

/-- SLOT_CANCEL (R177). -/
def execSlotCancel (i : Fin 16) (s : State) : Host.Outcome State Fault Refusal :=
  done (riseAct (fun _ m => cancels m i) (fun t => t.mark) (fun t => t.capture) (cancelSlot i) s)

/-- NOTICE_RELEASE (R184). -/
def execNoticeRelease (s : State) : Host.Outcome State Fault Refusal :=
  done (riseAct (fun t _ => t.mark) (fun _ => false) (fun t => t.capture) releaseNotices s)

/-- CAPTURE_RELEASE (R69). -/
def execCaptureRelease (s : State) : Host.Outcome State Fault Refusal :=
  done (riseAct (fun t _ => t.capture) (fun t => t.mark) (fun _ => false) clearCapture s)

/-- The slots that satisfy p, in slot number order, each acted on (R174). -/
def eachSlot (p : Memory → Fin 16 → Bool) (act : Fin 16 → State → State) (s : State) : State :=
  (List.finRange 16).foldl (fun t i => if p t.exc.mem i then act i t else t) s

/-- Every act of the rise that remains (log 33): takes, continues, cancels, notice release, capture release. -/
def riseAll (t : WriteTxn) (s : State) : State :=
  if portActs s then
    let s := eachSlot (takes t) takeSlot s
    let s := eachSlot (continues s.exc.bulk) continueSlot s
    let s := eachSlot cancels cancelSlot s
    let s := if t.mark then releaseNotices s else s
    endWrite (if t.capture then clearCapture s else s)
  else endWrite s

/-- The rise that ends a READ: the deferred rewrites are made, in order (R171). -/
def endRead (s : State) : State :=
  { s with exc := { s.exc with bus := .idle, mem := applyDeferred s.exc.mem s.exc.deferred, deferred := [] } }

/-- A transaction still open ends before a new one begins. -/
def closeBus (s : State) : State :=
  match s.exc.bus with
  | .idle => s
  | .reading _ => endRead s
  | .writing t => riseAll t s

/-! ### READ (R168, R170) -/

/-- The byte at an address of the exchange RAM as the host reads it (R170); page is the summary page. -/
def regionByte (page : List Byte) (s : State) (a : Nat) : Byte :=
  if a < 256 then page.getD a 0
  else if a = 256 then byte (s.exc.markReg % 256)
  else if a = 257 then byte (s.exc.markReg / 256)
  else if a < 512 then 0
  else if a < 1536 then readByte s.exc.mem a
  else if a < 2048 then (imagePosition s.exc.image ((a - 1536) / 16)).getD ((a - 1536) % 16) 0
  else if a < 2112 then s.rlr.capture.getD (a - 2048) 0
  else if a < 4096 then 0
  else readByte s.exc.mem a

/-- The address of the n-th data byte of a transaction: 13 bits, wrapping (R168). -/
def busAddr (a n : Nat) : Nat := (a + n) % 8192

/-- n bytes from an address up; zeros while READ is not acted on (R170). -/
def busRead (a n : Nat) (s : State) : List Byte :=
  if portActs s then
    let page := pageBytes s.exc.page
    (List.range n).map (fun k => regionByte page s (busAddr a k))
  else zeros n

/-- What the part sends in a transaction. -/
def sendOut (bs : List Byte) (s : State) : State := { s with exc := { s.exc with dataOut := bs } }

/-- The open READ goes on: n bytes, and the rise. -/
def readMore (n : Nat) (rise : Bool) (s : State) : State :=
  match s.exc.bus with
  | .reading a =>
    let s := sendOut (busRead a n s) s
    if rise then endRead s else { s with exc := { s.exc with bus := .reading (busAddr a n) } }
  | _ => sendOut (zeros n) s

/-- READ (R168). -/
def readTxn (addr : Option (BitVec 16)) (n : Nat) (rise : Bool) (s : State) : State :=
  if portPowered s.psv then
    match addr with
    | some a =>
      let s := closeBus s
      let s := refresh s
      readMore n rise { s with exc := { s.exc with bus := .reading (busAddr a.toNat 0) } }
    | none => readMore n rise s
  else sendOut [] s

/-- READ. -/
def execRead (addr : Option (BitVec 16)) (n : Nat) (rise : Bool) (s : State) : Host.Outcome State Fault Refusal :=
  done (readTxn addr n rise s)

/-! ### WRITE (R168, R170, R172, R173) -/

/-- The legal changes of a state byte by the host (R173). -/
def legalChange (old new : Nat) : Bool :=
  (old == FREE && new == POSTED) || (old == DONE && new == FREE) || (old == PAUSED && new == POSTED) ||
    (old == TAKEN && new == CANCEL) || (old == PAUSED && new == CANCEL)

/-- The host writes v to the state byte of slot i (R173). -/
def writeState (i : Fin 16) (v : Byte) (s : State) : State :=
  let old := slotState s.exc.mem i
  if legalChange old v.toNat then { s with exc := { s.exc with mem := putState s.exc.mem i v.toNat } }
  else if old = v.toNat then s
  else post (.slotFault i.val old v.toNat) s

/-- A body byte is stored while the slot is FREE, POSTED or DONE (R172). -/
def bodyOpen (x : Nat) : Bool := x == FREE || x == POSTED || x == DONE

/-- A host byte into the slot area (R172, R173). -/
def writeSlot (a : Nat) (b : Byte) (s : State) : State :=
  let i : Fin 16 := ⟨(a - 512) / 64 % 16, Nat.mod_lt _ (by decide)⟩
  if (a - 512) % 64 = 0 then writeState i b s
  else if bodyOpen (slotState s.exc.mem i) then { s with exc := { s.exc with mem := writeByte s.exc.mem a b } }
  else s

/-- The release mark with one of its bytes written. -/
def writeMark (m a : Nat) (b : Byte) : Nat := if a = 256 then m / 256 * 256 + b.toNat else b.toNat * 256 + m % 256

/-- One host byte at an address, by its region (R170). -/
def writeRegion (a : Nat) (b : Byte) (s : State) : State :=
  if a = 256 ∨ a = 257 then { s with exc := { s.exc with markReg := writeMark s.exc.markReg a b } }
  else if 512 ≤ a ∧ a < 1536 then writeSlot a b s
  else if 4096 ≤ a then { s with exc := { s.exc with mem := writeByte s.exc.mem a b } }
  else s

/-- Host bytes from an address up (R168). -/
def writeAll : List Byte → Nat → State → State
  | [], _, s => s
  | b :: rest, a, s => writeAll rest (busAddr a 1) (writeRegion a b s)

/-- Whether n bytes from address a cover an address. -/
def covers (a n : Nat) (target : Nat) : Bool := (List.range n).any (fun k => busAddr a k == target)

/-- The open WRITE goes on: data, the control cells they cover, and the rise (R168, R170). A byte that is not acted on
is not stored and covers nothing, and the address rises all the same. -/
def writeMore (data : List Byte) (rise : Bool) (s : State) : State :=
  match openWrite s.exc with
  | some t =>
    let clocked := if t.risen then 0 else data.length
    let n := if portActs s then clocked else 0
    let s := writeAll (data.take n) t.addr s
    let u := { t with
      addr := busAddr t.addr clocked, mark := t.mark || covers t.addr n 256 || covers t.addr n 257,
      capture := t.capture || covers t.addr n 258 }
    if rise then riseAll u s else { s with exc := { s.exc with bus := .writing u } }
  | none => s

/-- WRITE (R168). -/
def writeTxn (addr : Option (BitVec 16)) (data : List Byte) (rise : Bool) (s : State) : State :=
  if portPowered s.psv then
    match addr with
    | some a =>
      let s := sendOut [] (closeBus s)
      writeMore data rise
        { s with exc := { s.exc with
          bus := .writing ⟨busAddr a.toNat 0, slotStates s.exc.mem, false, false, false⟩ } }
    | none => writeMore data rise (sendOut [] s)
  else sendOut [] s

/-- WRITE. -/
def execWrite (addr : Option (BitVec 16)) (data : List Byte) (rise : Bool) (s : State) : Host.Outcome State Fault Refusal :=
  done (writeTxn addr data rise s)

/-! ### Single writes of a state byte -/

/-- ATTN is recomputed at once when no WRITE transaction is open to do it at its end (R185). -/
def settleAttn (s : State) : State :=
  match openWrite s.exc with
  | some _ => s
  | none => { s with exc := s.exc.recomputeAttn }

/-- SLOT_FREE: the host writes FREE to a DONE slot (R173). -/
def slotFree (i : Fin 16) (s : State) : State :=
  if portActs s && slotState s.exc.mem i == DONE then settleAttn (writeState i 0 s) else s

/-- SLOT_FREE. -/
def execSlotFree (i : Fin 16) (s : State) : Host.Outcome State Fault Refusal := done (slotFree i s)

/-- EXCHANGE_FAULT: the host's write of v to the state byte of slot i is illegal: the old value stands and the notice is
posted (R173). -/
def exchangeFault (i : Fin 16) (v : Byte) (s : State) : State :=
  if portActs s && !legalChange (slotState s.exc.mem i) v.toNat then writeState i v s else s

/-- EXCHANGE_FAULT. -/
def execExchangeFault (i : Fin 16) (v : Byte) (s : State) : Host.Outcome State Fault Refusal := done (exchangeFault i v s)

/-! ### STATUS and void commands (R168, R169) -/

/-- STATUS: the status byte, n times; nothing else changes (R169). -/
def execStatus (n : Nat) (s : State) : Host.Outcome State Fault Refusal :=
  .next (sendOut (if portPowered s.psv then List.replicate n (statusByte s) else []) s)

/-- VOID_COMMAND: 0 bits out, and nothing is stored (R168). -/
def execVoidCommand (_cmd : Byte) (n : Nat) (s : State) : Host.Outcome State Fault Refusal :=
  .next (sendOut (if portPowered s.psv then zeros n else []) s)

/-! ### Exchange reset (R186, R187) -/

/-- Every request in a module loses its slot (R64, R100, R167). -/
def loseSlots (s : State) : State :=
  { s with
    cau := { s.cau with
      queue := s.cau.queue.map (fun e => { e with slot := none }), pkg := s.cau.pkg.map (fun p => { p with slot := none }) },
    swc := { s.swc with drive := s.swc.drive.map (fun d => { d with slot := none }) },
    psv := { s.psv with req := s.psv.req.map (fun q => { q with slot := none }) } }

/-- The reads of a dropped query are answered to no one (R149, R186). -/
def dropReads (s : State) : State := if s.exc.bulk.isSome then readsDone s else s

/-- The effect on the clock of a taken SET_TIME that has lost its slot (R40, R41, R45; log 43). -/
def timeApplied (s : State) (r : Request) : State :=
  if r.kind = .setTime then
    match r.par 8 1 with
    | 0 => if s.bat.clockValid then steer (appliedStep (signed32 (r.par 12 4)) s.bat) s else s
    | 1 => if s.bat.clockValid && s.psv.inService then s else setClock .hostSet (r.par 12 4) s
    | _ => s
  else s

/-- XRST_ASSERT: an exchange reset in RUN, which a SET_TIME taken before it outlives (R45), with the store state as it
stands in EXCHANGE_START (log 66); in HOLD the exchange state is discarded (R186, R187). -/
def xrstAssert (s : State) : State :=
  if s.exc.xrst then s
  else
    let s := { s with exc := { s.exc with xrst := true } }
    match s.psv.power with
    | .run => s.exc.control.queue.foldl timeApplied
        (post (.exchangeStart .xrst 0 s.psv.recordFound s.stc.fault s.psv.inService)
          (initExchange true (dropReads (loseSlots s))))
    | .hold => initExchange false (loseSlots s)
    | .battery | .off => s

/-- XRST_ASSERT. -/
def execXrstAssert (s : State) : Host.Outcome State Fault Refusal := done (xrstAssert s)

/-- XRST_DEASSERT: nothing else changes (R186). -/
def execXrstDeassert (s : State) : Host.Outcome State Fault Refusal :=
  done { s with exc := { s.exc with xrst := false } }

end Sys2Proof.Machine
end

