-- ==== Sys2Proof/Machine/Time.lean ====
section
/-! DEFINITION. Machine/Time.lean: what the block does by itself when no command waits: its own due events, else one second
of the meter clock (log 2). -/

namespace Sys2Proof.Machine

open Sys2Proof

/-! ### One second -/

/-- The meter clock advances by one and rolls over (R38). -/
def clockSecond (b : Bat) : Bat := { b with clock := (b.clock + 1) % timeSpan }

/-- One second of a penalty's block timer (R50). -/
def tickPenalty (p : Penalty) : Penalty := { p with timer := tickTimer p.timer }

/-- One second of the pause timer of a paused bulk request (R182). -/
def tickPause (b : BulkRun) : BulkRun := { b with pause := tickTimer b.pause }

/-- One second in RUN: the clock, the minute timer (R38), and the timers that count seconds in RUN (R50, R61, R95, R137,
R182). -/
def tickRun (s : State) : State :=
  let b := clockSecond s.bat
  let p := b.penalties
  { s with
    bat := { b with penalties := ⟨tickPenalty p.keypad, tickPenalty p.radio, tickPenalty p.exchange⟩ },
    ce := { s.ce with minuteDue := s.ce.minuteDue || b.clock % 60 == 0 },
    kps := { s.kps with idle := tickTimer s.kps.idle },
    swc := { s.swc with recovery := tickTimer s.swc.recovery },
    stc := { s.stc with periodic := tickTimer s.stc.periodic },
    exc := { s.exc with bulk := s.exc.bulk.map tickPause } }

/-- One second in BATTERY: the clock, and the settle timer outside a start sequence (R155). -/
def tickBattery (s : State) : State :=
  let s := { s with bat := clockSecond s.bat }
  if s.psv.seq.isNone then { s with psv := { s.psv with settle := tickTimer s.psv.settle } } else s

/-- One second passes (R38, R155). -/
def tick (s : State) : State :=
  match s.psv.power with
  | .run => tickRun s
  | .hold => { s with bat := clockSecond s.bat }
  | .battery => tickBattery s
  | .off => s

/-! ### Due events -/

/-- The command that a request's head of lane is. -/
def laneCommand : ReqKind → Instr
  | .applyCode => .applyCode
  | .applyPackage => .applyPackage
  | .takeEmergency => .takeEmergency
  | .setTime => .setTime
  | .switchOpen => .switchOpen
  | .switchRelease => .switchRelease
  | .calibrate => .calibrate
  | .identify => .identify
  | .installKey => .installKey
  | .commission => .commission
  | .testSwitch => .testSwitch
  | .readLive => .readLive
  | .readProfile => .readProfile
  | .readTamperLog => .readTamperLog
  | .readEvidence => .readEvidence
  | .readCodes => .readCodes
  | .readSettings => .readSettings

/-- The command of the head of a lane that may begin. -/
def laneDue (free : Bool) (l : Lane) : Option Instr :=
  match l.queue with
  | r :: _ => if free && !l.begun then some (laneCommand r.kind) else none
  | [] => none

/-- The first slot that satisfies p, as a command. -/
def slotDue (p : Fin 16 → Bool) (c : Fin 16 → Instr) : Option Instr := ((List.finRange 16).find? p).map c

/-- A command, when its event is due. -/
def dueIf (b : Bool) (c : Instr) : Option Instr := if b then some c else none

/-- The acts of a WRITE transaction that has risen (log 6). -/
def riseDue (s : State) : List (Option Instr) :=
  match openWrite s.exc with
  | some t =>
    if t.risen && portActs s then
      [slotDue (takes t s.exc.mem) .slotTake, slotDue (continues s.exc.bulk s.exc.mem) .slotContinue,
        slotDue (cancels s.exc.mem) .slotCancel, dueIf t.mark .noticeRelease, dueIf t.capture .captureRelease]
    else []
  | none => []

/-- A chunk goes on when its next READ can be answered, or has not yet been asked for. -/
def chunkDue (s : State) : Bool :=
  match s.exc.bulk with
  | some b =>
    lanesRun s && !b.paused &&
      (match b.source with
        | .scan a _ _ place _ => decide (b.filled = b.room) || canRead s.stc (placeBlock a place) || !s.stc.readWait
        | _ => true)
  | none => false

/-- The pause timer of a paused request has run out. -/
def pauseDue (s : State) : Bool :=
  match s.exc.bulk with
  | some b => lanesRun s && b.paused && b.pause.due
  | none => false

/-- A package's decode has ended. -/
def packageDue (c : Cau) : Bool :=
  match c.pkg with
  | some p => decide (p.stage = .decoding)
  | none => false

/-- A coil pulse is running. -/
def pulseDue (w : Swc) : Bool :=
  match w.drive with
  | some d => !d.settling
  | none => false

/-- An erase is to be stopped, or its guard interval has READs waiting. -/
def suspendDue (s : State) : List (Option Instr) :=
  match s.stc.erase with
  | some e => [dueIf (maySuspend s e) .eraseSuspended, dueIf (e.guarded && s.stc.readWait) .suspendGuardExpiry]
  | none => []

/-- The timer expiries that are due in RUN. -/
def timersDue (s : State) : List (Option Instr) :=
  [dueIf s.ce.minuteDue .minuteTimerExpiry, dueIf s.bat.penalties.keypad.timer.due (.blockTimerExpiry .keypad),
    dueIf s.bat.penalties.radio.timer.due (.blockTimerExpiry .radio),
    dueIf s.bat.penalties.exchange.timer.due (.blockTimerExpiry .exchange),
    dueIf s.kps.idle.due .keypadIdleTimerExpiry, dueIf s.swc.recovery.due .recoveryTimerExpiry,
    dueIf s.stc.periodic.due .periodicTimerExpiry, dueIf (pauseDue s) .pauseTimerExpiry,
    dueIf (!inHunt s.rlr.rx) .radioGapTimerExpiry]

/-- The decisions and lane heads that are due in RUN. -/
def workDue (s : State) : List (Option Instr) :=
  [dueIf (!s.cau.queue.isEmpty && s.cau.applied.isNone) .codeDecision, dueIf (packageDue s.cau) .packageDecision,
    laneDue (lanesRun s && !codeOccupied s.cau) s.exc.code, laneDue (lanesRun s && !controlOccupied s) s.exc.control,
    laneDue (lanesRun s) s.exc.query, dueIf (chunkDue s) (.bulkChunk 128)]

/-- The first event of its own that the block has due, if any (log 2). -/
def dueCommand (s : State) : Option Instr :=
  (match s.psv.power with
    | .run => riseDue s ++ timersDue s ++ workDue s ++ suspendDue s ++ [dueIf (pulseDue s.swc) .coilPulseEnd]
    | .hold => suspendDue s ++ [dueIf (pulseDue s.swc) .coilPulseEnd]
    | .battery | .off => []).findSome? id

end Sys2Proof.Machine
end

