-- ==== Sys2Proof/Machine/Dispatch.lean ====
section
/-! DEFINITION. Machine/Dispatch.lean: one arm per command, each one call of its meaning. -/

namespace Sys2Proof.Machine

open Sys2Proof

def exec (i : Instr) (s : State) : Host.Outcome State Fault Refusal :=
  match i with
  | .periodEnd p => Sys2Proof.Machine.execPeriodEnd p s
  | .loadTrip tPrime => Sys2Proof.Machine.execLoadTrip tPrime s
  | .tripMemoryQuiet => Sys2Proof.Machine.execTripMemoryQuiet s
  | .minuteTimerExpiry => Sys2Proof.Machine.execMinuteTimerExpiry s
  | .blockTimerExpiry src => Sys2Proof.Machine.execBlockTimerExpiry src s
  | .keyPress k => Sys2Proof.Machine.execKeyPress k s
  | .keypadIdleTimerExpiry => Sys2Proof.Machine.execKeypadIdleTimerExpiry s
  | .codeDecision => Sys2Proof.Machine.execCodeDecision s
  | .packageDecision => Sys2Proof.Machine.execPackageDecision s
  | .radioCall bytes => Sys2Proof.Machine.execRadioCall bytes s
  | .radioGapTimerExpiry => Sys2Proof.Machine.execRadioGapTimerExpiry s
  | .buttonPress => Sys2Proof.Machine.execButtonPress s
  | .coilPulseEnd => Sys2Proof.Machine.execCoilPulseEnd s
  | .driveConfirm v => Sys2Proof.Machine.execDriveConfirm v s
  | .recoveryTimerExpiry => Sys2Proof.Machine.execRecoveryTimerExpiry s
  | .coverChange cover toOpen => Sys2Proof.Machine.execCoverChange cover toOpen s
  | .magnetSamplerSecond hits => Sys2Proof.Machine.execMagnetSamplerSecond hits s
  | .programRecordDone verify => Sys2Proof.Machine.execProgramRecordDone verify s
  | .programEntryDone pass => Sys2Proof.Machine.execProgramEntryDone pass s
  | .programBitDone pass => Sys2Proof.Machine.execProgramBitDone pass s
  | .eraseBlockDone pass => Sys2Proof.Machine.execEraseBlockDone pass s
  | .eraseSuspended => Sys2Proof.Machine.execEraseSuspended s
  | .suspendGuardExpiry => Sys2Proof.Machine.execSuspendGuardExpiry s
  | .periodicTimerExpiry => Sys2Proof.Machine.execPeriodicTimerExpiry s
  | .mainsFailingAssert => Sys2Proof.Machine.execMainsFailingAssert s
  | .mainsAppears v => Sys2Proof.Machine.execMainsAppears s v
  | .mainsPresenceEnds v => Sys2Proof.Machine.execMainsPresenceEnds s v
  | .mainsFailingDeassert => Sys2Proof.Machine.execMainsFailingDeassert s
  | .batteryExhausted => Sys2Proof.Machine.execBatteryExhausted s
  | .settleTimerExpiry v upTo => Sys2Proof.Machine.execSettleTimerExpiry v upTo s
  | .read addr n rise => Sys2Proof.Machine.execRead addr n rise s
  | .write addr data rise => Sys2Proof.Machine.execWrite addr data rise s
  | .status n => Sys2Proof.Machine.execStatus n s
  | .voidCommand cmd n => Sys2Proof.Machine.execVoidCommand cmd n s
  | .slotTake n => Sys2Proof.Machine.execSlotTake n s
  | .slotContinue n => Sys2Proof.Machine.execSlotContinue n s
  | .slotCancel n => Sys2Proof.Machine.execSlotCancel n s
  | .slotFree n => Sys2Proof.Machine.execSlotFree n s
  | .exchangeFault n v => Sys2Proof.Machine.execExchangeFault n v s
  | .noticeRelease => Sys2Proof.Machine.execNoticeRelease s
  | .captureRelease => Sys2Proof.Machine.execCaptureRelease s
  | .pauseTimerExpiry => Sys2Proof.Machine.execPauseTimerExpiry s
  | .bulkChunk reads => Sys2Proof.Machine.execBulkChunk reads s
  | .xrstAssert => Sys2Proof.Machine.execXrstAssert s
  | .xrstDeassert => Sys2Proof.Machine.execXrstDeassert s
  | .applyCode => Sys2Proof.Machine.execApplyCode s
  | .applyPackage => Sys2Proof.Machine.execApplyPackage s
  | .takeEmergency => Sys2Proof.Machine.execTakeEmergency s
  | .setTime => Sys2Proof.Machine.execSetTime s
  | .switchOpen => Sys2Proof.Machine.execSwitchOpen s
  | .switchRelease => Sys2Proof.Machine.execSwitchRelease s
  | .testSwitch => Sys2Proof.Machine.execTestSwitch s
  | .calibrate => Sys2Proof.Machine.execCalibrate s
  | .identify => Sys2Proof.Machine.execIdentify s
  | .installKey => Sys2Proof.Machine.execInstallKey s
  | .commission => Sys2Proof.Machine.execCommission s
  | .readLive => Sys2Proof.Machine.execReadLive s
  | .readProfile => Sys2Proof.Machine.execReadProfile s
  | .readTamperLog => Sys2Proof.Machine.execReadTamperLog s
  | .readEvidence => Sys2Proof.Machine.execReadEvidence s
  | .readCodes => Sys2Proof.Machine.execReadCodes s
  | .readSettings => Sys2Proof.Machine.execReadSettings s
  | .radioLineByte b framed => Sys2Proof.Machine.execRadioLineByte b framed s
  | .supplyCollapse => Sys2Proof.Machine.execSupplyCollapse s

end Sys2Proof.Machine
end

