-- ==== Sys2Proof/Machine/Step.lean ====
section
/-! DEFINITION. Machine/Step.lean: one step of the block, and the placing of a command at the front of its queue. -/

namespace Sys2Proof.Machine

open Sys2Proof

/-- A step with no command waiting: the first due event of the block's own, else one second (log 2). -/
def idleStep (s : State) : Host.Outcome State Fault Refusal :=
  match dueCommand s with
  | some c => exec c s
  | none => done (tick s)

/-- One step: the command at the front of the queue, on the state with the queue's rest. -/
def step (s : State) : Host.Outcome State Fault Refusal :=
  match s.pending with
  | c :: rest => exec c { s with pending := rest }
  | [] => idleStep s

/-- s with the command that a word spells at the front of its queue. -/
def State.withFetchWord (s : State) (nbits w : Nat) : State :=
  match decodeTableWord nbits w with
  | some c => { s with pending := c :: s.pending }
  | none => s

end Sys2Proof.Machine
end

