-- ==== Sys2Proof/Safety.lean ====
section
/-! DEFINITION. Safety.lean: what holds of the block between commands: the pictures are up to date, memory and notice
list keep their form, one-way bits stay set, the values that a save record carries stay in their ranges. -/

namespace Sys2Proof.Machine

open Sys2Proof

/-- The summary page and the notice image show the state, unless the exchange is not live or a READ transaction is in
progress (R171, R183). -/
def PageFresh (s : State) : Prop :=
  s.exc.live = true → isReading s.exc = false → s.exc.page = summaryOf s ∧ s.exc.image = s.exc.notices

/-- The sequences of n notices, the oldest being number `first` (R183). -/
def seqsFrom (first n : Nat) : List Nat := (List.range n).map (fun k => (first + k) % 65536)

/-- The notice list holds at most 32 notices, numbered in order of posting from the oldest (R183). -/
def NoticesOk (x : Exc) : Prop :=
  x.oldest < 65536 ∧ x.notices.length ≤ 32 ∧ x.notices.map (fun n => n.seq) = seqsFrom x.oldest x.notices.length

/-- Every one-way bit of f is set in g too (R129). -/
def BitsKept (f g : OneWay) : Prop := ∀ b, bitOf f b = true → bitOf g b = true

/-- Registers below 10^12 mWh and residues below 3,600 mJ (R8 to R10). -/
def EnergyOk (e : Energy) : Prop :=
  e.imp < registerSpan ∧ e.exp < registerSpan ∧ e.fb < registerSpan ∧ e.rImp < 3600 ∧ e.rExp < 3600 ∧ e.rFb < 3600

/-- Balance between its floor and its ceiling, cost residue below 1,000,000, U at most its largest value (R24, R26). -/
def MoneyOk (m : Money) : Prop :=
  balanceFloor ≤ m.b ∧ m.b ≤ balanceCeiling ∧ m.cRes < 1000000 ∧ m.u ≤ uncollectedMax

/-- A list of issue numbers rises strictly from above lo. -/
def risesFrom : Nat → List Nat → Prop
  | _, [] => True
  | lo, n :: rest => lo < n ∧ risesFrom n rest

/-- The used-code table holds at most 32 issue numbers, ascending, each above the floor (R54). -/
def CodesOk (c : Codes) : Prop := c.table.length ≤ 32 ∧ risesFrom c.floor c.table

/-- A suspicion counter is at most 255, a declaration count at most 65,535 (R105, R108, R112). -/
def KindsOk (p : PerKind KindRec) : Prop := ∀ k, (p.get k).counter ≤ 255 ∧ (p.get k).count ≤ 65535

/-- The values that a save record carries are in their ranges; the trip memory is 0 to 2 between commands (R96). -/
def SaveOk (r : SaveRecord) : Prop :=
  EnergyOk r.energy ∧ MoneyOk r.money ∧ CodesOk r.codes ∧ KindsOk r.kinds ∧ r.tripMem ≤ 2

/-- The record image of a program in progress is in its ranges. -/
def ProgOk (t : Stc) : Prop := ∀ saves image, t.prog = some (.record saves image) → SaveOk image

/-- The modules that an abandoned start would bring back are in their ranges (R160). -/
def DroppedOk (s : State) : Prop :=
  ∀ m, s.psv.dropped = some m →
    EnergyOk m.ee.energy ∧ MoneyOk m.ce.money ∧ CodesOk m.cau.codes ∧ m.swc.tripMem ≤ 2 ∧ ProgOk m.stc

/-- Everything that is saved, is being saved, or would be saved now is in its ranges. -/
structure RangesOk (s : State) : Prop where
  now : SaveOk (imageOf s)
  stored : ∀ r, RecordPlace.good r ∈ s.flash.records → SaveOk r
  running : ProgOk s.stc
  dropped : DroppedOk s

/-! ### Operations taken -/

/-- A save of kind k waits in the operation queue, or the record being programmed serves it (R132). -/
def SaveTaken (k : SaveKind) (t : Stc) : Prop :=
  (∃ q ∈ t.queue, q.op = .save k) ∨ ∃ l image, t.prog = some (.record l image) ∧ k ∈ l

/-- The program of a one-way bit waits, or is in progress. -/
def BitTaken (b : BitName) (t : Stc) : Prop := (∃ q ∈ t.queue, q.op = .bit b) ∨ t.prog = some (.bit b)

/-- The append of an entry waits, or is in progress. -/
def EntryTaken (e : Entry) (t : Stc) : Prop := (∃ q ∈ t.queue, q.op = .append e) ∨ t.prog = some (.entry e)

/-! ### Evaluations, clock steps and declarations -/

/-- t is s after one disconnect evaluation at balance b and limit d, with the window status w, over the exchange x
(R35): CREDIT, the consent that its addition clears, the deferral flag, and DISCONNECT_DEFERRED. -/
def Evaluated (b d : Int) (w : Bool) (x : Exc) (s t : State) : Prop :=
  (d < b → t.swc.set = { s.swc.set with credit := false } ∧ t.ce.deferral = false ∧ t.exc.notices = x.notices) ∧
  (b ≤ d → s.swc.set.credit = true →
    t.swc = s.swc ∧ t.ce.deferral = s.ce.deferral ∧ t.exc.notices = x.notices) ∧
  (b ≤ d → s.swc.set.credit = false → w = false → t.swc.set = { s.swc.set with credit := true } ∧
    t.swc.consent = false ∧ t.ce.deferral = false ∧ t.exc.notices = x.notices) ∧
  (b ≤ d → s.swc.set.credit = false → w = true → t.swc = s.swc ∧ t.ce.deferral = true ∧
    t.exc.notices = (if s.ce.deferral = true then x else x.post s.bat.clock (.disconnectDeferred b d)).notices)

/-- What a clock step from t0, or the clock's becoming valid at t0, brings with it, s before it and t after it (R19,
R43): band and window status at the new time, with one evaluation when the status changes, and the open profile
interval: a step over a boundary closes it at t0, TIME_STEERED, and opens a new one at the new time; any other step
marks it. That the closed entry has no SUPPLY_OPEN from this evaluation is the model's choice (log 72). -/
def ClockStepped (t0 : Nat) (s t : State) : Prop :=
  let t1 := t.bat.clock
  let len := s.cau.settings.intervalLen * 60
  let d : Int := if s.ce.money.emergency = true then -(s.cau.settings.e : Int) else 0
  let crossed := ∃ n, (t0 < n * len ∧ n * len ≤ t1) ∨ (t1 < n * len ∧ n * len ≤ t0)
  t.ce.minuteDue = false ∧ t.ce.band = bandAt t t1 ∧ t.ce.window = windowAt t t1 ∧
  (windowAt t t1 = s.ce.window → t.swc = s.swc ∧ t.ce.deferral = s.ce.deferral ∧ t.exc.notices = s.exc.notices) ∧
  (windowAt t t1 ≠ s.ce.window →
    Evaluated s.ce.money.b d (windowAt t t1) s.exc { s with bat := { s.bat with clock := t1 } } t) ∧
  ∀ v, s.ee.interval = some v →
    (t0 ≠ t1 → ¬crossed → ∃ open_, t.ee.interval = some { v with flags := { v.flags with
      timeSteered := true, supplyOpen := open_ } } ∧ (t.swc = s.swc → open_ = v.flags.supplyOpen)) ∧
    (crossed →
      (∃ w, t.ee.interval = some w ∧ w.start = t1 ∧ w.nominalEnd = (t1 / len + 1) * len ∧ w.imp = 0 ∧ w.exp = 0 ∧
        w.fb = 0 ∧ w.credit = 0 ∧ w.maxW = 0 ∧ w.flags.timeSteered = false) ∧
      (v.start < t0 → storeTakes s.psv = true → s.stc.fault = false → (s.stc.queue.filter isAppend).length < 32 →
        EntryTaken (.profile {
          endTime := t0, imp := v.imp, exp := v.exp, fb := v.fb, credit := v.credit, balance := s.ce.money.b,
          maxW := v.maxW, length := (t0 - v.start + 59) / 60,
          flags := { v.flags with
            timeSteered := true, short := v.flags.short || decide (t0 - v.start < len) } }) t.stc))

/-- r' is the record r of a counter kind after an indicator has left its counter at c, at meter time now (R109, R112);
before commissioning no kind is declared (R120). -/
def KindMoved (inService : Bool) (now c : Nat) (r r' : KindRec) : Prop :=
  (r.state = .declared → r' = { r with counter := c }) ∧
  (r.state ≠ .declared → c < 96 → r' = { r with counter := c, state := .quiet }) ∧
  (r.state ≠ .declared → 96 ≤ c → c < 128 ∨ inService = false → r' = { r with counter := c, state := .warning }) ∧
  (r.state ≠ .declared → 128 ≤ c → inService = true → r' = { r with
    counter := c, state := .declared, count := min 65535 (r.count + 1), last := some now,
    first := some (r.first.getD now) })

/-- t is s after the declaration of kind k in an outage, from its record r before it (R122): count and times, an outage
note unless the kind has one, and the TAMPER reason of its policy; nothing is posted and nothing queued. -/
def OutageDeclared (k : Kind) (r : KindRec) (s t : State) : Prop :=
  t.bat.kinds = s.bat.kinds.set k { r with
    state := .declared, count := min 65535 (r.count + 1), last := some s.bat.clock,
    first := some (r.first.getD s.bat.clock) } ∧
  t.bat.notes = (if s.bat.notes.get k = none
    then s.bat.notes.set k (some ⟨s.bat.clock, k, .declared, s.psv.power, t.swc.sw, s.ce.money.b, r.counter⟩)
    else s.bat.notes) ∧
  t.swc.set = { s.swc.set with tamper := tamperRequired t } ∧ t.stc = s.stc ∧ t.exc.notices = s.exc.notices ∧
  t.exc.mem = s.exc.mem ∧ t.ce = s.ce ∧ t.flash = s.flash

/-! ### Slots -/

/-- The exchange RAM after slot i has completed: outcome, flags, count, results, and DONE (R175). -/
def doneMem (i : Fin 16) (r : Result) (flags count : Nat) (results : List (Nat × List Byte)) (m : Memory) : Memory :=
  putState (putFields m i (resultFields r flags count results)) i DONE

/-! ### Requests about to begin (R175) -/

/-- Request r of kind k stands at the head of a lane that has not begun it. -/
def LaneReady (k : ReqKind) (r : Request) (l : Lane) : Prop := l.queue.head? = some r ∧ l.begun = false ∧ r.kind = k

/-- The lanes run: RUN, and the exchange is live. -/
def ExchangeRuns (s : State) : Prop := s.psv.power = .run ∧ s.exc.live = true

/-- Request r of kind k is about to begin in the CODE lane. -/
def CodeReady (k : ReqKind) (r : Request) (s : State) : Prop :=
  ExchangeRuns s ∧ codeOccupied s.cau = false ∧ LaneReady k r s.exc.code

/-- Request r of kind k is about to begin in the CONTROL lane. -/
def ControlReady (k : ReqKind) (r : Request) (s : State) : Prop :=
  ExchangeRuns s ∧ controlOccupied s = false ∧ LaneReady k r s.exc.control

/-- Request r of kind k is about to begin in the QUERY lane. -/
def QueryReady (k : ReqKind) (r : Request) (s : State) : Prop := ExchangeRuns s ∧ LaneReady k r s.exc.query

/-- A WRITE transaction t is open at a port that acts. -/
def WriteOpen (t : WriteTxn) (s : State) : Prop := portActs s = true ∧ s.exc.bus = .writing t

end Sys2Proof.Machine
end

