-- ==== Sys2Proof/Certificates/Slice0/Obligations.lean ====
section
/-! DEFINITION. Certificates/Slice0/Obligations.lean: the statements for the provers, in the order of OBLIGATIONS.json. -/

open Sys2Proof Sys2Proof.Machine

/-! ### The step, the queue, reset -/

/-- A step takes the command at the front of the queue and runs it on the state with the queue's rest. (Log 1: the
queue is the model's own.) -/
def Obligations.StepRunsTheFrontCommand : Prop :=
  ∀ (c : Instr) (rest : List Instr) (s : State),
    step { s with pending := c :: rest } = exec c { s with pending := rest }

/-- Every command answers a next state in every state, and leaves the queue as it is. (Log 1: that a
command whose event cannot occur answers a next state too is the model's choice.) -/
def Obligations.EveryCommandAnswersNext : Prop :=
  ∀ (c : Instr) (s : State), ∃ t, exec c s = .next t ∧ t.pending = s.pending

/-- With no command waiting and no event of its own due, a step in RUN is one second of the meter clock, which rolls
over at 2^32, and of the timers that count seconds in RUN; nothing else changes but the summary page. The tick on an
empty queue is the model's choice (log 2). -/
def Obligations.IdleSecondInRun : Prop :=
  ∀ s : State, s.pending = [] → s.psv.power = .run → dueCommand s = none →
    step s = .next (refresh { s with
      bat := { s.bat with
        clock := (s.bat.clock + 1) % 4294967296,
        penalties := ⟨tickPenalty s.bat.penalties.keypad, tickPenalty s.bat.penalties.radio,
          tickPenalty s.bat.penalties.exchange⟩ },
      ce := { s.ce with minuteDue := s.ce.minuteDue || (s.bat.clock + 1) % 4294967296 % 60 == 0 },
      kps := { s.kps with idle := tickTimer s.kps.idle },
      swc := { s.swc with recovery := tickTimer s.swc.recovery },
      stc := { s.stc with periodic := tickTimer s.stc.periodic },
      exc := { s.exc with bulk := s.exc.bulk.map tickPause } })

/-- What the first start of a part from the factory leaves, as the spec states it: gains and energy (R2, R10), money
(R45), the clock (R38, R45), codes and last package number (R54, R83), the settings (R4, R15, R25, R68, R94, R114),
serial and radio address (R163), power state, lifecycle state and start kind (R157, R159, R161), store state and next
sequence (R147), and the exchange with its first two notices (R45, R158, R186). (Log 3: that such a part has its array
erased and its bits clear, and that this start, with no command waiting, stands as the reset, is the model's choice.) -/
def Obligations.ResetLeavesTheFactoryState : Prop :=
  let s := State.reset
  s.ee.energy = ⟨0, 0, 0, 0, 0, 0⟩ ∧
  s.ee.gains = ⟨⟨20000, 20000, 20000⟩, ⟨40000, 40000, 40000⟩, ⟨16384, 16384, 16384⟩⟩ ∧
  s.cau.settings = {
    price0 := 0, price1 := 0, price2 := 0, price3 := 0, weekday := [⟨0, 0⟩], weekend := [⟨0, 0⟩],
    friendlyWeekday := [], friendlyWeekend := [], e := 0, o := 0, l1 := 0, l2 := 0, fixed := 0, pMax := 0,
    policies := {
      coverMain := ⟨true, true⟩, coverTerminal := ⟨false, true⟩, magnet := ⟨false, false⟩, reverse := ⟨false, false⟩,
      imbalance := ⟨false, false⟩, bypass := ⟨true, false⟩, noVoltage := ⟨false, false⟩, watchLost := ⟨false, true⟩ },
    metering := ⟨false, 2000, 3000000, 100, 23000⟩, groups := [], intervalLen := 30 } ∧
  s.cau.serial = 0 ∧ s.rlr.radioAddr = [0, 0, 0, 0, 0, 0] ∧
  s.ce.money = ⟨0, 0, 0, false, 0⟩ ∧
  s.bat.clock = 0 ∧ s.bat.clockValid = false ∧ s.bat.clockSource = .none ∧
  s.cau.codes = ⟨[], 0⟩ ∧ s.cau.lastPkg = 0 ∧ s.cau.pendingPkg = none ∧
  s.psv.power = .run ∧ s.psv.inService = false ∧ s.psv.startKind = .cold ∧
  s.flash.bits = ⟨PerKind.all false, false, false⟩ ∧ s.flash.records = List.replicate 16 .erased ∧
  s.flash.log = [] ∧ s.flash.profile = [] ∧ s.stc.fault = false ∧ s.stc.nextSeq = 1 ∧
  s.exc.live = true ∧ s.exc.takeCtr = 1 ∧ s.exc.mem = [] ∧ s.exc.attn = true ∧ s.exc.wake = false ∧
  s.exc.notices = [⟨1, 0, .exchangeStart .cold 0xFFFFFFFF false false false⟩, ⟨2, 0, .clockInvalid 0⟩] ∧
  s.pending = []

/-! ### Invariants of every step -/

/-- The summary page and the notice image stay up to date across every step. (Log 11: that both are brought up to date
at the end of a command is the model's choice.) -/
def Obligations.EveryStepKeepsThePageFresh : Prop :=
  ∀ s t : State, PageFresh s → step s = .next t → PageFresh t

/-- No step clears a one-way bit. -/
def Obligations.NoStepClearsAOneWayBit : Prop :=
  ∀ s t : State, step s = .next t → BitsKept s.flash.bits t.flash.bits

/-- Every step keeps the canonical form of the exchange RAM. (The form is the model's.) -/
def Obligations.EveryStepKeepsTheMemoryCanonical : Prop :=
  ∀ s t : State, Memory.wf s.exc.mem = true → step s = .next t → Memory.wf t.exc.mem = true

/-- Every step keeps the notice list: at most 32 notices, numbered in order of posting. -/
def Obligations.EveryStepKeepsTheNoticeList : Prop :=
  ∀ s t : State, NoticesOk s.exc → step s = .next t → NoticesOk t.exc

/-- Every step keeps the ranges of everything a save record carries: registers and residues, balance, cost residue and
uncollected total, used-code table, tamper counters, trip memory. -/
def Obligations.EveryStepKeepsTheSavedRanges : Prop := ∀ s t : State, RangesOk s → step s = .next t → RangesOk t

/-- What every step keeps holds at reset: the pictures are up to date, the exchange RAM has its canonical form and
reads 0 everywhere, the notice list and the saved values have their form. (Log 3: that this state stands as the reset
is the model's choice.) -/
def Obligations.TheInvariantsHoldAtReset : Prop :=
  PageFresh State.reset ∧ Memory.wf State.reset.exc.mem = true ∧ (∀ a, readByte State.reset.exc.mem a = 0) ∧
    NoticesOk State.reset.exc ∧ RangesOk State.reset

/-! ### Energy: PERIOD_END -/

/-- Stage 2, case by case, over the values that stage 1 scales, truncates toward zero and clamps; the flags of a billed
period are shown in the live values. -/
def Obligations.EffectivePowerTakesTheFirstCase : Prop :=
  (∀ (r : PhaseResult) (gv gi gp : Nat),
    let x := scale r gv gi gp
    let v := r.vRaw.toNat * gv / 32768
    let i := r.iRaw.toNat * gi / 16384
    let p := r.pRaw.natAbs * gp / 16384
    x.v = min v 50000 ∧ x.i = min i 160000 ∧ x.p.natAbs = min p 44000000 ∧
    (0 ≤ r.pRaw → 0 ≤ x.p) ∧ (r.pRaw ≤ 0 → x.p ≤ 0) ∧
    (x.overrange = true ↔ 50000 < v ∨ 160000 < i ∨ 44000000 < p)) ∧
  (∀ (m : Metering) (x : Scaled),
    (x.v < 4000 ∧ m.iMin ≤ x.i → effective m x = ⟨x.i * m.vNom / 100, 0, true, false, false⟩) ∧
    (¬(x.v < 4000 ∧ m.iMin ≤ x.i) ∧ (x.p.natAbs < m.pStart ∨ x.p = 0) → effective m x = ⟨0, 0, false, true, false⟩) ∧
    (¬(x.v < 4000 ∧ m.iMin ≤ x.i) ∧ ¬(x.p.natAbs < m.pStart) ∧ 0 < x.p →
      effective m x = ⟨x.p.toNat, 0, false, false, false⟩) ∧
    (¬(x.v < 4000 ∧ m.iMin ≤ x.i) ∧ ¬(x.p.natAbs < m.pStart) ∧ x.p < 0 ∧ m.separate = false →
      effective m x = ⟨(-x.p).toNat, 0, false, false, true⟩) ∧
    (¬(x.v < 4000 ∧ m.iMin ≤ x.i) ∧ ¬(x.p.natAbs < m.pStart) ∧ x.p < 0 ∧ m.separate = true →
      effective m x = ⟨0, (-x.p).toNat, false, false, true⟩) ∧
    (x.i ≤ 160000 → m.vNom ≤ 25000 → x.i * m.vNom / 100 ≤ 40000000)) ∧
  ∀ (p : PeriodInput) (s : State), s.psv.power = .run →
    let x := scaleAll p.phases s.ee.gains
    let e := mapPhase (effective s.cau.settings.metering) x
    ∃ t, exec (.periodEnd p) s = .next t ∧
      t.ee.live.phases.a = ⟨x.a.v, x.a.i, x.a.p, x.a.overrange, e.a.noVoltage, e.a.creep, e.a.reverse⟩ ∧
      t.ee.live.phases.b = ⟨x.b.v, x.b.i, x.b.p, x.b.overrange, e.b.noVoltage, e.b.creep, e.b.reverse⟩ ∧
      t.ee.live.phases.c = ⟨x.c.v, x.c.i, x.c.p, x.c.overrange, e.c.noVoltage, e.c.creep, e.c.reverse⟩

/-- Stage 3: the sums over the phases and their largest value; the fallback floor, in force while MAGNET is in WARNING
or DECLARED, applies to the total only; and the period's energies in mJ are these values, quantized. -/
def Obligations.PeriodTotalsTakeTheFallbackFloor : Prop :=
  ∀ (p : PeriodInput) (s : State), s.psv.power = .run →
    let m := s.cau.settings.metering
    let e := mapPhase (effective m) (scaleAll p.phases s.ee.gains)
    let t := e.a.imp + e.b.imp + e.c.imp
    let x := e.a.exp + e.b.exp + e.c.exp
    let floored := (s.bat.kinds.magnet.state = .warning ∨ s.bat.kinds.magnet.state = .declared) ∧ t < m.pDef
    (m.vNom ≤ 25000 → t ≤ 132000000 ∧ x ≤ 132000000) ∧
    (m.pDef = 0 → ¬floored) ∧
    ∃ u, exec (.periodEnd p) s = .next u ∧ u.ee.live.x = x ∧
      (floored → u.ee.live.tPrime = m.pDef ∧ u.ee.energy = quantize s.ee.energy m.pDef x (m.pDef - t)) ∧
      (¬floored → u.ee.live.tPrime = t ∧ u.ee.energy = quantize s.ee.energy t x 0)

/-- Stage 4: each register takes the whole mWh of its residue, modulo 10^12, and keeps the rest; what goes in comes
out. -/
def Obligations.QuantizeCarriesResidues : Prop :=
  ∀ (e : Energy) (t x f : Nat),
    let q := quantize e t x f
    q.imp = (e.imp + (e.rImp + t) / 3600) % 1000000000000 ∧ q.rImp = (e.rImp + t) % 3600 ∧
    q.exp = (e.exp + (e.rExp + x) / 3600) % 1000000000000 ∧ q.rExp = (e.rExp + x) % 3600 ∧
    q.fb = (e.fb + (e.rFb + f) / 3600) % 1000000000000 ∧ q.rFb = (e.rFb + f) % 3600 ∧
    3600 * wholeMwh e.rImp t + q.rImp = e.rImp + t ∧ 3600 * wholeMwh e.rExp x + q.rExp = e.rExp + x ∧
    3600 * wholeMwh e.rFb f + q.rFb = e.rFb + f ∧ EnergyOk q

/-- A billed period takes the fixed charge of each local day not yet charged (in service, with a valid clock) and then
the cost of its whole mWh, at the band in force at the period end, from the balance; the balance stops at its floor
and the rest is counted in the uncollected total. The gains and the array stay. Each counter kind's indicator moves
its counter up by 8 or down by 1. Without a due package the arming flags follow the new balance, the open interval
takes the period's energy, money and largest power, and the interval whose nominal end has come is closed into an
entry. Every standing request counts the period, and one whose count is full rewrites its result with the period's
live values. The billing makes the low-credit check, L1 first, and one disconnect evaluation when the balance has
changed, so that CREDIT is added, removed or deferred. A counter kind goes to WARNING at 96, back to QUIET below 96,
and is declared at 128 in service, with its entries, notices, ever bit and save. The hand-offs are made each once.
(Log 6 and log 14: the order of the hand-offs is the sender's, and missed days run no evaluation of their own; log 42
and log 64: that a nominal end may lie beyond the clock's largest value, and that the boundary test comes after the
disconnect evaluation, are the model's choices.) -/
def Obligations.PeriodEndBillsTheEnergy : Prop :=
  (∀ (p : PeriodInput) (s : State), s.psv.power = .run →
    let m := s.ce.money
    let today := s.bat.clock / 86400
    let days := if s.bat.clockValid = true ∧ s.psv.inService = true ∧ m.lastDay < today then today - m.lastDay else 0
    let fixed := days * s.cau.settings.fixed
    let taken := min fixed (m.b + 2000000).toNat
    let cost := m.cRes + wholeMwh s.ee.energy.rImp (periodOut p s).tPrime *
      priceOf s.cau.settings (bandAt s s.bat.clock)
    let k := cost / 1000000
    let billed := min k (m.b - taken + 2000000).toNat
    ∃ t, exec (.periodEnd p) s = .next t ∧
      t.ce.money.cRes = cost % 1000000 ∧ t.ce.money.b = m.b - taken - billed ∧
      t.ce.money.u = min 4294967295 (m.u + (fixed - taken) + (k - billed)) ∧
      t.ce.money.lastDay = m.lastDay + days ∧ t.ee.gains = s.ee.gains ∧ t.flash = s.flash ∧
      (s.cau.pendingPkg = none →
        t.ce.arm1 = decide (if s.ce.arm1 = true then (s.cau.settings.l1 : Int) ≤ t.ce.money.b
          else (s.cau.settings.l1 : Int) < t.ce.money.b) ∧
        t.ce.arm2 = decide (if s.ce.arm2 = true then (s.cau.settings.l2 : Int) ≤ t.ce.money.b
          else (s.cau.settings.l2 : Int) < t.ce.money.b) ∧
        ∀ v, s.ee.interval = some v → s.bat.clock < v.nominalEnd → ∃ w, t.ee.interval = some w ∧
          w.start = v.start ∧ w.nominalEnd = v.nominalEnd ∧
          w.imp = v.imp + wholeMwh s.ee.energy.rImp (periodOut p s).tPrime ∧
          w.exp = v.exp + wholeMwh s.ee.energy.rExp (periodOut p s).live.x ∧
          w.fb = v.fb + (periodOut p s).f ∧ w.credit = v.credit + taken + billed ∧
          w.maxW = max v.maxW ((periodOut p s).tPrime / 1000) ∧ w.lastBilled = s.bat.clock ∧
          w.flags.overrange = (v.flags.overrange || (periodOut p s).overrange) ∧
          w.flags.clockInvalid = (v.flags.clockInvalid || !s.bat.clockValid) ∧
          w.flags.saturated = (v.flags.saturated || decide (taken + billed < fixed + k)))) ∧
  (∀ (p : PeriodInput) (s : State), s.psv.power = .run →
    let m := s.cau.settings.metering
    let x := scaleAll p.phases s.ee.gains
    let e := mapPhase (effective m) x
    let iMax := max x.a.i (max x.b.i x.c.i)
    let counted := fun (positive : Bool) (c : Nat) => if positive = true then min 255 (c + 8) else c - 1
    ∃ t, exec (.periodEnd p) s = .next t ∧
      t.bat.kinds.reverse.counter =
        counted (e.a.reverse || e.b.reverse || e.c.reverse) s.bat.kinds.reverse.counter ∧
      t.bat.kinds.noVoltage.counter =
        counted (e.a.noVoltage || e.b.noVoltage || e.c.noVoltage) s.bat.kinds.noVoltage.counter ∧
      t.bat.kinds.imbalance.counter =
        counted (decide (m.iMin ≤ iMax ∧ max 500 (iMax / 8) < p.iRes)) s.bat.kinds.imbalance.counter ∧
      t.bat.kinds.bypass.counter = counted (s.swc.mark && decide (4000 < p.loadSide.a ∨ 4000 < p.loadSide.b ∨
        4000 < p.loadSide.c ∨ m.iMin ≤ iMax)) s.bat.kinds.bypass.counter ∧
      t.bat.kinds.magnet.counter = counted (decide (1600 < p.magnetHits)) s.bat.kinds.magnet.counter ∧
      t.bat.kinds.coverMain = s.bat.kinds.coverMain ∧ t.bat.kinds.coverTerminal = s.bat.kinds.coverTerminal ∧
      t.bat.kinds.watchLost = s.bat.kinds.watchLost ∧
      (∀ k, hasCounter k = true → KindMoved s.psv.inService s.bat.clock (t.bat.kinds.get k).counter
        (s.bat.kinds.get k) (t.bat.kinds.get k)) ∧
      (isReading s.exc = false → s.exc.deferred = [] →
        t.exc.standing = s.exc.standing.map (fun q =>
          { q with since := if q.every ≤ q.since + 1 then 0 else q.since + 1 }) ∧
        t.exc.mem = s.exc.standing.foldl (fun n q => if q.every ≤ q.since + 1 then
          putFields n q.slot [(6, le 2 ((fromLe (readBytes n (slotAddr q.slot + 6) 2) + 1) % 65536)),
            (12, liveResult q.totals t.ee.live)] else n) s.exc.mem)) ∧
  (∀ (p : PeriodInput) (s : State), s.psv.power = .run →
    let o := periodOut p s
    let order := eachOnce p.order
    (∀ a, a ∈ order) ∧ order.Nodup ∧ exec (.periodEnd p) s = .next (refresh (activatePending s.bat.clock
      (standingPeriod (order.foldl (handOff o) (markPeriod (takeResults o s)))))) ∧
    (s.cau.pendingPkg = none → ∃ t u before after, exec (.periodEnd p) s = .next t ∧
      u.ce = s.ce ∧ u.cau = s.cau ∧ u.psv = s.psv ∧ u.bat.clock = s.bat.clock ∧ u.swc.set.credit = s.swc.set.credit ∧
      u.exc.notices = (postAll before s).exc.notices ∧
      let v := billPeriod o.n s.bat.clock u
      t.ce = v.ce ∧ t.swc.set.credit = v.swc.set.credit ∧ t.exc.notices = (postAll after v).exc.notices)) ∧
  (∀ (n endTime : Nat) (s : State),
    let t := billPeriod n endTime s
    let d : Int := if s.ce.money.emergency = true then -(s.cau.settings.e : Int) else 0
    let low := lowCredit { s with ce := { s.ce with money := t.ce.money } }
    t.ce.money.emergency = s.ce.money.emergency ∧ t.ce.arm1 = low.ce.arm1 ∧ t.ce.arm2 = low.ce.arm2 ∧
    t.ce.window = s.ce.window ∧ t.ce.band = s.ce.band ∧ t.bat = s.bat ∧ t.stc = s.stc ∧
    (t.ce.money.b = s.ce.money.b → t.swc = s.swc ∧ t.ce.deferral = s.ce.deferral ∧ t.exc = low.exc) ∧
    (t.ce.money.b ≠ s.ce.money.b → Evaluated t.ce.money.b d s.ce.window low.exc s t)) ∧
  (∀ (k : Kind) (positive : Bool) (s : State), s.psv.power = .run →
    let r := s.bat.kinds.get k
    let c := if positive = true then min 255 (r.counter + 8) else r.counter - 1
    let declares := 128 ≤ c ∧ s.psv.inService = true
    let room := (s.stc.queue.filter isAppend).length ≤ 30 ∧ s.stc.fault = false
    let entry := fun (ev : LogEvent) (sw : SwitchState) =>
      Entry.log ⟨s.bat.clock, k, ev, .run, sw, s.ce.money.b, c⟩
    let now := s.bat.clock
    let t := indicator k positive s
    t.bat.kinds = s.bat.kinds.set k (t.bat.kinds.get k) ∧ KindMoved s.psv.inService now c r (t.bat.kinds.get k) ∧
    t.ce = s.ce ∧ t.cau = s.cau ∧ t.flash = s.flash ∧ t.exc.mem = s.exc.mem ∧
    (r.state = .declared ∨ (r.state = .quiet ∧ c < 96) ∨ (r.state = .warning ∧ 96 ≤ c ∧ ¬declares) →
      t.exc = s.exc ∧ t.stc = s.stc ∧ t.swc = s.swc ∧ t.ee = s.ee) ∧
    (r.state = .quiet → 96 ≤ c → ¬declares →
      t.exc = s.exc.post now (.tamperWarning k c) ∧ t.swc = s.swc ∧
      (room → EntryTaken (entry .warningBegin s.swc.sw) t.stc)) ∧
    (r.state = .warning → c < 96 → t.exc = s.exc ∧ t.swc = s.swc ∧
      (room → EntryTaken (entry .warningEnd s.swc.sw) t.stc)) ∧
    (r.state ≠ .declared → declares →
      let x := if r.state = .quiet then s.exc.post now (.tamperWarning k c) else s.exc
      t.exc.notices = (x.post now (.tamperDeclared k false c (min 65535 (r.count + 1)) now)).notices ∧
      t.swc.set = { s.swc.set with tamper := tamperRequired t } ∧
      (room → (r.state = .quiet → EntryTaken (entry .warningBegin s.swc.sw) t.stc) ∧
        (∃ sw, EntryTaken (entry .declared sw) t.stc) ∧ SaveTaken .tamper t.stc ∧
        (bitOf s.stc.copy (.ever k) = false → BitTaken (.ever k) t.stc)))) ∧
  (∀ s : State, (markPeriod s).swc = { s.swc with mark := decide (s.swc.sw = .opened ∨ s.swc.sw = .ready ∨
    (s.swc.sw = .fault ∧ s.psv.inService = true ∧ wantsClosed s.swc = false)) }) ∧
  ∀ (endTime : Nat) (v : Interval) (s : State), s.ee.interval = some v →
    let len := s.cau.settings.intervalLen * 60
    let t := testBoundary endTime s
    (endTime < v.nominalEnd → t = s) ∧
    (v.nominalEnd ≤ endTime → v.start < v.nominalEnd →
      (∃ w, t.ee.interval = some w ∧ w.start = v.nominalEnd ∧ w.nominalEnd = (v.nominalEnd / len + 1) * len ∧
        w.imp = 0 ∧ w.exp = 0 ∧ w.fb = 0 ∧ w.credit = 0 ∧ w.maxW = 0 ∧ w.lastBilled = v.nominalEnd ∧
        w.flags.supplyOpen = decide (s.swc.sw ≠ .closed) ∧ w.flags.tamper = anyDeclared s ∧
        w.flags.clockInvalid = !s.bat.clockValid ∧ w.flags.powerOut = false ∧ w.flags.timeSteered = false ∧
        w.flags.saturated = false ∧ w.flags.overrange = false ∧ w.flags.short = false) ∧
      (storeTakes s.psv = true → s.stc.fault = false → (s.stc.queue.filter isAppend).length < 32 →
        EntryTaken (.profile {
          endTime := v.nominalEnd, imp := v.imp, exp := v.exp, fb := v.fb, credit := v.credit,
          balance := s.ce.money.b, maxW := v.maxW, length := (v.nominalEnd - v.start + 59) / 60,
          flags := { v.flags with short := v.flags.short || decide (v.nominalEnd - v.start < len) } }) t.stc))

/-! ### Clock and credit -/

/-- The minute timer's expiry recomputes band and window status; at local midnight the steer day rule applies. Money,
array and, while the window status stays, switch and notices stay; a change of the status runs one disconnect
evaluation, which removes CREDIT, adds it, or defers it with DISCONNECT_DEFERRED. The band in force is that of the last
switch point at or before the minute of day, and a window is in force from its start to before its end; with an invalid
clock they are 0 and none. (Log 1 and log 2: that the minute timer's expiry is due at the second that begins a minute is
the model's.) -/
def Obligations.MinuteTimerRecomputesBandAndWindow : Prop :=
  (∀ (s : State) (time : Nat),
    let minute := time % 86400 / 60
    let weekend := time / 86400 % 7 < 2
    let points := if weekend then s.cau.settings.weekend else s.cau.settings.weekday
    let windows := if weekend then s.cau.settings.friendlyWeekend else s.cau.settings.friendlyWeekday
    (s.bat.clockValid = false → bandAt s time = 0 ∧ windowAt s time = false) ∧
    (s.bat.clockValid = true →
      (∀ before p after, points = before ++ p :: after → (∀ q ∈ before, q.minute ≤ minute) → p.minute ≤ minute →
        (∀ q, after.head? = some q → minute < q.minute) → bandAt s time = p.band) ∧
      (windowAt s time = true ↔ ∃ w ∈ windows, w.first ≤ minute ∧ minute < w.stop))) ∧
  ∀ s : State, s.psv.power = .run → s.ce.minuteDue = true →
    let d : Int := if s.ce.money.emergency = true then -(s.cau.settings.e : Int) else 0
    ∃ t, exec .minuteTimerExpiry s = .next t ∧
      t.ce.minuteDue = false ∧ t.ce.band = bandAt s s.bat.clock ∧ t.ce.window = windowAt s s.bat.clock ∧
      t.bat = (if s.bat.clock % 86400 = 0 ∧ s.bat.steerDay < s.bat.clock / 86400 then
        { s.bat with steerDay := s.bat.clock / 86400, steerUsed := 0 } else s.bat) ∧
      t.ce.money = s.ce.money ∧ t.flash = s.flash ∧ t.exc.mem = s.exc.mem ∧
      (windowAt s s.bat.clock = s.ce.window →
        t.swc = s.swc ∧ t.ce.deferral = s.ce.deferral ∧ t.exc.notices = s.exc.notices) ∧
      (windowAt s s.bat.clock ≠ s.ce.window → Evaluated s.ce.money.b d (windowAt s s.bat.clock) s.exc s t)

/-- SET_TIME in DELTA mode with a valid clock: the step is clamped to the remaining allowance and to the clock's
range, the clock moves by it, the allowance used grows by its size (or restarts with a later local day), and the slot
completes OK. A step other than 0 brings band, window status, evaluation and profile interval with it. Without a valid
clock it completes NOT_NOW and changes nothing else. (Log 12: flags and count that no rule names are 0, by the model's
choice.) (Log 42: that a nominal end may lie beyond the clock's largest value is the model's choice.) (Log 72: that an
entry which the step closes has no SUPPLY_OPEN from the evaluation that the step causes is the model's choice.) -/
def Obligations.SetTimeDeltaMovesTheClock : Prop :=
  ∀ (r : Request) (s : State), ControlReady .setTime r s → r.par 8 1 = 0 →
    (s.bat.clockValid = false →
      exec .setTime s = .next (refresh (popControl (complete r.slot .notNow 0 0 [] s)))) ∧
    (s.bat.clockValid = true →
      let x := signed32 (r.par 12 4)
      let left : Int := 900 - s.bat.steerUsed
      let byAllowance : Int := max (-(max left 0)) (min x (max left 0))
      let a : Int := max (-(s.bat.clock : Int)) (min byAllowance (4294967295 - s.bat.clock))
      s.bat.clock ≤ 4294967295 →
      ∃ t, exec .setTime s = .next t ∧
        (t.bat.clock : Int) = s.bat.clock + a ∧ t.bat.clockValid = true ∧ t.bat.clockSource = s.bat.clockSource ∧
        (if s.bat.steerDay < t.bat.clock / 86400 then t.bat.steerDay = t.bat.clock / 86400 ∧ t.bat.steerUsed = 0
          else t.bat.steerDay = s.bat.steerDay ∧ t.bat.steerUsed = s.bat.steerUsed + a.natAbs) ∧
        t.exc.mem = doneMem r.slot .ok (2 * flagNat (a != x)) 0
          [(12, leInt 4 a), (16, le 4 t.bat.clock), (20, le 2 (900 - t.bat.steerUsed))] s.exc.mem ∧
        t.exc.control = ⟨s.exc.control.queue.tail, false⟩ ∧ t.ce.money = s.ce.money ∧ t.flash = s.flash ∧
        (a = 0 → t.ce = s.ce ∧ t.ee = s.ee ∧ t.swc = s.swc ∧ t.stc = s.stc ∧ t.exc.notices = s.exc.notices) ∧
        (a ≠ 0 → ClockStepped s.bat.clock s t))

/-- SET_TIME in ABSOLUTE mode sets the clock, its validity, its source and the steer day, with the whole allowance; a
clock that becomes valid moves the last charged day. A step, and a clock that becomes valid, bring band, window
status, evaluation and profile interval with them. With a valid clock in service it completes NOT_NOW, and a mode
other than 0 and 1 is BAD_REQUEST. (Log 12: flags and count that no rule names are 0, by the model's choice.) (Log 42:
that a nominal end may lie beyond the clock's largest value is the model's choice.) (Log 72: that an entry which the step
closes has no SUPPLY_OPEN from the evaluation that the step causes is the model's choice.) -/
def Obligations.SetTimeAbsoluteSetsTheClock : Prop :=
  ∀ (r : Request) (s : State), ControlReady .setTime r s →
    (1 < r.par 8 1 →
      exec .setTime s = .next (refresh (popControl (complete r.slot .badRequest 0 0 [] s)))) ∧
    (r.par 8 1 = 1 → s.bat.clockValid = true → s.psv.inService = true →
      exec .setTime s = .next (refresh (popControl (complete r.slot .notNow 0 0 [] s)))) ∧
    (r.par 8 1 = 1 → s.bat.clockValid = false ∨ s.psv.inService = false →
      let t1 := r.par 12 4
      ∃ t, exec .setTime s = .next t ∧
        t.bat.clock = t1 ∧ t.bat.clockValid = true ∧ t.bat.clockSource = .hostSet ∧
        t.bat.steerDay = t1 / 86400 ∧ t.bat.steerUsed = 0 ∧
        t.ce.money.lastDay = (if s.bat.clockValid then s.ce.money.lastDay else t1 / 86400) ∧
        t.ce.money.b = s.ce.money.b ∧ t.flash = s.flash ∧
        t.exc.mem = doneMem r.slot .ok 0 0
          [(12, leInt 4 (max (-2147483648) (min ((t1 : Int) - s.bat.clock) 2147483647))), (16, le 4 t1), (20, le 2 900)]
          s.exc.mem ∧
        (s.bat.clockValid = true → s.bat.clock = t1 → t.ce = s.ce ∧ t.ee = s.ee ∧ t.swc = s.swc ∧ t.stc = s.stc) ∧
        (s.bat.clockValid = false ∨ s.bat.clock ≠ t1 → ClockStepped s.bat.clock s t))

/-- TAKE_EMERGENCY: the first condition that holds decides it; a refusal changes nothing but its slot and lane. (Log
12: flags and count that no rule names are 0, by the model's choice.) -/
def Obligations.TakeEmergencyRefuses : Prop :=
  ∀ (r : Request) (s : State), CodeReady .takeEmergency r s →
    let refuse := fun (x : Result) => exec .takeEmergency s = .next (refresh (popCode (complete r.slot x 0 0
      [(12, le 4 s.cau.settings.e), (16, leInt 4 s.ce.money.b)] s)))
    (s.psv.inService = false → refuse .notCommissioned) ∧
    (s.psv.inService = true → s.cau.settings.e = 0 → refuse .notOffered) ∧
    (s.psv.inService = true → s.cau.settings.e ≠ 0 → s.ce.money.emergency = true → refuse .already) ∧
    (s.psv.inService = true → s.cau.settings.e ≠ 0 → s.ce.money.emergency = false →
      (s.cau.settings.o : Int) ≤ s.ce.money.b → refuse .notYet) ∧
    (s.psv.inService = true → s.cau.settings.e ≠ 0 → s.ce.money.emergency = false →
      s.ce.money.b < s.cau.settings.o → freezeInForce s = true → refuse .frozen)

/-- TAKE_EMERGENCY accepted: emergency credit becomes ACTIVE, the balance stays, the disconnect limit falls to −E and
is evaluated (CREDIT removed, kept, added or deferred), and a save is queued. (Log 12: flags and count that no rule
names are 0, by the model's choice.) -/
def Obligations.TakeEmergencyMakesItActive : Prop :=
  ∀ (r : Request) (s : State), CodeReady .takeEmergency r s →
    s.psv.inService = true → s.cau.settings.e ≠ 0 → s.ce.money.emergency = false →
    s.ce.money.b < s.cau.settings.o → freezeInForce s = false → s.stc.fault = false →
    ∃ t, exec .takeEmergency s = .next t ∧
      t.ce.money = { s.ce.money with emergency := true } ∧
      creditLimit t = -(s.cau.settings.e : Int) ∧
      Evaluated s.ce.money.b (-(s.cau.settings.e : Int)) s.ce.window s.exc s t ∧ t.ce.arm1 = s.ce.arm1 ∧
      t.ce.arm2 = s.ce.arm2 ∧ t.ce.window = s.ce.window ∧ t.ce.band = s.ce.band ∧
      SaveTaken .emergency t.stc ∧ t.exc.code = ⟨s.exc.code.queue.tail, false⟩ ∧
      t.exc.mem = doneMem r.slot .accepted 0 0 [(12, le 4 s.cau.settings.e), (16, leInt 4 s.ce.money.b)] s.exc.mem ∧
      t.bat = s.bat ∧ t.flash = s.flash ∧ t.cau = s.cau

/-! ### Keypad, codes, radio -/

/-- KEY_PRESS in RUN: a digit joins the buffer of up to 18, '*' takes the last one away, '#' submits; each restarts
the idle timer, which is stopped while the buffer is empty. (Log 12: a blocked code is reported with kind, issue and
amount 0, the model's choice.) -/
def Obligations.KeyPressEditsAndSubmits : Prop :=
  ∀ s : State, s.psv.power = .run →
    (∀ d, s.kps.buf.length < 18 →
      exec (.keyPress (.digit d)) s = .next (refresh { s with kps := ⟨s.kps.buf ++ [d], ⟨30, false⟩⟩ })) ∧
    (∀ d, 18 ≤ s.kps.buf.length →
      exec (.keyPress (.digit d)) s = .next (refresh { s with kps := ⟨s.kps.buf, ⟨30, false⟩⟩ })) ∧
    (s.kps.buf.length ≤ 1 → exec (.keyPress .star) s = .next (refresh { s with kps := ⟨[], ⟨0, false⟩⟩ })) ∧
    (1 < s.kps.buf.length →
      exec (.keyPress .star) s = .next (refresh { s with kps := ⟨s.kps.buf.dropLast, ⟨30, false⟩⟩ })) ∧
    (s.kps.buf = [] → exec (.keyPress .hash) s = .next (refresh s)) ∧
    (s.kps.buf ≠ [] → s.kps.buf ≠ [0, 0, 0] → s.bat.penalties.keypad.timer.left = 0 → s.cau.queue.length < 4 →
      exec (.keyPress .hash) s = .next (refresh { s with
        cau := { s.cau with queue := s.cau.queue ++
          [⟨.keypad, s.kps.buf.map (fun d => BitVec.ofNat 8 (48 + d.val)), none⟩] },
        kps := ⟨[], ⟨0, false⟩⟩ })) ∧
    (s.kps.buf ≠ [] → s.kps.buf ≠ [0, 0, 0] → 0 < s.bat.penalties.keypad.timer.left →
      exec (.keyPress .hash) s = .next (refresh (post (.codeResult .keypad .blocked 0 0 0 s.ce.money.b)
        { s with kps := ⟨s.kps.buf, ⟨30, false⟩⟩ }))) ∧
    (s.kps.buf = [0, 0, 0] → s.psv.inService = false →
      exec (.keyPress .hash) s = .next (refresh
        (post (.emergencyResult .notCommissioned s.cau.settings.e s.ce.money.b) { s with kps := ⟨[], ⟨0, false⟩⟩ })))

/-- The expiries of the keypad's idle timer, of a source's block timer and of the radio line's gap timer end what they
time, and nothing else changes. -/
def Obligations.IdleBlockAndGapTimersExpire : Prop :=
  ∀ s : State, s.psv.power = .run →
    (s.kps.idle.due = true →
      exec .keypadIdleTimerExpiry s = .next (refresh { s with kps := ⟨[], ⟨0, false⟩⟩ })) ∧
    (∀ src, (s.bat.penalties.get src).timer.due = true →
      exec (.blockTimerExpiry src) s = .next (refresh { s with bat := { s.bat with
        penalties := (s.bat.penalties.set src ⟨(s.bat.penalties.get src).count, ⟨0, false⟩⟩) } })) ∧
    exec .radioGapTimerExpiry s =
      .next (refresh (if inHunt s.rlr.rx then s else { s with rlr := { s.rlr with rx := .hunt 0 } }))

/-- APPLY_CODE at the head of its lane: a count above 40 is BAD_REQUEST, a blocked source BLOCKED, a full queue BUSY;
else the characters join the code queue, the slot stays TAKEN, and the lane is busy. (Log 12: a refused code writes
kind, issue and amount 0, and BAD_REQUEST writes no result field, by the model's choice.) -/
def Obligations.ApplyCodeSubmits : Prop :=
  ∀ (r : Request) (s : State), CodeReady .applyCode r s →
    let n := r.par 8 1
    let refused := fun (x : Result) (l : List (Nat × List Byte)) =>
      exec .applyCode s = .next (refresh (popCode (complete r.slot x 0 0 l s)))
    let none := [(8, [0]), (10, [0, 0]), (12, [0, 0, 0, 0]), (16, leInt 4 s.ce.money.b)]
    (40 < n → refused .badRequest []) ∧
    (n ≤ 40 → 0 < s.bat.penalties.exchange.timer.left → refused .blocked none) ∧
    (n ≤ 40 → s.bat.penalties.exchange.timer.left = 0 → 4 ≤ s.cau.queue.length → refused .busy none) ∧
    (n ≤ 40 → s.bat.penalties.exchange.timer.left = 0 → s.cau.queue.length < 4 →
      exec .applyCode s = .next (refresh { s with
        cau := { s.cau with queue := s.cau.queue ++ [⟨.exchange, slice r.params 1 n, some r.slot⟩] },
        exc := { s.exc with code := { s.exc.code with begun := true } } }))

/-- CODE_DECISION of a malformed string in service is BAD_FORMAT: it is malformed when it has fewer or more than 18
characters, a character that is no digit, or a value of 2^59 or more. The outcome goes to the source, and the source is
blocked for 2^count seconds, at most 1,024. (Log 12: kind, issue and amount of a malformed code, and the flags and count
of its slot's completion, are the model's choices.) -/
def Obligations.MalformedCodesAreBadFormat : Prop :=
  (∀ cs : List Byte, codeNumber cs =
    if cs.length ≠ 18 ∨ (∃ b ∈ cs, b.toNat < 48 ∨ 57 < b.toNat) ∨ 2 ^ 59 ≤ decimal cs then none
    else some (decimal cs)) ∧
  ∀ (e : CodeEntry) (rest : List CodeEntry) (s : State),
    s.psv.power = .run → s.psv.inService = true → s.cau.queue = e :: rest → s.cau.applied = none →
    codeNumber e.chars = none →
    let p := s.bat.penalties.get e.src
    let t := { s with
      bat := { s.bat with penalties :=
        (s.bat.penalties.set e.src ⟨min 11 (p.count + 1), ⟨min 1024 (2 ^ p.count), false⟩⟩) } }
    exec .codeDecision s = .next (refresh
      (dropHead (giveOutcome e.src e.slot .badFormat 0 0 0 t)))

/-- CODE_DECISION in RUN: before commissioning every code is NOT_COMMISSIONED; a well-formed one is decided by the
first condition that holds, whatever the keyed functions give. The apply of a CLEAR_TAMPER block clears every declared
kind of its mask whose condition is absent, with its entry and notice, keeps the others, and makes the TAMPER reason
agree; it is PARTIAL when a kind is kept. (Log 8: the keyed functions are opaque; log 12: the fields of a refused code
are the model's choice; log 51: the switch state in a clearing's entry is the model's choice.) -/
def Obligations.CodeDecisionTakesTheFirstOutcome : Prop :=
  (∀ (e : CodeEntry) (rest : List CodeEntry) (s : State),
    s.psv.power = .run → s.cau.queue = e :: rest → s.cau.applied = none →
    let refuse := fun (r : Result) (k i a : Nat) => exec .codeDecision s = .next (refresh (dropHead
      (giveOutcome e.src e.slot r k i a (mapPenalty e.src (penaltyAfter r) s))))
    (s.psv.inService = false → refuse .notCommissioned 0 0 0) ∧
    (s.psv.inService = true → ∀ x, codeNumber e.chars = some x →
      let b := decodeBlock s.cau.key x
      let credit := if b.kind = 0 then b.value else 0
      if blockAuthentic s.cau.key b = false then refuse .badCheck 0 0 0
      else if 3 ≤ b.kind ∨ b.kind = 2 ∧ b.value ≠ 0 ∨ b.kind = 1 ∧ 256 ≤ b.value then refuse .badKind b.kind b.issue 0
      else if b.issue ≤ s.cau.codes.floor then refuse .old b.kind b.issue credit
      else if b.issue ∈ s.cau.codes.table then refuse .used b.kind b.issue credit
      else if b.kind = 0 ∧ freezeInForce s = true then refuse .frozen b.kind b.issue credit
      else if b.kind = 0 ∧ 99999999 < s.ce.money.b + 10 * b.value then refuse .overLimit b.kind b.issue credit
      else if s.stc.fault = true then refuse .storeFault b.kind b.issue credit
      else exec .codeDecision s = .next (refresh (applyBlock b s)))) ∧
  ∀ (b : ClearBlock) (s : State), b.kind = 1 → s.psv.power = .run → s.stc.fault = false →
    let present := fun (k : Kind) => match k with
      | .coverMain => s.bat.coverMain
      | .coverTerminal => s.bat.coverTerminal
      | .watchLost => false
      | k => decide (96 ≤ (s.bat.kinds.get k).counter)
    let named := fun (k : Kind) => b.value / 2 ^ kindIndex k % 2 = 1 ∧ (s.bat.kinds.get k).state = .declared
    let cleared := fun (k : Kind) => decide (named k) && !present k
    let kept := fun (k : Kind) => decide (named k) && present k
    let mask := fun (f : Kind → Bool) => (kinds.map (fun k => if f k = true then 2 ^ kindIndex k else 0)).sum
    let t := applyBlock b s
    (∀ k, t.bat.kinds.get k = if cleared k = true
      then { s.bat.kinds.get k with state := .quiet, cleared := some s.bat.clock } else s.bat.kinds.get k) ∧
    t.cau.applied = some ⟨if kinds.any kept = true then .partly else .accepted, 1, b.issue,
      mask cleared + 256 * mask kept⟩ ∧
    t.swc.set.tamper = (s.psv.inService &&
      kinds.any (fun k => isDeclared t k && (s.cau.settings.policies.get k).opens)) ∧
    t.exc.notices = (postAll ((kinds.filter cleared).map (fun k => .tamperCleared k (s.bat.kinds.get k).counter))
      s).exc.notices ∧
    ((s.stc.queue.filter isAppend).length ≤ 24 → ∀ k, named k → ∃ e : TamperEntry, EntryTaken (.log e) t.stc ∧
      e.time = s.bat.clock ∧ e.kind = k ∧ e.event = (if present k = true then .clearRefused else .cleared) ∧
      e.power = .run ∧ e.balance = s.ce.money.b ∧ e.counter = (s.bat.kinds.get k).counter) ∧
    t.cau.codes = insertIssue b.issue s.cau.codes ∧ SaveTaken .code t.stc ∧ t.ce = s.ce ∧ t.flash = s.flash ∧
    t.exc.mem = s.exc.mem

/-- The apply of a CREDIT block adds ten times its value to the balance, ends emergency credit at 0 or above, keeps
the uncollected total, consumes the issue number, and queues the save that commits it. The low-credit check, which
re-arms the thresholds below the balance and reports each armed one above it, comes first, and then one disconnect
evaluation. A value of 0 adds nothing and is handled in the same way. -/
def Obligations.CreditBlockAddsToTheBalance : Prop :=
  (∀ s : State,
    let b := s.ce.money.b
    let l1 := s.cau.settings.l1
    let l2 := s.cau.settings.l2
    let t := lowCredit s
    t.ce = { s.ce with
      arm1 := decide (if s.ce.arm1 = true then (l1 : Int) ≤ b else (l1 : Int) < b),
      arm2 := decide (if s.ce.arm2 = true then (l2 : Int) ≤ b else (l2 : Int) < b) } ∧
    t.exc = (postAll ((if s.ce.arm1 = true ∧ b < l1 then [.creditLow1 b l1] else []) ++
      (if s.ce.arm2 = true ∧ b < l2 then [.creditLow2 b l2] else [])) s).exc ∧
    t.swc = s.swc ∧ t.bat = s.bat ∧ t.stc = s.stc ∧ t.cau = s.cau) ∧
  ∀ (b : ClearBlock) (s : State), b.kind = 0 → s.psv.power = .run → s.stc.fault = false →
    let t := applyBlock b s
    t.ce.money.b = s.ce.money.b + 10 * b.value ∧ t.ce.money.u = s.ce.money.u ∧ t.ce.money.cRes = s.ce.money.cRes ∧
    t.ce.money.emergency = (s.ce.money.emergency && decide (t.ce.money.b < 0)) ∧
    (let d : Int := if t.ce.money.emergency = true then -(s.cau.settings.e : Int) else 0
      let low := lowCredit { s with ce := { s.ce with money := t.ce.money } }
      t.ce.arm1 = low.ce.arm1 ∧ t.ce.arm2 = low.ce.arm2 ∧ t.ce.window = s.ce.window ∧
      Evaluated t.ce.money.b d s.ce.window low.exc s t) ∧
    t.cau.codes = insertIssue b.issue s.cau.codes ∧ t.cau.applied = some ⟨.accepted, 0, b.issue, b.value⟩ ∧
    SaveTaken .code t.stc ∧ t.ee.energy = s.ee.energy ∧ t.bat = s.bat ∧ t.exc.mem = s.exc.mem

/-- The apply of a LOAD_UNLOCK block removes LOCKOUT and clears the trip memory, is ACCEPTED whether or not LOCKOUT was
present, and consumes its issue number; an OPEN switch whose last reason it was goes to READY and waits. -/
def Obligations.LoadUnlockRemovesLockout : Prop :=
  ∀ (b : ClearBlock) (s : State), b.kind = 2 →
    let t := applyBlock b s
    t.swc.set = { s.swc.set with lockout := false } ∧ t.swc.tripMem = 0 ∧
    t.cau.applied = some ⟨.accepted, 2, b.issue, 0⟩ ∧ t.cau.codes = insertIssue b.issue s.cau.codes ∧
    (s.psv.inService = true → s.swc.sw = .opened → s.swc.drive = none →
      s.swc.set = { Reasons.empty with lockout := true } → t.swc.sw = .ready ∧ t.swc.drive = none)

/-- A fresh issue number above the floor enters the used-code table in ascending order; beyond 32 the smallest leaves it
and becomes the floor. -/
def Obligations.UsedCodeTableKeepsItsOrder : Prop :=
  ∀ (n : Nat) (c : Codes), CodesOk c → c.floor < n → n ∉ c.table →
    let d := insertIssue n c
    CodesOk d ∧ c.floor ≤ d.floor ∧
    (c.table.length < 32 → d.floor = c.floor ∧ ∀ x, x ∈ d.table ↔ x = n ∨ x ∈ c.table) ∧
    (c.table.length = 32 → d.table.length = 32 ∧ (d.floor = n ∨ d.floor ∈ c.table) ∧
      ∀ x, (x = n ∨ x ∈ c.table) ↔ (x = d.floor ∨ x ∈ d.table))

/-- A byte of the radio line in RUN moves the recognizer: a framing error restarts it, four sync bytes reach SYNC, any
other byte in HUNT restarts the count, the first byte after SYNC begins the address. A copy byte of the address that
differs, an address that matches neither the radio address nor a group address, a length above 40 and a check that
differs lead back to HUNT with count 0, and nothing is captured; any other byte of a call leads on. -/
def Obligations.RadioLineByteMovesTheRecognizer : Prop :=
  ∀ (b : Byte) (s : State), s.psv.power = .run →
    let goes := fun (x : Recognizer) (framed : Bool) =>
      exec (.radioLineByte b framed) s = .next (refresh { s with rlr := { s.rlr with rx := x } })
    goes (.hunt 0) false ∧
    (∀ n, s.rlr.rx = .hunt n → b ≠ 0x96 → goes (.hunt 0) true) ∧
    (∀ n, s.rlr.rx = .hunt n → b = 0x96 → n ≠ 3 → goes (.hunt (n + 1)) true) ∧
    (s.rlr.rx = .hunt 3 → b = 0x96 → goes .sync true) ∧
    (s.rlr.rx = .sync → b = 0x96 → goes .sync true) ∧
    (s.rlr.rx = .sync → b ≠ 0x96 → goes (.address [b]) true) ∧
    (∀ taken, s.rlr.rx = .address taken →
      let n := taken.length
      let a := (taken ++ [b]).take 6
      let own := a ≠ [0, 0, 0, 0, 0, 0] ∧ a = s.rlr.radioAddr
      let group := a ≠ [0, 0, 0, 0, 0, 0] ∧ a ∈ s.cau.settings.groups
      (6 ≤ n → taken.getD (n % 6) 0 ≠ b → goes (.hunt 0) true) ∧
      (n < 6 ∨ taken.getD (n % 6) 0 = b → n ≠ 17 → goes (.address (taken ++ [b])) true) ∧
      (n = 17 → taken.getD (n % 6) 0 = b →
        (own ∨ group → goes (.kind (decide own) (taken ++ [b])) true) ∧ (¬(own ∨ group) → goes (.hunt 0) true))) ∧
    (∀ own taken, s.rlr.rx = .kind own taken → goes (.length own (taken ++ [b])) true) ∧
    (∀ own taken, s.rlr.rx = .length own taken →
      (40 < b.toNat → goes (.hunt 0) true) ∧ (b = 0 → goes (.check own (taken ++ [b])) true) ∧
      (0 < b.toNat → b.toNat ≤ 40 → goes (.payload own (taken ++ [b]) b.toNat) true)) ∧
    (∀ own taken left, s.rlr.rx = .payload own taken left →
      (1 < left → goes (.payload own (taken ++ [b]) (left - 1)) true) ∧
      (left ≤ 1 → goes (.check own (taken ++ [b])) true)) ∧
    (∀ own address kind len payload, address.length = 18 → payload.length = len.toNat →
      let call := address ++ [kind, len] ++ payload
      (s.rlr.rx = .check own call → goes (.check own (call ++ [b])) true) ∧
      (∀ hi, s.rlr.rx = .check own (call ++ [hi]) →
        256 * hi.toNat + b.toNat ≠ (65536 - ((kind :: len :: payload).map BitVec.toNat).sum % 65536) % 65536 →
        goes (.hunt 0) true))

/-- A burst of four sync bytes and a valid call, to the meter's address or a group address, is captured and raises
WAKE, unless a capture is held; the recognizer is in HUNT again. The payload of a 'C' call to the meter's own address
is then submitted as a RADIO code: it joins the code queue, or is reported BLOCKED or BUSY; nothing else changes. (Log
6: that RADIO_CALL is a burst of bytes is the model's choice; log 12: a refused code is reported with kind, issue and
amount 0.) -/
def Obligations.ValidCallIsCaptured : Prop :=
  ∀ (addr payload : List Byte) (kind hi lo : Byte) (s : State),
    s.psv.power = .run → s.rlr.rx = .hunt 0 →
    addr.length = 6 → addr.head? ≠ some 0x96 → addressMatches s addr = true →
    payload.length ≤ 40 →
    let len : Byte := BitVec.ofNat 8 payload.length
    let call := addr ++ addr ++ addr ++ [kind, len] ++ payload ++ [hi, lo]
    256 * hi.toNat + lo.toNat = (65536 - ((kind :: len :: payload).map BitVec.toNat).sum % 65536) % 65536 →
    let captured := if s.rlr.captureHeld then s
      else { s with rlr := { s.rlr with captureHeld := true, capture := call }, exc := { s.exc with wake := true } }
    let submits := kind = 67 ∧ addr = s.rlr.radioAddr
    let burst := Instr.radioCall ([0x96, 0x96, 0x96, 0x96] ++ call)
    let refused := fun (x : Result) => exec burst s = .next (refresh
      (post (.codeResult .radio x 0 0 0 s.ce.money.b) captured))
    (¬submits → exec burst s = .next (refresh captured)) ∧
    (submits → 0 < s.bat.penalties.radio.timer.left → refused .blocked) ∧
    (submits → s.bat.penalties.radio.timer.left = 0 → 4 ≤ s.cau.queue.length → refused .busy) ∧
    (submits → s.bat.penalties.radio.timer.left = 0 → s.cau.queue.length < 4 →
      exec burst s = .next (refresh { captured with
        cau := { s.cau with queue := s.cau.queue ++ [⟨.radio, payload, none⟩] } }))

/-! ### Packages -/

/-- APPLY_PACKAGE at the head of its lane: a length of 0 or above 1,024, or a window beyond the bulk region, is
BAD_REQUEST; a blocked EXCHANGE source is BLOCKED; else the package's bytes are taken and the lane is busy. (Log 12:
the refusals write no result field, by the model's choice.) -/
def Obligations.ApplyPackageTakesTheBytes : Prop :=
  ∀ (r : Request) (s : State), CodeReady .applyPackage r s →
    let off := r.par 8 2
    let len := r.par 10 2
    let refused := fun (x : Result) =>
      exec .applyPackage s = .next (refresh (popCode (complete r.slot x 0 0 [] s)))
    (len = 0 ∨ 1024 < len ∨ 4096 < off + len → refused .badRequest) ∧
    (¬(len = 0 ∨ 1024 < len ∨ 4096 < off + len) → 0 < s.bat.penalties.exchange.timer.left → refused .blocked) ∧
    (¬(len = 0 ∨ 1024 < len ∨ 4096 < off + len) → s.bat.penalties.exchange.timer.left = 0 →
      exec .applyPackage s = .next (refresh { s with
        cau := { s.cau with pkg := some ⟨readBytes s.exc.mem (4096 + off) len, some r.slot, .decoding⟩ },
        exc := { s.exc with code := { s.exc.code with begun := true } } }))

/-- PACKAGE_DECISION in RUN: the first outcome whose condition holds, whatever the keyed check gives (with no complete
record none passes WRONG_METER); a refusal is given with the number, the effective time and the section index that it
names, and BAD_FORMAT and BAD_CHECK count against the EXCHANGE source. (Log 8: the keyed check is opaque; log 13 and
log 54: the section index of a package that runs out, and that the array shows whether there is a complete record, are
read by inference; log 12: the flags and count of the slot's completion, and log 50: the effective time in the results
of a package shorter than its header, are the model's choices.) -/
def Obligations.PackageDecisionTakesTheFirstOutcome : Prop :=
  ∀ (p : PkgRun) (s : State), s.psv.power = .run → s.cau.pkg = some p → p.stage = .decoding →
    let refuse := fun (x : Result) (sect : Nat) => exec .packageDecision s =
      .next (refresh (givePackage p x sect none (mapPenalty .exchange (penaltyAfter x) s)))
    let take := fun (x : Result) (l : List Section) =>
      exec .packageDecision s = .next (refresh (takePackage p ⟨x, 0, l⟩ s))
    (∀ x sect t i, p.slot = some i → (givePackage p x sect none t).exc.mem = doneMem i x 0 0
      [(12, le 4 (headerField p.bytes 0)), (16, le 4 (headerField p.bytes 8)), (20, [BitVec.ofNat 8 sect])] t.exc.mem) ∧
    (s.psv.inService = false → refuse .notCommissioned 0) ∧
    (s.psv.inService = true → ∀ i, parsePackage p.bytes = .error i → refuse .badFormat i) ∧
    (s.psv.inService = true → ∀ l, parsePackage p.bytes = .ok l →
      if checkAgrees s.cau.key p.bytes = false then refuse .badCheck 0
      else if headerField p.bytes 4 ≠ s.cau.serial ∨ newestRecord s.flash.records = none then refuse .wrongMeter 0
      else if headerField p.bytes 0 ≤ s.cau.lastPkg then refuse .old 0
      else if badValueIndex (headerField p.bytes 8) l ≠ 0 then
        refuse .badValue (badValueIndex (headerField p.bytes 8) l)
      else if s.stc.fault = true then refuse .storeFault 0
      else if headerField p.bytes 8 = 0 then take .accepted l
      else take .pending l)

/-- An accepted package takes its number, replaces the settings of its sections, discards the pending package with
PACKAGE_DISCARDED, and queues the save that commits it; one with an effective time is held in its place, and the
settings and the money stay. A held package is activated at a period end at or after its effective time, once released
and with a valid clock: its sections become the settings, PACKAGE_ACTIVATED is posted and a save is queued. Each
section is taken into use by its module. (Log 48, log 42 and log 72: the order among several sections, that a nominal end
may lie beyond the clock's largest value, and that an entry which a clock step closes has no SUPPLY_OPEN from the
evaluation that the step causes, are the model's choices.) -/
def Obligations.TakenPackageIsAppliedOrHeld : Prop :=
  (∀ (p : PkgRun) (l : List Section) (s : State), s.psv.power = .run → s.stc.fault = false →
    let n := headerField p.bytes 0
    let displaced := match s.cau.pendingPkg with
      | some q => s.exc.post s.bat.clock (.packageDiscarded q.number q.effTime (min 255 (n - q.number)))
      | none => s.exc
    let old := match s.cau.pendingPkg with
      | some q => q.number
      | none => 0
    let taken := { s with exc := displaced, cau := { s.cau with
      pendingPkg := none, lastPkg := n
      pkg := some { p with stage := .committing .accepted n (headerField p.bytes 8) old } } }
    (let t := takePackage p ⟨.accepted, 0, l⟩ s
     let u := applySections l taken
     t.cau = { taken.cau with settings := l.foldl settingsWith s.cau.settings } ∧
      SaveTaken .package t.stc ∧ t.flash = s.flash ∧ t.ee.energy = s.ee.energy ∧
      t.ce.money.b = s.ce.money.b ∧
      t.exc = u.exc ∧ t.ce = u.ce ∧ t.swc = u.swc ∧ t.bat = u.bat ∧ t.ee = u.ee) ∧
    (let t := takePackage p ⟨.pending, 0, l⟩ s
     t.cau = { s.cau with
        pendingPkg := some ⟨n, headerField p.bytes 8, l, false⟩, lastPkg := n,
        pkg := some { p with stage := .committing .pending n (headerField p.bytes 8) old } } ∧
      SaveTaken .package t.stc ∧ t.ee = s.ee ∧ t.ce = s.ce ∧ t.swc = s.swc ∧ t.bat = s.bat ∧ t.flash = s.flash ∧
      t.exc = displaced)) ∧
  (∀ (p : PeriodInput) (s : State), s.psv.power = .run → ∃ u, u.bat.clock = s.bat.clock ∧ u.psv.power = .run ∧
    u.bat.clockValid = s.bat.clockValid ∧ u.cau.pendingPkg = s.cau.pendingPkg ∧ u.cau.settings = s.cau.settings ∧
    u.ee.live = (periodOut p s).live ∧ exec (.periodEnd p) s = .next (refresh (activatePending s.bat.clock u))) ∧
  (∀ (endTime : Nat) (s : State),
    let t := activatePending endTime s
    (s.cau.pendingPkg = none → t = s) ∧
    ∀ p, s.cau.pendingPkg = some p →
      (p.released = false ∨ s.bat.clockValid = false ∨ endTime < p.effTime → t = s) ∧
      (p.released = true → s.bat.clockValid = true → p.effTime ≤ endTime → s.psv.power = .run → s.stc.fault = false →
        let u := applySections p.sections s
        t.cau.settings = p.sections.foldl settingsWith s.cau.settings ∧ t.cau.pendingPkg = none ∧
        t.cau.lastPkg = s.cau.lastPkg ∧ SaveTaken .activation t.stc ∧ t.ce = u.ce ∧ t.swc = u.swc ∧ t.bat = u.bat ∧
        t.exc.notices = (u.exc.post u.bat.clock (.packageActivated p.number p.effTime
          (activationDistance u.bat.clock endTime))).notices)) ∧
  ∀ (s : State),
    let c := s.cau.settings
    let now := s.bat.clock
    let set := fun (x : Section) => { s with cau := { s.cau with settings := settingsWith c x } }
    let d : Int := if s.ce.money.emergency = true then -(c.e : Int) else 0
    (∀ a b x y, let t := set (.bandPrices a b x y)
      applySections [.bandPrices a b x y] s = { t with ce := { t.ce with band := bandAt t now } }) ∧
    (∀ w l, let t := set (.daySchedule w l)
      applySections [.daySchedule w l] s = { t with ce := { t.ce with band := bandAt t now } }) ∧
    (∀ w l, let t := applySections [.friendly w l] s
      let win := windowAt (set (.friendly w l)) now
      t.cau = (set (.friendly w l)).cau ∧ t.ce.window = win ∧ t.ce.money = s.ce.money ∧
      (win = s.ce.window → t = set (.friendly w l)) ∧
      (win ≠ s.ce.window → Evaluated s.ce.money.b d win s.exc s t)) ∧
    (∀ e o, let t := applySections [.emergency e o] s
      t.cau = (set (.emergency e o)).cau ∧ t.ce.money = s.ce.money ∧
      (s.ce.money.emergency = false ∨ e = c.e → t = set (.emergency e o)) ∧
      (s.ce.money.emergency = true → e ≠ c.e → Evaluated s.ce.money.b (-(e : Int)) s.ce.window s.exc s t)) ∧
    (∀ a b, applySections [.thresholds a b] s = lowCredit (set (.thresholds a b))) ∧
    (∀ f, applySections [.fixedCharge f] s = set (.fixedCharge f)) ∧
    (∀ r a b i v, applySections [.metering r a b i v] s = set (.metering r a b i v)) ∧
    (∀ l, applySections [.groupAddresses l] s = set (.groupAddresses l)) ∧
    (∀ p, applySections [.loadLimit p] s = if p = c.pMax then set (.loadLimit p) else
      { set (.loadLimit p) with swc := { s.swc with overLimit := 0 } }) ∧
    (∀ l, let t := applySections [.tamperPolicy l] s
      t.cau = (set (.tamperPolicy l)).cau ∧ t.bat = s.bat ∧ t.ce = s.ce ∧
      t.swc.set = { s.swc.set with tamper := tamperRequired (set (.tamperPolicy l)) }) ∧
    (∀ n v, s.ee.interval = some v → let t := applySections [.profileInterval n] s
      t.cau = (set (.profileInterval n)).cau ∧ t.ce = s.ce ∧ t.swc = s.swc ∧
      (n = c.intervalLen → t = set (.profileInterval n)) ∧
      (n ≠ c.intervalLen → (∃ w, t.ee.interval = some w ∧ w.start = now ∧
          w.nominalEnd = (now / (n * 60) + 1) * (n * 60) ∧ w.imp = 0 ∧ w.exp = 0 ∧ w.fb = 0 ∧ w.credit = 0) ∧
        (v.start < now → storeTakes s.psv = true → s.stc.fault = false →
          (s.stc.queue.filter isAppend).length < 32 → ∃ e : ProfileEntry, EntryTaken (.profile e) t.stc ∧
          e.endTime = now ∧ e.imp = v.imp ∧ e.exp = v.exp ∧ e.fb = v.fb ∧ e.credit = v.credit ∧
          e.balance = s.ce.money.b ∧ e.flags.short = (v.flags.short || decide (now - v.start < c.intervalLen * 60))))) ∧
    ∀ time, let t := applySections [.clock time] s
      t.cau = s.cau ∧ t.bat.clock = time ∧ t.bat.clockValid = true ∧ t.bat.clockSource = .authenticated ∧
      t.bat.steerDay = time / 86400 ∧ t.bat.steerUsed = 0 ∧ t.ce.money.b = s.ce.money.b ∧
      t.ce.money.lastDay = (if s.bat.clockValid then s.ce.money.lastDay else time / 86400) ∧
      (s.bat.clockValid = false ∨ now ≠ time → ClockStepped now s t)

/-! ### The supply switch -/

/-- BUTTON_PRESS: in RUN and in service, with an empty open-reason set, in READY or FAULT the press sets consent and a
closing drive begins at attempt 1; any other press changes nothing. -/
def Obligations.ButtonPressClosesOrIsIgnored : Prop :=
  ∀ s : State,
    (s.psv.power = .run → s.psv.inService = true → s.swc.drive = none → noReason s.swc.set = true →
      (s.swc.sw = .ready ∨ s.swc.sw = .fault) →
      exec .buttonPress s = .next (refresh (flagInterval (fun g => { g with supplyOpen := true })
        { s with swc := { s.swc with
          sw := .closing, consent := true, overLimit := 0, mark := false,
          drive := some ⟨.toClose, 1, false, false, none⟩ } }))) ∧
    (s.psv.power ≠ .run ∨ s.psv.inService = false ∨ (s.swc.sw ≠ .ready ∧ s.swc.sw ≠ .fault) ∨
        (s.swc.sw = .fault ∧ noReason s.swc.set = false) →
      exec .buttonPress s = .next (refresh s))

/-- COIL_PULSE_END ends the pulse of the attempt and begins its settle interval. (Log 1: without a drive the command
changes nothing.) -/
def Obligations.CoilPulseEndBeginsTheSettle : Prop :=
  ∀ s : State,
    (∀ d, s.swc.drive = some d → exec .coilPulseEnd s =
      .next (refresh { s with swc := { s.swc with drive := some { d with settling := true } } })) ∧
    (s.swc.drive = none → exec .coilPulseEnd s = .next (refresh s))

/-- The load-side sense: OPEN when every load side is below 40 V; CLOSED when a line voltage is present and every phase
with line voltage has load-side voltage above 40 V; else MIXED. -/
def Obligations.SenseReadsTheLoadSide : Prop :=
  ∀ v : PerPhase PhaseVolts,
    let below := v.a.load < 4000 ∧ v.b.load < 4000 ∧ v.c.load < 4000
    let some := 4000 ≤ v.a.line ∨ 4000 ≤ v.b.line ∨ 4000 ≤ v.c.line
    let fed := (4000 ≤ v.a.line → 4000 < v.a.load) ∧ (4000 ≤ v.b.line → 4000 < v.b.load) ∧
      (4000 ≤ v.c.line → 4000 < v.c.load)
    (below → senseOf v = .sensedOpen) ∧ (¬below ∧ some ∧ fed → senseOf v = .sensedClosed) ∧
    (¬below ∧ ¬(some ∧ fed) → senseOf v = .sensedMixed)

/-- DRIVE_CONFIRM of a drive toward the wanted state: a matching sense ends it in the state it was driven to, with
SUPPLY_CHANGED; a first attempt that does not match is repeated; a second one ends in FAULT, with SWITCH_FAULT. When
the wanted state lies in the other direction, a drive that succeeded is followed by one toward it, a sense that
matches it ends in it, and any other sense begins a drive toward it. (Log 19 and log 20: what a drive that may not
follow leaves, and the direction that SUPPLY_CHANGED names, are the model's choices.) -/
def Obligations.DriveConfirmEndsOrRepeats : Prop :=
  (∀ (v : PerPhase PhaseVolts) (d : Drive) (s : State),
    s.swc.drive = some d → d.settling = true → d.test = false → wantedDir s.swc = d.dir →
    let frame := fun (t : State) => t.swc.set = s.swc.set ∧ t.swc.consent = s.swc.consent ∧ t.swc.lastSense = v ∧
      t.swc.tripMem = s.swc.tripMem ∧ t.ce = s.ce ∧ t.cau = s.cau ∧ t.stc = s.stc ∧ t.bat = s.bat ∧ t.flash = s.flash ∧
      t.exc.mem = s.exc.mem
    (senseMatches (senseOf v) d.dir = true →
      let w := match d.dir with
        | .toClose => SwitchState.closed
        | .toOpen => if noReason s.swc.set then .ready else .opened
      ∃ t, exec (.driveConfirm v) s = .next t ∧ t.swc.sw = w ∧ t.swc.drive = none ∧ frame t ∧
        t.exc.notices = (s.exc.post s.bat.clock (.supplyChanged w d.dir d.attempt s.swc.set)).notices) ∧
    (senseMatches (senseOf v) d.dir = false → d.attempt = 1 → mayDrive s.psv = true →
      exec (.driveConfirm v) s = .next (refresh { s with swc := { s.swc with
        lastSense := v, drive := some { d with attempt := 2, settling := false } } })) ∧
    (senseMatches (senseOf v) d.dir = false → d.attempt = 2 →
      ∃ t, exec (.driveConfirm v) s = .next t ∧ t.swc.sw = .fault ∧ t.swc.drive = none ∧ frame t ∧
        t.exc.notices = (s.exc.post s.bat.clock (.switchFault d.dir 2 (senseOf v) v)).notices)) ∧
  ∀ (v : PerPhase PhaseVolts) (d : Drive) (s : State),
    s.swc.drive = some d → d.settling = true → d.test = false → wantedDir s.swc ≠ d.dir →
    let want := wantedDir s.swc
    let rest := fun (x : Direction) => match x with
      | .toClose => SwitchState.closed
      | .toOpen => if noReason s.swc.set then .ready else .opened
    let moving := fun (x : Direction) => match x with
      | .toClose => SwitchState.closing
      | .toOpen => .opening
    let ends := fun (w : SwitchState) (drive : Option Drive) (x : Exc) => ∃ t, exec (.driveConfirm v) s = .next t ∧
      t.swc.sw = w ∧ t.swc.drive = drive ∧ t.swc.set = s.swc.set ∧ t.swc.consent = s.swc.consent ∧
      t.swc.lastSense = v ∧ t.exc.notices = x.notices ∧ t.exc.mem = s.exc.mem ∧ t.ce = s.ce ∧ t.flash = s.flash
    let next : Option Drive := some ⟨want, 1, false, false, none⟩
    let changed := fun (x : Direction) => s.exc.post s.bat.clock (.supplyChanged (rest x) d.dir d.attempt s.swc.set)
    (senseMatches (senseOf v) d.dir = true → mayDrive s.psv = true → ends (moving want) next (changed d.dir)) ∧
    (senseMatches (senseOf v) d.dir = true → mayDrive s.psv = false → ends (rest d.dir) none (changed d.dir)) ∧
    (senseMatches (senseOf v) want = true → ends (rest want) none (changed want)) ∧
    (senseOf v = .sensedMixed → mayDrive s.psv = true → ends (moving want) next s.exc) ∧
    (senseOf v = .sensedMixed → mayDrive s.psv = false → ends .unknown none s.exc)

/-- LOAD_TRIP: a closed switch whose over-limit count reaches 30 opens for LOAD_LIMIT, the recovery timer starts at 60
s, the trip memory rises; its third trip adds LOCKOUT and returns it to 0. (Log 6: that LOAD_TRIP is the limiter's
part of a hand-off is the model's choice.) -/
def Obligations.LoadTripOpensTheSwitch : Prop :=
  ∀ (tPrime : Nat) (s : State),
    s.psv.power = .run → s.psv.inService = true → s.swc.sw = .closed → s.swc.drive = none →
    s.swc.set = Reasons.empty → s.swc.consent = true → s.cau.settings.pMax ≠ 0 →
    s.cau.settings.pMax < tPrime / 1000 → s.swc.overLimit = 29 →
    let after := fun (set : Reasons) (mem : Nat) => flagInterval (fun g => { g with supplyOpen := true })
      { s with swc := { s.swc with
        set := set, consent := false, sw := .opening, drive := some ⟨.toOpen, 1, false, false, none⟩, overLimit := 0,
        recovery := ⟨60, false⟩, tripMem := mem, quiet := 0, mark := false } }
    (s.swc.tripMem < 2 → exec (.loadTrip tPrime) s = .next (refresh
      (post (.loadTrip (s.swc.tripMem + 1) (tPrime / 1000) s.cau.settings.pMax)
        (after { Reasons.empty with loadLimit := true } (s.swc.tripMem + 1))))) ∧
    (s.swc.tripMem = 2 → exec (.loadTrip tPrime) s = .next (refresh
      (post .lockout (post (.loadTrip 3 (tPrime / 1000) s.cau.settings.pMax)
        (after { Reasons.empty with loadLimit := true, lockout := true } 0)))))

/-- TRIP_MEMORY_QUIET after 600 quiet periods lowers the trip memory by one; the recovery timer's expiry removes
LOAD_LIMIT, and an OPEN switch whose set it empties goes to READY. The hand-off of a billed period counts: in service
the over-limit count rises while the switch is CLOSED and the power above Pmax and is else 0, at 30 the limiter trips;
the quiet count rises while the trip memory is above 0, and at 600 lowers it. (Log 28: that the quiet count comes
first is the model's choice; log 6: that TRIP_MEMORY_QUIET is the limiter's part of a hand-off is the model's
choice.) -/
def Obligations.QuietAndRecoveryLowerTheLimiter : Prop :=
  (∀ (tPrime : Nat) (s : State),
    let w := tPrime / 1000
    let pMax := s.cau.settings.pMax
    let n := if pMax ≠ 0 ∧ s.swc.sw = .closed ∧ pMax < w then s.swc.overLimit + 1 else 0
    let full := s.swc.tripMem ≠ 0 ∧ s.swc.quiet = 599
    let memory := if full then s.swc.tripMem - 1 else s.swc.tripMem
    let quiet := if full then 0 else if s.swc.tripMem = 0 then s.swc.quiet else s.swc.quiet + 1
    let t := limiterHandOff tPrime s
    (s.psv.inService = false → t = s) ∧
    (s.psv.inService = true → n < 30 →
      t = { s with swc := { s.swc with overLimit := n, tripMem := memory, quiet := quiet } }) ∧
    (s.psv.inService = true → 30 ≤ n →
      t.swc.set = { s.swc.set with loadLimit := true, lockout := s.swc.set.lockout || decide (2 ≤ memory) } ∧
      t.swc.overLimit = 0 ∧ t.swc.quiet = 0 ∧ t.swc.recovery = ⟨60, false⟩ ∧
      t.swc.tripMem = (if 2 ≤ memory then 0 else memory + 1) ∧ t.ce = s.ce ∧ t.bat = s.bat ∧ t.stc = s.stc ∧
      t.exc = (postAll (.loadTrip (memory + 1) w pMax :: if 2 ≤ memory then [.lockout] else []) s).exc)) ∧
  (∀ (p : PeriodInput) (s : State), s.psv.power = .run → s.cau.pendingPkg = none →
    ∃ t u, exec (.periodEnd p) s = .next t ∧ u.psv = s.psv ∧ u.cau = s.cau ∧ u.swc.tripMem = s.swc.tripMem ∧
      u.swc.quiet = s.swc.quiet ∧ u.swc.recovery = s.swc.recovery ∧
      (u.swc.sw = .closed → s.swc.sw = .closed ∧ u.swc.overLimit = s.swc.overLimit) ∧
      let v := limiterHandOff (periodOut p s).tPrime u
      t.swc.tripMem = v.swc.tripMem ∧ t.swc.quiet = v.swc.quiet ∧ t.swc.recovery = v.swc.recovery ∧
      (t.swc.sw = .closed → t.swc.overLimit = v.swc.overLimit)) ∧
  ∀ s : State, s.psv.power = .run → s.psv.inService = true →
    (s.swc.tripMem ≠ 0 → s.swc.quiet = 599 → exec .tripMemoryQuiet s =
      .next (refresh { s with swc := { s.swc with tripMem := s.swc.tripMem - 1, quiet := 0 } })) ∧
    (s.swc.recovery.due = true → s.swc.sw = .opened → s.swc.drive = none → s.swc.set.loadLimit = true →
      let set := { s.swc.set with loadLimit := false }
      (noReason set = false → exec .recoveryTimerExpiry s =
        .next (refresh { s with swc := { s.swc with set := set, recovery := ⟨0, false⟩ } })) ∧
      (noReason set = true → exec .recoveryTimerExpiry s =
        .next (refresh (flagInterval (fun g => { g with supplyOpen := true })
          { s with swc := { s.swc with set := set, sw := .ready, overLimit := 0, recovery := ⟨0, false⟩ } }))))

/-- SWITCH_OPEN and SWITCH_RELEASE add and remove REMOTE and report the set and the switch state as they then are; a
closed switch opens for REMOTE, an OPEN one whose last reason it was goes to READY; without a change of the set
nothing else changes. (Log 12: flags and count that no rule names are 0, by the model's choice.) -/
def Obligations.SwitchRequestsMoveRemote : Prop :=
  ∀ (r : Request) (s : State), s.psv.inService = true → s.swc.drive = none →
    let finish := fun (flags sw : Nat) (t : State) =>
      popControl (complete r.slot .ok flags 0 [(8, [byte (setCode t.swc.set), byte sw])] t)
    let flagged := flagInterval (fun g => { g with supplyOpen := true })
    (ControlReady .switchOpen r s → s.swc.set.remote = true →
      exec .switchOpen s = .next (refresh (finish 0 (switchCode s.swc.sw) s))) ∧
    (ControlReady .switchOpen r s → s.swc.set = Reasons.empty → s.swc.consent = true → s.swc.sw = .closed →
      exec .switchOpen s = .next (refresh (finish 4 5 (flagged { s with swc := { s.swc with
        set := { Reasons.empty with remote := true }, consent := false, sw := .opening, overLimit := 0, mark := false,
        drive := some ⟨.toOpen, 1, false, false, none⟩ } })))) ∧
    (ControlReady .switchOpen r s → s.swc.set.remote = false → s.swc.sw = .opened →
      noReason s.swc.set = false →
      exec .switchOpen s = .next (refresh (finish 4 1 { s with swc := { s.swc with
        set := { s.swc.set with remote := true }, consent := false } }))) ∧
    (ControlReady .switchRelease r s → s.swc.set.remote = false →
      exec .switchRelease s = .next (refresh (finish 0 (switchCode s.swc.sw) s))) ∧
    (ControlReady .switchRelease r s → s.swc.set = { Reasons.empty with remote := true } → s.swc.sw = .opened →
      exec .switchRelease s = .next (refresh (finish 4 2 (flagged { s with swc := { s.swc with
        set := Reasons.empty, sw := .ready, overLimit := 0 } }))))

/-- TEST_SWITCH: a direction other than 0 or 1 is BAD_REQUEST, in service it is NOT_NOW; else one attempt begins, and
its confirm gives the state that the sense alone shows and completes the slot with the sense. (Log 12: flags and count
that no rule names are 0, by the model's choice.) -/
def Obligations.TestSwitchMakesOneAttempt : Prop :=
  (∀ (r : Request) (s : State), ControlReady .testSwitch r s →
    let refused := fun (x : Result) =>
      exec .testSwitch s = .next (refresh (popControl (complete r.slot x 0 0 [] s)))
    (1 < r.par 8 1 → refused .badRequest) ∧
    (r.par 8 1 ≤ 1 → s.psv.inService = true → refused .notNow) ∧
    (r.par 8 1 ≤ 1 → s.psv.inService = false →
      let d := if r.par 8 1 = 0 then Direction.toOpen else .toClose
      exec .testSwitch s = .next (refresh (flagInterval (fun g => { g with supplyOpen := true })
        { s with
          swc := { s.swc with
            sw := if r.par 8 1 = 0 then .opening else .closing, overLimit := 0, mark := false,
            drive := some ⟨d, 1, false, true, some r.slot⟩ },
          exc := { s.exc with control := { s.exc.control with begun := true } } })))) ∧
  ∀ (v : PerPhase PhaseVolts) (d : Drive) (i : Fin 16) (s : State),
    s.swc.drive = some d → d.settling = true → d.test = true → d.slot = some i → s.exc.live = true →
    ∃ t, exec (.driveConfirm v) s = .next t ∧ t.swc.drive = none ∧ t.swc.lastSense = v ∧
      t.swc.sw = (match senseOf v with
        | .sensedOpen => .opened
        | .sensedClosed => .closed
        | .sensedMixed => .fault) ∧
      t.exc.mem = doneMem i .ok (8 * flagNat (senseMatches (senseOf v) d.dir)) 0
        [(8, [byte (senseCode (senseOf v)), byte (phaseSenseCode v.a), byte (phaseSenseCode v.b),
          byte (phaseSenseCode v.c)])] s.exc.mem ∧
      t.exc.control = ⟨s.exc.control.queue.tail, false⟩ ∧ t.swc.set = s.swc.set ∧ t.ce = s.ce ∧ t.flash = s.flash

/-! ### Tamper watch -/

/-- COVER_CHANGE to OPEN in service in RUN declares its kind: count, times, the TAMPER reason of a policy that opens,
the ever bit, the log entry, the save, and TAMPER_DECLARED; money, memory and array stay. In an outage it leaves the
evidence, the policy and an outage note, if the kind has none yet. A cover that closes leaves a QUIET or DECLARED kind
as it is. (Log 23: that an outage note carries the switch state after the policy is read from the spec by inference.) -/
def Obligations.CoverOpeningInServiceDeclares : Prop :=
  (∀ (c : Cover) (s : State), s.psv.power ≠ .off → coverOpen s.bat c = true →
    (s.bat.kinds.get (coverKind c)).state ≠ .warning →
    exec (.coverChange c false) s = .next (refresh (setCover c false s))) ∧
  (∀ (c : Cover) (s : State), s.psv.power = .hold ∨ (s.psv.power = .battery ∧ s.psv.seq = none) →
    s.psv.inService = true → coverOpen s.bat c = false → (s.bat.kinds.get (coverKind c)).state ≠ .declared →
    ∃ t, exec (.coverChange c true) s = .next t ∧ coverOpen t.bat c = true ∧
      OutageDeclared (coverKind c) (s.bat.kinds.get (coverKind c)) s t) ∧
  ∀ (c : Cover) (s : State),
    s.psv.power = .run → s.psv.inService = true → s.stc.fault = false →
    coverOpen s.bat c = false → (s.bat.kinds.get (coverKind c)).state ≠ .declared →
    (s.stc.queue.filter isAppend).length < 32 →
    let k := coverKind c
    let r := s.bat.kinds.get k
    ∃ t, exec (.coverChange c true) s = .next t ∧
      coverOpen t.bat c = true ∧
      t.bat.kinds = s.bat.kinds.set k { r with
        state := .declared, count := min 65535 (r.count + 1), last := some s.bat.clock,
        first := some (r.first.getD s.bat.clock) } ∧
      ((s.cau.settings.policies.get k).opens = true → t.swc.set.tamper = true ∧
        (s.swc.set.tamper = false → t.swc.consent = false)) ∧
      (bitOf s.stc.copy (.ever k) = false → BitTaken (.ever k) t.stc) ∧
      (∃ e : TamperEntry, EntryTaken (.log e) t.stc ∧ e.time = s.bat.clock ∧ e.kind = k ∧ e.event = .declared ∧
        e.power = .run ∧ e.balance = s.ce.money.b ∧ e.counter = r.counter) ∧
      SaveTaken .tamper t.stc ∧
      t.exc.notices = (s.exc.post s.bat.clock
        (.tamperDeclared k false r.counter (min 65535 (r.count + 1)) s.bat.clock)).notices ∧
      t.ce.money = s.ce.money ∧ t.exc.mem = s.exc.mem ∧ t.flash = s.flash ∧ t.bat.clock = s.bat.clock

/-- COVER_CHANGE before commissioning: opening a QUIET kind's cover brings WARNING and closing it QUIET again, in RUN
with a WARNING_BEGIN entry and TAMPER_WARNING, and with a WARNING_END entry; in HOLD and BATTERY with neither. A
change that is none, or of a DECLARED kind, only moves the debounced state. -/
def Obligations.CoverChangesBeforeCommissioning : Prop :=
  (∀ (c : Cover) (s : State), s.psv.power = .hold ∨ s.psv.power = .battery → s.psv.inService = false →
    let k := coverKind c
    let r := s.bat.kinds.get k
    let moved := fun (x : KindState) (t : State) =>
      { t with bat := { t.bat with kinds := t.bat.kinds.set k { r with state := x } } }
    (coverOpen s.bat c = false → r.state = .quiet →
      exec (.coverChange c true) s = .next (refresh (moved .warning (setCover c true s)))) ∧
    (coverOpen s.bat c = true → r.state = .warning →
      exec (.coverChange c false) s = .next (refresh (moved .quiet (setCover c false s))))) ∧
  ∀ (c : Cover) (s : State), s.psv.power = .run → s.psv.inService = false →
    let k := coverKind c
    let r := s.bat.kinds.get k
    let logged := fun (ev : LogEvent) (t : State) => s.stc.fault = false → (s.stc.queue.filter isAppend).length < 32 →
      EntryTaken (.log ⟨s.bat.clock, k, ev, .run, s.swc.sw, s.ce.money.b, r.counter⟩) t.stc
    (∀ x, coverOpen s.bat c = x → exec (.coverChange c x) s = .next (refresh s)) ∧
    (coverOpen s.bat c = false → r.state = .quiet →
      ∃ t, exec (.coverChange c true) s = .next t ∧ coverOpen t.bat c = true ∧
        t.bat.kinds = s.bat.kinds.set k { r with state := .warning } ∧
        t.exc.notices = (s.exc.post s.bat.clock (.tamperWarning k r.counter)).notices ∧ t.swc = s.swc ∧ t.ce = s.ce ∧
        logged .warningBegin t) ∧
    (coverOpen s.bat c = true → r.state = .warning →
      ∃ t, exec (.coverChange c false) s = .next t ∧ coverOpen t.bat c = false ∧
        t.bat.kinds = s.bat.kinds.set k { r with state := .quiet } ∧
        t.exc.notices = s.exc.notices ∧ t.swc = s.swc ∧ t.ce = s.ce ∧ logged .warningEnd t) ∧
    (coverOpen s.bat c = false → r.state = .declared →
      exec (.coverChange c true) s = .next (refresh (setCover c true s)))

/-- MAGNET_SAMPLER_SECOND outside RUN: more than 16 of the second's 32 samples raise the magnet counter by 8 to at most
255, any other second lowers it by 1 to at least 0; below 96 a QUIET kind stays as it is, at 96 it is in WARNING, and a
WARNING kind that falls below 96 is QUIET; at 128 in service the kind is declared, in an outage with its outage note.
(Log 23: that the note carries the switch state after the policy is read from the spec by inference.) -/
def Obligations.MagnetSecondMovesTheCounter : Prop :=
  ∀ (hits : Nat) (s : State), s.psv.power = .hold ∨ s.psv.power = .battery →
    let r := s.bat.kinds.magnet
    let c := if 16 < hits then min 255 (r.counter + 8) else r.counter - 1
    let goes := fun (x : KindState) => exec (.magnetSamplerSecond hits) s = .next (refresh { s with
      bat := { s.bat with kinds := { s.bat.kinds with magnet := { r with counter := c, state := x } } } })
    (r.state = .quiet → c < 96 → goes .quiet) ∧
    (r.state = .quiet → 96 ≤ c → c < 128 ∨ s.psv.inService = false → goes .warning) ∧
    (r.state = .warning → c < 96 → goes .quiet) ∧
    (r.state = .warning → 96 ≤ c → c < 128 ∨ s.psv.inService = false → goes .warning) ∧
    (r.state = .declared → goes .declared) ∧
    (r.state ≠ .declared → 128 ≤ c → s.psv.inService = true → s.psv.power = .hold ∨ s.psv.seq = none →
      ∃ t, exec (.magnetSamplerSecond hits) s = .next t ∧ OutageDeclared .magnet { r with counter := c } s t)

/-! ### The store -/

/-- PERIODIC_TIMER_EXPIRY in RUN starts its timer again at 900 s and queues a PERIODIC save, unless one waits already
or the store is in FAULT; SUSPEND_GUARD_EXPIRY ends the guard after a resume; ERASE_SUSPENDED stops a running erase
that is not guarded and for which a READ waits. (Log 1 and log 26: that a guard ends and a stop follows as commands of
their own is the model's choice.) -/
def Obligations.StoreTimersAct : Prop :=
  ∀ s : State, s.psv.power = .run →
    (s.stc.periodic.due = true →
      let waits := s.stc.queue.any (fun q => q.op == .save .periodic)
      (waits = true ∨ s.stc.fault = true → exec .periodicTimerExpiry s =
        .next (refresh { s with stc := { s.stc with periodic := ⟨900, false⟩ } })) ∧
      (waits = false → s.stc.fault = false →
        ∃ t, exec .periodicTimerExpiry s = .next t ∧ SaveTaken .periodic t.stc ∧ t.stc.periodic = ⟨900, false⟩ ∧
          t.ee = s.ee ∧ t.ce = s.ce ∧ t.swc = s.swc ∧ t.bat = s.bat ∧ t.flash = s.flash ∧ t.exc.mem = s.exc.mem)) ∧
    (s.stc.erase = none → exec .suspendGuardExpiry s = .next (refresh s) ∧ exec .eraseSuspended s = .next (refresh s)) ∧
    (∀ e, s.stc.erase = some e → exec .suspendGuardExpiry s =
      .next (refresh { s with stc := { s.stc with erase := some { e with guarded := false } } })) ∧
    (∀ e, s.stc.erase = some e → s.psv.holdWait = false → s.stc.readWait = true → e.suspended = false →
      e.guarded = false → exec .eraseSuspended s =
        .next (refresh { s with stc := { s.stc with erase := some { e with suspended := true } } }))

/-- PROGRAM_RECORD_DONE in RUN. A pass leaves the record good in its place, returns the failure count to 0, and gives
the owners of its saves their outcomes: a code's, a package's, a lifecycle request's, of which INSTALL_KEY goes on with
its bit. A failure leaves the place damaged, and every save of the record is taken again; a failed mark counts 1, since
its body has passed. The third failure in a row puts the store in FAULT, with nothing waiting, and gives STORE_FAULT to
whoever waits. (Log 12 gives the completion's flags and count; log 30: that a place is erased, good or damaged as a
whole is read by inference; log 69: that COMMISSION returns the open-reason set of this completion is the model's
choice.) -/
def Obligations.RecordVerifyDecidesTheSave : Prop :=
  ∀ (saves : List SaveKind) (image : SaveRecord) (s : State),
    s.psv.power = .run → s.stc.prog = some (.record saves image) →
    let place := 8 * s.stc.curBlock + s.stc.nextPlace
    let array := fun (p : RecordPlace) => { s.flash with records := s.flash.records.set place p }
    let noCode := fun (l : List SaveKind) => .code ∉ l ∨ s.cau.applied = none
    let noPackage := fun (l : List SaveKind) => .package ∉ l ∨ s.cau.pkg = none
    let noRequest := fun (l : List SaveKind) => .lifecycle ∉ l ∨ s.psv.req = none
    let waiting := saves ++ savesOf s.stc.queue
    let faulted := s.exc.post s.bat.clock (.storeFault 1 0 s.stc.curBlock s.stc.nextPlace)
    (∃ t, exec (.programRecordDone .pass) s = .next t ∧ t.flash = array (.good image) ∧ t.stc.failCount = 0 ∧
      t.ee = s.ee ∧ t.ce = s.ce ∧ t.swc = s.swc) ∧
    (∀ (e : CodeEntry) (rest : List CodeEntry) (a : Applied),
      s.cau.queue = e :: rest → s.cau.applied = some a →
      (.code ∈ saves → noPackage saves → noRequest saves → ∃ t, exec (.programRecordDone .pass) s = .next t ∧
        t.cau = { s.cau with queue := rest, applied := none } ∧
        (∀ i, e.slot = some i → t.exc.notices = s.exc.notices ∧
          t.exc.mem = doneMem i a.result 0 0 (codeResults a.kind a.issue a.amount s.ce.money.b) s.exc.mem ∧
          t.exc.code = ⟨s.exc.code.queue.tail, false⟩) ∧
        (e.slot = none → t.exc.mem = s.exc.mem ∧ t.exc.notices = (s.exc.post s.bat.clock
          (.codeResult e.src a.result a.kind a.issue a.amount s.ce.money.b)).notices)) ∧
      (.code ∈ waiting → noPackage waiting → s.psv.req = none → 2 ≤ s.stc.failCount →
        ∃ t, exec (.programRecordDone .bodyFails) s = .next t ∧
        t.cau = { s.cau with queue := rest, applied := none } ∧
        ∀ i, e.slot = some i → t.exc.notices = faulted.notices ∧
          t.exc.mem = doneMem i .storeFault 0 0 (codeResults a.kind a.issue a.amount s.ce.money.b) s.exc.mem ∧
          t.exc.code = ⟨s.exc.code.queue.tail, false⟩)) ∧
    (∀ (p : PkgRun) (r : Result) (n eff old : Nat), s.cau.pkg = some p → p.stage = .committing r n eff old →
      let released := s.cau.pendingPkg.map (fun q => { q with released := q.released || q.number == n })
      let results := [(12, le 4 (headerField p.bytes 0)), (16, le 4 (headerField p.bytes 8)), (20, [0])]
      (.package ∈ saves → noCode saves → noRequest saves → ∃ t, exec (.programRecordDone .pass) s = .next t ∧
        t.cau = { s.cau with pkg := none, pendingPkg := released } ∧
        (∀ i, p.slot = some i → t.exc.notices = s.exc.notices ∧
          t.exc.mem = doneMem i r 0 0 (results ++ [(24, le 4 old)]) s.exc.mem ∧
          t.exc.code = ⟨s.exc.code.queue.tail, false⟩) ∧
        (p.slot = none → t.exc.mem = s.exc.mem ∧
          t.exc.notices = (s.exc.post s.bat.clock (.packageResult r (headerField p.bytes 0))).notices)) ∧
      (.package ∈ waiting → noCode waiting → s.psv.req = none → 2 ≤ s.stc.failCount →
        ∃ t, exec (.programRecordDone .bodyFails) s = .next t ∧
        t.cau = { s.cau with pkg := none, pendingPkg := released } ∧
        ∀ i, p.slot = some i → t.exc.notices = faulted.notices ∧
          t.exc.mem = doneMem i .storeFault 0 0 results s.exc.mem ∧
          t.exc.code = ⟨s.exc.code.queue.tail, false⟩)) ∧
    (∀ (q : LifecycleReq) (i : Fin 16), s.psv.req = some q → q.slot = some i →
      let ends := fun (v : RecordVerify) (r : Result) (l : List (Nat × List Byte)) (x : Exc) =>
        ∃ t, exec (.programRecordDone v) s = .next t ∧ t.psv = { s.psv with req := none } ∧ t.cau = s.cau ∧
          t.exc.notices = x.notices ∧ t.exc.mem = doneMem i r 0 0 l s.exc.mem ∧
          t.exc.control = ⟨s.exc.control.queue.tail, false⟩
      let g := s.ee.gains
      (.lifecycle ∈ saves → noCode saves → noPackage saves →
        (q.req = .calibrate → ends .pass .ok [(8, [g.v.a, g.v.b, g.v.c, g.i.a, g.i.b, g.i.c, g.p.a, g.p.b, g.p.c].flatMap
          (le 2))] s.exc) ∧
        (q.req = .identify → ends .pass .ok [(8, le 4 s.cau.serial), (12, s.rlr.radioAddr)] s.exc) ∧
        (q.req = .installKey → s.stc.copy.keyInstalled = false → s.stc.fault = false →
          ∃ t, exec (.programRecordDone .pass) s = .next t ∧ t.psv = s.psv ∧ t.cau = s.cau ∧ t.exc.mem = s.exc.mem ∧
            BitTaken .keyInstalled t.stc) ∧
        (∀ time, q.req = .commission time → ends .pass .ok
          [(8, [0]), (12, le 4 time), (16, [0, 0, 0, 0]), (20, [BitVec.ofNat 8 (setCode s.swc.set)])] s.exc)) ∧
      (.lifecycle ∈ waiting ∨ .keyInstalled ∈ bitsOf s.stc.queue ∨ .commissioned ∈ bitsOf s.stc.queue →
        noCode waiting → noPackage waiting → 2 ≤ s.stc.failCount → s.exc.live = true →
        ends .bodyFails .storeFault (match q.req with
          | .commission _ => [(8, [0])]
          | _ => []) faulted)) ∧
    (∀ v, v ≠ .pass → v = .markFails ∨ s.stc.failCount < 2 → ∃ t, exec (.programRecordDone v) s = .next t ∧
      t.flash = array .damaged ∧ t.stc.failCount = (if v = .markFails then 1 else s.stc.failCount + 1) ∧
      t.stc.fault = s.stc.fault ∧ (∀ k ∈ saves, SaveTaken k t.stc) ∧
      t.ee = s.ee ∧ t.ce = s.ce ∧ t.swc = s.swc ∧ t.bat = s.bat ∧ t.exc.mem = s.exc.mem) ∧
    (2 ≤ s.stc.failCount → ∃ t, exec (.programRecordDone .bodyFails) s = .next t ∧
      t.flash.records = (array .damaged).records ∧ t.flash.bits = s.flash.bits ∧ t.stc.fault = true ∧ t.stc.queue = [] ∧
      t.stc.prog = none ∧ t.ee = s.ee ∧ t.ce = s.ce ∧ t.swc = s.swc)

/-- PROGRAM_ENTRY_DONE in RUN. A pass leaves the 32 bytes of the entry at the write position of its area, which
advances, and the owner's head counts it. A failure leaves the place damaged, and the same entry with the same
sequence is taken again at the next place. (Log 63: what the bytes hold of an energy above its field is a free
value.) -/
def Obligations.EntryVerifyDecidesTheAppend : Prop :=
  ∀ (e : Entry) (s : State), s.psv.power = .run → s.stc.prog = some (.entry e) →
    let a := areaOf e
    let pos := posOf s.stc a
    let array := fun (d : PlaceData) => putPlaces s.flash a (putPlace (placesOf s.flash a) pos.place d)
    let frame := fun (t : State) =>
      t.ee.energy = s.ee.energy ∧ t.ce = s.ce ∧ t.swc = s.swc ∧ t.bat = s.bat ∧ t.exc.mem = s.exc.mem
    (∃ t, exec (.programEntryDone true) s = .next t ∧ t.flash = array (.bytes (entryBytes e pos.nextSeq)) ∧
      posOf t.stc a = ⟨(pos.place + 1) % areaSize a, (pos.nextSeq + 1) % 65536⟩ ∧
      headOfArea t a = ⟨(headOfArea s a).count + 1, pos.place, pos.nextSeq⟩ ∧ t.stc.failCount = 0 ∧ frame t) ∧
    (s.stc.failCount < 2 → ∃ t, exec (.programEntryDone false) s = .next t ∧ t.flash = array .damaged ∧
      posOf t.stc a = ⟨(pos.place + 1) % areaSize a, pos.nextSeq⟩ ∧ headOfArea t a = headOfArea s a ∧
      t.stc.failCount = s.stc.failCount + 1 ∧ EntryTaken e t.stc ∧ frame t)

/-- PROGRAM_BIT_DONE in RUN. A pass sets the bit in its area and in the copy, and a failure leaves both. The
commissioned bit's pass puts the part in service with money, registers, residues and tamper counters at 0, LOAD_LIMIT
and LOCKOUT removed, and a save taken; the key-installed bit's pass and either one's failure complete the request that
asked. (Log 12: flags and count of the completions are the model's choice where no rule names them.) -/
def Obligations.BitVerifySetsTheBit : Prop :=
  ∀ (b : BitName) (s : State), s.psv.power = .run → s.stc.prog = some (.bit b) →
    (∃ t, exec (.programBitDone true) s = .next t ∧ t.flash = { s.flash with bits := setBit s.flash.bits b } ∧
      t.stc.copy = setBit s.stc.copy b ∧ t.stc.failCount = 0) ∧
    (∀ k, b = .ever k → ∃ t, exec (.programBitDone true) s = .next t ∧ t.ee = s.ee ∧ t.ce = s.ce ∧ t.swc = s.swc ∧
      t.bat = s.bat ∧ t.psv = s.psv ∧ t.exc.mem = s.exc.mem) ∧
    (b = .commissioned → s.stc.fault = false → ∃ t, exec (.programBitDone true) s = .next t ∧
      t.psv.inService = true ∧ t.ce.money = ⟨0, 0, 0, false, s.bat.clock / 86400⟩ ∧ t.ee.energy = Energy.zero ∧
      t.swc.set.loadLimit = false ∧ t.swc.set.lockout = false ∧ t.swc.consent = false ∧ t.swc.tripMem = 0 ∧
      (∀ k, (t.bat.kinds.get k).counter = 0) ∧ SaveTaken .lifecycle t.stc ∧ t.bat.clock = s.bat.clock) ∧
    (∀ q i, s.psv.req = some q → q.slot = some i → s.exc.live = true →
      (b = .keyInstalled → ∃ t, exec (.programBitDone true) s = .next t ∧ t.psv = { s.psv with req := none } ∧
        t.exc.mem = doneMem i .ok 0 0 [] s.exc.mem ∧ t.exc.control = ⟨s.exc.control.queue.tail, false⟩) ∧
      (b = .keyInstalled ∨ b = .commissioned → s.stc.failCount < 2 → ∃ t, exec (.programBitDone false) s = .next t ∧
        t.psv = { s.psv with req := none } ∧ t.flash = s.flash ∧ t.stc.copy = s.stc.copy ∧
        t.exc.mem = doneMem i .bitFailed 0 0 (failResults q.req) s.exc.mem)) ∧
    (∀ k, b = .ever k → s.stc.failCount < 2 → ∃ t, exec (.programBitDone false) s = .next t ∧ t.flash = s.flash ∧
      t.stc.copy = s.stc.copy ∧ t.stc.failCount = s.stc.failCount + 1 ∧ t.bat = s.bat ∧ t.exc.mem = s.exc.mem)

/-- ERASE_BLOCK_DONE in RUN, of a running erase. A pass erases the block; the good entries of an entry block leave the
head of its owner. A failed erase of an entry block changes nothing outside its area and is taken up again with the
same count of entries; the third failure in a row puts the store in FAULT and the block stays removed. (Log 17: that a
block removed at FAULT is remembered in the array is the model's choice; log 9: what a failed erase leaves in its own
area is free.) -/
def Obligations.EraseVerifyFreesTheBlock : Prop :=
  ∀ (e : EraseRun) (s : State),
    s.psv.power = .run → s.stc.erase = some e → e.suspended = false → e.startup = false →
    let a := blockArea e.block
    let frame := fun (t : State) =>
      t.flash.bits = s.flash.bits ∧ t.ee.energy = s.ee.energy ∧ t.ce = s.ce ∧ t.swc = s.swc ∧ t.bat = s.bat ∧
        t.exc.mem = s.exc.mem
    (e.block < 2 → ∃ t, exec (.eraseBlockDone true) s = .next t ∧
      t.flash = { s.flash with records := mapBlock e.block (fun _ _ => .erased) s.flash.records } ∧
      t.tmoHead = s.tmoHead ∧ t.ee.head = s.ee.head ∧ t.stc.failCount = 0 ∧ frame t) ∧
    (2 ≤ e.block → ∃ t, exec (.eraseBlockDone true) s = .next t ∧
      t.flash = putPlaces s.flash a (clearBlock (placesOf s.flash a) (e.block - areaFirst a)) ∧
      headOfArea t a = { headOfArea s a with count := (headOfArea s a).count - e.good } ∧ t.stc.failCount = 0 ∧
      frame t) ∧
    (2 ≤ e.block → s.stc.failCount < 2 → ∃ t, exec (.eraseBlockDone false) s = .next t ∧
      t.flash.records = s.flash.records ∧ (a = .log → t.flash.profile = s.flash.profile) ∧
      (a = .profile → t.flash.log = s.flash.log) ∧ headOfArea t a = headOfArea s a ∧
      t.stc.failCount = s.stc.failCount + 1 ∧
      ((∃ q ∈ t.stc.queue, q.op = .erase e.block e.cls (some e.good)) ∨
        ∃ x, t.stc.erase = some x ∧ x.block = e.block ∧ x.good = e.good) ∧ frame t) ∧
    (2 ≤ e.block → 2 ≤ s.stc.failCount → s.cau.pkg = none → s.cau.applied = none → s.psv.req = none →
      ∃ t, exec (.eraseBlockDone false) s = .next t ∧ t.stc.fault = true ∧ t.stc.queue = [] ∧ t.stc.erase = none ∧
        (e.block, e.good) ∈ t.flash.removed ∧ frame t)

/-! ### Power -/

/-- MAINS_FAILING_ASSERT in RUN, or in a start sequence whose step 2 has been taken, where the HOLD begin time stays:
HOLD begins, the exchange is no longer live, the open interval is marked, and with the array at rest the POWER_FAIL save
begins at once with the state as it stands; a program in progress ends first, and a running erase is suspended first,
each by a command of its own; the block of a suspended erase goes into the erase note and the save. In store FAULT the
part goes to BATTERY without a save, with the exchange empty. Asserted already, it changes nothing. In a start sequence
before that the start is abandoned: the modules are as before step 1, the domain as it was found, and without a battery
the domain is lost. (Log 17: the erases of entry blocks begun before and still waiting leave their blocks removed in the
array's list, which is the model's; log 26: that the suspension of a running erase follows as ERASE_SUSPENDED, so that
the store stands until then, is the model's choice; log 36, log 44, log 49 and log 68: what a lost domain is held as,
that mains counts as absent in OFF, that the erase note is overwritten when an erase is suspended, a start-up erase too,
and that an abandoned start leaves the lifecycle state its step 1 took, are the model's choices.) -/
def Obligations.FailingMainsBeginHold : Prop :=
  ∀ s : State,
    (s.psv.failing = true → exec .mainsFailingAssert s = .next (refresh s)) ∧
    (∀ q, s.psv.failing = false → s.psv.power = .battery → s.psv.seq = some q → q.next ≤ 2 →
      let m := s.psv.dropped.getD s.toModules
      let p := { s.psv with failing := true, settle := ⟨0, false⟩, seq := none, dropped := none, startNotices := [] }
      (s.psv.battery = true → exec .mainsFailingAssert s = .next (refresh { s with toModules := m, psv := p })) ∧
      (s.psv.battery = false → ∃ t, exec .mainsFailingAssert s = .next t ∧
        t.psv = { p with power := .off, mainsPresent := false, holdWait := false } ∧ t.bat = clearedDomain ∧
        t.exc.live = false ∧ t.exc.mem = [] ∧ t.stc.prog = none ∧ t.stc.erase = none ∧ t.swc.drive = none ∧
        (m.stc.prog = none → m.stc.erase = none → t.flash =
          { s.flash with removed := s.flash.removed ++ begunErases m.stc.queue }))) ∧
    (s.psv.failing = false → s.psv.power = .run ∨ (s.psv.power = .battery ∧ ∃ q, s.psv.seq = some q ∧ 3 ≤ q.next) →
      let begun := if s.psv.power = .run then some s.bat.clock else s.bat.holdBegin
      let flagged := s.ee.interval.map (fun v => { v with flags := { v.flags with powerOut := true } })
      let left := { s.flash with removed := s.flash.removed ++ begunErases s.stc.queue }
      (∀ e, s.stc.prog = none → s.stc.erase = some e → e.suspended = true → s.stc.fault = false →
        1 ≤ erasedPlaces s.stc s.flash → ∃ t image, exec .mainsFailingAssert s = .next t ∧ t.psv.power = .hold ∧
          t.bat.eraseNote = some e.block ∧ t.stc.prog = some (.record [.powerFail] image) ∧
          image.suspendedErase = some e.block ∧ t.stc.erase = some e ∧ t.stc.queue = [] ∧ t.flash = left) ∧
      (∀ e, s.stc.erase = some e → e.suspended = false → ∃ t, exec .mainsFailingAssert s = .next t ∧
        t.psv.power = .hold ∧ t.psv.holdWait = true ∧ t.stc = s.stc ∧ t.exc.live = false ∧ t.flash = s.flash) ∧
      (s.stc.prog = none → s.stc.erase = none → s.stc.fault = false → 1 ≤ erasedPlaces s.stc s.flash →
        ∃ t image, exec .mainsFailingAssert s = .next t ∧ t.psv.power = .hold ∧ t.psv.failing = true ∧
          t.exc.live = false ∧ t.psv.seq = none ∧ t.bat = { s.bat with holdBegin := begun, notes := t.bat.notes } ∧
          t.stc.prog = some (.record [.powerFail] image) ∧ t.stc.queue = [] ∧ image.money = s.ce.money ∧
          image.energy = s.ee.energy ∧ image.interval = flagged ∧ image.seq = s.stc.nextSeq ∧ t.ee.interval = flagged ∧
          t.ce = s.ce ∧ t.swc = s.swc ∧ t.flash = left) ∧
      (∀ p, s.stc.prog = some p → ∃ t, exec .mainsFailingAssert s = .next t ∧ t.psv.power = .hold ∧
        t.psv.holdWait = true ∧ t.psv.seq = none ∧ t.bat.holdBegin = begun ∧ t.stc = s.stc ∧ t.exc.live = false ∧
        t.ee.interval = flagged ∧ t.ce = s.ce ∧ t.flash = s.flash) ∧
      (s.stc.prog = none → s.stc.erase = none → s.stc.fault = true → s.psv.battery = true →
        ∃ t, exec .mainsFailingAssert s = .next t ∧ t.psv.power = .battery ∧ t.psv.holdWait = false ∧
          t.psv.seq = none ∧ t.bat.holdBegin = begun ∧ t.exc.live = false ∧ t.exc.attn = false ∧
          t.exc.wake = false ∧ t.exc.mem = [] ∧ t.exc.notices = [] ∧
          t.ce = s.ce ∧ t.flash = left ∧ t.swc.drive = none))

/-- PROGRAM_RECORD_DONE of the POWER_FAIL save in HOLD: a good record ends HOLD in BATTERY, with ATTN and WAKE down and
the exchange empty; a failed one that leaves the store out of FAULT is retried while a place is left, and else HOLD ends
too. The entries of a block whose
erase is left suspended stay removed. (Log 17: that they are remembered in the array is the model's choice.) -/
def Obligations.PowerFailSaveEndsHold : Prop :=
  (∀ (saves : List SaveKind) (image : SaveRecord) (e : EraseRun) (s : State),
    s.psv.power = .hold → s.psv.holdWait = false → s.stc.prog = some (.record saves image) → s.stc.erase = some e →
    2 ≤ e.block → s.psv.battery = true → ∃ t, exec (.programRecordDone .pass) s = .next t ∧ t.psv.power = .battery ∧
      t.stc.erase = none ∧ t.stc.prog = none ∧ t.flash.removed = s.flash.removed ++ [(e.block, e.good)] ∧
      t.flash.bits = s.flash.bits) ∧
  ∀ (saves : List SaveKind) (image : SaveRecord) (s : State),
    s.psv.power = .hold → s.psv.holdWait = false → s.stc.prog = some (.record saves image) → s.stc.erase = none →
    s.psv.battery = true →
    let place := 8 * s.stc.curBlock + s.stc.nextPlace
    let array := fun (p : RecordPlace) => { s.flash with records := s.flash.records.set place p }
    (∃ t, exec (.programRecordDone .pass) s = .next t ∧ t.psv.power = .battery ∧ t.flash = array (.good image) ∧
      t.stc.prog = none ∧ t.exc.attn = false ∧ t.exc.wake = false ∧ t.exc.mem = [] ∧ t.exc.notices = [] ∧
      t.ce = s.ce ∧ t.bat = s.bat) ∧
    (∀ v, v ≠ .pass → v = .markFails ∨ s.stc.failCount < 2 → s.stc.fault = false →
      let left := erasedPlaces { s.stc with nextPlace := s.stc.nextPlace + 1 } (array .damaged)
      (1 ≤ left → ∃ t l image', exec (.programRecordDone v) s = .next t ∧ t.psv.power = .hold ∧
        t.stc.prog = some (.record (.powerFail :: l) image') ∧ image'.money = s.ce.money ∧
        image'.energy = s.ee.energy ∧ t.flash = array .damaged ∧ t.ce = s.ce) ∧
      (left = 0 → ∃ t, exec (.programRecordDone v) s = .next t ∧ t.psv.power = .battery ∧ t.flash = array .damaged ∧
        t.stc.prog = none ∧ t.exc.attn = false ∧ t.exc.wake = false ∧ t.ce = s.ce ∧ t.bat = s.bat))

/-- The other edges of the supply. Mains is present while some phase has 150 V or more; present and not failing it
starts the 2 s settle in BATTERY, the end of either stops the settle, and a domain that neither mains nor battery
holds is lost, with the part OFF and nothing running; from OFF the appearance of mains leads to BATTERY; elsewhere
only the input is noted. SUPPLY_COLLAPSE ends HOLD: the record place being programmed is damaged, and nothing waits in
the store any more; the entries of a block whose erase had begun and waited to be repeated stay removed. (Log 17, log
36, log 29, log 38 and log 44: that those are remembered in the array, what a lost domain is held as, exhaustion
outside BATTERY, an end of mains presence in a start, and that mains counts as absent in OFF, are the model's
choices.) -/
def Obligations.PowerEdgesMoveTheState : Prop :=
  ∀ (s : State) (v : PerPhase Nat),
    let put := fun (p : Psv) => ({ s with psv := p } : State)
    let fed := 15000 ≤ v.a ∨ 15000 ≤ v.b ∨ 15000 ≤ v.c
    let noted := fun (c : Instr) (p : Psv) => exec c s = .next (refresh (put p))
    let left := { s.flash with removed := s.flash.removed ++ begunErases s.stc.queue }
    let lost := fun (c : Instr) (p : Psv) => ∃ t, exec c s = .next t ∧
      t.psv = { p with
        power := .off, mainsPresent := false, settle := ⟨0, false⟩, seq := none, dropped := none, startNotices := [],
        holdWait := false } ∧
      t.bat = clearedDomain ∧ t.stc.prog = none ∧ t.stc.erase = none ∧ t.swc.drive = none ∧ t.exc.live = false ∧
      t.exc.mem = [] ∧ t.exc.notices = [] ∧ t.flash.bits = (match s.stc.prog with
        | some (.bit _) => t.flash.bits
        | _ => s.flash.bits) ∧
      t.stc.queue = [] ∧ (s.stc.prog = none → s.stc.erase = none → t.flash = left)
    (s.psv.mainsPresent = true ∨ ¬fed → exec (.mainsAppears v) s = .next (refresh s)) ∧
    (s.psv.mainsPresent = false → fed → s.psv.power = .off ∨ s.psv.power = .battery → s.psv.seq = none →
      (s.psv.failing = false → noted (.mainsAppears v)
        { s.psv with mainsPresent := true, power := .battery, settle := ⟨2, false⟩ }) ∧
      (s.psv.failing = true → noted (.mainsAppears v) { s.psv with mainsPresent := true, power := .battery })) ∧
    (s.psv.mainsPresent = false → fed → s.psv.power = .run ∨ s.psv.power = .hold →
      noted (.mainsAppears v) { s.psv with mainsPresent := true }) ∧
    (s.psv.mainsPresent = false ∨ fed → exec (.mainsPresenceEnds v) s = .next (refresh s)) ∧
    (s.psv.mainsPresent = true → ¬fed → s.psv.power = .battery → s.psv.seq = none →
      (s.psv.battery = true → noted (.mainsPresenceEnds v)
        { s.psv with mainsPresent := false, settle := ⟨0, false⟩ }) ∧
      (s.psv.battery = false → lost (.mainsPresenceEnds v) s.psv)) ∧
    (s.psv.mainsPresent = true → ¬fed → s.psv.power ≠ .battery ∨ s.psv.seq ≠ none →
      noted (.mainsPresenceEnds v) { s.psv with mainsPresent := false }) ∧
    (s.psv.failing = false → s.psv.power = .battery → s.psv.seq = none →
      (s.psv.battery = true → noted .mainsFailingAssert { s.psv with failing := true, settle := ⟨0, false⟩ }) ∧
      (s.psv.battery = false → lost .mainsFailingAssert { s.psv with failing := true })) ∧
    (s.psv.failing = false → exec .mainsFailingDeassert s = .next (refresh s)) ∧
    (s.psv.failing = true → s.psv.power = .battery → s.psv.seq = none → s.psv.mainsPresent = true →
      noted .mainsFailingDeassert { s.psv with failing := false, settle := ⟨2, false⟩ }) ∧
    (s.psv.failing = true → s.psv.power ≠ .battery ∨ s.psv.seq ≠ none ∨ s.psv.mainsPresent = false →
      noted .mainsFailingDeassert { s.psv with failing := false }) ∧
    (s.psv.power = .battery → s.psv.mainsPresent = false →
      lost .batteryExhausted { s.psv with battery := false }) ∧
    (s.psv.power ≠ .battery ∨ s.psv.mainsPresent = true →
      noted .batteryExhausted { s.psv with battery := false }) ∧
    (s.psv.power ≠ .hold → exec .supplyCollapse s = .next (refresh s)) ∧
    (∀ saves image, s.psv.power = .hold → s.stc.prog = some (.record saves image) → s.stc.erase = none →
      s.psv.battery = true → ∃ t, exec .supplyCollapse s = .next t ∧ t.psv.power = .battery ∧ t.stc.prog = none ∧
        t.stc.queue = [] ∧ t.flash = { left with
          records := s.flash.records.set (8 * s.stc.curBlock + s.stc.nextPlace) .damaged } ∧
        t.exc.attn = false ∧ t.exc.wake = false ∧ t.ce = s.ce ∧ t.bat = s.bat)

/-- SETTLE_TIMER_EXPIRY begins the start sequence: its first step loads what the newest complete record holds, or
without one the values of a part from the factory, with store FAULT if the part has been commissioned; its last steps
make the exchange live with EXCHANGE_START as its first notice, and enter RUN. Between them the battery domain starts
warm or cold, the outage notes are processed, the start-up erase is made and the entry areas are rebuilt, the missed
days are charged, the ended interval is closed, and the switch is confirmed. (Log 26, log 42, log 46, log 56 and log
62: that a start can be divided into commands, that a nominal end may lie beyond the clock's largest value, that a
cover kind loaded in WARNING stays in it, that UNKNOWN does not mark the loaded interval, and that a warm start
without a record keeps the HOLD begin time, are the model's choices; log 14, log 15 and log 35: that missed days run
no evaluation, that FAULT lasts until step 4, and which counter and count a note's notice carries, are read by
inference; log 16 and log 17: which blocks the start-up erase takes is read by inference and kept in a list of the
model's; log 45: a cold start in service declares WATCH_LOST without a record too; log 65 and log 66: that
CLOCK_INVALID is kept before TAMPER_DECLARED, and that EXCHANGE_START carries the store state of step 8, are the
model's choices.) -/
def Obligations.StartLoadsTheNewestRecord : Prop :=
  ∀ (v : PerPhase PhaseVolts) (s : State), s.psv.power = .battery →
    (s.psv.seq = none → s.psv.settle.due = false → ∀ n, exec (.settleTimerExpiry v n) s = .next (refresh s)) ∧
    (s.psv.seq = none → s.psv.settle.due = true → s.stc.erase = none →
      ∃ t, exec (.settleTimerExpiry v 1) s = .next t ∧ t.psv.seq = some ⟨2, 1, v⟩ ∧
        t.psv.inService = s.flash.bits.commissioned ∧ t.stc.copy = s.flash.bits ∧ t.stc.queue = [] ∧
        t.swc.sw = .unknown ∧ t.swc.drive = none ∧ t.kps.buf = [] ∧ t.rlr.captureHeld = false ∧ t.cau.queue = [] ∧
        t.bat = s.bat ∧ t.flash = s.flash ∧
        (∀ n r, newestRecord s.flash.records = some (n, r) →
          t.ee.energy = r.energy ∧ t.ee.gains = r.gains ∧ t.ee.interval = r.interval ∧ t.ce.money = r.money ∧
          t.cau.codes = r.codes ∧ t.cau.settings = r.settings ∧ t.cau.lastPkg = r.lastPkg ∧ t.cau.serial = r.serial ∧
          t.cau.pendingPkg = r.pendingPkg.map (fun p => { p with released := true }) ∧
          t.cau.key = r.key ∧ t.rlr.radioAddr = r.radioAddr ∧ t.swc.set = r.set ∧ t.swc.consent = r.consent ∧
          t.swc.tripMem = r.tripMem ∧ t.stc.nextSeq = (r.seq + 1) % 4294967296 ∧ t.psv.recordFound = true ∧
          t.stc.fault = s.stc.fault) ∧
        (newestRecord s.flash.records = none →
          t.ee.energy = Energy.zero ∧ t.ee.gains = Gains.nominal ∧ t.ee.interval = none ∧ t.ce.money = Money.zero ∧
          t.cau.codes = ⟨[], 0⟩ ∧ t.cau.settings = Settings.initial ∧ t.cau.lastPkg = 0 ∧ t.cau.pendingPkg = none ∧
          t.swc.set = Reasons.empty ∧
          t.swc.consent = false ∧ t.stc.nextSeq = 1 ∧ t.psv.recordFound = false ∧
          t.stc.fault = (s.stc.fault || s.flash.bits.commissioned))) ∧
    (∀ q, s.psv.seq = some q → q.next = 2 → s.stc.erase = none →
      let r := (newestRecord s.flash.records).map (fun x => x.2)
      let time := (r.map (fun x => x.time)).getD 0
      let loaded := (r.map (fun x => x.kinds)).getD (PerKind.all KindRec.quiet)
      let lost := loaded.watchLost
      ∃ t, exec (.settleTimerExpiry v 2) s = .next t ∧ t.psv.seq = some ⟨3, 2, v⟩ ∧ t.bat.valid = true ∧
        t.bat.coverMain = false ∧ t.bat.coverTerminal = false ∧ t.flash = s.flash ∧ t.ce.money = s.ce.money ∧
        (t.bat.clockValid = true → t.ce = s.ce ∧ t.ee = s.ee) ∧
        (t.bat.clockValid = false → t.ce.window = false ∧
          ∀ w, t.ee.interval = some w → w.flags.clockInvalid = true) ∧
        (s.bat.valid = true → t.psv.startKind = .warm ∧ t.swc = s.swc ∧ t.stc = s.stc ∧
          t.bat = { s.bat with coverMain := false, coverTerminal := false } ∧
          t.psv.startNotices = s.psv.startNotices) ∧
        (s.bat.valid = false → t.psv.startKind = .cold ∧ t.bat.clock = time ∧ t.bat.clockValid = false ∧
          t.bat.clockSource = .none ∧ t.bat.steerDay = time / 86400 ∧ t.bat.steerUsed = 0 ∧
          t.bat.notes = PerKind.all none ∧ t.bat.penalties = ⟨Penalty.zero, Penalty.zero, Penalty.zero⟩ ∧
          t.bat.eraseNote = none ∧ t.bat.holdBegin = none ∧
          (s.psv.inService = false → t.bat.kinds = loaded ∧
            t.psv.startNotices = s.psv.startNotices ++ [.clockInvalid time]) ∧
          (s.psv.inService = true →
            t.bat.kinds = { loaded with watchLost := { lost with
              state := .declared, count := min 65535 (lost.count + 1), last := some time,
              first := some (lost.first.getD time) } } ∧
            (s.stc.fault = false → SaveTaken .tamper t.stc) ∧
            t.psv.startNotices = s.psv.startNotices ++ [.clockInvalid time,
              .tamperDeclared .watchLost false lost.counter (min 65535 (lost.count + 1)) time]))) ∧
    (∀ q, s.psv.seq = some q → q.next = 3 → s.stc.erase = none →
      ∃ t, exec (.settleTimerExpiry v 3) s = .next t ∧ t.psv.seq = some ⟨4, 3, v⟩ ∧
        t.bat = { s.bat with notes := PerKind.all none } ∧ t.ce = s.ce ∧ t.flash = s.flash ∧
        t.swc.set = { s.swc.set with tamper := tamperRequired s } ∧
        t.psv.startNotices = s.psv.startNotices ++ kinds.filterMap (fun k => (s.bat.notes.get k).map (fun e =>
          .tamperDeclared k true e.counter (s.bat.kinds.get k).count e.time)) ∧
        (s.stc.fault = false →
          (∀ k, 0 < (s.bat.kinds.get k).count ∨ s.bat.notes.get k ≠ none → bitOf s.stc.copy (.ever k) = false →
            BitTaken (.ever k) t.stc) ∧
          ∀ k e, s.bat.notes.get k = some e → SaveTaken .tamper t.stc ∧
            ((s.stc.queue.filter isAppend).length ≤ 24 → EntryTaken (.log e) t.stc))) ∧
    (∀ b, b ∈ startupErases s ↔ (b = 1 - s.stc.curBlock ∧ saveBlockErased s.flash.records (1 - s.stc.curBlock) = false) ∨
      (2 ≤ b ∧ b < 36 ∧ (s.bat.eraseNote = some b ∨
        (∃ n r, newestRecord s.flash.records = some (n, r) ∧ r.suspendedErase = some b) ∨ gapIn s.flash b = true ∨
        ∃ g, (b, g) ∈ s.flash.removed))) ∧
    (∀ q, s.psv.seq = some q → q.next = 4 → s.stc.erase = none →
      let rebuilt := fun (f : Flash) (a : Area) (t : State) =>
        (goodEntries f a = [] → headOfArea t a = Head.empty ∧ posOf t.stc a = ⟨0, 0⟩) ∧
        ∀ n x, newestEntry (goodEntries f a) = some (n, x) → headOfArea t a = ⟨(goodEntries f a).length, n, x⟩ ∧
          (posOf t.stc a).nextSeq = (x + 1) % 65536 ∧
          (judge (placeAt (placesOf f a) ((n + 1) % areaSize a)) = .erased →
            (posOf t.stc a).place = (n + 1) % areaSize a)
      (s.psv.inService = true → s.psv.recordFound = false → ∃ t, exec (.settleTimerExpiry v 4) s = .next t ∧
        t.psv.seq = some ⟨5, 4, v⟩ ∧ t.stc.fault = s.stc.fault ∧ rebuilt s.flash .log t ∧ rebuilt s.flash .profile t) ∧
      (s.psv.inService = false ∨ s.psv.recordFound = true →
        (∀ b rest, startupErases s = b :: rest → ∃ t, exec (.settleTimerExpiry v 4) s = .next t ∧
          t.psv.seq = some ⟨4, 4, v⟩ ∧ t.stc.startErases = rest ∧ t.stc.failCount = 0 ∧ t.flash = s.flash ∧
          t.stc.erase = some ⟨b, 8, goodInEraseBlock s.flash b, false, false, true⟩) ∧
        (startupErases s = [] → ∃ t, exec (.settleTimerExpiry v 4) s = .next t ∧ t.psv.seq = some ⟨5, 4, v⟩ ∧
          t.stc.fault = false ∧ t.bat = { s.bat with eraseNote := none } ∧
          t.flash = { s.flash with removed := [] } ∧ t.ce = s.ce ∧ t.swc = s.swc ∧
          rebuilt t.flash .log t ∧ rebuilt t.flash .profile t))) ∧
    (∀ q, s.psv.seq = some q → q.next = 5 → s.stc.erase = none →
      let m := s.ce.money
      let due := s.psv.recordFound = true ∧ s.bat.clockValid = true ∧ s.psv.inService = true ∧
        m.lastDay < s.bat.clock / 86400
      let fixed := (s.bat.clock / 86400 - m.lastDay) * s.cau.settings.fixed
      let taken := min fixed (m.b + 2000000).toNat
      ∃ t, exec (.settleTimerExpiry v 5) s = .next t ∧ t.psv.seq = some ⟨6, 5, v⟩ ∧ t.swc = s.swc ∧ t.bat = s.bat ∧
        t.flash = s.flash ∧ (¬due → t.ce = s.ce ∧ t.ee = s.ee) ∧
        (due → t.ce.money = { m with
          b := m.b - taken, u := min 4294967295 (m.u + (fixed - taken)), lastDay := s.bat.clock / 86400 })) ∧
    (∀ q, s.psv.seq = some q → q.next = 6 → s.stc.erase = none →
      let len := s.cau.settings.intervalLen * 60
      ∃ t, exec (.settleTimerExpiry v 6) s = .next t ∧ t.psv.seq = some ⟨7, 6, v⟩ ∧ t.ce = s.ce ∧ t.swc = s.swc ∧
        t.bat = s.bat ∧ t.flash = s.flash ∧ (s.ee.interval = none → t.ee = s.ee) ∧
        ∀ w, s.ee.interval = some w →
          (s.bat.clock < w.nominalEnd → t.ee = s.ee) ∧
          (w.nominalEnd ≤ s.bat.clock →
            (∃ x, t.ee.interval = some x ∧ x.start = s.bat.clock ∧ x.lastBilled = s.bat.clock ∧
              x.nominalEnd = (s.bat.clock / len + 1) * len ∧ x.imp = 0 ∧ x.exp = 0 ∧ x.fb = 0 ∧ x.credit = 0) ∧
            (w.start < w.lastBilled → s.stc.fault = false → (s.stc.queue.filter isAppend).length < 32 →
              EntryTaken (.profile {
                endTime := w.lastBilled, imp := w.imp, exp := w.exp, fb := w.fb,
                credit := w.credit, balance := s.ce.money.b, maxW := w.maxW,
                length := (w.lastBilled - w.start + 59) / 60,
                flags := { w.flags with
                  powerOut := true, short := w.flags.short || decide (w.lastBilled - w.start < len) } }) t.stc))) ∧
    (∀ q, s.psv.seq = some q → q.next = 7 → s.stc.erase = none →
      ∃ t, exec (.settleTimerExpiry v 7) s = .next t ∧ t.psv.seq = some ⟨8, 7, v⟩ ∧ t.swc.lastSense = v ∧
        t.swc.set = s.swc.set ∧ t.swc.consent = s.swc.consent ∧ t.ce = s.ce ∧ t.bat = s.bat ∧ t.flash = s.flash ∧
        (s.psv.inService = false → t.swc.drive = s.swc.drive ∧ t.swc.sw = (match senseOf v with
          | .sensedOpen => .opened
          | .sensedClosed => .closed
          | .sensedMixed => .fault)) ∧
        (s.psv.inService = true → senseMatches (senseOf v) (wantedDir s.swc) = true → t.swc.drive = s.swc.drive ∧
          t.swc.sw = (match wantedDir s.swc with
            | .toClose => .closed
            | .toOpen => if noReason s.swc.set then .ready else .opened)) ∧
        (s.psv.inService = true → senseMatches (senseOf v) (wantedDir s.swc) = false →
          t.swc.drive = some ⟨wantedDir s.swc, 1, false, false, none⟩ ∧ t.swc.sw = (match wantedDir s.swc with
            | .toClose => .closing
            | .toOpen => .opening))) ∧
    (∀ q, s.psv.seq = some q → q.next = 8 → s.stc.erase = none →
      ∃ t len, exec (.settleTimerExpiry v 8) s = .next t ∧ t.exc.live = true ∧ t.exc.takeCtr = 1 ∧ t.exc.mem = [] ∧
        t.exc.standing = [] ∧ t.exc.notices.head? = some ⟨1, s.bat.clock,
          .exchangeStart s.psv.startKind len s.psv.recordFound s.stc.fault s.psv.inService⟩ ∧
        (s.psv.startKind = .cold → len = 0xFFFFFFFF) ∧
        (∀ t0, s.psv.startKind = .warm → s.bat.holdBegin = some t0 →
          len = BitVec.ofInt 32 ((s.bat.clock : Int) - t0)) ∧ t.psv.power = .battery) ∧
    (∀ q, s.psv.seq = some q → q.next = 9 → s.stc.erase = none →
      ∃ t, exec (.settleTimerExpiry v 9) s = .next t ∧ t.psv.power = .run ∧ t.psv.seq = none ∧
        t.stc.periodic = ⟨900, false⟩ ∧ t.rlr.rx = .hunt 0 ∧ t.ce.money = s.ce.money ∧ t.ee.interval.isSome = true ∧
        (s.swc.set.loadLimit = true → t.swc.recovery = ⟨60, false⟩) ∧ t.flash = s.flash ∧ t.exc.mem = s.exc.mem)

/-! ### The serial port and the slots -/

/-- READ sends the bytes of the regions from its address up, with the pictures as they stand; zeros while the exchange
is not live or XRST is asserted. STATUS sends the status byte, bit by bit as named, and a void command zeros. Nothing
else changes. The summary page holds each field of the state at its place. (Log 21: the drive attempt count without a
drive is read by inference; log 11: that the page is as fresh as the end of the last command is the model's
choice.) -/
def Obligations.ReadSendsTheRegions : Prop :=
  (∀ (a : BitVec 16) (n : Nat) (s : State), s.exc.bus = .idle → s.exc.deferred = [] →
    (portActs s = true → PageFresh s → exec (.read (some a) n true) s = .next (sendOut
      ((List.range n).map (fun k => regionByte (pageBytes s.exc.page) s ((a.toNat % 8192 + k) % 8192))) s)) ∧
    (portPowered s.psv = true → s.exc.live = false ∨ s.exc.xrst = true → PageFresh s →
      exec (.read (some a) n true) s = .next (sendOut (List.replicate n 0) s))) ∧
  (∀ (page : List Byte) (s : State) (x : Nat),
    (x < 256 → regionByte page s x = page.getD x 0) ∧
    (x = 256 → regionByte page s x = BitVec.ofNat 8 (s.exc.markReg % 256)) ∧
    (x = 257 → regionByte page s x = BitVec.ofNat 8 (s.exc.markReg / 256)) ∧
    (258 ≤ x → x < 512 → regionByte page s x = 0) ∧
    ((512 ≤ x ∧ x < 1536) ∨ 4096 ≤ x → regionByte page s x = readByte s.exc.mem x) ∧
    (1536 ≤ x → x < 2048 → regionByte page s x =
      (imagePosition s.exc.image ((x - 1536) / 16)).getD ((x - 1536) % 16) 0) ∧
    (2048 ≤ x → x < 2112 → regionByte page s x = s.rlr.capture.getD (x - 2048) 0) ∧
    (2112 ≤ x → x < 4096 → regionByte page s x = 0)) ∧
  (∀ (n : Nat) (s : State), portPowered s.psv = true →
    exec (.status n) s = .next (sendOut (List.replicate n (statusByte s)) s) ∧
    (∀ c, exec (.voidCommand c n) s = .next (sendOut (List.replicate n 0) s))) ∧
  (∀ s : State,
    let page := pageBytes (summaryOf s)
    let at_ := fun (offset width : Nat) => (page.drop offset).take width
    let phase := fun (p : PhaseLive) => le 4 p.v ++ le 4 p.i ++ leInt 4 p.p ++
      [BitVec.ofNat 8 (flagNat p.overrange + 2 * flagNat p.noVoltage + 4 * flagNat p.creep + 8 * flagNat p.reverse),
        0, 0, 0]
    let live := s.ee.live
    let money := s.ce.money
    let bits := fun (l : List Bool) => BitVec.ofNat 8 (l.foldr (fun x n => flagNat x + 2 * n) 0)
    let c := s.cau.settings
    page.length = 256 ∧ at_ 0x00 4 = le 4 live.endTime ∧ at_ 0x04 16 = phase live.phases.a ∧
    at_ 0x14 16 = phase live.phases.b ∧ at_ 0x24 16 = phase live.phases.c ∧ at_ 0x34 4 = le 4 live.iRes ∧
    at_ 0x38 4 = le 4 live.tPrime ∧ at_ 0x3C 4 = le 4 live.x ∧ at_ 0x40 8 = le 8 live.energy.imp ∧
    at_ 0x48 8 = le 8 live.energy.exp ∧ at_ 0x50 8 = le 8 live.energy.fb ∧
    at_ 0x58 8 = le 2 live.energy.rImp ++ le 2 live.energy.rExp ++ le 2 live.energy.rFb ++ [0, 0] ∧
    at_ 0x60 4 = leInt 4 money.b ∧ at_ 0x64 4 = le 4 money.cRes ∧ at_ 0x68 4 = le 4 money.u ∧
    at_ 0x6C 4 = leInt 4 (if money.emergency = true then -(c.e : Int) else 0) ∧
    at_ 0x70 4 = [flagByte money.emergency, BitVec.ofNat 8 s.ce.band, flagByte s.ce.window, flagByte s.ce.deferral] ∧
    at_ 0x74 4 = le 4 (match s.ce.band with
      | 0 => c.price0
      | 1 => c.price1
      | 2 => c.price2
      | _ => c.price3) ∧
    at_ 0x78 4 = le 4 s.bat.clock ∧
    at_ 0x7C 4 = [flagByte s.bat.clockValid, match s.bat.clockSource with
      | .none => 0
      | .hostSet => 1
      | .authenticated => 2] ++ le 2 (900 - s.bat.steerUsed) ∧
    (s.kps.buf.length ≤ 18 → at_ 0x80 19 = BitVec.ofNat 8 s.kps.buf.length ::
      (s.kps.buf.map (fun d => BitVec.ofNat 8 (48 + d.val)) ++ List.replicate (18 - s.kps.buf.length) 0)) ∧
    at_ 0x93 5 = [0, bits [s.swc.set.credit, s.swc.set.loadLimit, s.swc.set.lockout, s.swc.set.tamper, s.swc.set.remote],
      (match s.swc.sw with
        | .unknown => 0
        | .opened => 1
        | .ready => 2
        | .closing => 3
        | .closed => 4
        | .opening => 5
        | .fault => 6),
      BitVec.ofNat 8 ((s.swc.drive.map (fun d => d.attempt)).getD 0), BitVec.ofNat 8 s.swc.tripMem] ∧
    at_ 0x98 8 = kinds.map (fun k => match (s.bat.kinds.get k).state with
      | .quiet => 0
      | .warning => 1
      | .declared => 2) ∧
    at_ 0xA0 8 = kinds.map (fun k => BitVec.ofNat 8 (s.bat.kinds.get k).counter) ∧
    at_ 0xA8 1 = [bits [freezeInForce s, tamperRequired s, decide (s.bat.kinds.magnet.state ≠ .quiet)]] ∧
    at_ 0xA9 5 = [flagByte s.stc.fault, BitVec.ofNat 8 (erasedPlaces s.stc s.flash), flagByte s.psv.inService,
      (match s.psv.startKind with
        | .warm => 0
        | .cold => 1
        | .xrst => 2), 0] ∧
    at_ 0xAE 4 = le 2 s.exc.oldest ++ [BitVec.ofNat 8 s.exc.notices.length, BitVec.ofNat 8 s.exc.standing.length] ∧
    at_ 0xB2 78 = List.replicate 78 0) ∧
  ∀ s : State, (List.range 8).map (statusByte s).getLsbD =
    [s.exc.live, !s.exc.notices.isEmpty, slotsReady s.exc.mem, s.exc.overflow, s.rlr.captureHeld, s.stc.fault,
      !s.psv.inService, s.psv.power == .hold]

/-- WRITE of a byte acts by its region: the bulk region and an open slot body store it, a state byte takes a legal
change only, the control cells take the release mark, and any other address stores nothing. An illegal change leaves
the old value and posts EXCHANGE_FAULT; the row of that name and SLOT_FREE are such writes alone. (Log 6: that
SLOT_FREE and EXCHANGE_FAULT are such writes alone is the model's choice.) -/
def Obligations.WriteStoresByRegion : Prop :=
  let legal := fun (old new : Nat) => (old = FREE ∧ new = POSTED) ∨ (old = DONE ∧ new = FREE) ∨
    (old = PAUSED ∧ new = POSTED) ∨ (old = TAKEN ∧ new = CANCEL) ∨ (old = PAUSED ∧ new = CANCEL)
  (∀ (a : BitVec 16) (b : Byte) (s : State), portActs s = true → s.exc.bus = .idle →
    let x := a.toNat % 8192
    ∃ t, exec (.write (some a) [b] false) s = .next t ∧
      t.toModules = s.toModules ∧ t.bat = s.bat ∧ t.flash = s.flash ∧
      (x < 256 ∨ 258 ≤ x ∧ x < 512 ∨ 1536 ≤ x ∧ x < 4096 →
        t.exc.mem = s.exc.mem ∧ t.exc.markReg = s.exc.markReg ∧ t.exc.notices = s.exc.notices) ∧
      (x = 256 → t.exc.markReg = s.exc.markReg / 256 * 256 + b.toNat ∧ t.exc.mem = s.exc.mem) ∧
      (x = 257 → t.exc.markReg = b.toNat * 256 + s.exc.markReg % 256 ∧ t.exc.mem = s.exc.mem) ∧
      (4096 ≤ x → t.exc.mem = writeByte s.exc.mem x b ∧ t.exc.notices = s.exc.notices) ∧
      (∀ i, slotAddr i < x → x < slotAddr i + 64 →
        let st := slotState s.exc.mem i
        t.exc.notices = s.exc.notices ∧
        t.exc.mem = (if st = FREE ∨ st = POSTED ∨ st = DONE then writeByte s.exc.mem x b else s.exc.mem)) ∧
      (∀ i, x = slotAddr i →
        let old := slotState s.exc.mem i
        (legal old b.toNat → t.exc.mem = putState s.exc.mem i b.toNat ∧ t.exc.notices = s.exc.notices) ∧
        (old = b.toNat → t.exc.mem = s.exc.mem ∧ t.exc.notices = s.exc.notices) ∧
        (¬legal old b.toNat → old ≠ b.toNat → t.exc.mem = s.exc.mem ∧
          t.exc.notices = (s.exc.post s.bat.clock (.slotFault i.val old b.toNat)).notices))) ∧
  (∀ (i : Fin 16) (s : State), portActs s = true → s.exc.bus = .idle → slotState s.exc.mem i = DONE →
    exec (.slotFree i) s = .next (refresh { s with exc := Exc.recomputeAttn { s.exc with
      mem := putState s.exc.mem i FREE } })) ∧
  ∀ (i : Fin 16) (v : Byte) (s : State), portActs s = true → slotState s.exc.mem i ≠ v.toNat →
    ¬legal (slotState s.exc.mem i) v.toNat →
    exec (.exchangeFault i v) s = .next (refresh (post (.slotFault i.val (slotState s.exc.mem i) v.toNat) s))

/-- SLOT_TAKE stamps the slot with the take counter, and refuses an unknown kind or latches the parameters, which it
clears in the slot of a lifecycle request, and joins the request to its lane; of several slots to be taken the lowest is
next. SLOT_CONTINUE makes a paused request TAKEN again. SLOT_CANCEL completes with CANCELLED, count 0, a request that
waits or stands at the head of an occupied lane, a bulk request with the delivered total, a standing request with its
count as it is; one in execution in a module, or whose single result is being written, stays TAKEN. (Log 6, log 12, log
47 and log 70: that each act is a command of its own, the flags that no rule names, what becomes of a repeating
READ_LIVE that has not run, and that a CODE or CONTROL head which waits for RUN counts as in execution, and a single
result at the QUERY head as being written, are the model's choices.) -/
def Obligations.SlotActs : Prop :=
  ∀ (i : Fin 16) (w : WriteTxn) (s : State), WriteOpen w s →
    let m := writeBytes s.exc.mem (slotAddr i + 2) (le 2 s.exc.takeCtr)
    let kind := reqKind (readByte m (slotAddr i + 1)).toNat
    let due := fun (j : Fin 16) => slotState s.exc.mem j = POSTED ∧ stateBefore w j = FREE
    (due i → (∃ j, j < i ∧ due j) → exec (.slotTake i) s = .next (refresh s)) ∧
    (due i → (∀ j, j < i → ¬due j) →
      (kind = none → ∃ t, exec (.slotTake i) s = .next t ∧ t.exc.takeCtr = (s.exc.takeCtr + 1) % 65536 ∧
        t.exc.mem = doneMem i .badRequest 0 0 [] m ∧ t.exc.code = s.exc.code ∧ t.exc.control = s.exc.control ∧
        t.exc.query = s.exc.query ∧ t.toModules = s.toModules) ∧
      (∀ k, kind = some k → ∃ t, exec (.slotTake i) s = .next t ∧ t.exc.takeCtr = (s.exc.takeCtr + 1) % 65536 ∧
        t.exc.mem = putState (if k = .calibrate ∨ k = .identify ∨ k = .installKey ∨ k = .commission
          then writeBytes m (slotAddr i + 8) (List.replicate 56 0) else m) i TAKEN ∧
        (let x := joinLane ⟨i, k, readBytes m (slotAddr i + 8) 56, snapshotOf k s⟩ s.exc
         t.exc.code = x.code ∧ t.exc.control = x.control ∧ t.exc.query = x.query) ∧ t.toModules = s.toModules)) ∧
    (∀ b, slotState s.exc.mem i = POSTED → s.exc.bulk = some b → b.slot = i → b.paused = true →
      ∃ t, exec (.slotContinue i) s = .next t ∧ t.exc.mem = putState s.exc.mem i TAKEN ∧
        t.exc.bulk = some { b with paused := false, pause := ⟨0, false⟩ } ∧ t.toModules = s.toModules) ∧
    (slotState s.exc.mem i = CANCEL →
      let elsewhere := atHead i s.exc.code = false ∧ atHead i s.exc.control = false
      let waits := inLane i s.exc.code || inLane i s.exc.control || inLane i s.exc.query
      let removed := ∃ t, exec (.slotCancel i) s = .next t ∧ t.exc.mem = doneMem i .cancelled 0 0 [] s.exc.mem ∧
        t.exc.code = s.exc.code.remove i ∧ t.exc.control = s.exc.control.remove i ∧
        t.exc.query = s.exc.query.remove i ∧ t.toModules = s.toModules
      let ignored := ∃ t, exec (.slotCancel i) s = .next t ∧ t.exc.mem = putState s.exc.mem i TAKEN ∧
        t.exc.code = s.exc.code ∧ t.exc.control = s.exc.control ∧ t.exc.query = s.exc.query ∧
        t.toModules = s.toModules
      (atHead i s.exc.code = true → codeOccupied s.cau = true → removed) ∧
      (atHead i s.exc.code = true → codeOccupied s.cau = false → ignored) ∧
      (atHead i s.exc.code = false → atHead i s.exc.control = true → controlOccupied s = true → removed) ∧
      (atHead i s.exc.code = false → atHead i s.exc.control = true → controlOccupied s = false → ignored) ∧
      (elsewhere → atHead i s.exc.query = false → waits = true → removed) ∧
      (∀ r rest, elsewhere → s.exc.query.queue = r :: rest → r.slot = i → s.exc.bulk = none →
        let single := r.kind = .readEvidence ∨ (r.kind = .readLive ∧ r.par 10 2 = 0)
        (single → ignored) ∧ (¬single → removed)) ∧
      (∀ b, elsewhere → atHead i s.exc.query = true → s.exc.bulk = some b →
        ∃ t, exec (.slotCancel i) s = .next t ∧ t.exc.mem = doneMem i .cancelled 0 b.total [] s.exc.mem ∧
          t.exc.bulk = none ∧ t.exc.query = ⟨s.exc.query.queue.tail, false⟩ ∧ t.ce = s.ce ∧ t.flash = s.flash) ∧
      (∀ q ∈ s.exc.standing, q.slot = i → elsewhere → atHead i s.exc.query = false → waits = false →
        ∃ t, exec (.slotCancel i) s = .next t ∧
          t.exc.mem = putState (putFields s.exc.mem i [(4, [6]), (5, [0])]) i DONE ∧
          t.exc.standing = s.exc.standing.filter (fun q => decide (q.slot ≠ i)) ∧ t.toModules = s.toModules))

/-- NOTICE_RELEASE drops the notices up to the release mark, clears OVERFLOW, does nothing at a mark just below the
oldest, and posts EXCHANGE_FAULT for any other mark. CAPTURE_RELEASE clears the capture and WAKE. XRST_ASSERT in RUN
empties the exchange, takes the slots from requests in the modules, and posts EXCHANGE_START as the first notice; a
taken SET_TIME acts on the clock all the same. In HOLD it empties an exchange that stays not live; in BATTERY and OFF
it does nothing more than assert. XRST_DEASSERT only deasserts. (Log 6 and log 66: that each release is a command of
its own, and that EXCHANGE_START carries the store state of the reset, are the model's choices; log 43: when a taken
SET_TIME acts is read from the spec by inference.) -/
def Obligations.ReleasesAndResets : Prop :=
  (∀ (w : WriteTxn) (s : State), WriteOpen w s →
    (w.mark = true →
      let r := (s.exc.markReg + 65537 - s.exc.oldest) % 65536
      (r = 0 → ∃ t, exec .noticeRelease s = .next t ∧ t.exc.notices = s.exc.notices ∧ t.exc.oldest = s.exc.oldest ∧
        t.exc.mem = s.exc.mem ∧ t.toModules = s.toModules) ∧
      (1 ≤ r → r ≤ s.exc.notices.length → ∃ t, exec .noticeRelease s = .next t ∧
        t.exc.notices = s.exc.notices.drop r ∧ t.exc.oldest = (s.exc.oldest + r) % 65536 ∧ t.exc.overflow = false ∧
        t.exc.mem = s.exc.mem ∧ t.toModules = s.toModules) ∧
      (s.exc.notices.length < r → ∃ t, exec .noticeRelease s = .next t ∧
        t.exc.notices = (s.exc.post s.bat.clock
          (.markFault s.exc.markReg s.exc.oldest s.exc.notices.length)).notices ∧
        t.exc.mem = s.exc.mem ∧ t.toModules = s.toModules)) ∧
    (w.capture = true → ∃ t, exec .captureRelease s = .next t ∧
      t.rlr = { s.rlr with captureHeld := false, capture := [] } ∧ t.exc.wake = false ∧ t.exc.mem = s.exc.mem ∧
      t.exc.notices = s.exc.notices ∧ t.ce = s.ce)) ∧
  (∀ s : State, s.exc.xrst = true → exec .xrstAssert s = .next (refresh s)) ∧
  (∀ s : State, s.exc.xrst = false → s.psv.power = .run →
    let start : Notice := ⟨1, s.bat.clock, .exchangeStart .xrst 0 s.psv.recordFound s.stc.fault s.psv.inService⟩
    ∃ t, exec .xrstAssert s = .next t ∧
      t.exc.live = true ∧ t.exc.xrst = true ∧ t.exc.mem = [] ∧ t.exc.takeCtr = 1 ∧ t.exc.standing = [] ∧
      t.exc.code = Lane.empty ∧ t.exc.control = Lane.empty ∧ t.exc.query = Lane.empty ∧ t.exc.bulk = none ∧
      t.exc.notices.head? = some start ∧ t.rlr.captureHeld = false ∧ t.exc.wake = false ∧
      t.cau.queue = s.cau.queue.map (fun e => { e with slot := none }) ∧
      t.cau.pkg = s.cau.pkg.map (fun p => { p with slot := none }) ∧
      t.psv.req = s.psv.req.map (fun q => { q with slot := none }) ∧ t.flash = s.flash ∧
      ((∀ r ∈ s.exc.control.queue, r.kind ≠ .setTime) → t.exc.notices = [start] ∧ t.ce = s.ce ∧ t.ee = s.ee ∧
        t.bat = s.bat ∧ t.swc = { s.swc with drive := s.swc.drive.map (fun d => { d with slot := none }) }) ∧
      ∀ r, s.exc.control.queue = [r] → r.kind = .setTime →
        (r.par 8 1 = 0 → s.bat.clockValid = true → s.bat.clock ≤ 4294967295 →
          let x := signed32 (r.par 12 4)
          let left : Int := max (900 - s.bat.steerUsed) 0
          (t.bat.clock : Int) = s.bat.clock +
            max (-(s.bat.clock : Int)) (min (max (-left) (min x left)) (4294967295 - s.bat.clock))) ∧
        (r.par 8 1 = 1 → s.bat.clockValid = false ∨ s.psv.inService = false →
          t.bat.clock = r.par 12 4 ∧ t.bat.clockValid = true ∧ t.bat.clockSource = .hostSet)) ∧
  (∀ s : State, s.exc.xrst = false → s.psv.power = .hold → ∃ t, exec .xrstAssert s = .next t ∧
    t.exc.live = false ∧ t.exc.xrst = true ∧ t.exc.mem = [] ∧ t.exc.notices = [] ∧ t.exc.standing = [] ∧
    t.exc.code = Lane.empty ∧ t.exc.control = Lane.empty ∧ t.exc.query = Lane.empty ∧ t.exc.bulk = none ∧
    t.exc.attn = false ∧ t.exc.wake = false ∧ t.rlr.captureHeld = false ∧ t.psv.power = .hold ∧
    t.cau.queue = s.cau.queue.map (fun e => { e with slot := none }) ∧ t.ce = s.ce ∧ t.ee = s.ee ∧ t.bat = s.bat ∧
    t.stc = s.stc ∧ t.flash = s.flash) ∧
  (∀ s : State, s.exc.xrst = false → s.psv.power = .battery ∨ s.psv.power = .off →
    exec .xrstAssert s = .next (refresh { s with exc := { s.exc with xrst := true } })) ∧
  ∀ s : State, exec .xrstDeassert s = .next (refresh { s with exc := { s.exc with xrst := false } })

/-! ### Queries -/

/-- READ_LIVE answers the chosen part of the live values once, or begins a standing request while fewer than 4 stand;
READ_EVIDENCE answers the evidence of one kind or of all; parameters out of range are BAD_REQUEST. Nothing but the
slot, its lane and the standing requests changes. (Log 12: flags and count that no rule names are 0, by the model's
choice.) -/
def Obligations.LiveAndEvidenceAnswer : Prop :=
  (∀ (r : Request) (s : State), QueryReady .readLive r s →
    let part := r.par 8 1
    let every := r.par 10 2
    let totals := decide (part = 1)
    let answer := fun (x : Result) (n : Nat) (l : List (Nat × List Byte)) =>
      exec .readLive s = .next (refresh (popQuery (complete r.slot x 0 n l s)))
    (1 < part ∨ 3600 < every → answer .badRequest 0 []) ∧
    (part ≤ 1 → every = 0 → answer .ok 1 [(12, liveResult totals s.ee.live)]) ∧
    (part ≤ 1 → 1 ≤ every → every ≤ 3600 → 4 ≤ s.exc.standing.length → answer .noRoom 0 []) ∧
    (part ≤ 1 → 1 ≤ every → every ≤ 3600 → s.exc.standing.length < 4 →
      exec .readLive s = .next (refresh (popQuery { s with exc := { s.exc with
        mem := putFields s.exc.mem r.slot [(6, [1, 0]), (12, liveResult totals s.ee.live)],
        standing := s.exc.standing ++ [⟨r.slot, totals, every, 0⟩] } })))) ∧
  ∀ (r : Request) (s : State), QueryReady .readEvidence r s →
    let answer := fun (x : Result) (n : Nat) (l : List (Nat × List Byte)) =>
      exec .readEvidence s = .next (refresh (popQuery (complete r.slot x 0 n l s)))
    (8 < r.par 8 1 → answer .badRequest 0 []) ∧
    (∀ k, r.par 8 1 = kindIndex k → answer .ok 1 [(12, kindEvidence k s)]) ∧
    (r.par 8 1 = 8 → answer .ok 1 [(12, allEvidence s)])

/-- The bulk requests: a window beyond the bulk region or with no room for an entry is BAD_REQUEST, and so are a
profile range that ends before it starts and an empty mask; else the request is in execution with what its take
recorded. (Log 12: flags and count that no rule names are 0, by the model's choice.) -/
def Obligations.BulkRequestsBegin : Prop :=
  ∀ (r : Request) (s : State),
    let off := r.par 16 2
    let room := min (r.par 18 2) (4096 - off) / 32
    let cases := fun (c : Instr) (bad : Prop) (src : BulkSource) (gaps : Bool) =>
      (4096 ≤ off ∨ room = 0 ∨ bad →
        exec c s = .next (refresh (popQuery (complete r.slot .badRequest 0 0 [] s)))) ∧
      (off < 4096 → room ≠ 0 → ¬bad → exec c s = .next (refresh { s with exc := { s.exc with
        query := { s.exc.query with begun := true },
        bulk := some ⟨r.slot, off, room, src, 0, 0, 0, gaps, false, ⟨0, false⟩⟩ } }))
    (QueryReady .readProfile r s → cases .readProfile (r.par 12 4 < r.par 8 4)
      (bulkSource .profile (.profile (r.par 8 4) (r.par 12 4)) r.snap s) true) ∧
    (QueryReady .readTamperLog r s → cases .readTamperLog (r.par 8 1 = 0)
      (bulkSource .log (.log (r.par 8 1)) r.snap s) true) ∧
    (∀ l, r.snap = .prepared l → QueryReady .readCodes r s → cases .readCodes False (.entries l) false) ∧
    (∀ l, r.snap = .prepared l → QueryReady .readSettings r s → cases .readSettings False (.entries l) false)

/-- BULK_CHUNK writes the next entry into its place of the window, or the entry that a scan finds and selects; with
nothing left it completes the slot with OK; with a full window it hands the chunk over as PAUSED and starts the 60 s
pause, whose expiry completes the slot with TIMEOUT and the total delivered. A scan passes over a damaged place; where
its place answers a removal it skips to the oldest entry present, which may be the expected one, or to its end, and
counts what it skipped, which GAP reports; one that cannot read now waits. (Log 32, log 52 and log 12: that a chunk
can be divided, when a scan's READs end, and the flags of a TIMEOUT, are the model's choices; log 22 and log 37: which
entry is the oldest present, and where a scan starts, are read by inference.) -/
def Obligations.BulkChunksFillTheWindow : Prop :=
  ∀ (b : BulkRun) (s : State), ExchangeRuns s → s.exc.bulk = some b →
    let put := fun (x : BulkRun) (bytes : List Byte) => { s with exc := { s.exc with
      mem := writeBytes s.exc.mem (4096 + b.offset + 32 * b.filled) bytes,
      bulk := some { x with filled := b.filled + 1 } } }
    let results := (20, le 2 (b.total + b.filled)) :: (if b.gaps = true then [(22, le 2 b.skipped)] else [])
    let flags := flagNat (b.gaps && decide (0 < b.skipped))
    (b.paused = false →
      (b.source = .finished ∨ b.source = .entries [] → ∀ n, ∃ t, exec (.bulkChunk n) s = .next t ∧
        t.exc.mem = doneMem b.slot .ok flags b.filled results s.exc.mem ∧ t.exc.bulk = none ∧
        t.exc.query = ⟨s.exc.query.queue.tail, false⟩ ∧ t.ce = s.ce ∧ t.ee = s.ee ∧ t.flash = s.flash) ∧
      ((∃ e rest, b.source = .entries (e :: rest)) ∨ (∃ a sel x place bound, b.source = .scan a sel x place bound) →
        b.filled = b.room → ∀ n, ∃ t, exec (.bulkChunk n) s = .next t ∧
        t.exc.mem = putState (putFields s.exc.mem b.slot ((5, [byte flags]) :: (6, le 2 b.filled) :: results)) b.slot
          PAUSED ∧
        t.exc.bulk = some { b with
          total := b.total + b.filled, filled := 0, skipped := 0, paused := true, pause := ⟨60, false⟩ } ∧
        t.ce = s.ce ∧ t.ee = s.ee ∧ t.flash = s.flash) ∧
      (∀ e rest n, b.source = .entries (e :: rest) → b.filled ≠ b.room →
        exec (.bulkChunk (n + 1)) s = exec (.bulkChunk n) (put { b with source := .entries rest } e)) ∧
      (∀ a sel x place bound n bytes, b.source = .scan a sel x place bound → b.filled ≠ b.room →
        canRead s.stc (placeBlock a place) = true → readPlace s a place = .entry x bytes →
        let next := if x = bound then BulkSource.finished else
          .scan a sel ((x + 1) % 65536) ((place + 1) % areaSize a) bound
        exec (.bulkChunk (n + 1)) s = exec (.bulkChunk n) (if selects sel bytes = true
          then put { b with source := next } bytes
          else { s with exc := { s.exc with bulk := some { b with source := next } } })) ∧
      (∀ a sel x place bound n, b.source = .scan a sel x place bound → b.filled ≠ b.room →
        canRead s.stc (placeBlock a place) = true →
        let goes := fun (src : BulkSource) (skipped : Nat) => exec (.bulkChunk (n + 1)) s =
          exec (.bulkChunk n) { s with exc := { s.exc with bulk := some { b with source := src, skipped := skipped } } }
        let span := (bound + 65536 - x) % 65536
        let gone := readPlace s a place = .removed ∨ readPlace s a place = .erased ∨
          ∃ y bytes, readPlace s a place = .entry y bytes ∧ y ≠ x
        (readPlace s a place = .damaged → goes (.scan a sel x ((place + 1) % areaSize a) bound) b.skipped) ∧
        (gone → oldestPresent s a = none → goes .finished (b.skipped + span + 1)) ∧
        (∀ y, gone → oldestPresent s a = some y →
          let d := (y + 65536 - x) % 65536
          (span < d → goes .finished (b.skipped + span + 1)) ∧
          (d ≤ span → goes (.scan a sel y (placeOfSeq s a y) bound) (b.skipped + d)))) ∧
      (∀ a sel x place bound n, b.source = .scan a sel x place bound → b.filled ≠ b.room →
        canRead s.stc (placeBlock a place) = false →
        exec (.bulkChunk (n + 1)) s = .next (refresh { s with stc := { s.stc with readWait := true } }))) ∧
    (b.paused = true → b.pause.due = true → exec .pauseTimerExpiry s =
      .next (refresh (popQuery (complete b.slot .timeout 0 b.total [] s))))

/-! ### The lifecycle -/

/-- CALIBRATE, IDENTIFY and INSTALL_KEY take their values before commissioning and queue the save that commits them;
COMMISSION queues the commissioned bit when a key is installed and the clock is valid. In service, or with a condition
missing, each completes NOT_NOW, in store FAULT STORE_FAULT, and nothing else changes. (Log 12: flags and count that
no rule names are 0, by the model's choice.) -/
def Obligations.LifecycleRequestsAct : Prop :=
  ∀ (r : Request) (s : State),
    let refused := fun (c : Instr) (x : Result) (l : List (Nat × List Byte)) =>
      exec c s = .next (refresh (popControl (complete r.slot x 0 0 l s)))
    let taken := fun (c : Instr) (q : Lifecycle) (p : State → Prop) => ∃ t, exec c s = .next t ∧
      t.psv = { s.psv with req := some ⟨q, some r.slot⟩ } ∧
      t.exc.control = { s.exc.control with begun := true } ∧ t.ce = s.ce ∧ t.swc = s.swc ∧ t.bat = s.bat ∧
      t.flash = s.flash ∧ t.exc.mem = s.exc.mem ∧ p t
    (ControlReady .calibrate r s →
      (s.psv.inService = true → refused .calibrate .notNow []) ∧
      (s.psv.inService = false → s.stc.fault = true → refused .calibrate .storeFault []) ∧
      (s.psv.inService = false → s.stc.fault = false → taken .calibrate .calibrate (fun t =>
        t.ee = { s.ee with gains := ⟨⟨r.par 8 2, r.par 10 2, r.par 12 2⟩, ⟨r.par 14 2, r.par 16 2, r.par 18 2⟩,
          ⟨r.par 20 2, r.par 22 2, r.par 24 2⟩⟩ } ∧
        t.cau = s.cau ∧ t.rlr = s.rlr ∧ SaveTaken .lifecycle t.stc))) ∧
    (ControlReady .identify r s →
      (s.psv.inService = true → refused .identify .notNow []) ∧
      (s.psv.inService = false → s.stc.fault = true → refused .identify .storeFault []) ∧
      (s.psv.inService = false → s.stc.fault = false → taken .identify .identify (fun t =>
        t.cau = { s.cau with serial := r.par 8 4 } ∧ t.rlr = { s.rlr with radioAddr := slice r.params 4 6 } ∧
        t.ee = s.ee ∧ SaveTaken .lifecycle t.stc))) ∧
    (ControlReady .installKey r s →
      (s.psv.inService = true ∨ s.stc.copy.keyInstalled = true → refused .installKey .notNow []) ∧
      (s.psv.inService = false → s.stc.copy.keyInstalled = false → s.stc.fault = true →
        refused .installKey .storeFault []) ∧
      (s.psv.inService = false → s.stc.copy.keyInstalled = false → s.stc.fault = false →
        taken .installKey .installKey (fun t => t.cau = { s.cau with key := BitVec.ofNat 128 (r.par 8 16) } ∧
          t.rlr = s.rlr ∧ t.ee = s.ee ∧ SaveTaken .lifecycle t.stc))) ∧
    (ControlReady .commission r s →
      (s.psv.inService = true → refused .commission .notNow [(8, [1])]) ∧
      (s.psv.inService = false → s.stc.copy.keyInstalled = false → refused .commission .notNow [(8, [2])]) ∧
      (s.psv.inService = false → s.stc.copy.keyInstalled = true → s.bat.clockValid = false →
        refused .commission .notNow [(8, [3])]) ∧
      (s.psv.inService = false → s.stc.copy.keyInstalled = true → s.bat.clockValid = true → s.stc.fault = true →
        refused .commission .storeFault [(8, [0])]) ∧
      (s.psv.inService = false → s.stc.copy.keyInstalled = true → s.bat.clockValid = true → s.stc.fault = false →
        s.stc.copy.commissioned = false → taken .commission (.commission 0) (fun t =>
          t.cau = s.cau ∧ t.rlr = s.rlr ∧ t.ee = s.ee ∧ BitTaken .commissioned t.stc)))
end

