-- ==== Sys2Proof/Laws/Memory.lean ====
section
/-! SUPPORT. Laws/Memory.lean: every write of the exchange RAM keeps the canonical form, reads back, and leaves the
other bytes. -/

set_option Elab.async false

namespace Sys2Proof.Machine

open Sys2Proof

/-! ### Canonical form -/

theorem wfFrom_mono {lo lo' : Nat} (h : lo' ≤ lo) : ∀ {m : Memory}, wfFrom lo m = true → wfFrom lo' m = true
  | [], _ => rfl
  | (k, v) :: rest, hw => by
    simp only [wfFrom, Bool.and_eq_true, decide_eq_true_eq] at hw ⊢
    exact ⟨⟨by omega, hw.1.2⟩, hw.2⟩

theorem wfFrom_writeByte {lo a : Nat} (b : Byte) (ha : lo ≤ a) :
    ∀ {m : Memory}, wfFrom lo m = true → wfFrom lo (writeByte m a b) = true
  | [], _ => by
    by_cases hb : b = 0#8
    · simp [writeByte, wfFrom, hb]
    · simp [writeByte, wfFrom, ha, hb]
  | (k, v) :: rest, hw => by
    have hw' := hw
    simp only [wfFrom, Bool.and_eq_true, decide_eq_true_eq] at hw
    obtain ⟨⟨hk, hv⟩, hr⟩ := hw
    unfold writeByte
    by_cases hb : b = 0
    · simp only [if_pos hb]
      by_cases h1 : a < k
      · simpa only [if_pos h1] using hw'
      · by_cases h2 : a = k
        · simpa only [if_neg h1, if_pos h2] using wfFrom_mono (by omega) hr
        · simp only [if_neg h1, if_neg h2, wfFrom, hv, Bool.and_eq_true, decide_eq_true_eq]
          exact ⟨⟨hk, trivial⟩, wfFrom_writeByte b (by omega) hr⟩
    · have hb' : (b != 0) = true := by simpa using hb
      simp only [if_neg hb]
      by_cases h1 : a < k
      · simp only [if_pos h1, wfFrom, hv, hb', hr, Bool.and_eq_true, decide_eq_true_eq]
        exact ⟨⟨ha, trivial⟩, ⟨by omega, trivial⟩, trivial⟩
      · by_cases h2 : a = k
        · simp only [if_neg h1, if_pos h2, wfFrom, hb', hr, Bool.and_eq_true, decide_eq_true_eq]
          exact ⟨⟨hk, trivial⟩, trivial⟩
        · simp only [if_neg h1, if_neg h2, wfFrom, hv, Bool.and_eq_true, decide_eq_true_eq]
          exact ⟨⟨hk, trivial⟩, wfFrom_writeByte b (by omega) hr⟩

theorem wf_writeByte {m : Memory} (a : Nat) (b : Byte) (h : Memory.wf m = true) : Memory.wf (writeByte m a b) = true :=
  wfFrom_writeByte b (Nat.zero_le a) h

theorem wf_writeBytes : ∀ {m : Memory} (a : Nat) (bs : List Byte), Memory.wf m = true →
    Memory.wf (writeBytes m a bs) = true
  | _, _, [], h => h
  | _, a, b :: bs, h => wf_writeBytes (a + 1) bs (wf_writeByte a b h)

theorem wf_putState {m : Memory} (i : Fin 16) (v : Nat) (h : Memory.wf m = true) : Memory.wf (putState m i v) = true :=
  wf_writeByte _ _ h

theorem wf_putFields : ∀ {m : Memory} (i : Fin 16) (l : List (Nat × List Byte)), Memory.wf m = true →
    Memory.wf (putFields m i l) = true
  | _, _, [], h => h
  | _, i, (_, bs) :: rest, h => wf_putFields i rest (wf_writeBytes _ bs h)

theorem wf_applyDeferred : ∀ {m : Memory} (l : List (Nat × List Byte)), Memory.wf m = true →
    Memory.wf (applyDeferred m l) = true
  | _, [], h => h
  | _, w :: rest, h => wf_applyDeferred rest (wf_writeBytes w.1 w.2 h)

theorem wf_reset : Memory.wf State.reset.exc.mem = true := rfl

/-! ### Reads of what a write wrote -/

theorem readByte_below {lo a : Nat} (h : a < lo) : ∀ {m : Memory}, wfFrom lo m = true → readByte m a = 0
  | [], _ => rfl
  | (k, v) :: rest, hw => by
    simp only [wfFrom, Bool.and_eq_true, decide_eq_true_eq] at hw
    have hk : ¬k = a := by omega
    simp only [readByte, hk, if_false]
    exact readByte_below (by omega) hw.2

theorem readByte_writeByte_from {lo : Nat} (a : Nat) (b : Byte) (c : Nat) : ∀ {m : Memory}, wfFrom lo m = true →
    readByte (writeByte m a b) c = if c = a then b else readByte m c
  | [], _ => by
    by_cases hb : b = 0#8
    · simp [writeByte, readByte, hb]
    · by_cases hc : c = a
      · simp [writeByte, readByte, hb, hc]
      · have hc' : ¬a = c := fun h => hc h.symm
        simp [writeByte, readByte, hb, hc, hc']
  | (k, v) :: rest, hw => by
    simp only [wfFrom, Bool.and_eq_true, decide_eq_true_eq] at hw
    have hr := hw.2
    have hz : ∀ x, x ≤ k → readByte rest x = 0 := fun x hx => readByte_below (by omega) hr
    have ih := readByte_writeByte_from a b c hr
    unfold writeByte
    by_cases hc : c = a
    · subst hc
      by_cases h1 : c < k
      · have hk : ¬k = c := by omega
        by_cases hb : b = 0#8
        · simp [h1, hb, readByte, hk, hz c (by omega)]
        · simp [h1, hb, readByte]
      · by_cases h2 : c = k
        · subst h2
          by_cases hb : b = 0#8
          · simp [hb, hz c (Nat.le_refl _)]
          · simp [hb, readByte]
        · have hk : ¬k = c := fun h => h2 h.symm
          simpa [h1, h2, readByte, hk] using ih
    · have hc' : ¬a = c := fun h => hc h.symm
      by_cases h1 : a < k
      · by_cases hb : b = 0#8
        · simp [h1, hb, hc]
        · simp [h1, hb, hc, hc', readByte]
      · by_cases h2 : a = k
        · subst h2
          by_cases hb : b = 0#8
          · simp [hb, hc, hc', readByte]
          · simp [hb, hc, hc', readByte]
        · by_cases hk : k = c
          · subst hk; simp [h1, h2, readByte, hc]
          · simpa [h1, h2, readByte, hk, hc] using ih

theorem readByte_writeByte {m : Memory} (a : Nat) (b : Byte) (c : Nat) (h : Memory.wf m = true) :
    readByte (writeByte m a b) c = if c = a then b else readByte m c := readByte_writeByte_from a b c h

theorem readByte_writeBytes_outside (c : Nat) : ∀ {m : Memory} (a : Nat) (bs : List Byte), Memory.wf m = true →
    (c < a ∨ a + bs.length ≤ c) → readByte (writeBytes m a bs) c = readByte m c
  | _, _, [], _, _ => rfl
  | m, a, b :: bs, h, hc => by
    simp only [List.length_cons] at hc
    have h1 : ¬c = a := by omega
    rw [writeBytes, readByte_writeBytes_outside c (a + 1) bs (wf_writeByte a b h) (by omega),
      readByte_writeByte a b c h, if_neg h1]

theorem slotAddr_ne {i j : Fin 16} (h : i ≠ j) : slotAddr i ≠ slotAddr j := by
  have := Fin.val_ne_of_ne h
  unfold slotAddr; omega

theorem slotState_putState (m : Memory) (i j : Fin 16) (v : Nat) (h : Memory.wf m = true) :
    slotState (putState m i v) j = if j = i then v % 256 else slotState m j := by
  unfold slotState putState
  rw [readByte_writeByte _ _ _ h]
  by_cases hij : j = i
  · subst hij; simp
  · simp [slotAddr_ne hij, hij]

end Sys2Proof.Machine
end

