-- ==== Sys2Proof/Laws/Keeps.lean ====
section
/-! SUPPORT. Laws/Keeps.lean: what no shared operation breaks: the command queue, the one-way bits, the form of the
exchange RAM and of the notice list, and the ranges of the saved values. -/

set_option Elab.async false

namespace Sys2Proof.Machine

open Sys2Proof

/-- From s to t the queue is the same, no one-way bit is cleared, and the invariants of Safety.lean carry over. -/
structure Keeps (s t : State) : Prop where
  pending : t.pending = s.pending
  bits : BitsKept s.flash.bits t.flash.bits
  mem : Memory.wf s.exc.mem = true → Memory.wf t.exc.mem = true
  notices : NoticesOk s.exc → NoticesOk t.exc
  ranges : RangesOk s → RangesOk t

theorem keeps_refl (s : State) : Keeps s s := ⟨rfl, fun _ h => h, id, id, id⟩

theorem keeps_trans {s t u : State} (h : Keeps s t) (k : Keeps t u) : Keeps s u :=
  ⟨k.pending.trans h.pending, fun b x => k.bits b (h.bits b x), fun x => k.mem (h.mem x),
    fun x => k.notices (h.notices x), fun x => k.ranges (h.ranges x)⟩

/-- A change of anything that carries no range keeps the ranges. -/
theorem ranges_of {s t : State} (h : RangesOk s)
    (hr : t.flash.records = s.flash.records := by rfl) (he : t.ee.energy = s.ee.energy := by rfl)
    (hm : t.ce.money = s.ce.money := by rfl) (hc : t.cau.codes = s.cau.codes := by rfl)
    (hk : t.bat.kinds = s.bat.kinds := by rfl) (ht : t.swc.tripMem = s.swc.tripMem := by rfl)
    (hp : t.stc.prog = s.stc.prog := by rfl) (hd : t.psv.dropped = s.psv.dropped := by rfl) : RangesOk t := by
  refine ⟨?_, by rw [hr]; exact h.stored, ?_, ?_⟩
  · have := h.now
    simpa [SaveOk, imageOf, he, hm, hc, hk, ht] using this
  · have := h.running
    unfold ProgOk at *
    rw [hp]; exact this
  · have := h.dropped
    unfold DroppedOk at *
    rw [hd]; exact this

/-- A change of anything else keeps everything. -/
theorem keeps_of {s t : State} (hp : t.pending = s.pending := by rfl) (hf : t.flash = s.flash := by rfl)
    (hm : t.exc.mem = s.exc.mem := by rfl) (hn : t.exc.notices = s.exc.notices := by rfl)
    (ho : t.exc.oldest = s.exc.oldest := by rfl) (he : t.ee.energy = s.ee.energy := by rfl)
    (hmo : t.ce.money = s.ce.money := by rfl) (hc : t.cau.codes = s.cau.codes := by rfl)
    (hk : t.bat.kinds = s.bat.kinds := by rfl) (ht : t.swc.tripMem = s.swc.tripMem := by rfl)
    (hpr : t.stc.prog = s.stc.prog := by rfl) (hd : t.psv.dropped = s.psv.dropped := by rfl) : Keeps s t := by
  refine ⟨hp, by rw [hf]; exact fun _ h => h, by rw [hm]; exact id, ?_, ?_⟩
  · unfold NoticesOk
    rw [hn, ho]; exact id
  · exact fun h => ranges_of h (by rw [hf]) he hmo hc hk ht hpr hd

/-- A fold of operations that keep keeps. -/
theorem keeps_foldl {α : Type} {f : State → α → State} (hf : ∀ s x, Keeps s (f s x)) :
    ∀ (l : List α) (s : State), Keeps s (l.foldl f s)
  | [], s => keeps_refl s
  | x :: rest, s => keeps_trans (hf s x) (keeps_foldl hf rest (f s x))

theorem keeps_ite {s a b : State} {p : Prop} [Decidable p] (ha : Keeps s a) (hb : Keeps s b) :
    Keeps s (if p then a else b) := by
  split
  · exact ha
  · exact hb

/-! ### Exchange: slots and notices -/

/-- A change of the exchange that writes RAM and notices as they should be keeps. -/
theorem keeps_exc {s : State} (x : Exc) (hm : Memory.wf s.exc.mem = true → Memory.wf x.mem = true)
    (hn : NoticesOk s.exc → NoticesOk x) : Keeps s { s with exc := x } :=
  ⟨rfl, fun _ h => h, hm, hn, fun h => ranges_of h⟩

theorem keeps_complete (i r f n l) (s : State) : Keeps s (complete i r f n l s) :=
  keeps_exc _ (fun h => wf_putState _ _ (wf_putFields _ _ h)) id

theorem keeps_popCode (s : State) : Keeps s (popCode s) := keeps_of
theorem keeps_popControl (s : State) : Keeps s (popControl s) := keeps_of
theorem keeps_popQuery (s : State) : Keeps s (popQuery s) := keeps_of

/-- A post adds the next notice, or loses it. -/
theorem noticesOk_post (t : Nat) (b : NoticeBody) {x : Exc} (h : NoticesOk x) : NoticesOk (x.post t b) := by
  obtain ⟨ho, hl, hs⟩ := h
  unfold Exc.post
  split
  · split
    · refine ⟨ho, by simp only [List.length_append, List.length_cons, List.length_nil]; omega, ?_⟩
      simp only [List.map_append, List.map_cons, List.map_nil, List.length_append, List.length_cons, List.length_nil, hs]
      simp [seqsFrom, List.range_succ]
    · exact ⟨ho, hl, hs⟩
  · exact ⟨ho, hl, hs⟩

theorem exc_post_mem (t : Nat) (b : NoticeBody) (x : Exc) : (x.post t b).mem = x.mem := by
  unfold Exc.post
  split
  · split <;> rfl
  · rfl

theorem keeps_post (b : NoticeBody) (s : State) : Keeps s (post b s) :=
  keeps_exc _ (by rw [exc_post_mem]; exact id) (noticesOk_post _ _)

theorem keeps_keepNotice (b : NoticeBody) (s : State) : Keeps s (keepNotice b s) := keeps_of

theorem keeps_postAll (l : List NoticeBody) (s : State) : Keeps s (postAll l s) :=
  keeps_foldl (fun s b => keeps_post b s) l s

theorem keeps_refresh (s : State) : Keeps s (refresh s) := by
  unfold refresh
  split
  · exact keeps_of
  · exact keeps_refl s

theorem keeps_drawFree (s : State) : Keeps s (drawFree s) := keeps_of

/-! ### Store: the operation queue -/

/-- The image that would be saved now, whatever its sequence and its suspended erase. -/
theorem saveOk_image {s : State} (h : RangesOk s) (n : Nat) (e : Option Nat) :
    SaveOk { imageOf s with seq := n, suspendedErase := e } := h.now

theorem progOk_of {t u : Stc} (h : ProgOk t) (e : u.prog = t.prog) : ProgOk u := by
  unfold ProgOk at *
  rw [e]; exact h

theorem progOk_beginRecord {image : SaveRecord} (h : SaveOk image) (l : List SaveKind) (t : Stc) :
    ProgOk (beginRecord image l t) := by
  intro a b hab
  simp only [beginRecord, Option.some.injEq, Prog.record.injEq] at hab
  rw [← hab.2]; exact h

theorem progOk_beginOp {image : SaveRecord} (hi : SaveOk image) (f : Flash) (q : QItem) {t : Stc} (h : ProgOk t) :
    ProgOk (beginOp f image q t) := by
  unfold beginOp
  split
  · exact progOk_beginRecord hi _ _
  · intro a b hab; simp at hab
  · exact progOk_of h rfl
  · split
    · dsimp only
      split
      · split
        · exact progOk_of h rfl
        · exact h
      · exact progOk_of h rfl
    · intro a b hab; simp at hab

theorem progOk_arbitrate {image : SaveRecord} (hi : SaveOk image) (f : Flash) {t : Stc} (h : ProgOk t) :
    ProgOk (arbitrate f image t) := by
  have hr : ∀ u : Stc, ProgOk u → ProgOk (raiseErase f u) := by
    intro u hu
    unfold raiseErase
    split
    · exact progOk_of hu rfl
    · exact hu
  unfold arbitrate
  dsimp only
  split
  · split
    · exact progOk_beginOp hi _ _ (hr _ (progOk_of h rfl))
    · exact hr _ (progOk_of h rfl)
  · exact hr _ (progOk_of h rfl)

/-- A change of the store controller keeps when a record image it begins is the image of now. -/
theorem keeps_stc {s : State} (t : Stc) (h : RangesOk s → ProgOk t) : Keeps s { s with stc := t } :=
  ⟨rfl, fun _ h => h, id, id, fun r => ⟨r.now, r.stored, h r, r.dropped⟩⟩

theorem keeps_runArbiter (s : State) : Keeps s (runArbiter s) := by
  unfold runArbiter
  split
  · exact keeps_stc _ (fun r => progOk_arbitrate r.now _ r.running)
  · exact keeps_refl s

theorem enqueue_prog (op : StoreOp) (t : Stc) : (enqueue op t).prog = t.prog := by
  unfold enqueue
  dsimp only
  split
  · split <;> rfl
  · split <;> rfl
  · rfl

theorem keeps_arrive (op : StoreOp) (s : State) : Keeps s (arrive op s) := by
  unfold arrive
  split
  · exact keeps_refl s
  · exact keeps_trans (keeps_stc _ (fun r => progOk_of r.running (enqueue_prog op s.stc))) (keeps_runArbiter _)

theorem keeps_readsDone (s : State) : Keeps s (readsDone s) := by
  unfold readsDone
  refine keeps_trans ?_ (keeps_runArbiter _)
  exact keeps_stc _ (fun r => progOk_of r.running rfl)

theorem keeps_waitForRead (s : State) : Keeps s (waitForRead s) := keeps_of

/-! ### Profile interval -/

theorem keeps_flagInterval (f) (s : State) : Keeps s (flagInterval f s) := keeps_of
theorem keeps_openInterval (t) (s : State) : Keeps s (openInterval t s) := keeps_of

theorem keeps_rollInterval (e n f t) (s : State) : Keeps s (rollInterval e n f t s) := by
  unfold rollInterval
  split
  · split
    · exact keeps_openInterval _ _
    · exact keeps_trans (keeps_openInterval _ _) (keeps_trans (keeps_arrive _ _) (keeps_drawFree _))
  · exact keeps_openInterval _ _

theorem keeps_reportStep (a b) (s : State) : Keeps s (reportStep a b s) := by
  unfold reportStep
  repeat' split
  · exact keeps_refl s
  · exact keeps_flagInterval _ _
  · exact keeps_rollInterval _ _ _ _ _

theorem keeps_billInterval (n m f t e o) (s : State) : Keeps s (billInterval n m f t e o s) := keeps_of

theorem keeps_testBoundary (e) (s : State) : Keeps s (testBoundary e s) := by
  unfold testBoundary
  repeat' split
  · exact keeps_rollInterval _ _ _ _ _
  · exact keeps_refl s
  · exact keeps_refl s

theorem keeps_reportDeduction (k) (s : State) : Keeps s (reportDeduction k s) := keeps_of

/-! ### Switch -/

theorem keeps_setDrive (d) (s : State) : Keeps s (setDrive d s) := keeps_of

theorem keeps_setSwitch (w) (s : State) : Keeps s (setSwitch w s) := by
  unfold setSwitch
  dsimp only
  split
  · exact keeps_of
  · exact keeps_of

theorem keeps_beginDrive (d) (s : State) : Keeps s (beginDrive d s) :=
  keeps_trans (keeps_setSwitch _ s) keeps_of

theorem keeps_respond (b) (s : State) : Keeps s (respond b s) := by
  unfold respond
  repeat' split
  all_goals first
    | exact keeps_refl _
    | exact keeps_setSwitch _ _
    | exact keeps_beginDrive _ _

theorem keeps_addReason (r) (s : State) : Keeps s (addReason r s) := by
  unfold addReason
  split
  · exact keeps_refl s
  · exact keeps_trans keeps_of (keeps_respond _ _)

theorem keeps_removeReason (r) (s : State) : Keeps s (removeReason r s) := by
  unfold removeReason
  split
  · exact keeps_trans keeps_of (keeps_respond _ _)
  · exact keeps_refl s

theorem keeps_succeed (d e n) (s : State) : Keeps s (succeed d e n s) :=
  keeps_trans (keeps_setSwitch _ s) (keeps_trans (keeps_setDrive _ _) (keeps_post _ _))

theorem keeps_driveWanted (s : State) : Keeps s (driveWanted s) := by
  unfold driveWanted
  split
  · exact keeps_beginDrive _ _
  · exact keeps_trans (keeps_setSwitch _ s) (keeps_setDrive _ _)

/-! ### Money -/

theorem moneyOk_after {m : Money} (k : Nat) (h : MoneyOk m) : MoneyOk (moneyAfter m k) := by
  obtain ⟨h1, h2, h3, h4⟩ := h
  refine ⟨?_, ?_, h3, Nat.min_le_left _ _⟩
  · simp only [moneyAfter, deductible, balanceFloor] at *
    omega
  · simp only [moneyAfter, deductible, balanceFloor, balanceCeiling] at *
    omega

/-- A change of the money that keeps its ranges keeps. -/
theorem keeps_money {s : State} (c : Ce) (h : MoneyOk s.ce.money → MoneyOk c.money) : Keeps s { s with ce := c } :=
  ⟨rfl, fun _ h => h, id, id, fun r => ⟨⟨r.now.1, h r.now.2.1, r.now.2.2⟩, r.stored, r.running, r.dropped⟩⟩

theorem keeps_deduct (k) (s : State) : Keeps s (deduct k s) := by
  unfold deduct
  dsimp only
  have h : Keeps s (reportDeduction (deductible s.ce.money.b k)
      { s with ce := { s.ce with money := moneyAfter s.ce.money k } }) :=
    keeps_trans (keeps_money _ (moneyOk_after k)) (keeps_reportDeduction _ _)
  split
  · exact keeps_trans h (keeps_flagInterval _ _)
  · exact h

theorem keeps_chargeDays : ∀ (n) (s : State), Keeps s (chargeDays n s)
  | 0, s => keeps_refl s
  | n + 1, s => keeps_trans (keeps_deduct _ s) (keeps_chargeDays n _)

theorem keeps_setLastDay (d) (s : State) : Keeps s (setLastDay d s) := keeps_money _ id

theorem keeps_fixedCharge (d) (s : State) : Keeps s (fixedCharge d s) := by
  unfold fixedCharge
  split
  · exact keeps_trans (keeps_chargeDays _ s) (keeps_setLastDay _ _)
  · exact keeps_refl s

theorem keeps_costStage (n e) (s : State) : Keeps s (costStage n e s) := by
  unfold costStage
  refine keeps_trans (keeps_money _ ?_) (keeps_deduct _ _)
  exact fun h => ⟨h.1, h.2.1, Nat.mod_lt _ (by decide), h.2.2.2⟩

theorem keeps_lowCredit (s : State) : Keeps s (lowCredit s) := by
  have h1 : ∀ t : State, Keeps s t → ∀ b (p : Bool), Keeps s (if p then post b t else t) := by
    intro t h b p
    exact keeps_ite (keeps_trans h (keeps_post _ _)) h
  unfold lowCredit
  exact h1 _ (h1 _ keeps_of _ _) _ _

theorem keeps_setDeferral (x) (s : State) : Keeps s (setDeferral x s) := keeps_of

theorem keeps_evaluate (s : State) : Keeps s (evaluate s) := by
  unfold evaluate
  repeat' split
  · exact keeps_trans (keeps_removeReason _ s) (keeps_setDeferral _ _)
  · exact keeps_refl s
  · exact keeps_setDeferral _ _
  · exact keeps_trans (keeps_setDeferral _ s) (keeps_post _ _)
  · exact keeps_trans (keeps_addReason _ s) (keeps_setDeferral _ _)

theorem keeps_billPeriod (n e) (s : State) : Keeps s (billPeriod n e s) := by
  have h := keeps_trans (keeps_fixedCharge (dayOf e) s) (keeps_trans (keeps_costStage n e _) (keeps_lowCredit _))
  unfold billPeriod
  exact keeps_ite h (keeps_trans h (keeps_evaluate _))

/-- Credit added up to the ceiling keeps. -/
theorem keeps_addCredit (k : Nat) (s : State) (hk : s.ce.money.b + k ≤ balanceCeiling) : Keeps s (addCredit k s) := by
  unfold addCredit
  refine keeps_trans (keeps_money _ ?_) (keeps_trans (keeps_lowCredit _) (keeps_evaluate _))
  intro h
  exact ⟨by have := h.1; dsimp only; omega, hk, h.2.2⟩

theorem keeps_recomputeBand (s : State) : Keeps s (recomputeBand s) := keeps_of

theorem keeps_recomputeWindow (s : State) : Keeps s (recomputeWindow s) := by
  unfold recomputeWindow
  dsimp only
  split
  · exact keeps_refl s
  · exact keeps_trans keeps_of (keeps_evaluate _)

theorem keeps_steerRule (s : State) : Keeps s (steerRule s) := by
  unfold steerRule
  split
  · exact keeps_of
  · exact keeps_refl s

theorem keeps_rearm (s : State) : Keeps s (rearm s) := keeps_of

theorem keeps_clockStep (t v) (s : State) : Keeps s (clockStep t v s) := by
  unfold clockStep
  have h1 : Keeps s (reportStep t s.bat.clock { s with ce := { s.ce with minuteDue := false } }) :=
    keeps_trans keeps_of (keeps_reportStep _ _ _)
  exact keeps_trans (keeps_ite (keeps_trans h1 (keeps_setLastDay _ _)) h1)
    (keeps_trans (keeps_recomputeBand _) (keeps_trans (keeps_recomputeWindow _) (keeps_steerRule _)))

theorem keeps_setClock (src t) (s : State) : Keeps s (setClock src t s) := by
  unfold setClock
  exact keeps_ite keeps_of (keeps_trans keeps_of (keeps_clockStep _ _ _))

theorem keeps_steer (a) (s : State) : Keeps s (steer a s) := by
  unfold steer
  exact keeps_ite (keeps_trans keeps_of (keeps_steerRule _)) (keeps_trans keeps_of (keeps_clockStep _ _ _))

/-! ### Tamper kinds -/

theorem perKind_get_set {α : Type} (p : PerKind α) (k j : Kind) (x : α) :
    (p.set k x).get j = if j = k then x else p.get j := by cases k <;> cases j <;> rfl

theorem kindsOk_set {p : PerKind KindRec} (k : Kind) {r : KindRec} (h : KindsOk p)
    (hr : r.counter ≤ 255 ∧ r.count ≤ 65535) : KindsOk (p.set k r) := by
  intro j
  rw [perKind_get_set]
  split
  · exact hr
  · exact h j

/-- A change of the battery domain that keeps the counters' ranges keeps. -/
theorem keeps_bat {s : State} (b : Bat) (h : KindsOk s.bat.kinds → KindsOk b.kinds) : Keeps s { s with bat := b } :=
  ⟨rfl, fun _ h => h, id, id, fun r =>
    ⟨⟨r.now.1, r.now.2.1, r.now.2.2.1, h r.now.2.2.2.1, r.now.2.2.2.2⟩, r.stored, r.running, r.dropped⟩⟩

theorem keeps_mapKind (k : Kind) (f : KindRec → KindRec) (s : State)
    (hf : ∀ r, r.counter ≤ 255 ∧ r.count ≤ 65535 → (f r).counter ≤ 255 ∧ (f r).count ≤ 65535) :
    Keeps s (mapKind k f s) :=
  keeps_bat _ (fun h => kindsOk_set k h (hf _ (h k)))

theorem keeps_setKindState (k x) (s : State) : Keeps s (setKindState k x s) := keeps_mapKind k _ s (fun _ h => h)

theorem keeps_appendLog (k e) (s : State) : Keeps s (appendLog k e s) := keeps_arrive _ s

theorem keeps_tamperAgree (s : State) : Keeps s (tamperAgree s) :=
  keeps_ite (keeps_addReason _ s) (keeps_removeReason _ s)

theorem keeps_countDeclaration (k) (s : State) : Keeps s (countDeclaration k s) :=
  keeps_mapKind k _ s (fun _ h => ⟨h.1, Nat.min_le_left _ _⟩)

theorem keeps_programEver (k) (s : State) : Keeps s (programEver k s) := keeps_ite (keeps_refl s) (keeps_arrive _ s)

theorem keeps_announceDeclared (b) (s : State) : Keeps s (announceDeclared b s) :=
  keeps_ite (keeps_post _ s) (keeps_keepNotice _ s)

theorem keeps_declareWith (k e) (s : State) : Keeps s (declareWith k e s) := by
  unfold declareWith
  exact keeps_trans (keeps_countDeclaration k s) (keeps_trans (keeps_flagInterval _ _) (keeps_trans (keeps_tamperAgree _)
    (keeps_trans (keeps_programEver _ _) (keeps_trans (keeps_arrive _ _) (keeps_trans (keeps_arrive _ _)
      (keeps_announceDeclared _ _))))))

theorem keeps_declareInOutage (k) (s : State) : Keeps s (declareInOutage k s) := by
  have h := keeps_trans (keeps_countDeclaration k s) (keeps_tamperAgree _)
  unfold declareInOutage
  dsimp only
  split
  · exact h
  · exact keeps_trans h keeps_of

theorem keeps_declareKind (k) (s : State) : Keeps s (declareKind k s) :=
  keeps_ite (keeps_declareInOutage k s) (keeps_declareWith k _ s)

theorem keeps_warningBegin (k) (s : State) : Keeps s (warningBegin k s) := by
  unfold warningBegin
  exact keeps_ite (keeps_trans (keeps_setKindState _ _ s) (keeps_trans (keeps_appendLog _ _ _) (keeps_post _ _)))
    (keeps_setKindState _ _ s)

theorem keeps_warningEnd (k) (s : State) : Keeps s (warningEnd k s) := by
  unfold warningEnd
  exact keeps_ite (keeps_trans (keeps_setKindState _ _ s) (keeps_appendLog _ _ _)) (keeps_setKindState _ _ s)

theorem keeps_moveKind (k) (s : State) : Keeps s (moveKind k s) := by
  have hw := keeps_warningBegin k s
  have hd := keeps_trans hw (keeps_declareKind k _)
  unfold moveKind
  dsimp only
  split
  · exact keeps_ite (keeps_refl s) (keeps_ite hd hw)
  · exact keeps_ite (keeps_warningEnd k s) (keeps_ite (keeps_declareKind k s) (keeps_refl s))
  · exact keeps_refl s

theorem counterAfter_le (p : Bool) (c : Nat) (h : c ≤ 255) : counterAfter p c ≤ 255 := by
  unfold counterAfter
  split
  · exact Nat.min_le_left _ _
  · omega

theorem keeps_indicator (k p) (s : State) : Keeps s (indicator k p s) := by
  unfold indicator
  refine keeps_trans ?_ (keeps_moveKind k _)
  exact keeps_mapKind k _ s (fun _ h => ⟨counterAfter_le p _ h.1, h.2⟩)

theorem keeps_coverOpens (k) (s : State) : Keeps s (coverOpens k s) := by
  unfold coverOpens
  repeat' split
  all_goals first
    | exact keeps_declareKind k s
    | exact keeps_warningBegin k s
    | exact keeps_refl s

theorem keeps_coverCloses (k) (s : State) : Keeps s (coverCloses k s) := by
  unfold coverCloses
  split
  · exact keeps_warningEnd k s
  · exact keeps_refl s
  · exact keeps_refl s

theorem keeps_setCover (c x) (s : State) : Keeps s (setCover c x s) := by
  cases c
  · exact keeps_of
  · exact keeps_of

theorem keeps_clearKind (s : State) (k) : Keeps s (clearKind s k) := by
  unfold clearKind
  refine keeps_ite (keeps_ite (keeps_appendLog k _ s) ?_) (keeps_refl s)
  refine keeps_trans (keeps_trans ?_ (keeps_appendLog _ _ _)) (keeps_post _ _)
  exact keeps_mapKind k _ s (fun _ h => h)

theorem keeps_clearTamper (m) (s : State) : Keeps s (clearTamper m s) :=
  keeps_trans (keeps_foldl keeps_clearKind _ s) (keeps_tamperAgree _)

theorem keeps_everCheck (s : State) (k) : Keeps s (everCheck s k) := keeps_ite (keeps_programEver k s) (keeps_refl s)

theorem keeps_processNote (s : State) (k) : Keeps s (processNote s k) := by
  unfold processNote
  split
  · exact keeps_trans (keeps_arrive _ s) (keeps_trans (keeps_programEver _ _) (keeps_trans (keeps_arrive _ _)
      (keeps_trans keeps_of (keeps_keepNotice _ _))))
  · exact keeps_refl s

theorem keeps_noteAtHold (s : State) (k) : Keeps s (noteAtHold s k) := by
  unfold noteAtHold
  split
  · exact keeps_of
  · exact keeps_refl s

/-! ### Codes -/

theorem keeps_mapPenalty (src f) (s : State) : Keeps s (mapPenalty src f s) := keeps_of

theorem keeps_enqueueCode (e) (s : State) : Keeps s (enqueueCode e s) := keeps_of

theorem keeps_giveOutcome (src i r k n a) (s : State) : Keeps s (giveOutcome src i r k n a s) := by
  unfold giveOutcome
  split
  · exact keeps_trans (keeps_complete _ _ _ _ _ s) (keeps_popCode _)
  · exact keeps_post _ s

theorem keeps_dropHead (s : State) : Keeps s (dropHead s) := keeps_of

theorem keeps_setKeys (l) (s : State) : Keeps s (setKeys l s) := keeps_of

theorem keeps_decideEmergency (s : State) : Keeps s (decideEmergency s) := by
  unfold decideEmergency
  refine keeps_ite (keeps_trans (keeps_trans ?_ (keeps_evaluate _)) (keeps_arrive _ _)) (keeps_refl s)
  exact keeps_money _ id

theorem insertSorted_length (n : Nat) : ∀ l, (insertSorted n l).length = l.length + 1
  | [] => rfl
  | x :: rest => by
    unfold insertSorted
    split
    · rfl
    · simp [insertSorted_length n rest]

theorem insertSorted_rises (n : Nat) : ∀ {lo : Nat} {l : List Nat}, lo < n → n ∉ l → risesFrom lo l →
    risesFrom lo (insertSorted n l)
  | lo, [], h, _, _ => ⟨h, trivial⟩
  | lo, x :: rest, h, hn, hr => by
    unfold insertSorted
    simp only [List.mem_cons, not_or] at hn
    split
    · rename_i hx
      exact ⟨h, hx, hr.2⟩
    · rename_i hx
      exact ⟨hr.1, insertSorted_rises n (by omega) hn.2 hr.2⟩

/-- A fresh issue number above the floor keeps the table's form (R54). -/
theorem codesOk_insert {c : Codes} {n : Nat} (h : CodesOk c) (hf : c.floor < n) (ht : n ∉ c.table) :
    CodesOk (insertIssue n c) := by
  have hl := insertSorted_length n c.table
  have hr := insertSorted_rises n hf ht h.2
  have h32 := h.1
  unfold insertIssue
  dsimp only
  generalize hm : insertSorted n c.table = l at hl hr
  cases l with
  | nil => exact h
  | cons x rest =>
    simp only [List.length_cons] at hl ⊢
    split
    · exact ⟨by dsimp only; omega, hr.2⟩
    · exact ⟨by simp only [List.length_cons]; omega, hr⟩

theorem keeps_codes {s : State} (c : Cau) (h : CodesOk s.cau.codes → CodesOk c.codes) : Keeps s { s with cau := c } :=
  ⟨rfl, fun _ h => h, id, id, fun r =>
    ⟨⟨r.now.1, r.now.2.1, h r.now.2.2.1, r.now.2.2.2⟩, r.stored, r.running, r.dropped⟩⟩

/-! ### Settings packages -/

theorem keeps_takeIntoUse (c) (s : State) (x) : Keeps s (takeIntoUse c s x) := by
  unfold takeIntoUse
  repeat' split
  all_goals first
    | exact keeps_refl s
    | exact keeps_recomputeBand s
    | exact keeps_recomputeWindow s
    | exact keeps_evaluate s
    | exact keeps_lowCredit s
    | exact keeps_tamperAgree s
    | exact keeps_rollInterval _ _ _ _ s
    | exact keeps_of

theorem keeps_takeClock (s : State) (x) : Keeps s (takeClock s x) := by
  unfold takeClock
  split
  · exact keeps_setClock _ _ s
  · exact keeps_refl s

theorem keeps_applySections (l) (s : State) : Keeps s (applySections l s) :=
  keeps_trans keeps_of (keeps_trans (keeps_foldl (keeps_takeIntoUse _) l _) (keeps_foldl keeps_takeClock l _))

theorem keeps_discardPending (n) (s : State) : Keeps s (discardPending n s) := by
  unfold discardPending
  split
  · exact keeps_trans keeps_of (keeps_post _ _)
  · exact keeps_refl s

theorem keeps_givePackage (p r i d) (s : State) : Keeps s (givePackage p r i d s) := by
  unfold givePackage
  dsimp only
  split
  · exact keeps_trans keeps_of (keeps_trans (keeps_complete _ _ _ _ _ _) (keeps_popCode _))
  · exact keeps_trans keeps_of (keeps_post _ _)

/-! ### Requests -/

theorem keeps_finishControl (i r f l) (s : State) : Keeps s (finishControl i r f l s) :=
  keeps_trans (keeps_complete _ _ _ _ _ s) (keeps_popControl _)

theorem keeps_finishQuery (i r f n l) (s : State) : Keeps s (finishQuery i r f n l s) :=
  keeps_trans (keeps_complete _ _ _ _ _ s) (keeps_popQuery _)

theorem keeps_finishRequest (q r l) (s : State) : Keeps s (finishRequest q r l s) := by
  unfold finishRequest
  dsimp only
  split
  · exact keeps_trans keeps_of (keeps_finishControl _ _ _ _ _)
  · exact keeps_of

theorem keeps_takeLifecycle (q i o) (s : State) : Keeps s (takeLifecycle q i o s) :=
  keeps_trans keeps_of (keeps_arrive _ _)

end Sys2Proof.Machine
end

