-- ==== Sys2Proof/Laws/KeepsMeanings.lean ====
section
/-! SUPPORT. Laws/KeepsMeanings.lean:
that every meaning keeps what Laws/Keeps.lean names: one lemma per operation and meaning. -/

set_option Elab.async false

namespace Sys2Proof.Machine

open Sys2Proof

theorem keeps_confirmDrive (d r v) (s : State) : Keeps s (confirmDrive d r v s) := by
  unfold confirmDrive
  dsimp only
  refine keeps_ite ?_ (keeps_ite (keeps_ite (keeps_ite (keeps_setDrive _ _) ?_) ?_) (keeps_ite (keeps_succeed _ _ _ _)
      (keeps_driveWanted _)))
  · exact keeps_ite (keeps_succeed _ _ _ _) (keeps_ite (keeps_trans (keeps_succeed _ _ _ _) (keeps_beginDrive _ _))
      (keeps_succeed _ _ _ _))
  · exact keeps_trans (keeps_setSwitch _ _) (keeps_setDrive _ _)
  · exact keeps_trans (keeps_trans (keeps_setSwitch _ _) (keeps_setDrive _ _)) (keeps_post _ _)

theorem keeps_confirmTest (d r v) (s : State) : Keeps s (confirmTest d r v s) := by
  have h : Keeps s (setDrive none (setSwitch (sensedState r) s)) :=
      keeps_trans (keeps_setSwitch _ _) (keeps_setDrive _ _)
  unfold confirmTest
  dsimp only
  split
  · exact keeps_ite (keeps_trans (keeps_trans h (keeps_complete _ _ _ _ _ _)) (keeps_popControl _)) h
  · exact h

theorem keeps_driveConfirm (v) (s : State) : Keeps s (driveConfirm v s) := by
  unfold driveConfirm
  split
  · refine keeps_ite ?_ (keeps_refl s)
    dsimp only
    refine keeps_ite ?_ ?_
    · refine keeps_trans ?_ (keeps_confirmTest _ _ _ _); exact keeps_of
    · refine keeps_trans ?_ (keeps_confirmDrive _ _ _ _); exact keeps_of
  · exact keeps_refl s

theorem keeps_coilPulseEnd (s : State) : Keeps s (coilPulseEnd s) := by
  unfold coilPulseEnd
  split
  · exact keeps_setDrive _ _
  · exact keeps_refl s

theorem keeps_buttonPress (s : State) : Keeps s (buttonPress s) := by
  unfold buttonPress
  refine keeps_ite ?_ (keeps_refl s)
  split
  · refine keeps_trans ?_ (keeps_respond _ _); exact keeps_of
  · refine keeps_ite (keeps_trans ?_ (keeps_beginDrive _ _)) (keeps_refl s); exact keeps_of
  · exact keeps_refl s

theorem keeps_swc {s : State} (w : Swc) (h : s.swc.tripMem ≤ 2 → w.tripMem ≤ 2) : Keeps s { s with swc := w } :=
  ⟨rfl, fun _ h => h, id, id, fun r => ⟨⟨r.now.1, r.now.2.1, r.now.2.2.1, r.now.2.2.2.1, h r.now.2.2.2.2⟩, r.stored,
      r.running, r.dropped⟩⟩

theorem keeps_trip (p) (s : State) : Keeps s (trip p s) := by
  have h : ∀ t : State, Keeps t
      { t with swc := { t.swc with recovery := startTimer 60, tripMem := if 3 ≤ t.swc.tripMem + 1 then 0 else t.swc.tripMem + 1, quiet := 0, overLimit := 0 } }
      := by
    intro t
    refine keeps_swc _ ?_
    intro h; dsimp only; split <;> omega
  unfold trip
  dsimp only
  have k := keeps_trans (keeps_addReason .loadLimit s) (h _)
  refine keeps_ite (keeps_trans (keeps_trans (keeps_trans k (keeps_post _ _)) (keeps_addReason _ _)) (keeps_post _ _))
      (keeps_trans k (keeps_post _ _))

theorem keeps_quietStep (s : State) : Keeps s (quietStep s) := by
  unfold quietStep
  refine keeps_ite (keeps_refl s) (keeps_ite (keeps_swc _ ?_) keeps_of)
  intro h; dsimp only; omega

theorem keeps_limitStep (t) (s : State) : Keeps s (limitStep t s) := by
  unfold limitStep
  dsimp only
  refine keeps_ite (keeps_trans ?_ (keeps_trip _ _)) ?_
  · exact keeps_of
  · exact keeps_of

theorem keeps_limiterHandOff (t) (s : State) : Keeps s (limiterHandOff t s) :=
  keeps_ite (keeps_trans (keeps_quietStep s) (keeps_limitStep _ _)) (keeps_refl s)

theorem keeps_loadTrip (t) (s : State) : Keeps s (loadTrip t s) := keeps_ite (keeps_limitStep _ _) (keeps_refl s)

theorem keeps_tripMemoryQuiet (s : State) : Keeps s (tripMemoryQuiet s) := keeps_ite (keeps_quietStep _) (keeps_refl s)

theorem keeps_recoveryExpiry (s : State) : Keeps s (recoveryExpiry s) := by
  unfold recoveryExpiry
  refine keeps_ite (keeps_trans ?_ (keeps_removeReason _ _)) (keeps_refl s)
  exact keeps_of

theorem keeps_loadUnlock (s : State) : Keeps s (loadUnlock s) := by
  unfold loadUnlock
  refine (keeps_trans ?_ (keeps_removeReason _ _))
  exact keeps_swc _ (fun _ => Nat.zero_le _)

theorem keeps_markPeriod (s : State) : Keeps s (markPeriod s) := keeps_of

theorem keeps_commissionSwitch (s : State) : Keeps s (commissionSwitch s) := by
  unfold commissionSwitch
  dsimp only
  have h : Keeps s
      { s with swc := { s.swc with consent := false, overLimit := 0, tripMem := 0, quiet := 0, recovery := Timer.stopped, set := putReason (putReason s.swc.set .loadLimit false) .lockout false } }
      := keeps_swc _ (fun _ => Nat.zero_le _)
  split
  · exact keeps_ite (keeps_trans h (keeps_setSwitch _ _)) h
  · exact keeps_ite (keeps_trans h (keeps_beginDrive _ _)) h
  · exact keeps_ite (keeps_trans h (keeps_beginDrive _ _)) h
  · exact keeps_ite (keeps_trans h (keeps_beginDrive _ _)) h
  · exact h
  · exact h
  · exact h

theorem keeps_cutDrives (s : State) : Keeps s (cutDrives s) :=
    keeps_ite (keeps_trans (keeps_setSwitch _ _) (keeps_setDrive _ _)) (keeps_refl s)

theorem keeps_startConfirm (v) (s : State) : Keeps s (startConfirm v s) := by
  unfold startConfirm
  dsimp only
  have h : Keeps s { s with swc := { s.swc with lastSense := v } } := keeps_of
  exact keeps_ite (keeps_ite (keeps_trans h (keeps_setSwitch _ _)) (keeps_trans h (keeps_beginDrive _ _))) (keeps_trans
      h (keeps_setSwitch _ _))
-- credit

theorem keeps_minuteExpiry (s : State) : Keeps s (minuteExpiry s) := by
  unfold minuteExpiry
  dsimp only
  have h : Keeps s (recomputeWindow (recomputeBand { s with ce := { s.ce with minuteDue := false } })) := by
    refine keeps_trans (keeps_trans ?_ (keeps_recomputeBand _)) (keeps_recomputeWindow _)
    exact keeps_of
  exact keeps_ite (keeps_ite (keeps_trans h (keeps_steerRule _)) h) (keeps_refl s)

theorem keeps_commissionCredit (s : State) : Keeps s (commissionCredit s) := by
  unfold commissionCredit
  refine keeps_trans (keeps_trans ?_ (keeps_rearm _)) (keeps_evaluate _)
  refine keeps_money _ (fun _ => ?_)
  unfold MoneyOk balanceFloor balanceCeiling uncollectedMax; dsimp only; omega

theorem keeps_missedDays (s : State) : Keeps s (missedDays s) := keeps_ite (keeps_fixedCharge _ _) (keeps_refl s)

theorem keeps_enterRunCredit (s : State) : Keeps s (enterRunCredit s) := by
  unfold enterRunCredit
  dsimp only
  have h0 := keeps_trans (keeps_steerRule s) (keeps_recomputeBand _)
  have h1 : ∀ t : State, Keeps t (evaluate (rearm
      { t with ce := { t.ce with window := windowAt t t.bat.clock, minuteDue := false } })) := by
    intro t
    refine keeps_trans (keeps_trans ?_ (keeps_rearm _)) (keeps_evaluate _)
    exact keeps_of
  exact keeps_trans h0 (h1 _)
-- tamper

theorem keeps_magnetSecond (n) (s : State) : Keeps s (magnetSecond n s) :=
    keeps_ite (keeps_indicator _ _ _) (keeps_refl s)

theorem keeps_coverChange (c o) (s : State) : Keeps s (coverChange c o s) := by
  unfold coverChange
  exact keeps_ite (keeps_refl s) (keeps_ite (keeps_trans (keeps_setCover _ _ _) (keeps_coverOpens _ _)) (keeps_trans
      (keeps_setCover _ _ _) (keeps_coverCloses _ _)))

theorem keeps_commissionKind (s : State) (k) : Keeps s (commissionKind s k) := by
  unfold commissionKind
  dsimp only
  have h : Keeps s (mapKind k (fun r => { r with counter := 0 }) s) := keeps_mapKind _ _ _ (fun _ h => ⟨Nat.zero_le _,
      h.2⟩)
  exact keeps_ite (keeps_trans h (keeps_warningEnd _ _)) h

theorem keeps_commissionTamper (s : State) : Keeps s (commissionTamper s) :=
    keeps_trans (keeps_foldl keeps_commissionKind _ _) (keeps_tamperAgree _)

theorem keeps_notesAtHold (s : State) : Keeps s (notesAtHold s) := keeps_foldl keeps_noteAtHold _ _

theorem keeps_startTamper (s : State) : Keeps s (startTamper s) :=
    keeps_trans (keeps_trans (keeps_foldl keeps_processNote _ _) (keeps_foldl keeps_everCheck _ _)) (keeps_tamperAgree
    _)

theorem keeps_declareWatchLost (s : State) : Keeps s (declareWatchLost s) := keeps_declareWith _ _ _
-- energy

theorem energyOk_quantize (e t x y) : EnergyOk (quantize e t x y) := by
  unfold EnergyOk quantize registerSpan
  dsimp only
  refine ⟨?_, ?_, ?_, ?_, ?_, ?_⟩ <;> exact Nat.mod_lt _ (by decide)

theorem keeps_ee {s : State} (e : Ee) (h : EnergyOk e.energy) : Keeps s { s with ee := e } :=
  ⟨rfl, fun _ h => h, id, id, fun r => ⟨⟨h, r.now.2⟩, r.stored, r.running, r.dropped⟩⟩

theorem keeps_handOff (o) (s : State) (a) : Keeps s (handOff o s a) := by
  cases a
  · exact keeps_trans (keeps_trans (keeps_billPeriod _ _ _) (keeps_billInterval _ _ _ _ _ _ _)) (keeps_testBoundary _ _)
  · exact keeps_limiterHandOff _ _
  all_goals exact keeps_indicator _ _ _

theorem exc_rewrite (q v) (x : Exc) : (Memory.wf x.mem = true → Memory.wf (rewriteStanding q v x).mem = true) ∧
    (rewriteStanding q v x).notices = x.notices ∧ (rewriteStanding q v x).oldest = x.oldest := by
  unfold rewriteStanding
  dsimp only
  split
  · exact ⟨id, rfl, rfl⟩
  · exact ⟨wf_applyDeferred _, rfl, rfl⟩

theorem exc_standStep (v q) (x : Exc) : (Memory.wf x.mem = true → Memory.wf (standStep v x q).mem = true) ∧
    (standStep v x q).notices = x.notices ∧ (standStep v x q).oldest = x.oldest := by
  unfold standStep
  split
  · exact exc_rewrite _ _ _
  · exact ⟨id, rfl, rfl⟩

theorem exc_stands (v) : ∀ (l : List Standing) (x : Exc), (Memory.wf x.mem = true →
    Memory.wf (l.foldl (standStep v) x).mem = true) ∧ (l.foldl (standStep v) x).notices = x.notices ∧
    (l.foldl (standStep v) x).oldest = x.oldest
  | [], x => ⟨id, rfl, rfl⟩
  | q :: l, x => by
    have h := exc_stands v l (standStep v x q)
    have k := exc_standStep v q x
    exact ⟨fun w => h.1 (k.1 w), h.2.1.trans k.2.1, h.2.2.trans k.2.2⟩

theorem keeps_standingPeriod (s : State) : Keeps s (standingPeriod s) := by
  have h := exc_stands s.ee.live s.exc.standing { s.exc with standing := [] }
  unfold standingPeriod
  refine keeps_exc _ h.1 ?_
  unfold NoticesOk
  rw [h.2.1, h.2.2]; exact id
-- codes

theorem keeps_blockExpiry (a) (s : State) : Keeps s (blockExpiry a s) :=
    keeps_ite (keeps_mapPenalty _ _ _) (keeps_refl s)

theorem keeps_codeEffect (b) (s : State) (h : b.kind = 0 → s.ce.money.b + (10 * b.value : Nat) ≤ balanceCeiling) : Keeps
    s (codeEffect b s) := by
  unfold codeEffect
  split
  · exact keeps_addCredit _ _ (h ‹_›)
  · exact keeps_clearTamper _ _
  · exact keeps_loadUnlock _

theorem keeps_applyBlock (b) (s : State) (h : b.kind = 0 → s.ce.money.b + (10 * b.value : Nat) ≤ balanceCeiling) (hf :
    s.cau.codes.floor < b.issue) (ht : b.issue ∉ s.cau.codes.table) : Keeps s (applyBlock b s) := by
  unfold applyBlock
  dsimp only
  refine keeps_trans ?_ (keeps_arrive _ _)
  refine keeps_trans (?_ : Keeps s (codeEffect b
      { s with cau := { s.cau with codes := insertIssue b.issue s.cau.codes } })) ?_
  · refine keeps_trans ?_ (keeps_codeEffect b _ h)
    exact keeps_codes _ (fun c => codesOk_insert c hf ht)
  · exact keeps_of

theorem keeps_judgeBlock (b c) (s : State) (h : judgeBlock b s = .apply c) : c = b ∧ (b.kind = 0 →
    s.ce.money.b + (10 * b.value : Nat) ≤ balanceCeiling) ∧ s.cau.codes.floor < b.issue ∧ b.issue ∉ s.cau.codes.table :=
    by
  unfold judgeBlock at h
  dsimp only at h
  split at h
  · exact absurd h (by simp)
  split at h
  · exact absurd h (by simp)
  split at h
  · exact absurd h (by simp)
  split at h
  · exact absurd h (by simp)
  split at h
  · exact absurd h (by simp)
  rename_i h1 h2 h3 h4 h5
  simp only [CodeVerdict.apply.injEq] at h
  refine ⟨h.symm, ?_, by omega, by simpa using h2⟩
  intro hk
  simp only [hk, true_and] at h4
  omega

theorem keeps_judgeCode (ch c) (s : State) (h : judgeCode ch s = .apply c) : (c.kind = 0 →
    s.ce.money.b + (10 * c.value : Nat) ≤ balanceCeiling) ∧ s.cau.codes.floor < c.issue ∧ c.issue ∉ s.cau.codes.table :=
    by
  unfold judgeCode at h
  split at h
  · exact absurd h (by simp)
  split at h
  · exact absurd h (by simp)
  dsimp only at h
  split at h
  · exact absurd h (by simp)
  split at h
  · exact absurd h (by simp)
  have h' := keeps_judgeBlock _ _ _ h
  rw [h'.1]; exact h'.2

theorem keeps_codeDecision (s : State) : Keeps s (codeDecision s) := by
  unfold codeDecision
  split
  · refine keeps_ite ?_ (keeps_refl s)
    split
    · exact keeps_trans (keeps_trans (keeps_mapPenalty _ _ _) (keeps_giveOutcome _ _ _ _ _ _ _)) (keeps_dropHead _)
    · rename_i b hb
      have h := keeps_judgeCode _ _ _ hb
      exact keeps_applyBlock _ _ h.1 h.2.1 h.2.2
  · exact keeps_refl s

theorem keeps_codeCommitted (ok) (s : State) : Keeps s (codeCommitted ok s) := by
  unfold codeCommitted
  split
  · exact keeps_trans (keeps_trans (keeps_mapPenalty _ _ _) (keeps_giveOutcome _ _ _ _ _ _ _)) (keeps_dropHead _)
  · exact keeps_refl s

theorem keeps_beginCode (s : State) : Keeps s (beginCode s) := keeps_of

theorem keeps_beginControl (s : State) : Keeps s (beginControl s) := keeps_of

theorem keeps_applyCode (s : State) : Keeps s (applyCode s) := by
  unfold applyCode
  split
  · dsimp only
    refine keeps_ite (keeps_trans (keeps_complete _ _ _ _ _ _) (keeps_popCode _)) ?_
    split
    · exact keeps_giveOutcome _ _ _ _ _ _ _
    · exact keeps_trans (keeps_enqueueCode _ _) (keeps_beginCode _)
  · exact keeps_refl s

theorem keeps_takeEmergency (s : State) : Keeps s (takeEmergency s) := by
  unfold takeEmergency
  split
  · exact keeps_trans (keeps_trans (keeps_decideEmergency _) (keeps_complete _ _ _ _ _ _)) (keeps_popCode _)
  · exact keeps_refl s

theorem keeps_submitKeys (s : State) : Keeps s (submitKeys s) := by
  unfold submitKeys
  dsimp only
  refine keeps_ite (keeps_trans (keeps_trans (keeps_decideEmergency _) (keeps_post _ _)) (keeps_setKeys _ _)) ?_
  split
  · exact keeps_trans (keeps_giveOutcome _ _ _ _ _ _ _) (keeps_setKeys _ _)
  · exact keeps_trans (keeps_enqueueCode _ _) (keeps_setKeys _ _)

theorem keeps_keyPress (k) (s : State) : Keeps s (keyPress k s) := by
  unfold keyPress
  refine keeps_ite ?_ (keeps_refl s)
  split
  · exact keeps_ite (keeps_setKeys _ _) (keeps_setKeys _ _)
  · exact keeps_setKeys _ _
  · exact keeps_ite (keeps_refl s) (keeps_submitKeys s)

theorem keeps_keypadIdle (s : State) : Keeps s (keypadIdle s) := keeps_ite (keeps_setKeys _ _) (keeps_refl s)
-- packages

theorem keeps_activatePending (e) (s : State) : Keeps s (activatePending e s) := by
  unfold activatePending
  split
  · dsimp only
    refine keeps_trans (keeps_trans ?_ (keeps_post _ _)) (keeps_arrive _ _)
    exact keeps_trans (keeps_applySections _ s) keeps_of
  · exact keeps_refl s

theorem keeps_takePackage (p v) (s : State) : Keeps s (takePackage p v s) := by
  have h : ∀ t : State, ∀ c : Cau, c.codes = t.cau.codes → Keeps t { t with cau := c } :=
      fun t c hc => keeps_codes _ (by rw [hc]; exact id)
  unfold takePackage
  dsimp only
  refine keeps_trans ?_ (keeps_arrive _ _)
  refine keeps_trans (keeps_discardPending (headerField p.bytes 0) s) ?_
  refine keeps_ite (keeps_trans ?_ (keeps_applySections _ _)) ?_
  · exact h _ _ rfl
  · exact h _ _ rfl

theorem keeps_packageDecision (s : State) : Keeps s (packageDecision s) := by
  unfold packageDecision
  split
  · dsimp only
    exact keeps_ite (keeps_ite (keeps_takePackage _ _ _) (keeps_trans (keeps_mapPenalty _ _ _) (keeps_givePackage _ _ _
        _ _))) (keeps_refl s)
  · exact keeps_refl s

theorem keeps_releasePending (n) (s : State) : Keeps s (releasePending n s) := keeps_of

theorem keeps_packageCommitted (ok) (s : State) : Keeps s (packageCommitted ok s) := by
  unfold packageCommitted
  split
  · split
    · exact keeps_trans (keeps_trans (keeps_releasePending _ _) (keeps_mapPenalty _ _ _)) (keeps_givePackage _ _ _ _ _)
    · exact keeps_refl s
  · exact keeps_refl s

theorem keeps_applyPackage (s : State) : Keeps s (applyPackage s) := by
  unfold applyPackage
  split
  · dsimp only
    refine keeps_ite (keeps_trans (keeps_complete _ _ _ _ _ _) (keeps_popCode _)) (keeps_ite (keeps_trans
        (keeps_complete _ _ _ _ _ _) (keeps_popCode _)) (keeps_trans ?_ (keeps_beginCode _)))
    exact keeps_of
  · exact keeps_refl s

theorem keeps_periodEnd (p) (s : State) : Keeps s (periodEnd p s) := by
  unfold periodEnd
  dsimp only
  refine keeps_ite ?_ (keeps_refl s)
  refine keeps_trans (keeps_trans ?_ (keeps_standingPeriod _)) (keeps_activatePending _ _)
  refine keeps_trans (keeps_trans ?_ (keeps_markPeriod _)) (keeps_foldl (keeps_handOff _) _ _)
  exact keeps_ee _ (energyOk_quantize _ _ _ _)
-- radio

theorem keeps_setRx (x) (s : State) : Keeps s (setRx x s) := keeps_of

theorem keeps_takeCall (o c) (s : State) : Keeps s (takeCall o c s) := by
  have h1 : Keeps s (captureCall c s) := by
    unfold captureCall
    exact keeps_ite (keeps_refl s) keeps_of
  have h2 : ∀ p (t : State), Keeps t (submitRadio p t) := by
    intro p t
    unfold submitRadio
    split
    · exact keeps_giveOutcome _ _ _ _ _ _ _
    · exact keeps_enqueueCode _ _
  unfold takeCall
  exact keeps_ite (keeps_trans h1 (h2 _ _)) h1

theorem keeps_framedByte (b) (s : State) : Keeps s (framedByte b s) := by
  unfold framedByte
  split
  · exact keeps_setRx _ _
  · exact keeps_ite (keeps_refl s) (keeps_setRx _ _)
  · exact keeps_setRx _ _
  · exact keeps_setRx _ _
  · exact keeps_setRx _ _
  · exact keeps_setRx _ _
  · unfold checkByte
    exact keeps_ite (keeps_setRx _ _) (keeps_ite (keeps_trans (keeps_setRx _ _) (keeps_takeCall _ _ _)) (keeps_setRx _
        _))

theorem keeps_lineByte (b f) (s : State) : Keeps s (lineByte b f s) :=
    keeps_ite (keeps_ite (keeps_framedByte _ _) (keeps_setRx _ _)) (keeps_refl s)

theorem keeps_radioCall (b) (s : State) : Keeps s (radioCall b s) :=
    keeps_foldl (fun t b => keeps_lineByte b true t) _ _

theorem keeps_radioGap (s : State) : Keeps s (radioGap s) := keeps_ite (keeps_setRx _ _) (keeps_refl s)

theorem keeps_clearCapture (s : State) : Keeps s (clearCapture s) := keeps_of
-- control

theorem keeps_setTime (s : State) : Keeps s (setTime s) := by
  have hd : ∀ i x, Keeps s (setDelta i x s) := by
    intro i x
    unfold setDelta
    exact keeps_ite (keeps_trans (keeps_steer _ _) (keeps_finishControl _ _ _ _ _)) (keeps_finishControl _ _ _ _ _)
  have ha : ∀ i x, Keeps s (setAbsolute i x s) := by
    intro i x
    unfold setAbsolute
    exact keeps_ite (keeps_finishControl _ _ _ _ _) (keeps_trans (keeps_setClock _ _ _) (keeps_finishControl _ _ _ _ _))
  unfold setTime
  split
  · split
    · exact hd _ _
    · exact ha _ _
    · exact keeps_finishControl _ _ _ _ _
  · exact keeps_refl s

theorem keeps_switchOpen (s : State) : Keeps s (switchOpen s) := by
  unfold switchOpen
  split
  · exact keeps_trans (keeps_addReason _ _) (keeps_finishControl _ _ _ _ _)
  · exact keeps_refl s

theorem keeps_switchRelease (s : State) : Keeps s (switchRelease s) := by
  unfold switchRelease
  split
  · exact keeps_trans (keeps_removeReason _ _) (keeps_finishControl _ _ _ _ _)
  · exact keeps_refl s

theorem keeps_beginTest (d i) (s : State) : Keeps s (beginTest d i s) := by
  unfold beginTest
  dsimp only
  refine keeps_trans ?_ (keeps_beginControl _)
  generalize hw : setSwitch _ s = t
  refine keeps_trans (?_ : Keeps s t) keeps_of
  rw [← hw]; exact keeps_setSwitch _ _

theorem keeps_testSwitch (s : State) : Keeps s (testSwitch s) := by
  unfold testSwitch
  split
  · exact keeps_ite (keeps_finishControl _ _ _ _ _) (keeps_ite (keeps_finishControl _ _ _ _ _) (keeps_beginTest _ _ _))
  · exact keeps_refl s

theorem keeps_lifecycle4 (s : State) : Keeps s (calibrate s) ∧ Keeps s (identify s) ∧ Keeps s (installKey s) ∧
    Keeps s (commission s) := by
  refine ⟨?_, ?_, ?_, ?_⟩
  · unfold calibrate
    split
    · refine keeps_ite (keeps_finishControl _ _ _ _ _) (keeps_ite (keeps_finishControl _ _ _ _ _) (keeps_trans ?_
        (keeps_takeLifecycle _ _ _ _)))
      exact keeps_of
    · exact keeps_refl s
  · unfold identify
    split
    · refine keeps_ite (keeps_finishControl _ _ _ _ _) (keeps_ite (keeps_finishControl _ _ _ _ _) (keeps_trans ?_
        (keeps_takeLifecycle _ _ _ _)))
      exact keeps_of
    · exact keeps_refl s
  · unfold installKey
    split
    · refine keeps_ite (keeps_finishControl _ _ _ _ _) (keeps_ite (keeps_finishControl _ _ _ _ _) (keeps_trans ?_
        (keeps_takeLifecycle _ _ _ _)))
      exact keeps_of
    · exact keeps_refl s
  · unfold commission
    split
    · exact keeps_ite (keeps_finishControl _ _ _ _ _) (keeps_ite (keeps_finishControl _ _ _ _ _) (keeps_ite
        (keeps_finishControl _ _ _ _ _) (keeps_ite (keeps_finishControl _ _ _ _ _) (keeps_takeLifecycle _ _ _ _))))
    · exact keeps_refl s

theorem keeps_lifecycleSaved (ok) (s : State) : Keeps s (lifecycleSaved ok s) := by
  unfold lifecycleSaved
  split
  · refine keeps_ite ?_ (keeps_finishRequest _ _ _ _)
    split
    · exact keeps_finishRequest _ _ _ _
    · exact keeps_arrive _ _
  · exact keeps_refl s

theorem keeps_lifecycleChange (s : State) : Keeps s (lifecycleChange s) := by
  unfold lifecycleChange
  refine keeps_trans (keeps_trans (keeps_trans ?_ (keeps_commissionCredit _)) (keeps_commissionTamper _))
      (keeps_commissionSwitch _)
  unfold commissionEnergy
  dsimp only
  have hz : EnergyOk Energy.zero := by unfold EnergyOk Energy.zero registerSpan; decide
  refine keeps_trans (keeps_trans ?_ (keeps_rollInterval _ _ _ _ _)) (keeps_ee _ hz)
  exact keeps_of

theorem keeps_bitEnded (b e) (s : State) : Keeps s (bitEnded b e s) := by
  unfold bitEnded
  split
  · dsimp only
    refine keeps_trans ?_ (keeps_arrive _ _)
    have h := keeps_lifecycleChange s
    generalize lifecycleChange s = t at h
    exact keeps_trans h keeps_of
  · split
    · exact keeps_ite (keeps_finishRequest _ _ _ _) (keeps_refl s)
    · exact keeps_refl s
  · exact keeps_refl s
  · split
    · exact keeps_ite (keeps_finishRequest _ _ _ _) (keeps_refl s)
    · exact keeps_refl s
  · split
    · exact keeps_ite (keeps_finishRequest _ _ _ _) (keeps_refl s)
    · exact keeps_refl s

theorem keeps_flash {s : State} (f : Flash) (hb : BitsKept s.flash.bits f.bits) (h : RangesOk s → ∀ r,
    RecordPlace.good r ∈ f.records → SaveOk r) :
    Keeps s { s with flash := f } :=
  ⟨rfl, hb, id, id, fun r => ⟨r.now, h r, r.running, r.dropped⟩⟩

theorem setBit_kept (w b) : BitsKept w (setBit w b) := by
  intro c h
  cases b with
  | ever k => cases c with
    | ever j => simp only [setBit, bitOf, perKind_get_set] at *; split <;> simp_all
    | commissioned => exact h
    | keyInstalled => exact h
  | commissioned => cases c <;> first | exact h | rfl
  | keyInstalled => cases c <;> first | exact h | rfl

theorem keeps_tellSave (ok) (s : State) (k) : Keeps s (tellSave ok s k) := by
  unfold tellSave
  refine keeps_ite (keeps_refl s) ?_
  split
  · exact keeps_codeCommitted _ _
  · exact keeps_packageCommitted _ _
  · exact keeps_lifecycleSaved _ _
  all_goals exact keeps_refl s

theorem keeps_tellSaves (ok l) (s : State) : Keeps s (tellSaves ok l s) := keeps_foldl (keeps_tellSave ok) _ _

theorem keeps_announceFault (b) (s : State) : Keeps s (announceFault b s) :=
    keeps_ite (keeps_keepNotice _ _) (keeps_post _ _)

theorem keeps_fault {s : State} (l) (t : Stc) (h : t.prog = s.stc.prog) : Keeps s
    { s with flash := { s.flash with removed := l }, stc := t } :=
  ⟨rfl, fun _ h => h, id, id, fun r => ⟨r.now, r.stored, progOk_of r.running h, r.dropped⟩⟩

theorem keeps_stayRemoved (l) (s : State) : Keeps s (stayRemoved l s) := keeps_fault _ _ rfl

theorem keeps_enterFault (l bs b) (s : State) : Keeps s (enterFault l bs b s) := by
  unfold enterFault
  dsimp only
  refine keeps_trans (keeps_trans (keeps_trans ?_ (keeps_tellSaves _ _ _)) (keeps_foldl (fun t b => keeps_bitEnded b
      .byFault t) _ _)) (keeps_announceFault _ _)
  exact ⟨rfl, fun _ h => h, id, id, fun r => ⟨r.now, r.stored, progOk_of r.running rfl, r.dropped⟩⟩

theorem keeps_countFailure (s : State) : Keeps s (countFailure s) := keeps_of

theorem keeps_countPass (s : State) : Keeps s (countPass s) := keeps_of

theorem keeps_programOver (s : State) : Keeps s (programOver s) := keeps_stc _ (fun _ => by intro a b h; simp at h)

theorem keeps_requeue (l) (s : State) : Keeps s (requeue l s) := keeps_of

theorem keeps_recount (s : State) : Keeps s (recount s) := keeps_ite keeps_of (keeps_refl s)

theorem keeps_putRecord (p) (s : State) (h : RangesOk s → ∀ r, p = .good r → SaveOk r) : Keeps s (putRecord p s) := by
  unfold putRecord
  refine ⟨rfl, fun _ h => h, id, id, fun r => ⟨r.now, ?_, progOk_of r.running rfl, r.dropped⟩⟩
  intro q hq
  rcases List.mem_or_eq_of_mem_set hq with h1 | h1
  · exact r.stored q h1
  · exact h r q h1.symm

theorem keeps_putRecord_damaged (s : State) : Keeps s (putRecord .damaged s) :=
    keeps_putRecord _ _ (fun _ r h => by simp at h)

theorem keeps_countRecordFailure (v) (s : State) : Keeps s (countRecordFailure v s) := by
  cases v
  · exact keeps_countFailure _
  · exact keeps_countFailure _
  · exact keeps_trans (keeps_countPass _) (keeps_countFailure _)

theorem keeps_recordFails (l) (s : State) : Keeps s (recordFails l s) :=
  keeps_ite (keeps_trans (keeps_enterFault _ _ _ _) (keeps_programOver _)) (keeps_ite (keeps_programOver _)
    (keeps_trans (keeps_trans (keeps_requeue _ _) (keeps_recount _)) (keeps_programOver _)))

theorem keeps_recordEnds (l i v) (s : State) (h : RangesOk s → SaveOk i) : Keeps s (recordEnds l i v s) := by
  have hx := fun v => keeps_trans (keeps_trans (keeps_putRecord_damaged s) (keeps_countRecordFailure v _))
    (keeps_recordFails l _)
  unfold recordEnds
  split
  · refine keeps_trans (keeps_trans (keeps_trans (keeps_trans ?_ (keeps_countPass _)) (keeps_recount _))
      (keeps_tellSaves _ _ _)) (keeps_programOver _)
    exact keeps_putRecord _ _ (fun r q hq => by simp only [RecordPlace.good.injEq] at hq; rw [← hq]; exact h r)
  · exact hx _
  · exact hx _

theorem keeps_putHead (a h) (s : State) : Keeps s (putHead a h s) := by
  cases a
  · exact keeps_of
  · exact keeps_of

theorem putPos_prog (t a p) : (putPos t a p).prog = t.prog := by cases a <;> rfl

theorem putPlaces_rec (f a p) : (putPlaces f a p).records = f.records := by cases a <;> rfl

theorem putPlaces_bits (f a p) : (putPlaces f a p).bits = f.bits := by cases a <;> rfl

theorem keeps_places {s : State} (a p) (t : Stc) (h : t.prog = s.stc.prog) : Keeps s
    { s with flash := putPlaces s.flash a p, stc := t } :=
  ⟨rfl, by rw [putPlaces_bits]; exact fun _ h => h, id, id, fun r => ⟨r.now, by rw [putPlaces_rec]; exact r.stored, progOk_of r.running h, r.dropped⟩⟩

theorem keeps_putEntry (a d n) (s : State) : Keeps s (putEntry a d n s) := keeps_places _ _ _ (putPos_prog _ _ _)

theorem keeps_entryEnds (e p) (s : State) : Keeps s (entryEnds e p s) := by
  unfold entryEnds
  dsimp only
  have h := fun d n => keeps_trans (keeps_putEntry (areaOf e) d n s) (keeps_countFailure _)
  refine keeps_ite ?_ (keeps_ite ?_ (keeps_ite ?_ ?_))
  · exact keeps_trans (keeps_trans (keeps_trans (keeps_countPass s) (keeps_putEntry _ _ _ _)) (keeps_putHead _ _ _))
      (keeps_programOver _)
  · exact keeps_trans (keeps_trans (h _ _) (keeps_enterFault _ _ _ _)) (keeps_programOver _)
  · exact keeps_trans (h _ _) (keeps_programOver _)
  · exact keeps_trans (keeps_trans (h _ _) (keeps_requeue _ _)) (keeps_programOver _)

theorem keeps_putBit (b) (s : State) : Keeps s (putBit b s) :=
  ⟨rfl, setBit_kept _ _, id, id, fun r => ⟨r.now, r.stored, progOk_of r.running rfl, r.dropped⟩⟩

theorem keeps_bitEnds (b p) (s : State) : Keeps s (bitEnds b p s) := by
  unfold bitEnds
  dsimp only
  refine keeps_ite ?_ (keeps_ite ?_ ?_)
  · exact keeps_trans (keeps_trans (keeps_trans (keeps_countPass s) (keeps_putBit _ _)) (keeps_bitEnded _ _ _))
      (keeps_programOver _)
  · exact keeps_trans (keeps_trans (keeps_countFailure s) (keeps_enterFault _ _ _ _)) (keeps_programOver _)
  · exact keeps_trans (keeps_trans (keeps_countFailure s) (keeps_bitEnded _ _ _)) (keeps_programOver _)

theorem mapBlock_good (b f) (l : List RecordPlace) (hf : ∀ n p r, f n p = .good r →
    p = .good r) (r) (h : RecordPlace.good r ∈ mapBlock b f l) : RecordPlace.good r ∈ l := by
  unfold mapBlock at h
  rw [List.mem_mapIdx] at h
  obtain ⟨i, hi, h⟩ := h
  split at h
  · have := hf _ _ _ h; rw [← this]; exact List.getElem_mem _
  · rw [← h]; exact List.getElem_mem _

theorem keeps_remnants (b f) (s : State) : Keeps s (remnants b f s) := by
  unfold remnants
  dsimp only
  refine keeps_trans (keeps_flash _ ?_ ?_) (keeps_drawFree _)
  · split
    · exact fun _ h => h
    · rw [putPlaces_bits]; exact fun _ h => h
  · intro r q hq
    apply r.stored
    split at hq
    · dsimp only at hq
      refine mapBlock_good _ _ _ ?_ _ hq
      intro n p r
      generalize (if (f && n == 0) = true then Remnant.spoiled else Config.eraseRemnant s.free n) = x
      cases x <;> simp [remnantRecord]
    · rw [putPlaces_rec] at hq; exact hq

theorem keeps_eraseBlock (b) (s : State) : Keeps s (eraseBlock b s) := by
  unfold eraseBlock
  dsimp only
  refine keeps_flash _ ?_ ?_
  · split
    · exact fun _ h => h
    · rw [putPlaces_bits]; exact fun _ h => h
  · intro r q hq
    apply r.stored
    split at hq
    · dsimp only at hq
      refine mapBlock_good _ _ _ ?_ _ hq
      intro n p r h; simp at h
    · rw [putPlaces_rec] at hq; exact hq

theorem keeps_lowerHead (b g) (s : State) : Keeps s (lowerHead b g s) := keeps_ite (keeps_refl s) (keeps_putHead _ _ _)

theorem keeps_eraseOver (s : State) : Keeps s (eraseOver s) := keeps_of

theorem keeps_erasePasses (e) (s : State) : Keeps s (erasePasses e s) := by
  have h0 := keeps_trans (keeps_countPass s) (keeps_eraseBlock e.block _)
  have h := keeps_trans h0 (keeps_eraseOver _)
  unfold erasePasses
  dsimp only
  refine keeps_ite (keeps_trans (keeps_trans h0 ?_) (keeps_eraseOver _)) (keeps_ite (keeps_trans h (keeps_recount _))
      (keeps_trans h (keeps_lowerHead _ _ _)))
  exact keeps_fault _ _ rfl

theorem keeps_eraseFails (e) (s : State) : Keeps s (eraseFails e s) := by
  have h := keeps_trans (keeps_remnants e.block true s) (keeps_countFailure _)
  unfold eraseFails
  generalize countFailure (remnants e.block true s) = t at h
  dsimp only
  refine keeps_ite ?_ (keeps_ite ?_ ?_)
  · refine keeps_trans (keeps_trans (keeps_trans h (keeps_trans ?_ (keeps_stayRemoved _ _))) (keeps_enterFault _ _ _ _))
      (keeps_eraseOver _)
    exact keeps_of
  · refine keeps_trans (keeps_trans h ?_) (keeps_eraseOver _)
    exact keeps_of
  · refine keeps_trans (keeps_ite ?_ ?_) (keeps_eraseOver _)
    · refine keeps_trans h ?_; exact keeps_of
    · exact keeps_trans h (keeps_requeue _ _)
-- Power

theorem keeps_setPower (p) (s : State) : Keeps s (setPower p s) := keeps_of

theorem keeps_setSettle (p) (s : State) : Keeps s (setSettle p s) := keeps_of

theorem kindsOk_quiet : KindsOk (PerKind.all KindRec.quiet) := by
  intro k; cases k <;> decide

theorem keeps_cutProgram (s : State) : Keeps s (cutProgram s) := by
  unfold cutProgram
  split
  · exact keeps_putRecord_damaged _
  · exact keeps_putEntry _ _ _ _
  · refine keeps_trans (keeps_ite ?_ (keeps_refl s)) (keeps_drawFree _)
    exact keeps_flash _ (setBit_kept _ _) (fun r => r.stored)
  · exact keeps_refl s

theorem keeps_cutStore (s : State) : Keeps s (cutStore s) := by
  unfold cutStore
  have h := keeps_trans (keeps_cutProgram s) (keeps_stayRemoved (begunErases (cutProgram s).stc.queue) _)
  dsimp only
  generalize stayRemoved (begunErases (cutProgram s).stc.queue) (cutProgram s) = t at h
  exact keeps_trans h (keeps_fault _ _ rfl)

theorem keeps_interruptStore (s : State) : Keeps s (interruptStore s) := by
  unfold interruptStore
  dsimp only
  refine keeps_trans ?_ (keeps_programOver _)
  split
  · exact keeps_trans (keeps_trans (keeps_remnants _ _ _) (keeps_stayRemoved _ _)) (keeps_eraseOver _)
  · exact keeps_refl s

theorem keeps_excInit (l) (s : State) : Keeps s { s with exc := s.exc.init l } :=
  keeps_exc _ (fun _ => rfl) (fun _ => ⟨(by decide : 1 < 65536), Nat.zero_le _, rfl⟩)

theorem keeps_excLost (s : State) : Keeps s { s with exc := s.exc.lost } :=
  keeps_exc _ (fun _ => rfl) (fun _ => ⟨(by decide : 1 < 65536), Nat.zero_le _, rfl⟩)

theorem keeps_domainLost (s : State) : Keeps s (domainLost s) := by
  unfold domainLost
  dsimp only
  have h := keeps_trans (keeps_trans (keeps_cutStore s) (keeps_cutDrives _)) (keeps_interruptStore _)
  generalize interruptStore (cutDrives (cutStore s)) = t at h
  refine keeps_trans (keeps_trans (keeps_trans h (keeps_excLost t)) (keeps_bat clearedDomain (fun _ => kindsOk_quiet)))
      ?_
  exact ⟨rfl, fun _ h => h, id, id, fun r => ⟨r.now, r.stored, r.running, fun m hm => by simp at hm⟩⟩

theorem keeps_beginSettle (s : State) : Keeps s (beginSettle s) := keeps_ite (keeps_setSettle _ _) (keeps_refl s)

theorem keeps_stopSettle (s : State) : Keeps s (stopSettle s) := by
  unfold stopSettle
  exact keeps_ite (keeps_setSettle _ _) (keeps_trans (keeps_setSettle _ _) (keeps_domainLost _))

theorem keeps_enterBattery (s : State) : Keeps s (enterBattery s) := by
  unfold enterBattery
  dsimp only
  have h : Keeps s (setPower .battery { s with exc := s.exc.lost }) :=
      keeps_trans (keeps_excLost s) (keeps_setPower _ _)
  refine keeps_ite (keeps_trans h (keeps_beginSettle _)) (keeps_ite (keeps_trans (keeps_trans h (keeps_domainLost _))
      ?_) (keeps_trans h (keeps_domainLost _)))
  refine keeps_trans ?_ (keeps_beginSettle _)
  exact keeps_of

theorem keeps_finishHold (s : State) : Keeps s (finishHold s) := by
  unfold finishHold
  dsimp only
  refine keeps_trans ?_ (keeps_enterBattery _)
  refine keeps_trans (keeps_trans (keeps_cutDrives s) (keeps_interruptStore _)) ?_
  exact keeps_of

theorem keeps_beginPowerFail (s : State) : Keeps s (beginPowerFail s) :=
    keeps_stc _ (fun r => progOk_beginRecord r.now _ _)

theorem keeps_discardWaiting (s : State) : Keeps s (discardWaiting s) := by
  unfold discardWaiting
  dsimp only
  have h := keeps_stayRemoved (begunErases s.stc.queue) s
  generalize stayRemoved (begunErases s.stc.queue) s = t at h
  exact keeps_trans h keeps_of

theorem keeps_holdContinue (s : State) : Keeps s (holdContinue s) := by
  unfold holdContinue
  dsimp only
  exact keeps_ite (keeps_ite (keeps_trans (keeps_discardWaiting s) (keeps_beginPowerFail _)) (keeps_trans
      (keeps_discardWaiting s) (keeps_finishHold _))) (keeps_refl s)

theorem keeps_psv {s : State} (p : Psv) (h : p.dropped = s.psv.dropped ∨ p.dropped = none) (x : Exc) (hx : x.mem =
    s.exc.mem) (hn : x.notices = s.exc.notices) (ho : x.oldest = s.exc.oldest) : Keeps s { s with psv := p, exc := x }
    := by
  refine ⟨rfl, fun _ h => h,
      by dsimp only; rw [hx]; exact id, by unfold NoticesOk; dsimp only; rw [hn, ho]; exact id, fun r => ⟨r.now, r.stored, r.running, ?_⟩⟩
  have := r.dropped
  unfold DroppedOk at *
  dsimp only
  rcases h with h | h
  · rw [h]; exact this
  · rw [h]; intro m hm; simp at hm

theorem keeps_beginHold (s : State) : Keeps s (beginHold s) := by
  unfold beginHold
  dsimp only
  refine keeps_trans (keeps_trans (keeps_trans ?_ (keeps_flagInterval _ _)) (keeps_notesAtHold _)) (keeps_holdContinue
      _)
  exact keeps_psv _ (Or.inr rfl) _ rfl rfl rfl

theorem keeps_abandonStart (s : State) : Keeps s (abandonStart s) := by
  unfold abandonStart
  dsimp only
  refine keeps_trans ?_ (keeps_stopSettle _)
  refine ⟨rfl, fun _ h => h, id, id, fun r => ?_⟩
  have hd : DroppedOk
      { s with toModules := s.psv.dropped.getD s.toModules, psv := { s.psv with seq := none, dropped := none, startNotices := [] } }
      := by
    intro m hm; simp at hm
  have := r.dropped
  cases hx : s.psv.dropped with
  | none => exact ⟨r.now, r.stored, by simpa [hx] using r.running, by simpa [hx] using hd⟩
  | some m =>
    obtain ⟨h1, h2, h3, h4, h5⟩ := this m hx
    refine ⟨?_, r.stored, by simpa [hx] using h5, by simpa [hx] using hd⟩
    exact ⟨h1, h2, h3, r.now.2.2.2.1, h4⟩

theorem keeps_failingAssert (s : State) : Keeps s (failingAssert s) := by
  unfold failingAssert
  dsimp only
  refine keeps_ite (keeps_refl s) ?_
  have h : Keeps s { s with psv := { s.psv with failing := true } } := keeps_of
  split
  · refine keeps_trans ?_ (keeps_beginHold _); exact keeps_of
  · exact keeps_ite (keeps_trans h (keeps_beginHold _)) (keeps_trans h (keeps_abandonStart _))
  · exact keeps_trans h (keeps_stopSettle _)
  · exact h

theorem keeps_mainsAppear (v) (s : State) : Keeps s (mainsAppear v s) := by
  unfold mainsAppear
  dsimp only
  have h : Keeps s { s with psv := { s.psv with mainsPresent := true } } := keeps_of
  exact keeps_ite (keeps_refl s) (keeps_trans (keeps_ite (keeps_trans h (keeps_setPower _ _)) h) (keeps_beginSettle _))

theorem keeps_mainsEnd (v) (s : State) : Keeps s (mainsEnd v s) := by
  unfold mainsEnd
  dsimp only
  have h : Keeps s { s with psv := { s.psv with mainsPresent := false } } := keeps_of
  exact keeps_ite (keeps_ite (keeps_trans h (keeps_stopSettle _)) h) (keeps_refl s)

theorem keeps_failingDeassert (s : State) : Keeps s (failingDeassert s) := by
  unfold failingDeassert
  refine keeps_ite (keeps_trans ?_ (keeps_beginSettle _)) (keeps_refl s); exact keeps_of

theorem keeps_batteryExhausted (s : State) : Keeps s (batteryExhausted s) := by
  unfold batteryExhausted
  dsimp only
  have h : Keeps s { s with psv := { s.psv with battery := false } } := keeps_of
  exact keeps_ite (keeps_trans h (keeps_domainLost _)) h

theorem keeps_supplyCollapse (s : State) : Keeps s (supplyCollapse s) :=
    keeps_ite (keeps_trans (keeps_cutStore _) (keeps_finishHold _)) (keeps_refl s)

theorem keeps_nextStep (n) (s : State) : Keeps s (nextStep n s) := keeps_of

theorem newestFrom_mem : ∀ (l : List RecordPlace) (n : Nat) (b : Option (Nat × SaveRecord)) (x),
    newestFrom l n b = some x → (b = some x) ∨ RecordPlace.good x.2 ∈ l
  | [], n, b, x, h => Or.inl h
  | .good r :: rest, n, b, x, h => by
    unfold newestFrom at h
    rcases newestFrom_mem rest _ _ x h with h1 | h1
    · split at h1
      · split at h1
        · simp only [Option.some.injEq] at h1; rw [← h1]; right; simp
        · exact Or.inl h1
      · simp only [Option.some.injEq] at h1; rw [← h1]; right; simp
    · right; exact List.mem_cons_of_mem _ h1
  | .erased :: rest, n, b, x, h => by
    unfold newestFrom at h
    rcases newestFrom_mem rest _ _ x h with h1 | h1
    · exact Or.inl h1
    · right; exact List.mem_cons_of_mem _ h1
  | .damaged :: rest, n, b, x, h => by
    unfold newestFrom at h
    rcases newestFrom_mem rest _ _ x h with h1 | h1
    · exact Or.inl h1
    · right; exact List.mem_cons_of_mem _ h1

theorem newest_ok {s : State} (h : RangesOk s) : ∀ x, newestRecord s.flash.records = some x → SaveOk x.2 := by
  intro x hx
  rcases newestFrom_mem _ _ _ _ hx with h1 | h1
  · simp at h1
  · exact h.stored _ h1

theorem loadStore_prog (f t) : (loadStore f t).prog = none := by
  unfold loadStore
  dsimp only
  split <;> rfl

theorem keeps_stepLoad (s : State) : Keeps s (stepLoad s) := by
  unfold stepLoad
  dsimp only
  refine keeps_trans ?_ (keeps_nextStep _ _)
  refine keeps_trans (?_ : Keeps s _) (keeps_ite (keeps_keepNotice _ _) (keeps_refl _))
  refine ⟨rfl, fun _ h => h, id, id, fun r => ?_⟩
  have hn := newest_ok r
  have hp : ∀ t : Stc, t.prog = none → ProgOk t := fun t ht a b h => by rw [ht] at h; simp at h
  refine ⟨?_, r.stored, hp _ (loadStore_prog _ _), ?_⟩
  · cases hx : newestRecord s.flash.records with
    | none =>
      refine ⟨?_, ?_, ?_, r.now.2.2.2.1, ?_⟩
      · simp [imageOf, loadEe, EnergyOk, Energy.zero, registerSpan]
      · simp [imageOf, loadCe, MoneyOk, Money.zero, balanceFloor, balanceCeiling, uncollectedMax]
      · simp [imageOf, loadCau, CodesOk, risesFrom]
      · simp [imageOf, loadSwc]
    | some x =>
      have := hn x hx
      obtain ⟨h1, h2, h3, h4, h5⟩ := this
      exact ⟨h1, h2, h3, r.now.2.2.2.1, h5⟩
  · intro m hm
    simp only [Option.some.injEq] at hm
    rw [← hm]
    exact ⟨r.now.1, r.now.2.1, r.now.2.2.1, r.now.2.2.2.2, r.running⟩

theorem keeps_clockChecked (s : State) : Keeps s (clockChecked s) := by
  unfold clockChecked
  refine keeps_ite (keeps_refl s) (keeps_trans ?_ (keeps_flagInterval _ _))
  exact keeps_of

theorem keeps_coldNotices (s : State) : Keeps s (coldNotices s) := by
  unfold coldNotices
  exact keeps_ite (keeps_trans (keeps_keepNotice _ _) (keeps_declareWatchLost _)) (keeps_keepNotice _ _)

theorem keeps_stepDomain (s : State) : Keeps s (stepDomain s) := by
  unfold stepDomain
  dsimp only
  refine keeps_trans ?_ (keeps_nextStep _ _)
  have h0 : Keeps s
      { s with bat := { (if s.bat.valid = true then s.bat else coldDomain ((newestRecord s.flash.records).map (fun x => x.2)) s.bat) with valid := true, coverMain := false, coverTerminal := false }, psv := { s.psv with startKind := if s.bat.valid = true then .warm else .cold } }
      := by
    refine ⟨rfl, fun _ h => h, id, id, fun r => ?_⟩
    refine ⟨⟨r.now.1, r.now.2.1, r.now.2.2.1, ?_, r.now.2.2.2.2⟩, r.stored, r.running, r.dropped⟩
    dsimp only [imageOf]
    split
    · exact r.now.2.2.2.1
    · unfold coldDomain
      dsimp only
      cases hx : newestRecord s.flash.records with
      | none => exact kindsOk_quiet
      | some x => exact (newest_ok r x hx).2.2.2.1
  have h1 := keeps_trans h0 (keeps_clockChecked _)
  exact keeps_ite h1 (keeps_trans h1 (keeps_coldNotices _))

theorem keeps_rebuildArea (a) (s : State) : Keeps s (rebuildArea a s) := by
  unfold rebuildArea
  dsimp only
  split
  · refine keeps_trans ?_ (keeps_putHead _ _ _)
    exact keeps_stc _ (fun r => progOk_of r.running (putPos_prog _ _ _))
  · refine keeps_trans ?_ (keeps_putHead _ _ _)
    exact keeps_stc _ (fun r => progOk_of r.running (putPos_prog _ _ _))

theorem keeps_storeRebuilt (s : State) : Keeps s (storeRebuilt s) := by
  unfold storeRebuilt
  dsimp only
  refine keeps_trans (keeps_trans ?_ (keeps_nextStep _ _)) (keeps_runArbiter _)
  have h := keeps_trans (keeps_rebuildArea .log s) (keeps_rebuildArea .profile _)
  generalize rebuildArea .profile _ = t at h
  exact keeps_trans h (keeps_fault _ _ rfl)

theorem keeps_startupPasses (s : State) : Keeps s (startupPasses s) := by
  unfold startupPasses
  refine keeps_trans ?_ (keeps_storeRebuilt _)
  exact ⟨rfl, fun _ h => h, id, id, fun r => ⟨r.now, r.stored, progOk_of r.running rfl, r.dropped⟩⟩

theorem keeps_nextStartupErase (s : State) : Keeps s (nextStartupErase s) := by
  unfold nextStartupErase
  split
  · exact keeps_of
  · exact keeps_startupPasses _

theorem keeps_stepStore (s : State) : Keeps s (stepStore s) := by
  unfold stepStore
  refine keeps_ite (keeps_storeRebuilt _) (keeps_trans ?_ (keeps_nextStartupErase _)); exact keeps_of

theorem keeps_stepInterval (s : State) : Keeps s (stepInterval s) := by
  unfold stepInterval
  refine keeps_trans ?_ (keeps_nextStep _ _)
  split
  · exact keeps_ite (keeps_rollInterval _ _ _ _ _) (keeps_refl s)
  · exact keeps_refl s

theorem keeps_initExchange (l) (s : State) : Keeps s (initExchange l s) := by
  unfold initExchange
  dsimp only
  have h := keeps_trans (keeps_clearCapture s) (keeps_excInit l _)
  refine keeps_ite (keeps_trans h ?_) h
  exact keeps_of

theorem keeps_stepExchange (s : State) : Keeps s (stepExchange s) := by
  unfold stepExchange
  dsimp only
  refine keeps_trans ?_ (keeps_nextStep _ _)
  refine keeps_trans ?_ (keeps_postAll _ _)
  have h := keeps_trans (keeps_trans (keeps_initExchange true s) (keeps_post (.exchangeStart (initExchange true
      s).psv.startKind (outageLength (initExchange true s)) (initExchange true s).psv.recordFound (initExchange true
      s).stc.fault (initExchange true s).psv.inService) _)) (keeps_drawFree _)
  generalize drawFree _ = t at h
  exact keeps_trans h keeps_of

theorem keeps_stepRun (s : State) : Keeps s (stepRun s) := by
  unfold stepRun
  dsimp only
  refine keeps_trans ?_ (keeps_postAll _ _)
  have h1 : ∀ t : State, Keeps t (enterRunSwitch t) := fun t => keeps_ite keeps_of (keeps_refl t)
  have h2 : ∀ t : State, Keeps t (enterRunEnergy t) := by
    intro t; unfold enterRunEnergy; split
    · exact keeps_refl t
    · exact keeps_openInterval _ _
  refine keeps_trans (keeps_trans (keeps_trans ?_ (h2 _)) (keeps_enterRunCredit _)) (h1 _)
  refine ⟨rfl, fun _ h => h, id, id, fun r => ⟨r.now, r.stored, progOk_of r.running rfl, ?_⟩⟩
  intro m hm; simp at hm

theorem keeps_startStep (n v) (s : State) : Keeps s (startStep n v s) := by
  unfold startStep
  split
  · exact keeps_stepLoad _
  · exact keeps_stepDomain _
  · exact keeps_trans (keeps_startTamper _) (keeps_nextStep _ _)
  · exact keeps_stepStore _
  · exact keeps_trans (keeps_missedDays _) (keeps_nextStep _ _)
  · exact keeps_stepInterval _
  · exact keeps_trans (keeps_startConfirm _ _) (keeps_nextStep _ _)
  · exact keeps_stepExchange _
  · exact keeps_stepRun _

theorem keeps_runSteps : ∀ (n) (s : State), Keeps s (runSteps n s)
  | 0, s => keeps_refl s
  | n + 1, s => by
    unfold runSteps
    split
    · exact keeps_ite (keeps_refl s) (keeps_trans (keeps_startStep _ _ _) (keeps_runSteps n _))
    · exact keeps_refl s

theorem keeps_settleExpiry (v n) (s : State) : Keeps s (settleExpiry v n s) := by
  unfold settleExpiry
  refine keeps_ite ?_ (keeps_refl s)
  split
  · refine keeps_trans ?_ (keeps_runSteps _ _); exact keeps_of
  · refine keeps_ite (keeps_trans ?_ (keeps_runSteps _ _)) (keeps_refl s); exact keeps_of

theorem keeps_afterStore (s : State) : Keeps s (afterStore s) := keeps_ite (keeps_holdContinue _) (keeps_runArbiter _)

theorem keeps_recordDone (v) (s : State) : Keeps s (recordDone v s) := by
  unfold recordDone
  split
  · rename_i l i h
    have hr : RangesOk s → SaveOk i := fun r => r.running _ _ h
    refine keeps_ite (keeps_trans (keeps_recordEnds l i v _ hr) ?_) (keeps_trans (keeps_recordEnds l i v _ hr)
        (keeps_afterStore _))
    unfold afterPowerFail
    exact keeps_ite (keeps_beginPowerFail _) (keeps_finishHold _)
  · exact keeps_refl s

theorem keeps_entryDone (p) (s : State) : Keeps s (entryDone p s) := by
  unfold entryDone
  split
  · exact keeps_trans (keeps_entryEnds _ _ _) (keeps_afterStore _)
  · exact keeps_refl s

theorem keeps_bitDone (p) (s : State) : Keeps s (bitDone p s) := by
  unfold bitDone
  split
  · exact keeps_trans (keeps_bitEnds _ _ _) (keeps_afterStore _)
  · exact keeps_refl s

theorem keeps_eraseDone (p) (s : State) : Keeps s (eraseDone p s) := by
  unfold eraseDone
  split
  · dsimp only
    refine keeps_ite (keeps_refl s) ?_
    rename_i e _
    have h : Keeps s (if p = true then erasePasses e s else eraseFails e s) :=
        keeps_ite (keeps_erasePasses _ _) (keeps_eraseFails _ _)
    generalize (if p = true then erasePasses e s else eraseFails e s) = t at h
    refine keeps_ite (keeps_trans h ?_) (keeps_trans h (keeps_afterStore _))
    unfold afterStartupErase
    exact keeps_ite (keeps_trans (keeps_ite (keeps_storeRebuilt _) (keeps_nextStartupErase _)) (keeps_runSteps _ _))
        (keeps_afterStore _)
  · exact keeps_refl s

theorem keeps_eraseSuspends (s : State) : Keeps s (eraseSuspends s) := by
  unfold eraseSuspends
  split
  · refine keeps_ite (keeps_trans ?_ (keeps_holdContinue _)) (keeps_refl s); exact keeps_of
  · exact keeps_refl s

theorem keeps_guardExpiry (s : State) : Keeps s (guardExpiry s) := by
  unfold guardExpiry
  split
  · exact keeps_of
  · exact keeps_refl s

theorem keeps_periodicExpiry (s : State) : Keeps s (periodicExpiry s) := by
  unfold periodicExpiry
  dsimp only
  have h : Keeps s { s with stc := { s.stc with periodic := startTimer 900 } } := keeps_of
  exact keeps_ite (keeps_ite h (keeps_trans h (keeps_arrive _ _))) (keeps_refl s)

theorem keeps_readLive (s : State) : Keeps s (readLive s) := by
  unfold readLive
  split
  · dsimp only
    refine keeps_ite (keeps_finishQuery _ _ _ _ _ _) (keeps_ite (keeps_finishQuery _ _ _ _ _ _) (keeps_ite
        (keeps_finishQuery _ _ _ _ _ _) ?_))
    unfold beginStanding
    dsimp only
    refine keeps_trans ?_ (keeps_popQuery _)
    exact keeps_exc _ (wf_putFields _ _) id
  · exact keeps_refl s

theorem keeps_readEvidence (s : State) : Keeps s (readEvidence s) := by
  unfold readEvidence
  split
  · exact keeps_ite (keeps_finishQuery _ _ _ _ _ _) (keeps_finishQuery _ _ _ _ _ _)
  · exact keeps_refl s

theorem keeps_beginBulk (r n x g) (s : State) : Keeps s (beginBulk r n x g s) := keeps_of

theorem keeps_startBulk (k b a x g) (s : State) : Keeps s (startBulk k b a x g s) := by
  unfold startBulk
  split
  · split
    · exact keeps_ite (keeps_finishQuery _ _ _ _ _ _) (keeps_beginBulk _ _ _ _ _)
    · exact keeps_finishQuery _ _ _ _ _ _
  · exact keeps_refl s

theorem keeps_setBulk (b) (s : State) : Keeps s (setBulk b s) := keeps_of

theorem keeps_deliver (x b) (s : State) : Keeps s (deliver x b s) := by
  unfold deliver
  refine keeps_trans ?_ (keeps_setBulk _ _)
  exact keeps_exc _ (wf_writeBytes _ _) id

theorem keeps_skipRemoved (a x e n b) (s : State) : Keeps s (skipRemoved a x e n b s) := by
  unfold skipRemoved
  dsimp only
  split
  · exact keeps_ite (keeps_setBulk _ _) (keeps_setBulk _ _)
  · exact keeps_setBulk _ _

theorem keeps_examine (a x e n p b) (s : State) : Keeps s (examine a x e n p b s) := by
  unfold examine
  split
  · exact keeps_ite (keeps_ite (keeps_deliver _ _ _) (keeps_setBulk _ _)) (keeps_skipRemoved _ _ _ _ _ _)
  · exact keeps_setBulk _ _
  · exact keeps_skipRemoved _ _ _ _ _ _
  · exact keeps_skipRemoved _ _ _ _ _ _

theorem keeps_chunkDone (b) (s : State) : Keeps s (chunkDone b s) :=
    keeps_trans (keeps_finishQuery _ _ _ _ _ _) (keeps_readsDone _)

theorem keeps_chunkPaused (b) (s : State) : Keeps s (chunkPaused b s) := by
  unfold chunkPaused
  dsimp only
  refine keeps_trans (keeps_trans ?_ (keeps_setBulk _ _)) (keeps_readsDone _)
  exact keeps_exc _ (fun h => wf_putState _ _ (wf_putFields _ _ h)) id

theorem keeps_chunkLoop : ∀ (n) (s : State), Keeps s (chunkLoop n s)
  | 0, s => by
    unfold chunkLoop
    split
    · exact keeps_refl s
    · refine keeps_ite (keeps_refl s) ?_
      split
      · exact keeps_chunkDone _ _
      · exact keeps_chunkDone _ _
      · exact keeps_ite (keeps_chunkPaused _ _) (keeps_refl s)
      · exact keeps_ite (keeps_chunkPaused _ _) (keeps_refl s)
  | n + 1, s => by
    unfold chunkLoop
    split
    · exact keeps_refl s
    · refine keeps_ite (keeps_refl s) ?_
      split
      · exact keeps_chunkDone _ _
      · exact keeps_chunkDone _ _
      · exact keeps_ite (keeps_chunkPaused _ _) (keeps_trans (keeps_deliver _ _ _) (keeps_chunkLoop n _))
      · exact keeps_ite (keeps_chunkPaused _ _) (keeps_ite (keeps_trans (keeps_examine _ _ _ _ _ _ _) (keeps_chunkLoop n
          _)) (keeps_waitForRead _))

theorem keeps_bulkChunk (n) (s : State) : Keeps s (bulkChunk n s) := keeps_ite (keeps_chunkLoop _ _) (keeps_refl s)

theorem keeps_pauseExpiry (s : State) : Keeps s (pauseExpiry s) := by
  unfold pauseExpiry
  split
  · exact keeps_ite (keeps_finishQuery _ _ _ _ _ _) (keeps_refl s)
  · exact keeps_refl s
-- Port

theorem joinLane_same (r x) : (joinLane r x).mem = x.mem ∧ (joinLane r x).notices = x.notices ∧
    (joinLane r x).oldest = x.oldest := by
  unfold joinLane
  split <;> exact ⟨rfl, rfl, rfl⟩

theorem keeps_takeSlot (i) (s : State) : Keeps s (takeSlot i s) := by
  unfold takeSlot
  dsimp only
  have h : Keeps s
      { s with exc := { s.exc with mem := writeBytes s.exc.mem (slotAddr i + 2) (le 2 s.exc.takeCtr), takeCtr := (s.exc.takeCtr + 1) % 65536 } }
      := keeps_exc _ (wf_writeBytes _ _) id
  split
  · exact keeps_trans h (keeps_complete _ _ _ _ _ _)
  · refine keeps_exc _ ?_ ?_
    · rw [(joinLane_same _ _).1]
      exact fun w => wf_putState _ _ (wf_writeBytes _ _ (wf_writeBytes _ _ w))
    · unfold NoticesOk
      rw [(joinLane_same _ _).2.1, (joinLane_same _ _).2.2]; exact id

theorem keeps_continueSlot (i) (s : State) : Keeps s (continueSlot i s) := by
  unfold continueSlot
  split
  · exact keeps_ite (keeps_exc _ (wf_putState _ _) id) (keeps_refl s)
  · exact keeps_refl s

theorem keeps_cancelQueued (i) (s : State) : Keeps s (cancelQueued i s) := by
  unfold cancelQueued
  refine keeps_trans ?_ (keeps_complete _ _ _ _ _ _); exact keeps_of

theorem keeps_ignoreCancel (i) (s : State) : Keeps s (ignoreCancel i s) := keeps_exc _ (wf_putState _ _) id

theorem keeps_cancelStanding (i) (s : State) : Keeps s (cancelStanding i s) :=
    keeps_exc _ (fun h => wf_putState _ _ (wf_putFields _ _ h)) id

theorem keeps_cancelSlot (i) (s : State) : Keeps s (cancelSlot i s) := by
  unfold cancelSlot
  dsimp only
  refine keeps_ite (keeps_ite (keeps_cancelQueued _ _) (keeps_ignoreCancel _ _)) (keeps_ite (keeps_ite
      (keeps_cancelQueued _ _) (keeps_ignoreCancel _ _)) (keeps_ite ?_ (keeps_ite (keeps_cancelQueued _ _)
      (keeps_cancelStanding _ _))))
  split
  · exact keeps_trans (keeps_finishQuery _ _ _ _ _ _) (keeps_readsDone _)
  · exact keeps_ite (keeps_ignoreCancel _ _) (keeps_cancelQueued _ _)

theorem seqs_drop (o n r : Nat) (h : r ≤ n) : (seqsFrom o n).drop r = seqsFrom ((o + r) % 65536) (n - r) := by
  unfold seqsFrom
  apply List.ext_getElem
  · simp
  · intro i h1 h2
    simp
    omega

theorem keeps_releaseNotices (s : State) : Keeps s (releaseNotices s) := by
  unfold releaseNotices
  dsimp only
  refine keeps_ite (keeps_refl s) ?_
  split
  · rename_i hr
    refine keeps_exc _ id ?_
    intro h
    obtain ⟨h1, h2, h3⟩ := h
    refine ⟨Nat.mod_lt _ (by decide), ?_, ?_⟩
    · simp only [Exc.recomputeAttn, List.length_drop]; omega
    · simp only [Exc.recomputeAttn, List.length_drop, List.map_drop, h3]
      exact seqs_drop _ _ _ hr
  · exact keeps_post _ _

theorem keeps_endWrite (s : State) : Keeps s (endWrite s) := keeps_of

theorem keeps_afterAct (t) (s : State) : Keeps s (afterAct t s) := keeps_ite keeps_of (keeps_endWrite _)

theorem keeps_riseAct (c m k f) (hf : ∀ s, Keeps s (f s)) (s : State) : Keeps s (riseAct c m k f s) := by
  unfold riseAct
  split
  · exact keeps_ite (keeps_trans (hf s) (keeps_afterAct _ _)) (keeps_refl s)
  · exact keeps_refl s

theorem keeps_eachSlot (p f) (hf : ∀ i s, Keeps s (f i s)) (s : State) : Keeps s (eachSlot p f s) := by
  unfold eachSlot
  exact keeps_foldl (f := fun t i => if p t.exc.mem i then f i t else t) (fun t i => keeps_ite (hf i t) (keeps_refl t))
      _ _

theorem keeps_riseAll (t) (s : State) : Keeps s (riseAll t s) := by
  unfold riseAll
  dsimp only
  refine keeps_ite ?_ (keeps_endWrite _)
  have h := keeps_trans (keeps_trans (keeps_eachSlot (takes t) takeSlot keeps_takeSlot s) (keeps_eachSlot
      (continues (eachSlot (takes t) takeSlot s).exc.bulk) continueSlot keeps_continueSlot _)) (keeps_eachSlot cancels cancelSlot keeps_cancelSlot _)
  generalize eachSlot cancels cancelSlot _ = u at h
  refine keeps_trans ?_ (keeps_endWrite _)
  have h2 : Keeps s (if t.mark = true then releaseNotices u else u) :=
      keeps_ite (keeps_trans h (keeps_releaseNotices _)) h
  generalize (if t.mark = true then releaseNotices u else u) = v at h2
  exact keeps_ite (keeps_trans h2 (keeps_clearCapture _)) h2

theorem keeps_endRead (s : State) : Keeps s (endRead s) := keeps_exc _ (wf_applyDeferred _) id

theorem keeps_closeBus (s : State) : Keeps s (closeBus s) := by
  unfold closeBus
  split
  · exact keeps_refl s
  · exact keeps_endRead _
  · exact keeps_riseAll _ _

theorem keeps_sendOut (b) (s : State) : Keeps s (sendOut b s) := keeps_of

theorem keeps_readMore (n r) (s : State) : Keeps s (readMore n r s) := by
  unfold readMore
  dsimp only
  split
  · exact keeps_ite (keeps_trans (keeps_sendOut _ _) (keeps_endRead _)) keeps_of
  · exact keeps_sendOut _ _

theorem keeps_readTxn (a n r) (s : State) : Keeps s (readTxn a n r s) := by
  unfold readTxn
  refine keeps_ite ?_ (keeps_sendOut _ _)
  split
  · dsimp only
    refine keeps_trans ?_ (keeps_readMore _ _ _)
    have h := keeps_trans (keeps_closeBus s) (keeps_refresh _)
    generalize refresh _ = t at h
    exact keeps_trans h keeps_of
  · exact keeps_readMore _ _ _

theorem keeps_writeState (i v) (s : State) : Keeps s (writeState i v s) := by
  unfold writeState
  exact keeps_ite (keeps_exc _ (wf_putState _ _) id) (keeps_ite (keeps_refl s) (keeps_post _ _))

theorem keeps_writeRegion (a b) (s : State) : Keeps s (writeRegion a b s) := by
  unfold writeRegion
  refine keeps_ite keeps_of (keeps_ite ?_ (keeps_ite (keeps_exc _ (wf_writeByte _ _) id) (keeps_refl s)))
  unfold writeSlot
  exact keeps_ite (keeps_writeState _ _ _) (keeps_ite (keeps_exc _ (wf_writeByte _ _) id) (keeps_refl s))

theorem keeps_writeAll : ∀ (l a) (s : State), Keeps s (writeAll l a s)
  | [], _, s => keeps_refl s
  | _ :: l, _, s => keeps_trans (keeps_writeRegion _ _ s) (keeps_writeAll l _ _)

theorem keeps_writeMore (d r) (s : State) : Keeps s (writeMore d r s) := by
  unfold writeMore
  split
  · rename_i t _
    dsimp only
    have h := keeps_writeAll (List.take (if portActs s = true then if t.risen = true then 0 else d.length else 0) d)
        t.addr s
    generalize writeAll _ _ _ = u at h
    exact keeps_ite (keeps_trans h (keeps_riseAll _ _)) (keeps_trans h keeps_of)
  · exact keeps_refl s

theorem keeps_writeTxn (a d r) (s : State) : Keeps s (writeTxn a d r s) := by
  unfold writeTxn
  refine keeps_ite ?_ (keeps_sendOut _ _)
  split
  · dsimp only
    refine keeps_trans ?_ (keeps_writeMore _ _ _)
    have h := keeps_trans (keeps_closeBus s) (keeps_sendOut [] _)
    generalize sendOut _ _ = t at h
    exact keeps_trans h keeps_of
  · exact keeps_trans (keeps_sendOut _ _) (keeps_writeMore _ _ _)

theorem keeps_settleAttn (s : State) : Keeps s (settleAttn s) := by
  unfold settleAttn
  split
  · exact keeps_refl s
  · exact keeps_of

theorem keeps_slotFree (i) (s : State) : Keeps s (slotFree i s) :=
    keeps_ite (keeps_trans (keeps_writeState _ _ _) (keeps_settleAttn _)) (keeps_refl s)

theorem keeps_exchangeFault (i v) (s : State) : Keeps s (exchangeFault i v s) :=
    keeps_ite (keeps_writeState _ _ _) (keeps_refl s)

theorem keeps_timeApplied (s : State) (r : Request) : Keeps s (timeApplied s r) := by
  unfold timeApplied
  refine keeps_ite ?_ (keeps_refl s)
  split
  · exact keeps_ite (keeps_steer _ _) (keeps_refl s)
  · exact keeps_ite (keeps_refl s) (keeps_setClock _ _ _)
  · exact keeps_refl s

theorem keeps_xrstAssert (s : State) : Keeps s (xrstAssert s) := by
  unfold xrstAssert
  dsimp only
  refine keeps_ite (keeps_refl s) ?_
  have hl : ∀ t : State, Keeps t (loseSlots t) := fun t => keeps_of
  have h : Keeps s (loseSlots { s with exc := { s.exc with xrst := true } }) := by
    refine keeps_trans ?_ (hl _); exact keeps_of
  generalize loseSlots { s with exc := { s.exc with xrst := true } } = u at h
  split
  · refine keeps_trans (keeps_trans (keeps_trans ?_ (keeps_initExchange _ _)) (keeps_post _ _)) (keeps_foldl
      keeps_timeApplied _ _)
    unfold dropReads
    exact keeps_ite (keeps_trans h (keeps_readsDone _)) h
  · exact keeps_trans h (keeps_initExchange _ _)
  · exact keeps_of
  · exact keeps_of

theorem keeps_tick (s : State) : Keeps s (tick s) := by
  unfold tick
  split
  · exact keeps_of
  · exact keeps_of
  · unfold tickBattery
    dsimp only
    exact keeps_ite keeps_of keeps_of
  · exact keeps_refl s

theorem done_keeps {s t u : State} (h : Keeps s t) (e : done t = .next u) : Keeps s u := by
  unfold done at e
  simp only [Host.Outcome.next.injEq] at e
  rw [← e]; exact keeps_trans h (keeps_refresh _)

theorem exec_keeps (c : Instr) (s t : State) (h : exec c s = .next t) : Keeps s t := by
  cases c <;> simp only [exec] at h
  case status n => simp only [execStatus, Host.Outcome.next.injEq] at h; rw [← h]; exact keeps_sendOut _ _
  case voidCommand b n => simp only [execVoidCommand, Host.Outcome.next.injEq] at h; rw [← h]; exact keeps_sendOut _ _
  case xrstDeassert => exact done_keeps (by exact keeps_of) h
  all_goals (refine done_keeps ?_ h)
  · exact keeps_periodEnd _ _
  · exact keeps_loadTrip _ _
  · exact keeps_tripMemoryQuiet _
  · exact keeps_minuteExpiry _
  · exact keeps_blockExpiry _ _
  · exact keeps_keyPress _ _
  · exact keeps_keypadIdle _
  · exact keeps_codeDecision _
  · exact keeps_packageDecision _
  · exact keeps_radioCall _ _
  · exact keeps_radioGap _
  · exact keeps_buttonPress _
  · exact keeps_coilPulseEnd _
  · exact keeps_driveConfirm _ _
  · exact keeps_recoveryExpiry _
  · exact keeps_coverChange _ _ _
  · exact keeps_magnetSecond _ _
  · exact keeps_recordDone _ _
  · exact keeps_entryDone _ _
  · exact keeps_bitDone _ _
  · exact keeps_eraseDone _ _
  · exact keeps_eraseSuspends _
  · exact keeps_guardExpiry _
  · exact keeps_periodicExpiry _
  · exact keeps_failingAssert _
  · exact keeps_mainsAppear _ _
  · exact keeps_mainsEnd _ _
  · exact keeps_failingDeassert _
  · exact keeps_batteryExhausted _
  · exact keeps_settleExpiry _ _ _
  · exact keeps_readTxn _ _ _ _
  · exact keeps_writeTxn _ _ _ _
  · exact keeps_riseAct _ _ _ _ (keeps_takeSlot _) _
  · exact keeps_riseAct _ _ _ _ (keeps_continueSlot _) _
  · exact keeps_riseAct _ _ _ _ (keeps_cancelSlot _) _
  · exact keeps_slotFree _ _
  · exact keeps_exchangeFault _ _ _
  · exact keeps_riseAct _ _ _ _ keeps_releaseNotices _
  · exact keeps_riseAct _ _ _ _ keeps_clearCapture _
  · exact keeps_pauseExpiry _
  · exact keeps_bulkChunk _ _
  · exact keeps_xrstAssert _
  · exact keeps_applyCode _
  · exact keeps_applyPackage _
  · exact keeps_takeEmergency _
  · exact keeps_setTime _
  · exact keeps_switchOpen _
  · exact keeps_switchRelease _
  · exact keeps_testSwitch _
  · exact (keeps_lifecycle4 _).1
  · exact (keeps_lifecycle4 _).2.1
  · exact (keeps_lifecycle4 _).2.2.1
  · exact (keeps_lifecycle4 _).2.2.2
  · exact keeps_readLive _
  · exact keeps_startBulk _ _ _ _ _ _
  · exact keeps_startBulk _ _ _ _ _ _
  · exact keeps_readEvidence _
  · exact keeps_startBulk _ _ _ _ _ _
  · exact keeps_startBulk _ _ _ _ _ _
  · exact keeps_lineByte _ _ _
  · exact keeps_supplyCollapse _

end Sys2Proof.Machine
end

