-- ==== Sys2Proof/Laws/Frames.lean ====
section
/-! SUPPORT. Laws/Frames.lean:
what the operations of energy, credit, clock and lanes leave unchanged, and when a store operation is taken. -/

set_option Elab.async false

namespace Sys2Proof.Machine

open Sys2Proof

/-- t has the metering, money, settings, clock and array of s. -/
structure MeteringSame (s t : State) : Prop where
  energy : t.ee.energy = s.ee.energy
  live : t.ee.live = s.ee.live
  gains : t.ee.gains = s.ee.gains
  money : t.ce.money = s.ce.money
  settings : t.cau.settings = s.cau.settings
  clock : t.bat.clock = s.bat.clock
  valid : t.bat.clockValid = s.bat.clockValid
  service : t.psv.inService = s.psv.inService
  flash : t.flash = s.flash

theorem metering_refl (s : State) : MeteringSame s s := ⟨rfl, rfl, rfl, rfl, rfl, rfl, rfl, rfl, rfl⟩

theorem metering_of {s t : State}
    (a : t.ee.energy = s.ee.energy := by rfl)
    (b : t.ee.live = s.ee.live := by rfl)
    (c : t.ee.gains = s.ee.gains := by rfl)
    (d : t.ce.money = s.ce.money := by rfl)
    (e : t.cau.settings = s.cau.settings := by rfl)
    (f : t.bat.clock = s.bat.clock := by rfl)
    (g : t.bat.clockValid = s.bat.clockValid := by rfl)
    (h : t.psv.inService = s.psv.inService := by rfl)
    (i : t.flash = s.flash := by rfl) :
    MeteringSame s t := ⟨a, b, c, d, e, f, g, h, i⟩

theorem metering_trans {s t u : State} (h : MeteringSame s t) (k : MeteringSame t u) : MeteringSame s u :=
  ⟨k.1.trans h.1, k.2.trans h.2, k.3.trans h.3, k.4.trans h.4, k.5.trans h.5, k.6.trans h.6, k.7.trans h.7,
      k.8.trans h.8, k.9.trans h.9⟩

theorem metering_foldl {α : Type} {f : State → α → State} (hf : ∀ s x,
    MeteringSame s (f s x)) : ∀ (l : List α) (s : State), MeteringSame s (l.foldl f s)
  | [], s => metering_refl s
  | x :: rest, s => metering_trans (hf s x) (metering_foldl hf rest (f s x))

theorem metering_ite {s a b : State} {p : Prop} [Decidable p] (ha : MeteringSame s a) (hb : MeteringSame s b) :
    MeteringSame s (if p then a else b) := by
  split
  · exact ha
  · exact hb

theorem metering_post (b) (s : State) : MeteringSame s (post b s) := metering_of

theorem metering_keepNotice (b) (s : State) : MeteringSame s (keepNotice b s) := metering_of

theorem metering_complete (i r f n l) (s : State) : MeteringSame s (complete i r f n l s) := metering_of

theorem metering_drawFree (s : State) : MeteringSame s (drawFree s) := metering_of

theorem metering_arrive (o) (s : State) : MeteringSame s (arrive o s) := by
  unfold arrive
  refine metering_ite (metering_refl s) ?_
  unfold runArbiter
  exact metering_ite metering_of metering_of

theorem metering_flag (f) (s : State) : MeteringSame s (flagInterval f s) := metering_of

theorem metering_open (t) (s : State) : MeteringSame s (openInterval t s) := metering_of

theorem metering_roll (e n f t) (s : State) : MeteringSame s (rollInterval e n f t s) := by
  unfold rollInterval
  split
  · exact metering_ite (metering_open _ _) (metering_trans (metering_trans (metering_open _ _) (metering_arrive _ _))
      (metering_drawFree _))
  · exact metering_open _ _

theorem metering_setDrive (d) (s : State) : MeteringSame s (setDrive d s) := metering_of

theorem metering_setSwitch (w) (s : State) : MeteringSame s (setSwitch w s) := by
  unfold setSwitch
  dsimp only
  exact metering_ite metering_of metering_of

theorem metering_beginDrive (d) (s : State) : MeteringSame s (beginDrive d s) :=
    metering_trans (metering_setSwitch _ s) metering_of

theorem metering_respond (b) (s : State) : MeteringSame s (respond b s) := by
  unfold respond
  repeat' split
  all_goals first
    | exact metering_refl _
    | exact metering_setSwitch _ _
    | exact metering_beginDrive _ _

theorem metering_add (r) (s : State) : MeteringSame s (addReason r s) := by
  unfold addReason
  refine metering_ite (metering_refl s) (metering_trans ?_ (metering_respond _ _)); exact metering_of

theorem metering_remove (r) (s : State) : MeteringSame s (removeReason r s) := by
  unfold removeReason
  refine metering_ite (metering_trans ?_ (metering_respond _ _)) (metering_refl s); exact metering_of

theorem metering_trip (p) (s : State) : MeteringSame s (trip p s) := by
  unfold trip
  dsimp only
  have k : MeteringSame s (post (.loadTrip ((addReason .loadLimit s).swc.tripMem + 1) p (addReason .loadLimit
      s).cau.settings.pMax)
      { addReason .loadLimit s with swc := { (addReason .loadLimit s).swc with recovery := startTimer 60, tripMem := if 3 ≤ (addReason .loadLimit s).swc.tripMem + 1 then 0 else (addReason .loadLimit s).swc.tripMem + 1, quiet := 0, overLimit := 0 } })
      := by
    refine metering_trans (metering_trans (metering_add .loadLimit s) ?_) (metering_post _ _)
    exact metering_of
  exact metering_ite (metering_trans (metering_trans k (metering_add _ _)) (metering_post _ _)) k

theorem metering_limiter (t) (s : State) : MeteringSame s (limiterHandOff t s) := by
  unfold limiterHandOff
  refine metering_ite (metering_trans (?_ : MeteringSame s (quietStep s)) ?_) (metering_refl s)
  · unfold quietStep
    exact metering_ite (metering_refl s) (metering_ite metering_of metering_of)
  · unfold limitStep
    dsimp only
    refine metering_ite (metering_trans ?_ (metering_trip _ _)) ?_
    · exact metering_of
    · exact metering_of

theorem metering_mapKind (k f) (s : State) : MeteringSame s (mapKind k f s) := metering_of

theorem metering_agree (s : State) : MeteringSame s (tamperAgree s) :=
    metering_ite (metering_add _ s) (metering_remove _ s)

theorem metering_ever (k) (s : State) : MeteringSame s (programEver k s) :=
    metering_ite (metering_refl s) (metering_arrive _ s)

theorem metering_appendLog (k e) (s : State) : MeteringSame s (appendLog k e s) := metering_arrive _ s

theorem metering_declareKind (k) (s : State) : MeteringSame s (declareKind k s) := by
  refine metering_ite ?_ ?_
  · have h := metering_trans (metering_mapKind k (fun r =>
      { r with state := .declared, count := min 65535 (r.count + 1), last := some s.bat.clock, first := match r.first with | some t => some t | none => some s.bat.clock })
      s) (metering_agree _)
    unfold declareInOutage
    dsimp only
    split
    · exact h
    · exact metering_trans h metering_of
  · unfold declareWith
    refine metering_trans (metering_trans (metering_trans (metering_trans (metering_trans (metering_trans ?_
        (metering_flag _ _)) (metering_agree _)) (metering_ever _ _)) (metering_arrive _ _)) (metering_arrive _ _))
        (metering_ite (metering_post _ _) (metering_keepNotice _ _))
    exact metering_mapKind _ _ _

theorem metering_warningBegin (k) (s : State) : MeteringSame s (warningBegin k s) := by
  unfold warningBegin
  exact metering_ite (metering_trans (metering_trans (metering_mapKind _ _ s) (metering_appendLog _ _ _)) (metering_post
      _ _)) (metering_mapKind _ _ s)

theorem metering_warningEnd (k) (s : State) : MeteringSame s (warningEnd k s) := by
  unfold warningEnd
  exact metering_ite (metering_trans (metering_mapKind _ _ s) (metering_appendLog _ _ _)) (metering_mapKind _ _ s)

theorem metering_indicator (k p) (s : State) : MeteringSame s (indicator k p s) := by
  unfold indicator
  generalize hu : mapKind k _ s = u
  refine metering_trans (?_ : MeteringSame s u) ?_
  · rw [← hu]; exact metering_mapKind _ _ s
  have hw := metering_warningBegin k u
  have hd := metering_trans hw (metering_declareKind k _)
  unfold moveKind
  dsimp only
  split
  · exact metering_ite (metering_refl u) (metering_ite hd hw)
  · exact metering_ite (metering_warningEnd k u) (metering_ite (metering_declareKind k u) (metering_refl u))
  · exact metering_refl u

theorem metering_handOff (o) (s : State) (a) (h : a ≠ .billing) : MeteringSame s (handOff o s a) := by
  cases a
  · exact absurd rfl h
  · exact metering_limiter _ _
  all_goals exact metering_indicator _ _ _

theorem metering_standing (s : State) : MeteringSame s (standingPeriod s) := metering_of

theorem metering_lowCredit (s : State) : MeteringSame s (lowCredit s) := by
  have h1 : ∀ t : State, MeteringSame s t → ∀ b (p : Bool), MeteringSame s (if p then post b t else t) :=
      fun t h b p => metering_ite (metering_trans h (metering_post _ _)) h
  unfold lowCredit
  exact h1 _ (h1 _ metering_of _ _) _ _

theorem metering_evaluate (s : State) : MeteringSame s (evaluate s) := by
  have hd : ∀ x (t : State), MeteringSame t (setDeferral x t) := fun x t => metering_of
  unfold evaluate
  refine metering_ite (metering_trans (metering_remove _ s) (hd _ _)) (metering_ite (metering_refl s) (metering_ite
      (metering_ite (hd _ _) (metering_trans (hd _ _) (metering_post _ _))) (metering_trans (metering_add _ s) (hd _
      _))))

theorem metering_testBoundary (e) (s : State) : MeteringSame s (testBoundary e s) := by
  unfold testBoundary
  split
  · exact metering_ite (metering_roll _ _ _ _ _) (metering_refl s)
  · exact metering_refl s

/-- What an activation with a valid clock leaves. -/
structure CalmParts (s t : State) : Prop where
  energy : t.ee.energy = s.ee.energy
  live : t.ee.live = s.ee.live
  gains : t.ee.gains = s.ee.gains
  b : t.ce.money.b = s.ce.money.b
  cRes : t.ce.money.cRes = s.ce.money.cRes
  u : t.ce.money.u = s.ce.money.u
  day : t.ce.money.lastDay = s.ce.money.lastDay
  valid : t.bat.clockValid = true
  flash : t.flash = s.flash

/-- CalmParts, where the clock of s is valid. -/
def Calm (s t : State) : Prop := s.bat.clockValid = true → CalmParts s t

theorem MeteringSame.calm {s t : State} (h : MeteringSame s t) : Calm s t := fun v =>
  ⟨h.1, h.2, h.3, by rw [h.4], by rw [h.4], by rw [h.4], by rw [h.4], by rw [h.7, v], h.9⟩

theorem calm_refl (s : State) : Calm s s := (metering_refl s).calm

theorem calm_trans {s t u : State} (h : Calm s t) (k : Calm t u) : Calm s u := fun v => by
  have h := h v
  have k := k h.valid
  exact ⟨k.1.trans h.1, k.2.trans h.2, k.3.trans h.3, k.4.trans h.4, k.5.trans h.5, k.6.trans h.6, k.7.trans h.7, k.8,
      k.9.trans h.9⟩

theorem calm_of {s t : State}
    (a : t.ee.energy = s.ee.energy := by rfl)
    (b : t.ee.live = s.ee.live := by rfl)
    (c : t.ee.gains = s.ee.gains := by rfl)
    (d : t.ce.money = s.ce.money := by rfl)  (g : t.bat.clockValid = s.bat.clockValid := by rfl)
    (i : t.flash = s.flash := by rfl) :
    Calm s t :=
  fun v => ⟨a, b, c, by rw [d], by rw [d], by rw [d], by rw [d], by rw [g, v], i⟩

theorem calm_foldl {α : Type} {f : State → α → State} (hf : ∀ s x, Calm s (f s x)) : ∀ (l : List α) (s : State),
    Calm s (l.foldl f s)
  | [], s => calm_refl s
  | x :: rest, s => calm_trans (hf s x) (calm_foldl hf rest (f s x))

theorem calm_ite {s a b : State} {p : Prop} [Decidable p] (ha : Calm s a) (hb : Calm s b) : Calm s (if p then a else b)
    := by
  split
  · exact ha
  · exact hb

theorem calm_window (s : State) : Calm s (recomputeWindow s) := by
  unfold recomputeWindow
  dsimp only
  refine calm_ite (calm_refl s) (calm_trans ?_ (metering_evaluate _).calm)
  exact calm_of

theorem calm_take (c) (s : State) (x) : Calm s (takeIntoUse c s x) := by
  unfold takeIntoUse
  split
  case h_3 => exact calm_window s
  case h_4 => exact calm_ite (metering_evaluate _).calm (calm_refl s)
  case h_5 => exact (metering_lowCredit s).calm
  case h_8 => exact (metering_agree s).calm
  case h_11 => exact calm_ite (calm_refl s) (metering_roll _ _ _ _ _).calm
  case h_7 => exact calm_ite (calm_refl s) calm_of
  all_goals first
    | exact calm_refl s
    | exact calm_of

theorem calm_step (t) (s : State) : Calm s (clockStep t false s) := by
  have hr : ∀ a b (v : State), Calm v (reportStep a b v) := by
    intro a b v
    unfold reportStep
    exact calm_ite (calm_refl v) (calm_ite (metering_flag _ _).calm (metering_roll _ _ _ _ _).calm)
  have hb : ∀ v : State, Calm v (recomputeBand v) := fun v => calm_of
  have hs : ∀ v : State, Calm v (steerRule v) := fun v => calm_ite calm_of (calm_refl _)
  unfold clockStep
  simp only [Bool.false_eq_true, if_false]
  refine calm_trans (calm_trans (calm_trans (calm_trans ?_ (hr _ _ _)) (hb _)) (calm_window _)) (hs _)
  exact calm_of

theorem calm_clock (s : State) (x) : Calm s (takeClock s x) := by
  intro hv
  revert hv
  unfold takeClock
  split
  · rename_i t
    unfold setClock
    dsimp only
    intro hv
    have h0 : Calm s
        { s with bat := { s.bat with clock := t, clockValid := true, clockSource := .authenticated, steerDay := dayOf t, steerUsed := 0 } }
        := calm_of (g := by rw [hv])
    rw [hv]
    exact (calm_ite h0 (calm_trans h0 (calm_step _ _))) hv
  · exact calm_refl s

theorem calm_activate (e) (s : State) (hv : s.bat.clockValid = true) : CalmParts s (activatePending e s) := by
  unfold activatePending
  split
  · dsimp only
    rename_i p _
    have h1 : Calm s (applySections p.sections s) := by
      unfold applySections
      dsimp only
      refine calm_trans (calm_trans ?_ (calm_foldl (calm_take _) _ _)) (calm_foldl calm_clock _ _)
      exact calm_of
    refine calm_trans (calm_trans h1 ?_) (metering_arrive _ _).calm hv
    exact calm_of
  · exact calm_refl s hv

theorem activate_none (e) (s : State) (hv : s.bat.clockValid = false) : activatePending e s = s := by
  unfold activatePending pendingDue
  rw [hv]
  split
  · rename_i p h
    split at h
    · simp at h
    · simp at h
  · rfl

/-- after an activation -/
theorem activate_b (e) (s : State) : (activatePending e s).ee.energy = s.ee.energy ∧
    (activatePending e s).ee.live = s.ee.live ∧ (activatePending e s).ee.gains = s.ee.gains ∧
    (activatePending e s).ce.money.b = s.ce.money.b ∧ (activatePending e s).ce.money.cRes = s.ce.money.cRes ∧
    (activatePending e s).ce.money.u = s.ce.money.u ∧ (activatePending e s).ce.money.lastDay = s.ce.money.lastDay ∧
    (activatePending e s).flash = s.flash := by
  by_cases hv : s.bat.clockValid = true
  · have h := calm_activate e s hv
    exact ⟨h.1, h.2, h.3, h.4, h.5, h.6, h.7, h.9⟩
  · rw [activate_none e s (by simpa using hv)]
    exact ⟨rfl, rfl, rfl, rfl, rfl, rfl, rfl, rfl⟩

/-! billing -/

/-- The largest uncollected total. -/
def u32max : Nat := 4294967295

theorem deduct_money (k) (s : State) : (deduct k s).ce.money = moneyAfter s.ce.money k := by
  unfold deduct
  dsimp only
  split <;> rfl

/-- What a deduction leaves beside the money and the open interval. -/
structure BillFrame (s t : State) : Prop where
  energy : t.ee.energy = s.ee.energy
  live : t.ee.live = s.ee.live
  gains : t.ee.gains = s.ee.gains
  settings : t.cau.settings = s.cau.settings
  bat : t.bat = s.bat
  psv : t.psv = s.psv
  flash : t.flash = s.flash

theorem billFrame_deduct (k) (s : State) : BillFrame s (deduct k s) := by
  unfold deduct
  dsimp only
  split <;> exact ⟨rfl, rfl, rfl, rfl, rfl, rfl, rfl⟩

theorem BillFrame.trans {s t u : State} (h : BillFrame s t) (k : BillFrame t u) : BillFrame s u :=
  ⟨k.1.trans h.1, k.2.trans h.2, k.3.trans h.3, k.4.trans h.4, k.5.trans h.5, k.6.trans h.6, k.7.trans h.7⟩

theorem billFrame_charge : ∀ n (s : State), BillFrame s (chargeDays n s)
  | 0, s => ⟨rfl, rfl, rfl, rfl, rfl, rfl, rfl⟩
  | n + 1, s => (billFrame_deduct _ s).trans (billFrame_charge n _)

theorem charge_money : ∀ n (s : State), s.ce.money.u ≤ u32max ∨ 0 < n →
    let f := n * s.cau.settings.fixed
    let tk := min f (s.ce.money.b + 2000000).toNat
    (chargeDays n s).ce.money = { s.ce.money with b := s.ce.money.b - tk, u := min u32max (s.ce.money.u + (f - tk)) }
  | 0, s, h => by
    have h : s.ce.money.u ≤ u32max := by rcases h with h | h <;> omega
    simp [chargeDays, Nat.min_eq_right h]
  | n + 1, s, _ => by
    have ih := charge_money n (deduct s.cau.settings.fixed s) (Or.inl (by rw [deduct_money]; exact Nat.min_le_left _ _))
    dsimp only at ih ⊢
    rw [chargeDays, ih, (billFrame_deduct _ s).settings, deduct_money]
    simp only [moneyAfter, deductible, balanceFloor, uncollectedMax, u32max]
    generalize s.cau.settings.fixed = F
    have : (n + 1) * F = n * F + F := Nat.succ_mul n F
    generalize (n + 1) * F = OutsideFrame at *
    generalize n * F = H at *
    subst this
    congr 1
    · omega
    · omega

/-- Billing's effect on money from a state whose relevant parts are those of s. -/
def BillMoney (s : State) (n : Nat) (e : Nat) (m : Money) : Prop :=
    let today := e / 86400
    let days := if s.bat.clockValid = true ∧ s.psv.inService = true ∧
        s.ce.money.lastDay < today then today - s.ce.money.lastDay else 0
    let fixed := days * s.cau.settings.fixed
    let taken := min fixed (s.ce.money.b + 2000000).toNat
    let cost := s.ce.money.cRes + n * priceOf s.cau.settings (bandAt s e)
    let k := cost / 1000000
    let billed := min k (s.ce.money.b - taken + 2000000).toNat
    m.cRes = cost % 1000000 ∧ m.b = s.ce.money.b - taken - billed ∧
        m.u = min 4294967295 (s.ce.money.u + (fixed - taken) + (k - billed)) ∧ m.lastDay = s.ce.money.lastDay + days

theorem band_congr {s t : State} (h1 : t.bat.clockValid = s.bat.clockValid) (h2 : t.cau.settings = s.cau.settings) (e) :
    bandAt t e = bandAt s e := by
  unfold bandAt; rw [h1, h2]

theorem bill_money (n e) (s : State) : BillMoney s n e (billPeriod n e s).ce.money := by
  have h : (billPeriod n e s).ce.money = (costStage n e (fixedCharge (dayOf e) s)).ce.money := by
    unfold billPeriod
    dsimp only
    split
    · exact (metering_lowCredit _).money
    · rw [(metering_evaluate _).money, (metering_lowCredit _).money]
  have hf : ((fixedCharge (dayOf e) s).bat = s.bat ∧ (fixedCharge (dayOf e) s).cau.settings = s.cau.settings) := by
    unfold fixedCharge
    split
    · exact ⟨(billFrame_charge _ s).bat, (billFrame_charge _ s).settings⟩
    · exact ⟨rfl, rfl⟩
  rw [h]
  have hc : ∀ t : State, (costStage n e t).ce.money = moneyAfter
      { t.ce.money with cRes := (t.ce.money.cRes + n * priceOf t.cau.settings (bandAt t e)) % 1000000 }
      ((t.ce.money.cRes + n * priceOf t.cau.settings (bandAt t e)) / 1000000) := by
    intro t
    unfold costStage
    exact deduct_money _ _
  rw [hc, band_congr (s := s) (by rw [hf.1]) hf.2, hf.2]
  unfold BillMoney
  dsimp only
  have hm : (fixedCharge (dayOf e) s).ce.money = (if s.bat.clockValid = true ∧ s.psv.inService = true ∧
      s.ce.money.lastDay < e / 86400 then
      { (chargeDays (e / 86400 - s.ce.money.lastDay) s).ce.money with lastDay := e / 86400 } else s.ce.money) := by
    unfold fixedCharge dayOf
    simp only [Bool.and_eq_true, decide_eq_true_eq, and_assoc]
    split
    · rfl
    · rfl
  rw [hm]
  split
  · rename_i hd
    obtain ⟨_, _, hd⟩ := hd
    have hx := charge_money (e / 86400 - s.ce.money.lastDay) s (Or.inr (by omega))
    dsimp only at hx
    rw [hx]
    simp only [moneyAfter, deductible, balanceFloor, uncollectedMax, u32max]
    generalize (e / 86400 - s.ce.money.lastDay) * s.cau.settings.fixed = F
    simp only [Int.sub_neg, true_and]
    refine ⟨?_, ?_⟩
    · omega
    · omega
  · simp only [moneyAfter, deductible, balanceFloor, uncollectedMax]
    simp [Int.sub_neg]

theorem bill_parts (o) (s : State) : let t := handOff o s .billing
    t.ee.energy = s.ee.energy ∧ t.ee.live = s.ee.live ∧ t.ee.gains = s.ee.gains ∧
        t.ce.money = (billPeriod o.n o.live.endTime s).ce.money ∧ t.flash = s.flash := by
  have hb : BillFrame s (fixedCharge (dayOf o.live.endTime) s) := by
    unfold fixedCharge
    split
    · exact (billFrame_charge _ s).trans ⟨rfl, rfl, rfl, rfl, rfl, rfl, rfl⟩
    · exact ⟨rfl, rfl, rfl, rfl, rfl, rfl, rfl⟩
  have hc : ∀ n e (t : State), BillFrame t (costStage n e t) := by
    intro n e t
    unfold costStage
    dsimp only
    refine BillFrame.trans ?_ (billFrame_deduct _ _)
    exact ⟨rfl, rfl, rfl, rfl, rfl, rfl, rfl⟩
  have h := hb.trans (hc o.n o.live.endTime _)
  have hq := metering_lowCredit (costStage o.n o.live.endTime (fixedCharge (dayOf o.live.endTime) s))
  have hp : (billPeriod o.n o.live.endTime s).ee.energy = s.ee.energy ∧
      (billPeriod o.n o.live.endTime s).ee.live = s.ee.live ∧ (billPeriod o.n o.live.endTime s).ee.gains = s.ee.gains ∧
      (billPeriod o.n o.live.endTime s).flash = s.flash := by
    unfold billPeriod
    dsimp only
    split
    · exact ⟨hq.1.trans h.1, hq.2.trans h.2, hq.3.trans h.3, hq.9.trans h.7⟩
    · have he := metering_trans hq (metering_evaluate _)
      exact ⟨he.1.trans h.1, he.2.trans h.2, he.3.trans h.3, he.9.trans h.7⟩
  have ht := metering_testBoundary o.live.endTime (billInterval o.n o.m o.f o.tPrime o.live.endTime o.overrange
      (billPeriod o.n o.live.endTime s))
  exact ⟨ht.1.trans hp.1, ht.2.trans hp.2.1, ht.3.trans hp.2.2.1, ht.4, ht.9.trans hp.2.2.2⟩

theorem eachOnce_mem (l : List Arrival) : ∀ a, a ∈ eachOnce l := by
  have key : ∀ (m acc : List Arrival) (a), (a ∈ acc ∨ a ∈ m) →
      a ∈ m.foldl (fun seen a => if seen.contains a then seen else seen ++ [a]) acc := by
    intro m
    induction m with
    | nil => intro acc a h; simpa using h
    | cons x m ih =>
      intro acc a h
      simp only [List.foldl_cons]
      apply ih
      simp only [List.mem_cons] at h
      by_cases hx : acc.contains x = true
      · rw [if_pos hx]
        rcases h with h | h | h
        · exact Or.inl h
        · subst h; left; simpa using hx
        · exact Or.inr h
      · rw [if_neg hx]
        rcases h with h | h | h
        · left; simp [h]
        · left; simp [h]
        · exact Or.inr h
  intro a
  apply key
  right
  simp only [List.mem_append]
  right
  cases a <;> simp [Arrival.all]

theorem eachOnce_nodup (l : List Arrival) : (eachOnce l).Nodup := by
  have key : ∀ (m acc : List Arrival), acc.Nodup → (m.foldl (fun seen a => if seen.contains a then seen else seen ++
      [a]) acc).Nodup := by
    intro m
    induction m with
    | nil => intro acc h; exact h
    | cons x m ih =>
      intro acc h
      simp only [List.foldl_cons]
      apply ih
      by_cases hx : acc.contains x = true
      · rw [if_pos hx]; exact h
      · rw [if_neg hx, List.nodup_append]
        refine ⟨h, by simp, ?_⟩
        intro a ha b hb
        simp only [List.mem_singleton] at hb
        subst hb
        intro e; subst e
        exact hx (by simpa using ha)
  exact key _ [] List.nodup_nil

theorem metering_others (o) : ∀ (l : List Arrival) (s : State), Arrival.billing ∉ l →
    MeteringSame s (l.foldl (handOff o) s)
  | [], s, _ => metering_refl s
  | a :: l, s, h => by
    simp only [List.mem_cons, not_or] at h
    exact metering_trans (metering_handOff o s a (fun e => h.1 e.symm)) (metering_others o l _ h.2)

theorem handOffs_parts (o l) (s : State) (he : o.live.endTime = s.bat.clock): let t := handOffs o l s
    t.ee.energy = s.ee.energy ∧ t.ee.live = s.ee.live ∧ t.ee.gains = s.ee.gains ∧
        BillMoney s o.n s.bat.clock t.ce.money ∧ t.flash = s.flash := by
  obtain ⟨l1, l2, hl⟩ := List.append_of_mem (eachOnce_mem l .billing)
  have hn := eachOnce_nodup l
  rw [hl] at hn
  have h1 : Arrival.billing ∉ l1 := by
    intro h
    rw [List.nodup_append] at hn
    exact hn.2.2 _ h _ (by simp) rfl
  have h2 : Arrival.billing ∉ l2 := by
    rw [List.nodup_append] at hn
    simpa using (List.nodup_cons.mp hn.2.1).1
  dsimp only
  unfold handOffs
  rw [hl, List.foldl_append, List.foldl_cons]
  have q1 := metering_others o l1 s h1
  generalize l1.foldl (handOff o) s = u at q1
  have b := bill_parts o u
  dsimp only at b
  generalize handOff o u .billing = v at b
  have q2 := metering_others o l2 v h2
  generalize l2.foldl (handOff o) v = w at q2
  refine ⟨(q2.1.trans b.1).trans q1.1, (q2.2.trans b.2.1).trans q1.2, (q2.3.trans b.2.2.1).trans q1.3, ?_,
      (q2.9.trans b.2.2.2.2).trans q1.9⟩
  have hm := bill_money o.n o.live.endTime u
  rw [q2.4, b.2.2.2.1]
  rw [he] at hm ⊢
  unfold BillMoney at hm ⊢
  rw [band_congr q1.7 q1.5, q1.4, q1.5, q1.7, q1.8] at hm
  exact hm

theorem period_main (p) (s : State) (hr : s.psv.power = .run) : ∃ t, exec (.periodEnd p) s = .next t ∧
    t.ee.energy = (periodOut p s).energy ∧ t.ee.live = (periodOut p s).live ∧ t.ee.gains = s.ee.gains ∧
        BillMoney s (periodOut p s).n s.bat.clock t.ce.money ∧ t.flash = s.flash := by
  refine ⟨_, rfl, ?_⟩
  have hrf : ∀ t : State, (refresh t).ee = t.ee ∧ (refresh t).ce = t.ce ∧ (refresh t).flash = t.flash := by
    intro t; unfold refresh; split <;> exact ⟨rfl, rfl, rfl⟩
  have hp : periodEnd p s = activatePending s.bat.clock (standingPeriod (handOffs (periodOut p s) p.order (markPeriod
      (takeResults (periodOut p s) s)))) := by
    unfold periodEnd; simp [hr]
  rw [(hrf _).1, (hrf _).2.1, (hrf _).2.2, hp]
  have h1 := handOffs_parts (periodOut p s) p.order (markPeriod (takeResults (periodOut p s) s)) rfl
  dsimp only at h1
  generalize handOffs (periodOut p s) p.order (markPeriod (takeResults (periodOut p s) s)) = u at h1
  have h2 := metering_standing u
  generalize standingPeriod u = v at h2
  obtain ⟨a1, a2, a3, a4, a5, a6, a7, a8⟩ := activate_b s.bat.clock v
  refine ⟨by rw [a1, h2.1, h1.1]; rfl,
      by rw [a2, h2.2, h1.2.1]; rfl, by rw [a3, h2.3, h1.2.2.1]; rfl, ?_, by rw [a8, h2.9, h1.2.2.2.2]; rfl⟩
  have hb := h1.2.2.2.1
  unfold BillMoney at hb ⊢
  rw [a4, a5, a6, a7, h2.4]
  exact hb

theorem effective_le (m : Metering) (r a b c) (h : m.vNom ≤ 25000) : (effective m (scale r a b c)).imp ≤ 44000000 ∧
    (effective m (scale r a b c)).exp ≤ 44000000 := by
  have hi : (scale r a b c).i ≤ 160000 := Nat.min_le_right _ _
  have hp : (scale r a b c).p.natAbs ≤ 44000000 := by
    simp only [scale, clampInt]
    split
    · omega
    · split <;> omega
  have := Nat.mul_le_mul hi h
  unfold effective
  split
  · exact ⟨by dsimp only; omega, Nat.zero_le _⟩
  split
  · exact ⟨Nat.zero_le _, Nat.zero_le _⟩
  split
  · exact ⟨hp, Nat.zero_le _⟩
  split
  · exact ⟨Nat.zero_le _, hp⟩
  · exact ⟨hp, Nat.zero_le _⟩

theorem billed_false {f : Bool} {d t : Nat} (h : (f && decide (t < d)) = false) : billedTotal f d t = t := by
  unfold billedTotal; rw [h]; rfl

theorem headOf_ready {k r l} (h : LaneReady k r l) : headOf true l k = some r := by
  obtain ⟨h1, h2, h3⟩ := h
  unfold headOf
  cases hq : l.queue with
  | nil => rw [hq] at h1; simp at h1
  | cons a b => rw [hq] at h1; simp at h1; subst h1; simp [h2, h3]

theorem lanesRun_of_runs {s} (h : ExchangeRuns s) : lanesRun s = true := by unfold lanesRun; rw [h.1, h.2]; rfl

theorem control_ready {k r s} (h : ControlReady k r s) : controlHead k s = some r := by
  unfold controlHead; rw [lanesRun_of_runs h.1, h.2.1]; exact headOf_ready h.2.2

theorem code_ready {k r s} (h : CodeReady k r s) : codeHead k s = some r := by
  unfold codeHead; rw [lanesRun_of_runs h.1, h.2.1]; exact headOf_ready h.2.2

theorem query_ready {k r s} (h : QueryReady k r s) : queryHead k s = some r := by
  unfold queryHead; rw [lanesRun_of_runs h.1]; exact headOf_ready h.2

theorem refresh_frame (t : State) : (refresh t).toModules = t.toModules ∧ (refresh t).bat = t.bat ∧
    (refresh t).flash = t.flash ∧ (refresh t).psv = t.psv ∧ (refresh t).exc.mem = t.exc.mem ∧
    (refresh t).exc.notices = t.exc.notices ∧ (refresh t).exc.code = t.exc.code ∧
    (refresh t).exc.control = t.exc.control ∧ (refresh t).exc.query = t.exc.query := by
  unfold refresh; split <;> exact ⟨rfl, rfl, rfl, rfl, rfl, rfl, rfl, rfl, rfl⟩

/-- What an evaluation leaves. -/
structure EvalFrame (s t : State) : Prop where
  ce : t.ce.band = s.ce.band ∧ t.ce.window = s.ce.window ∧ t.ce.minuteDue = s.ce.minuteDue
  bat : t.bat = s.bat
  mem : t.exc.mem = s.exc.mem
  control : t.exc.control = s.exc.control
  code : t.exc.code = s.exc.code
  cau : t.cau = s.cau
  psv : t.psv = s.psv
  stc : t.stc = s.stc

theorem evalFrame_refl (s : State) : EvalFrame s s := ⟨⟨rfl, rfl, rfl⟩, rfl, rfl, rfl, rfl, rfl, rfl, rfl⟩

theorem evalFrame_trans {s t u : State} (h : EvalFrame s t) (k : EvalFrame t u) : EvalFrame s u :=
  ⟨⟨k.1.1.trans h.1.1, k.1.2.1.trans h.1.2.1, k.1.2.2.trans h.1.2.2⟩, k.2.trans h.2, k.3.trans h.3, k.4.trans h.4,
      k.5.trans h.5, k.6.trans h.6, k.7.trans h.7, k.8.trans h.8⟩

theorem evalFrame_ite {s a b : State} {p : Prop} [Decidable p] (ha : EvalFrame s a) (hb : EvalFrame s b) : EvalFrame s
    (if p then a else b) := by
  split
  · exact ha
  · exact hb

theorem evalFrame_of {s t : State}
    (a : t.ce = s.ce := by rfl)
    (b : t.bat = s.bat := by rfl)
    (c : t.exc = s.exc := by rfl)
    (d : t.cau = s.cau := by rfl)
    (e : t.psv = s.psv := by rfl)
    (f : t.stc = s.stc := by rfl) :
    EvalFrame s t :=
  ⟨by rw [a]; exact ⟨rfl, rfl, rfl⟩, b, by rw [c], by rw [c], by rw [c], d, e, f⟩

theorem post_exc_parts (b) (s : State) : (post b s).exc.mem = s.exc.mem ∧ (post b s).exc.control = s.exc.control ∧
    (post b s).exc.code = s.exc.code ∧ (post b s).exc.query = s.exc.query ∧ (post b s).exc.live = s.exc.live ∧
    (post b s).exc.bulk = s.exc.bulk ∧ (post b s).exc.bus = s.exc.bus := by
  unfold post Exc.post
  dsimp only
  split
  · split <;> exact ⟨rfl, rfl, rfl, rfl, rfl, rfl, rfl⟩
  · exact ⟨rfl, rfl, rfl, rfl, rfl, rfl, rfl⟩

theorem evalFrame_post (b) (s : State) : EvalFrame s (post b s) := ⟨⟨rfl, rfl, rfl⟩, rfl, (post_exc_parts b s).1,
    (post_exc_parts b s).2.1, (post_exc_parts b s).2.2.1, rfl, rfl, rfl⟩

theorem evalFrame_setSwitch (w) (s : State) : EvalFrame s (setSwitch w s) := by
  unfold setSwitch; dsimp only; exact evalFrame_ite evalFrame_of evalFrame_of

theorem evalFrame_beginDrive (w) (s : State) : EvalFrame s (beginDrive w s) :=
    evalFrame_trans (evalFrame_setSwitch _ s) evalFrame_of

theorem evalFrame_respond (b) (s : State) : EvalFrame s (respond b s) := by
  unfold respond
  repeat' split
  all_goals first
    | exact evalFrame_refl _
    | exact evalFrame_setSwitch _ _
    | exact evalFrame_beginDrive _ _

theorem evalFrame_add (r) (s : State) : EvalFrame s (addReason r s) := by
  unfold addReason; refine evalFrame_ite (evalFrame_refl s) (evalFrame_trans ?_ (evalFrame_respond _ _));
      exact evalFrame_of

theorem evalFrame_rem (r) (s : State) : EvalFrame s (removeReason r s) := by
  unfold removeReason; refine evalFrame_ite (evalFrame_trans ?_ (evalFrame_respond _ _)) (evalFrame_refl s);
      exact evalFrame_of

theorem evalFrame_def (r) (s : State) : EvalFrame s (setDeferral r s) := ⟨⟨rfl, rfl, rfl⟩, rfl, rfl, rfl, rfl, rfl, rfl,
    rfl⟩

theorem evalFrame_eval (s : State) : EvalFrame s (evaluate s) := by
  unfold evaluate
  exact evalFrame_ite (evalFrame_trans (evalFrame_rem _ s) (evalFrame_def _ _)) (evalFrame_ite (evalFrame_refl s)
      (evalFrame_ite (evalFrame_ite (evalFrame_def _ _) (evalFrame_trans (evalFrame_def _ _) (evalFrame_post _ _)))
      (evalFrame_trans (evalFrame_add _ s) (evalFrame_def _ _))))

theorem refresh_proj (t : State) (P : State → Prop) (h : P t) (hp : ∀ p i, P t →
    P { t with exc := { t.exc with page := p, image := i } }) : P (refresh t) := by
  unfold refresh
  split
  · exact hp _ _ h
  · exact h

theorem recomputeWindow_frame (s : State) : (recomputeWindow s).ce.window = windowAt s s.bat.clock ∧
    (recomputeWindow s).ce.band = s.ce.band ∧ (recomputeWindow s).ce.minuteDue = s.ce.minuteDue ∧
    (recomputeWindow s).bat = s.bat ∧ (recomputeWindow s).exc.mem = s.exc.mem ∧
    (recomputeWindow s).ce.money = s.ce.money ∧ (recomputeWindow s).flash = s.flash ∧
    (recomputeWindow s).exc.control = s.exc.control ∧ (recomputeWindow s).psv = s.psv := by
  unfold recomputeWindow
  dsimp only
  split
  · rename_i h; exact ⟨h.symm, rfl, rfl, rfl, rfl, rfl, rfl, rfl, rfl⟩
  · have e := evalFrame_eval { s with ce := { s.ce with window := windowAt s s.bat.clock } }
    have q := metering_evaluate { s with ce := { s.ce with window := windowAt s s.bat.clock } }
    exact ⟨e.1.2.1, e.1.1, e.1.2.2, e.2, e.3, q.4, q.9, e.4, e.7⟩

theorem respond_all (b) (x : State) : (respond b x).swc.set = x.swc.set ∧ (respond b x).swc.consent = x.swc.consent ∧
    (respond b x).exc = x.exc ∧ (respond b x).ce = x.ce := by
  have hs : ∀ w (y : State), (setSwitch w y).swc.set = y.swc.set ∧ (setSwitch w y).swc.consent = y.swc.consent ∧
      (setSwitch w y).exc = y.exc ∧ (setSwitch w y).ce = y.ce := by
    intro w y; unfold setSwitch; dsimp only; split <;> exact ⟨rfl, rfl, rfl, rfl⟩
  have hb : ∀ w (y : State), (beginDrive w y).swc.set = y.swc.set ∧ (beginDrive w y).swc.consent = y.swc.consent ∧
      (beginDrive w y).exc = y.exc ∧ (beginDrive w y).ce = y.ce := by
    intro w y; unfold beginDrive; exact hs _ _
  unfold respond
  repeat' split
  all_goals first
    | exact ⟨rfl, rfl, rfl, rfl⟩
    | exact hs _ _
    | exact hb _ _

/-- an evaluation does what Evaluated says -/
theorem ev_main {s0 s : State} {x : Exc} (h1 : s.swc = s0.swc) (h2 : s.ce.deferral = s0.ce.deferral) (h3 : s.bat.clock =
    s0.bat.clock) (h4 : s.exc = x) :
    Evaluated s.ce.money.b (creditLimit s) s.ce.window x s0 (evaluate s) := by
  refine ⟨?_, ?_, ?_, ?_⟩
  · intro hd
    unfold evaluate
    rw [if_pos hd]
    unfold removeReason
    split
    · refine ⟨?_, rfl, ?_⟩
      · show (respond _ _).swc.set = _
        rw [(respond_all _ _).1, h1]; rfl
      · show (respond _ _).exc.notices = _
        rw [(respond_all _ _).2.2.1, h4]
    · rename_i h
      have : s.swc.set.credit = false := by simpa [hasReason] using h
      refine ⟨?_, rfl, by show s.exc.notices = _; rw [h4]⟩
      show s.swc.set = _
      rw [← h1]
      cases hs : s.swc.set
      rw [hs] at this
      simp at this
      simp [this]
  · intro hd hc
    have : evaluate s = s := by
      unfold evaluate
      rw [if_neg (by omega), if_pos (by rw [h1]; exact hc)]
    rw [this]
    exact ⟨h1, h2, by rw [h4]⟩
  · intro hd hc hw
    have : evaluate s = setDeferral false (addReason .credit s) := by
      unfold evaluate
      rw [if_neg (by omega), if_neg (by rw [h1, hc]; simp), if_neg (by rw [hw]; simp)]
    rw [this]
    unfold addReason
    rw [if_neg (by show ¬s.swc.set.credit = true; rw [h1, hc]; simp)]
    refine ⟨?_, ?_, rfl, ?_⟩
    · show (respond _ _).swc.set = _
      rw [(respond_all _ _).1, h1]; rfl
    · show (respond _ _).swc.consent = _
      rw [(respond_all _ _).2.1]
    · show (respond _ _).exc.notices = _
      rw [(respond_all _ _).2.2.1, h4]
  · intro hd hc hw
    unfold evaluate
    rw [if_neg (by omega), if_neg (by rw [h1, hc]; simp), if_pos hw]
    dsimp only
    rw [h2]
    split
    · exact ⟨h1, rfl, by show s.exc.notices = _; rw [h4]⟩
    · exact ⟨h1, rfl, by show (s.exc.post s.bat.clock _).notices = _; rw [h4, h3]⟩

theorem Evaluated_congr {b d w x s t u} (h : Evaluated b d w x s t) (h1 : u.swc = t.swc) (h2 : u.ce.deferral =
    t.ce.deferral) (h3 : u.exc.notices = t.exc.notices) : Evaluated b d w x s u := by
  unfold Evaluated at *
  rw [h1, h2, h3]
  exact h

theorem window_ne {s : State} (h : windowAt s s.bat.clock ≠ s.ce.window) : Evaluated s.ce.money.b (creditLimit s)
    (windowAt s s.bat.clock) s.exc s (recomputeWindow s) := by
  unfold recomputeWindow
  dsimp only
  rw [if_neg h]
  exact ev_main (s0 := s) (s := { s with ce := { s.ce with window := windowAt s s.bat.clock } }) rfl rfl rfl rfl

theorem bandIn_split : ∀ (before : List SwitchPoint) p after m b, (∀ q ∈ before, q.minute ≤ m) → p.minute ≤ m → (∀ q,
    after.head? = some q → m < q.minute) → bandIn (before ++ p :: after) m b = p.band
  | [], p, after, m, b, _, h2, h3 => by
    simp only [List.nil_append, bandIn, h2, if_true]
    cases after with
    | nil => rfl
    | cons q r =>
      have := h3 q rfl
      simp only [bandIn]
      rw [if_neg (by omega)]
  | q :: before, p, after, m, b, h1, h2, h3 => by
    simp only [List.cons_append, bandIn]
    rw [if_pos (h1 q (by simp))]
    exact bandIn_split before p after m _ (fun r hr => h1 r (by simp [hr])) h2 h3

/-- frame of a clock step -/
theorem arrive_outside (o) (s : State) : (arrive o s).exc = s.exc ∧ (arrive o s).bat = s.bat ∧ (arrive o s).ce = s.ce ∧
    (arrive o s).psv = s.psv := by
  unfold arrive
  split
  · exact ⟨rfl, rfl, rfl, rfl⟩
  · unfold runArbiter; split <;> exact ⟨rfl, rfl, rfl, rfl⟩

theorem report_frame (a b) (s : State) : (reportStep a b s).exc = s.exc ∧ (reportStep a b s).bat = s.bat ∧
    (reportStep a b s).ce = s.ce ∧ (reportStep a b s).psv = s.psv := by
  unfold reportStep
  split
  · exact ⟨rfl, rfl, rfl, rfl⟩
  split
  · exact ⟨rfl, rfl, rfl, rfl⟩
  · unfold rollInterval
    split
    · split
      · exact ⟨rfl, rfl, rfl, rfl⟩
      · exact arrive_outside _ _
    · exact ⟨rfl, rfl, rfl, rfl⟩

theorem steer_frame (x : State) : (steerRule x).toModules = x.toModules ∧ (steerRule x).exc = x.exc ∧
    (steerRule x).flash = x.flash ∧ (steerRule x).bat = (if x.bat.steerDay < x.bat.clock / 86400 then
    { x.bat with steerDay := x.bat.clock / 86400, steerUsed := 0 } else x.bat) := by
  unfold steerRule dayOf; split <;> exact ⟨rfl, rfl, rfl, rfl⟩

theorem step_frame (t v) (s : State) : let u := clockStep t v s
    u.exc.mem = s.exc.mem ∧ u.exc.control = s.exc.control ∧ u.ce.money.b = s.ce.money.b ∧ u.flash = s.flash ∧
    u.ce.money = (if v then { s.ce.money with lastDay := s.bat.clock / 86400 } else s.ce.money) ∧
    u.bat = (if s.bat.steerDay < s.bat.clock / 86400 then { s.bat with steerDay := s.bat.clock / 86400, steerUsed := 0 }
        else s.bat) := by
  dsimp only
  unfold clockStep
  dsimp only
  have hr := report_frame t s.bat.clock { s with ce := { s.ce with minuteDue := false } }
  have hf := (show MeteringSame { s with ce := { s.ce with minuteDue := false } } (reportStep t s.bat.clock
      { s with ce := { s.ce with minuteDue := false } }) from by
    unfold reportStep
    exact metering_ite (metering_refl _) (metering_ite (metering_flag _ _) (metering_roll _ _ _ _ _))).flash
  generalize reportStep t s.bat.clock { s with ce := { s.ce with minuteDue := false } } = r at hr hf
  obtain ⟨r1, r2, r3, r4⟩ := hr
  have hl : (if v = true then setLastDay (dayOf r.bat.clock) r else r).exc = s.exc ∧
      (if v = true then setLastDay (dayOf r.bat.clock) r else r).bat = s.bat ∧
      (if v = true then setLastDay (dayOf r.bat.clock) r else r).ce.money = (if v = true then
      { s.ce.money with lastDay := s.bat.clock / 86400 } else s.ce.money) ∧
      (if v = true then setLastDay (dayOf r.bat.clock) r else r).flash = s.flash := by
    have r3' : r.ce.money = s.ce.money := by rw [r3]
    cases v
    · exact ⟨r1, r2, r3', hf⟩
    · refine ⟨r1, r2, ?_, hf⟩
      simp only [if_true, setLastDay, dayOf, r2, r3']
  generalize (if v = true then setLastDay (dayOf r.bat.clock) r else r) = w at hl
  obtain ⟨l1, l2, l3, l4⟩ := hl
  have hw := recomputeWindow_frame (recomputeBand w)
  generalize recomputeWindow (recomputeBand w) = x at hw
  obtain ⟨_, _, _, w4, w5, w6, w7, w8, _⟩ := hw
  obtain ⟨x1, x2, x3, x4⟩ := steer_frame x
  have hm : (steerRule x).ce.money = (if v = true then { s.ce.money with lastDay := s.bat.clock / 86400 } else
      s.ce.money) := by
    rw [show (steerRule x).ce = x.ce from by rw [x1], w6]; exact l3
  refine ⟨?_, ?_, ?_, ?_, hm, ?_⟩
  · rw [x2, w5]; show w.exc.mem = _; rw [l1]
  · rw [x2, w8]; show w.exc.control = _; rw [l1]
  · rw [hm]; cases v <;> rfl
  · rw [x3, w7]; exact l4
  · have hb2 : (recomputeBand w).bat = s.bat := l2
    rw [x4, w4, hb2]

theorem steer_all (a) (s : State) : let u := steer a s
    u.exc.mem = s.exc.mem ∧ u.exc.control = s.exc.control ∧ u.ce.money = s.ce.money ∧ u.flash = s.flash ∧
    u.bat = (if s.bat.steerDay < ((s.bat.clock : Int) + a).toNat / 86400 then
        { s.bat with clock := ((s.bat.clock : Int) + a).toNat, steerDay := ((s.bat.clock : Int) + a).toNat / 86400, steerUsed := 0 }
        else { s.bat with clock := ((s.bat.clock : Int) + a).toNat, steerUsed := s.bat.steerUsed + a.natAbs }) := by
  dsimp only
  unfold steer
  dsimp only
  split
  · obtain ⟨x1, x2, x3, x4⟩ := steer_frame
      { s with bat := { s.bat with clock := ((s.bat.clock : Int) + a).toNat, steerUsed := s.bat.steerUsed + a.natAbs } }
    exact ⟨by rw [x2],
        by rw [x2], by rw [show (steerRule _).ce = _ from congrArg Modules.ce x1], by rw [x3], by rw [x4]⟩
  · have h := step_frame s.bat.clock false
      { s with bat := { s.bat with clock := ((s.bat.clock : Int) + a).toNat, steerUsed := s.bat.steerUsed + a.natAbs } }
    exact ⟨h.1, h.2.1, h.2.2.2.2.1, h.2.2.2.1, h.2.2.2.2.2⟩

theorem applied_eq (x : Int) (b : Bat) (hc : b.clock ≤ 4294967295) : appliedStep x b = max (-(b.clock : Int)) (min (max
    (-(max (900 - b.steerUsed : Int) 0)) (min x (max (900 - b.steerUsed : Int) 0))) (4294967295 - b.clock)) := by
  unfold appliedStep allowanceLeft
  dsimp only
  repeat' split
  all_goals omega

theorem finish_mem (i r f l) (u : State) : (finishControl i r f l u).exc.mem = doneMem i r f 0 l u.exc.mem := rfl

theorem finish_bat (i r f l) (u : State) : (finishControl i r f l u).bat = u.bat := rfl

theorem finish_ctl (i r f l) (u : State) : (finishControl i r f l u).exc.control = ⟨u.exc.control.queue.tail, false⟩ :=
    rfl

theorem finish_mod (i r f l) (u : State) : (finishControl i r f l u).toModules = u.toModules := rfl

theorem finish_flash (i r f l) (u : State) : (finishControl i r f l u).flash = u.flash := rfl

theorem saveTaken_of {k : SaveKind} {t u : Stc} (h : ∀ q ∈ t.queue, q.op = .save k → ∃ q' ∈ u.queue,
    q'.op = .save k) (hq : ∃ q ∈ t.queue, q.op = .save k) : SaveTaken k u := by
  obtain ⟨q, h1, h2⟩ := hq; exact Or.inl (h q h1 h2)

theorem mem_erase_save {k : SaveKind} {l : List QItem} {w : QItem} (hw : w.op ≠ .save k) (h : ∃ q ∈ l,
    q.op = .save k) : ∃ q ∈ l.erase w, q.op = .save k := by
  obtain ⟨q, h1, h2⟩ := h
  refine ⟨q, ?_, h2⟩
  rw [List.mem_erase_of_ne]
  · exact h1
  · intro e; subst e; exact hw h2

theorem mem_savesOf {k : SaveKind} {l : List QItem} (h : ∃ q ∈ l, q.op = .save k) : k ∈ savesOf l := by
  obtain ⟨q, h1, h2⟩ := h
  unfold savesOf
  rw [List.mem_filterMap]
  exact ⟨q, h1, by rw [h2]⟩

theorem beginOp_taken {k} (f image q) (t : Stc) (h : ∃ q ∈ t.queue,
    q.op = .save k) : SaveTaken k (beginOp f image q t) := by
  unfold beginOp
  split
  · right
    refine ⟨_, _, rfl, ?_⟩
    simp only [List.nil_append]
    exact mem_savesOf h
  · rename_i b hb; left; exact mem_erase_save (by rw [hb]; simp) h
  · rename_i hb; left; exact mem_erase_save (by rw [hb]; simp) h
  · rename_i e hb
    split
    · dsimp only
      split
      · rename_i w hw
        split
        · rename_i hx; left; exact mem_erase_save (by rw [hx]; simp) h
        · exact Or.inl h
      · exact Or.inl h
    · left; exact mem_erase_save (by rw [hb]; simp) h

theorem raise_taken {k} (f) (t : Stc) (h : ∃ q ∈ t.queue, q.op = .save k) : ∃ q ∈ (raiseErase f t).queue,
    q.op = .save k := by
  unfold raiseErase
  split
  · obtain ⟨q, h1, h2⟩ := h
    refine ⟨q, ?_, h2⟩
    rw [List.mem_map]
    exact ⟨q, h1, by rw [h2]⟩
  · exact h

theorem arbitrate_taken {k} (f image) (t : Stc) (h : ∃ q ∈ t.queue,
    q.op = .save k) : SaveTaken k (arbitrate f image t) := by
  have h1 : ∃ q ∈ ({ t with queue := t.queue.filter (fun q => match q.op with | .bit b => !bitOf t.copy b | _ => true) }
      : Stc).queue, q.op = .save k := by
    obtain ⟨q, h1, h2⟩ := h
    refine ⟨q, ?_, h2⟩
    rw [List.mem_filter]
    exact ⟨h1, by rw [h2]⟩
  have h2 := raise_taken f _ h1
  unfold arbitrate
  dsimp only
  split
  · split
    · exact beginOp_taken _ _ _ _ h2
    · exact Or.inl h2
  · exact Or.inl h2

theorem arrive_taken (k) (s : State) (hf : s.stc.fault = false) (ht : storeTakes s.psv = true) : SaveTaken k (arrive
    (.save k) s).stc := by
  have hq : ∃ q ∈ (enqueue (.save k) s.stc).queue, q.op = .save k := ⟨⟨.save k, false⟩, by simp [enqueue], rfl⟩
  unfold arrive
  rw [hf, ht]
  simp only [Bool.not_true, Bool.or_self, Bool.false_eq_true, if_false]
  unfold runArbiter
  split
  · exact arbitrate_taken _ _ _ hq
  · exact Or.inl hq

theorem popCode_complete_modules (i r f n l) (x : State) : (popCode (complete i r f n l x)).toModules = x.toModules :=
    rfl

theorem popCode_complete_bat (i r f n l) (x : State) : (popCode (complete i r f n l x)).bat = x.bat := rfl

theorem popCode_complete_flash (i r f n l) (x : State) : (popCode (complete i r f n l x)).flash = x.flash := rfl

theorem popCode_complete_mem (i r f n l) (x : State) : (popCode (complete i r f n l x)).exc.mem = doneMem i r f n l
    x.exc.mem := rfl

theorem popCode_complete_code (i r f n l) (x : State) : (popCode (complete i r f n l x)).exc.code =
    ⟨x.exc.code.queue.tail, false⟩ := rfl

theorem evalFrame_low (s : State) : EvalFrame s (lowCredit s) := by
  have h1 : ∀ t : State, EvalFrame s t → ∀ b (p : Bool), EvalFrame s (if p then post b t else t) :=
      fun t h b p => evalFrame_ite (evalFrame_trans h (evalFrame_post _ _)) h
  unfold lowCredit
  refine h1 _ (h1 _ ?_ _ _) _ _
  exact ⟨⟨rfl, rfl, rfl⟩, rfl, rfl, rfl, rfl, rfl, rfl, rfl⟩

theorem arrive_parts (o) (s : State) : (arrive o s).exc = s.exc ∧ (arrive o s).bat = s.bat ∧ (arrive o s).ce = s.ce ∧
    (arrive o s).psv = s.psv ∧ (arrive o s).ee = s.ee ∧ (arrive o s).cau = s.cau ∧ (arrive o s).swc = s.swc ∧
    (arrive o s).kps = s.kps ∧ (arrive o s).rlr = s.rlr ∧ (arrive o s).flash = s.flash ∧
    (arrive o s).tmoHead = s.tmoHead := by
  unfold arrive
  split
  · exact ⟨rfl, rfl, rfl, rfl, rfl, rfl, rfl, rfl, rfl, rfl, rfl⟩
  · unfold runArbiter; split <;> exact ⟨rfl, rfl, rfl, rfl, rfl, rfl, rfl, rfl, rfl, rfl, rfl⟩

theorem low_exc (s : State) : let b := s.ce.money.b
    let l1 := s.cau.settings.l1
    let l2 := s.cau.settings.l2
    let t := lowCredit s
    t.ce = { s.ce with
      arm1 := decide (if s.ce.arm1 = true then (l1 : Int) ≤ b else (l1 : Int) < b),
      arm2 := decide (if s.ce.arm2 = true then (l2 : Int) ≤ b else (l2 : Int) < b) } ∧
    t.exc = (postAll ((if s.ce.arm1 = true ∧ b < l1 then [.creditLow1 b l1] else []) ++
      (if s.ce.arm2 = true ∧ b < l2 then [.creditLow2 b l2] else [])) s).exc ∧
    t.swc = s.swc ∧ t.bat = s.bat ∧ t.stc = s.stc ∧ t.cau = s.cau := by
  have hf : ∀ a (b : Int) (t : Nat), (armStep a b t).1 = decide (if a = true then (t : Int) ≤ b else (t : Int) < b) :=
      by
    intro a b t
    unfold armStep
    cases a
    · rfl
    · simp only [if_true]
      split
      · rename_i h; simp; omega
      · rename_i h; simp; omega
  have hg : ∀ a (b : Int) (t : Nat), (armStep a b t).2 = decide (a = true ∧ b < t) := by
    intro a b t
    unfold armStep
    cases a
    · rfl
    · simp only [if_true]
      split <;> simp_all
  dsimp only
  rw [← hf, ← hf]
  unfold lowCredit
  dsimp only
  rw [hg, hg]
  have key : ∀ (p q : Prop) [Decidable p] [Decidable q] (v : State) (b1 c : NoticeBody), v.bat = s.bat → v.exc = s.exc →
      let u := if decide p = true then post b1 v else v
      let t := if decide q = true then post c u else u
      t.ce = v.ce ∧ t.exc = (postAll ((if p then [b1] else []) ++ (if q then [c] else [])) s).exc ∧ t.swc = v.swc ∧
          t.bat = v.bat ∧ t.stc = v.stc ∧ t.cau = v.cau := by
    intro p q _ _ v b1 c h1 h2
    by_cases hp : p <;> by_cases hq : q
    all_goals simp only
        [hp, hq, decide_true, decide_false, if_true, if_false, Bool.false_eq_true, List.append_nil, List.nil_append]
    all_goals refine ⟨by trivial, ?_, by trivial, by trivial, by trivial, by trivial⟩
    all_goals simp only [postAll, post, List.foldl, h1, h2, List.cons_append, List.nil_append]
  have h := key (s.ce.arm1 = true ∧ s.ce.money.b < (s.cau.settings.l1 : Int)) (s.ce.arm2 = true ∧
      s.ce.money.b < (s.cau.settings.l2 : Int))
      { s with ce := { s.ce with arm1 := (armStep s.ce.arm1 s.ce.money.b s.cau.settings.l1).1, arm2 := (armStep s.ce.arm2 s.ce.money.b s.cau.settings.l2).1 } }
      (.creditLow1 s.ce.money.b s.cau.settings.l1) (.creditLow2 s.ce.money.b s.cau.settings.l2) rfl rfl
  dsimp only at h
  have hset : ∀ (p : Bool) (b : NoticeBody) (v : State), (if p = true then post b v else v).cau.settings.l2 =
      v.cau.settings.l2 := by
    intro p b v; cases p <;> rfl
  rw [hset]
  exact h

theorem respond_set (b) (x : State) : (respond b x).swc.set = x.swc.set ∧ (respond b x).swc.tripMem = x.swc.tripMem :=
    by
  have hs : ∀ w (y : State), (setSwitch w y).swc.set = y.swc.set ∧ (setSwitch w y).swc.tripMem = y.swc.tripMem := by
    intro w y; unfold setSwitch; dsimp only; split <;> exact ⟨rfl, rfl⟩
  have hb : ∀ w (y : State), (beginDrive w y).swc.set = y.swc.set ∧ (beginDrive w y).swc.tripMem = y.swc.tripMem := by
    intro w y; unfold beginDrive; exact hs _ _
  unfold respond
  repeat' split
  all_goals first
    | exact ⟨rfl, rfl⟩
    | exact hs _ _
    | exact hb _ _

theorem mem_insert (n x) : ∀ l, x ∈ insertSorted n l ↔ x = n ∨ x ∈ l
  | [] => by simp [insertSorted]
  | y :: l => by
    unfold insertSorted
    split
    · simp
    · simp only [List.mem_cons, mem_insert n x l]
      constructor
      · rintro (h | h | h) <;> simp [h]
      · rintro (h | h | h) <;> simp [h]

/-! ### Decisions of a package and of a rise -/

/-- A package fails the target test when its serial differs or there is no complete record. -/
theorem serialAgrees_false {n : Nat} {s : State} :
    serialAgrees n s = false ↔ n ≠ s.cau.serial ∨ newestRecord s.flash.records = none := by
  unfold serialAgrees
  cases h : newestRecord s.flash.records <;> simp

/-- The slot of the PAUSED bulk request that stands POSTED is continued. -/
theorem continues_of {b : BulkRun} {m : Memory} (h : slotState m b.slot = POSTED) (p : b.paused = true) :
    continues (some b) m b.slot = true := by
  unfold continues
  simp [h, p]

end Sys2Proof.Machine
end

