-- ==== Sys2Proof/Laws/FramesStore.lean ====
section
/-! SUPPORT. Laws/FramesStore.lean:
what the operations of switch, tamper, store, port and power leave unchanged. -/

set_option Elab.async false

namespace Sys2Proof.Machine

open Sys2Proof

/-- s with the recognizer x. -/
def rxState (s : State) (x : Recognizer) : State := { s with rlr := { s.rlr with rx := x } }

theorem lineByte_framed (s : State) (h : s.psv.power = .run) (x b) : lineByte b true (rxState s x) = framedByte b
    (rxState s x) := by
  unfold lineByte rxState; simp [h]

theorem lineByte_address (s : State) (h : s.psv.power = .run) (t b) (h1 : ¬(6 ≤ t.length ∧
    t.getD (t.length % 6) 0 ≠ b)) (h2 : t.length + 1 ≠ 18) :
    lineByte b true (rxState s (.address t)) = rxState s (.address (t ++ [b])) := by
  rw [lineByte_framed s h]; unfold framedByte rxState addressByte; dsimp only
  rw [if_neg h1, if_neg (by simpa using h2)]; rfl

theorem lineByte_lastAddress (s : State) (h : s.psv.power = .run) (t b) (a : List Byte) (u : List Byte) (h4 : (t ++
    [b]).take 6 = a) (h5 : t ++ [b] = u) (h1 : ¬(6 ≤ t.length ∧
    t.getD (t.length % 6) 0 ≠ b)) (h2 : t.length + 1 = 18) (h3 : addressMatches s a = true) :
    lineByte b true (rxState s (.address t)) = rxState s (.kind (ownAddress s a) u) := by
  subst h4; subst h5
  rw [lineByte_framed s h]; unfold framedByte rxState addressByte; dsimp only
  rw [if_neg h1, if_pos (by simpa using h2)]
  have : addressMatches ({ s with rlr := { s.rlr with rx := .address t } }) ((t ++ [b]).take 6) = true := h3
  rw [if_pos this]; rfl

theorem lineByte_payload (s : State) (h : s.psv.power = .run) (own : Bool) : ∀ (p t : List Byte), p ≠ [] →
    p.foldl (fun t b => lineByte b true t) (rxState s (.payload own t p.length)) = rxState s (.check own (t ++ p))
  | [], _, h => absurd rfl h
  | [b], t, _ => by
    simp only [List.foldl]; rw [lineByte_framed s h]; rfl
  | b :: c :: p, t, _ => by
    have ih := lineByte_payload s h own (c :: p) (t ++ [b]) (by simp)
    rw [List.foldl_cons, lineByte_framed s h]
    have : framedByte b (rxState s (.payload own t (b :: c :: p).length)) = rxState s (.payload own (t ++ [b]) (c ::
        p).length) := by
      unfold framedByte rxState; simp [setRx]
    rw [this, ih]; simp

theorem lineByte_check (s : State) (h : s.psv.power = .run) (own : Bool) (t : List Byte) (b : Byte) : lineByte b true
    (rxState s (.check own t)) = if (t ++ [b]).length < 22 + field t 19 1 then rxState s (.check own (t ++ [b])) else
    if callValid (t ++ [b]) then takeCall own (t ++ [b]) (rxState s (.hunt 0)) else rxState s (.hunt 0) := by
  rw [lineByte_framed s h]; show checkByte own t b (rxState s (.check own t)) = _; unfold checkByte; rfl

theorem sum_fold : ∀ (l : List Byte) (n : Nat), l.foldl (fun a b => a + b.toNat) n = n + (l.map BitVec.toNat).sum
  | [], n => by simp
  | b :: l, n => by simp only [List.foldl_cons, sum_fold l, List.map_cons, List.sum_cons]; omega

theorem setSwitch_swc (w) (s : State) : (setSwitch w s).swc =
    { s.swc with sw := w, overLimit := (if w = .closed then s.swc.overLimit else 0), mark := s.swc.mark && heldOpen s.psv.inService { s.swc with sw := w, overLimit := (if w = .closed then s.swc.overLimit else 0) } }
    ∧ (setSwitch w s).ce = s.ce ∧ (setSwitch w s).cau = s.cau ∧ (setSwitch w s).stc = s.stc ∧
    (setSwitch w s).bat = s.bat ∧ (setSwitch w s).flash = s.flash ∧ (setSwitch w s).exc = s.exc ∧
    (setSwitch w s).psv = s.psv := by
  unfold setSwitch; dsimp only; split <;> exact ⟨rfl, rfl, rfl, rfl, rfl, rfl, rfl, rfl⟩

/-- switch state and drive become w and d; set, consent, sense and the rest stay -/
structure SwitchTo (w : SwitchState) (d : Option Drive) (n : List Notice) (s t : State) : Prop where
  sw : t.swc.sw = w
  drive : t.swc.drive = d
  set : t.swc.set = s.swc.set
  consent : t.swc.consent = s.swc.consent
  sense : t.swc.lastSense = s.swc.lastSense
  notices : t.exc.notices = n
  mem : t.exc.mem = s.exc.mem
  ce : t.ce = s.ce
  flash : t.flash = s.flash
  psv : t.psv = s.psv

theorem sw_end (w : SwitchState) (driven n) (s : State) : SwitchTo w none (s.exc.post s.bat.clock (.supplyChanged w
    driven n s.swc.set)).notices s (post (.supplyChanged w driven n (setDrive none (setSwitch w s)).swc.set) (setDrive
    none (setSwitch w s))) := by
  have hx := setSwitch_swc w s
  generalize setSwitch w s = y at *
  obtain ⟨x1, x2, x3, x4, x5, x6, x7, x8⟩ := hx
  refine ⟨?_, rfl, ?_, ?_, ?_, ?_, ?_, x2, x6, x8⟩
  · have x9 := congrArg Swc.sw x1; exact x9
  · have x9 := congrArg Swc.set x1; exact x9
  · have x9 := congrArg Swc.consent x1; exact x9
  · have x9 := congrArg Swc.lastSense x1; exact x9
  · show (y.exc.post y.bat.clock (.supplyChanged _ _ _ y.swc.set)).notices = _
    rw [x7, x5, x1]
  · rw [(post_exc_parts _ _).1]; show y.exc.mem = _; rw [x7]

theorem sw_go (w : SwitchState) (d) (s : State) : SwitchTo w (some d) s.exc.notices s
    { setSwitch w s with swc := { (setSwitch w s).swc with drive := some d, mark := false } } := by
  have hx := setSwitch_swc w s
  generalize setSwitch w s = y at *
  obtain ⟨x1, x2, x3, x4, x5, x6, x7, x8⟩ := hx
  refine ⟨?_, rfl, ?_, ?_, ?_, ?_, ?_, x2, x6, x8⟩
  · have x9 := congrArg Swc.sw x1; exact x9
  · have x9 := congrArg Swc.set x1; exact x9
  · have x9 := congrArg Swc.consent x1; exact x9
  · have x9 := congrArg Swc.lastSense x1; exact x9
  · show y.exc.notices = _; rw [x7]
  · show y.exc.mem = _; rw [x7]

theorem sw_succeed (d driven n) (s : State) :
    SwitchTo (match d with
      | .toClose => SwitchState.closed
      | .toOpen => if noReason s.swc.set then .ready else .opened) none
    (s.exc.post s.bat.clock (.supplyChanged (match d with
      | .toClose => SwitchState.closed
      | .toOpen => if noReason s.swc.set then .ready else .opened) driven n s.swc.set)).notices s
    (succeed d driven n s) := sw_end _ _ _ _

theorem sw_begin (d) (s : State) :
    SwitchTo (match d with
      | .toOpen => .opening
      | .toClose => .closing) (some ⟨d, 1, false, false, none⟩) s.exc.notices s (beginDrive d s) := sw_go _ _ _

theorem sw_unknown (s : State) : SwitchTo .unknown none s.exc.notices s (setDrive none (setSwitch .unknown s)) := by
  have hx := setSwitch_swc .unknown s
  generalize setSwitch .unknown s = y at *
  obtain ⟨x1, x2, x3, x4, x5, x6, x7, x8⟩ := hx
  refine ⟨?_, rfl, ?_, ?_, ?_, ?_, ?_, x2, x6, x8⟩
  · have x9 := congrArg Swc.sw x1; exact x9
  · have x9 := congrArg Swc.set x1; exact x9
  · have x9 := congrArg Swc.consent x1; exact x9
  · have x9 := congrArg Swc.lastSense x1; exact x9
  · show y.exc.notices = _; rw [x7]
  · show y.exc.mem = _; rw [x7]

theorem agree_all (s : State) : (tamperAgree s).swc.set = { s.swc.set with tamper := tamperRequired s } ∧
    (tamperAgree s).exc = s.exc ∧ (tamperAgree s).ce = s.ce ∧ (tamperAgree s).bat = s.bat ∧
    (tamperAgree s).cau = s.cau ∧ (tamperAgree s).psv = s.psv ∧ (tamperAgree s).stc = s.stc ∧
    (tamperAgree s).flash = s.flash := by
  unfold tamperAgree
  split
  · rename_i h
    have e := evalFrame_add .tamper s
    have q := metering_add .tamper s
    refine ⟨?_, ?_, ?_, e.2, e.6, e.7, e.8, q.9⟩
    · rw [h]; unfold addReason
      split
      · rename_i h2
        have : s.swc.set.tamper = true := h2
        cases hs : s.swc.set; rw [hs] at this; simp at this; simp [this]
      · rw [(respond_all _ _).1]; rfl
    · unfold addReason; split; rfl; rw [(respond_all _ _).2.2.1]
    · unfold addReason; split; rfl; rw [(respond_all _ _).2.2.2]
  · rename_i h
    have h : tamperRequired s = false := by simpa using h
    have e := evalFrame_rem .tamper s
    have q := metering_remove .tamper s
    refine ⟨?_, ?_, ?_, e.2, e.6, e.7, e.8, q.9⟩
    · rw [h]; unfold removeReason
      split
      · rw [(respond_all _ _).1]; rfl
      · rename_i h2
        have : s.swc.set.tamper = false := by simpa [hasReason] using h2
        cases hs : s.swc.set; rw [hs] at this; simp at this; simp [this]
    · unfold removeReason; split; rw [(respond_all _ _).2.2.1]; rfl
    · unfold removeReason; split; rw [(respond_all _ _).2.2.2]; rfl

theorem tamper_congr {s t : State} (h1 : t.psv = s.psv) (h2 : t.bat.kinds = s.bat.kinds) (h3 : t.cau = s.cau) :
    tamperRequired t = tamperRequired s := by
  unfold tamperRequired isDeclared; rw [h1, h2, h3]

theorem perKind_set_set {α : Type} (p : PerKind α) (k : Kind) (x y : α) : (p.set k x).set k y = p.set k y := by
  cases k <;> rfl

theorem perKind_get_set_same {α : Type} (p : PerKind α) (k : Kind) (x : α) : (p.set k x).get k = x := by cases k <;> rfl

/-- a declaration in an outage, from a state whose record of k is r -/
theorem outage_main (k : Kind) (r : KindRec) (x : KindState) (s : State) :
    OutageDeclared k r s (refresh (declareInOutage k
        { s with bat := { s.bat with kinds := s.bat.kinds.set k { r with state := x } } })) := by
  have hr := refresh_frame (declareInOutage k
      { s with bat := { s.bat with kinds := s.bat.kinds.set k { r with state := x } } })
  generalize refresh (declareInOutage k
      { s with bat := { s.bat with kinds := s.bat.kinds.set k { r with state := x } } }) = u at hr
  obtain ⟨m1, m2, m3, m4, m5, m6, _⟩ := hr
  have hc : countDeclaration k { s with bat := { s.bat with kinds := s.bat.kinds.set k { r with state := x } } } =
      { s with bat := { s.bat with kinds := s.bat.kinds.set k { r with
    state := .declared, count := min 65535 (r.count + 1), last := some s.bat.clock, first :=
        some (r.first.getD s.bat.clock) } } } := by
    unfold countDeclaration mapKind
    dsimp only
    rw [perKind_set_set, perKind_get_set_same]
    cases r.first <;> rfl
  have ha := agree_all (countDeclaration k
      { s with bat := { s.bat with kinds := s.bat.kinds.set k { r with state := x } } })
  unfold declareInOutage at m1 m2 m3 m4 m5 m6
  generalize tamperAgree (countDeclaration k
      { s with bat := { s.bat with kinds := s.bat.kinds.set k { r with state := x } } }) = y at *
  rw [hc] at ha
  obtain ⟨a1, a2, a3, a4, a5, a6, a7, a8⟩ := ha
  have hn : y.bat.notes.get k = s.bat.notes.get k := by rw [a4]
  have key : ∀ z : State, u.toModules = z.toModules → u.bat = z.bat → u.flash = z.flash → u.psv = z.psv →
      u.exc.mem = z.exc.mem → u.exc.notices = z.exc.notices → z.toModules = y.toModules → z.bat.kinds = y.bat.kinds →
      z.bat.notes = (if s.bat.notes.get k = none
    then s.bat.notes.set k (some ⟨s.bat.clock, k, .declared, s.psv.power, y.swc.sw, s.ce.money.b, r.counter⟩)
    else s.bat.notes) → z.exc = y.exc → z.flash = y.flash → z.psv = y.psv → OutageDeclared k r s u := by
    intro z b1 b2 b3 b4 b5 b6 c1 c2 c3 c4 c5 c6
    unfold OutageDeclared
    have ht : tamperRequired u = tamperRequired y := tamper_congr (b4.trans c6) (by rw [b2, c2]) (by rw [b1, c1])
    have ht2 : tamperRequired y = tamperRequired { s with bat := { s.bat with kinds := s.bat.kinds.set k { r with
    state := .declared, count := min 65535 (r.count + 1), last := some s.bat.clock, first :=
        some (r.first.getD s.bat.clock) } } } := tamper_congr a6 (by rw [a4]) a5
    rw [b2, b5, b6, b3, ht, b1, c1, c2, c3, c4, c5, a4, a2, a8, a3, a7, ht2]
    exact ⟨rfl, rfl, a1, rfl, rfl, rfl, rfl, rfl⟩
  dsimp only at m1 m2 m3 m4 m5 m6
  cases he : y.bat.notes.get k with
  | some e =>
    simp only [he] at m1 m2 m3 m4 m5 m6
    exact key _ m1 m2 m3 m4 m5 m6 rfl rfl (by rw [← hn, he, a4]; simp) rfl rfl rfl
  | none =>
    simp only [he] at m1 m2 m3 m4 m5 m6
    refine key { y with bat := { y.bat with notes := y.bat.notes.set k (some (logEntry k .declared y)) } } m1 m2 m3 m4
        m5 m6 rfl rfl ?_ rfl rfl rfl
    rw [← hn, he, if_pos rfl]
    unfold logEntry
    dsimp only
    rw [a4, a6, a3]
    dsimp only
    rw [perKind_get_set_same]

/-- What the arbiter leaves of the store controller. -/
structure ArbiterFrame (t u : Stc) : Prop where
  fault : u.fault = t.fault
  copy : u.copy = t.copy
  fail : u.failCount = t.failCount
  periodic : u.periodic = t.periodic
  logPos : u.logPos = t.logPos
  profPos : u.profPos = t.profPos

theorem arbiterFrame_refl (t : Stc) : ArbiterFrame t t := ⟨rfl, rfl, rfl, rfl, rfl, rfl⟩

theorem arbiterFrame_trans {a b c : Stc} (h : ArbiterFrame a b) (k : ArbiterFrame b c) : ArbiterFrame a c :=
    ⟨k.1.trans h.1, k.2.trans h.2, k.3.trans h.3, k.4.trans h.4, k.5.trans h.5, k.6.trans h.6⟩

theorem arbiterFrame_beginOp (f i q) (t : Stc) : ArbiterFrame t (beginOp f i q t) := by
  unfold beginOp
  dsimp only
  repeat' split
  all_goals exact ⟨rfl, rfl, rfl, rfl, rfl, rfl⟩

theorem arbiterFrame_arbitrate (f i) (t : Stc) : ArbiterFrame t (arbitrate f i t) := by
  have hr : ∀ x : Stc, ArbiterFrame x (raiseErase f x) := by
    intro x; unfold raiseErase; split <;> exact ⟨rfl, rfl, rfl, rfl, rfl, rfl⟩
  have h0 : ArbiterFrame t
      { t with queue := t.queue.filter (fun q => match q.op with | .bit b => !bitOf t.copy b | _ => true) } := ⟨rfl,
      rfl, rfl, rfl, rfl, rfl⟩
  unfold arbitrate
  dsimp only
  split
  · split
    · exact arbiterFrame_trans (arbiterFrame_trans h0 (hr _)) (arbiterFrame_beginOp _ _ _ _)
    · exact arbiterFrame_trans h0 (hr _)
  · exact arbiterFrame_trans h0 (hr _)

theorem arbiterFrame_enqueue (o) (t : Stc) : ArbiterFrame t (enqueue o t) := by
  unfold enqueue; dsimp only
  repeat' split
  all_goals exact ⟨rfl, rfl, rfl, rfl, rfl, rfl⟩

theorem enqueue_keeps_prog (o) (t : Stc) : (enqueue o t).prog = t.prog := by
  unfold enqueue; dsimp only
  repeat' split
  all_goals rfl

theorem arbitrate_prog (f i) (t : Stc) (p) (h : t.prog = some p) : (arbitrate f i t).prog = some p := by
  have hp : ∀ x : Stc, (raiseErase f x).prog = x.prog := by
    intro x; unfold raiseErase; split <;> rfl
  have hv := hp { t with queue := t.queue.filter (fun q => match q.op with | .bit b => !bitOf t.copy b | _ => true) }
  unfold arbitrate
  dsimp only
  generalize raiseErase f
      { t with queue := t.queue.filter (fun q => match q.op with | .bit b => !bitOf t.copy b | _ => true) } = v at *
  have hv' : v.prog = some p := by rw [hv]; exact h
  have : arrayFree v = false := by unfold arrayFree; rw [hv']; rfl
  rw [this]; simp only [Bool.false_eq_true, if_false]; exact hv'

/-- What the operations of switch, credit and clock leave outside their own state. -/
structure OutsideFrame (s t : State) : Prop where
  cau : t.cau = s.cau
  psv : t.psv = s.psv
  stc : ArbiterFrame s.stc t.stc
  flash : t.flash = s.flash
  energy : t.ee.energy = s.ee.energy
  b : t.ce.money.b = s.ce.money.b
  mem : t.exc.mem = s.exc.mem
  live : t.exc.live = s.exc.live
  control : t.exc.control = s.exc.control
  prog : ∀ p, s.stc.prog = some p → t.stc.prog = some p

theorem outside_refl (s : State) : OutsideFrame s s := ⟨rfl, rfl, arbiterFrame_refl _, rfl, rfl, rfl, rfl, rfl, rfl,
    fun _ h => h⟩

theorem outside_trans {s t u : State} (h : OutsideFrame s t) (k : OutsideFrame t u) : OutsideFrame s u :=
    ⟨k.1.trans h.1, k.2.trans h.2, arbiterFrame_trans h.3 k.3, k.4.trans h.4, k.5.trans h.5, k.6.trans h.6,
    k.7.trans h.7, k.8.trans h.8, k.9.trans h.9, fun p e => k.10 p (h.10 p e)⟩

theorem outside_of {s t : State}
    (a : t.cau = s.cau := by rfl)
    (b : t.psv = s.psv := by rfl)
    (c : t.stc = s.stc := by rfl)
    (d : t.flash = s.flash := by rfl)
    (e : t.ee.energy = s.ee.energy := by rfl)
    (f : t.ce.money.b = s.ce.money.b := by rfl)
    (g : t.exc = s.exc := by rfl) :
    OutsideFrame s t := ⟨a, b, by rw [c]; exact arbiterFrame_refl _, d, e, f, by rw [g], by rw [g], by rw [g], fun p h => by rw [c]; exact h⟩

theorem outside_ite {s a b : State} {p : Prop} [Decidable p] (ha : OutsideFrame s a) (hb : OutsideFrame s b) :
    OutsideFrame s (if p then a else b) := by
  split
  · exact ha
  · exact hb

theorem outside_foldl {α : Type} {f : State → α → State} (hf : ∀ s x,
    OutsideFrame s (f s x)) : ∀ (l : List α) (s : State), OutsideFrame s (l.foldl f s)
  | [], s => outside_refl s
  | x :: rest, s => outside_trans (hf s x) (outside_foldl hf rest (f s x))

theorem outside_post (b) (s : State) : OutsideFrame s (post b s) := ⟨rfl, rfl, arbiterFrame_refl _, rfl, rfl, rfl,
    (post_exc_parts b s).1, (post_exc_parts b s).2.2.2.2.1, (post_exc_parts b s).2.1, fun _ h => h⟩

theorem outside_arb (s : State) : OutsideFrame s (runArbiter s) := by
  unfold runArbiter
  exact outside_ite ⟨rfl, rfl, arbiterFrame_arbitrate _ _ _, rfl, rfl, rfl, rfl, rfl, rfl,
      fun p h => arbitrate_prog _ _ _ p h⟩ (outside_refl s)

theorem outside_arrive (o) (s : State) : OutsideFrame s (arrive o s) := by
  unfold arrive
  have h : OutsideFrame s { s with stc := enqueue o s.stc } := ⟨rfl, rfl, arbiterFrame_enqueue _ _, rfl, rfl, rfl, rfl,
      rfl, rfl, fun p h => by rw [← h]; exact enqueue_keeps_prog _ _⟩
  exact outside_ite (outside_refl s) (outside_trans h (outside_arb _))

theorem outside_flag (f) (s : State) : OutsideFrame s (flagInterval f s) := outside_of

theorem outside_roll (e n f t) (s : State) : OutsideFrame s (rollInterval e n f t s) := by
  have ho : ∀ x t, OutsideFrame x (openInterval t x) := fun x t => outside_of
  have hd : ∀ x, OutsideFrame x (drawFree x) := fun x => outside_of
  unfold rollInterval
  split
  · exact outside_ite (ho _ _) (outside_trans (outside_trans (ho _ _) (outside_arrive _ _)) (hd _))
  · exact ho _ _

theorem outside_setSwitch (w) (s : State) : OutsideFrame s (setSwitch w s) := by
  obtain ⟨x1, x2, x3, x4, x5, x6, x7, x8⟩ := setSwitch_swc w s
  exact ⟨x3, x8,
      by rw [x4]; exact arbiterFrame_refl _, x6, by unfold setSwitch; dsimp only; split <;> rfl, by rw [x2], by rw [x7], by rw [x7], by rw [x7], fun p h => by rw [x4]; exact h⟩

theorem outside_beginDrive (d) (s : State) : OutsideFrame s (beginDrive d s) := by
  unfold beginDrive; exact outside_trans (outside_setSwitch _ _) outside_of

theorem outside_respond (b) (s : State) : OutsideFrame s (respond b s) := by
  unfold respond
  repeat' split
  all_goals first
    | exact outside_refl _
    | exact outside_setSwitch _ _
    | exact outside_beginDrive _ _

theorem outside_add (r) (s : State) : OutsideFrame s (addReason r s) := by
  unfold addReason; refine outside_ite (outside_refl s) (outside_trans ?_ (outside_respond _ _)); exact outside_of

theorem outside_rem (r) (s : State) : OutsideFrame s (removeReason r s) := by
  unfold removeReason; refine outside_ite (outside_trans ?_ (outside_respond _ _)) (outside_refl s); exact outside_of

theorem outside_agree (s : State) : OutsideFrame s (tamperAgree s) := outside_ite (outside_add _ _) (outside_rem _ _)

theorem outside_eval (s : State) : OutsideFrame s (evaluate s) := by
  have hd : ∀ b x, OutsideFrame x (setDeferral b x) := fun b x => outside_of
  unfold evaluate
  exact outside_ite (outside_trans (outside_rem _ s) (hd _ _)) (outside_ite (outside_refl s) (outside_ite (outside_ite
      (hd _ _) (outside_trans (hd _ _) (outside_post _ _))) (outside_trans (outside_add _ s) (hd _ _))))

theorem outside_low (s : State) : OutsideFrame s (lowCredit s) := by
  have h1 : ∀ t : State, OutsideFrame s t → ∀ b (p : Bool), OutsideFrame s (if p then post b t else t) :=
      fun t h b p => outside_ite (outside_trans h (outside_post _ _)) h
  unfold lowCredit
  refine h1 _ (h1 _ ?_ _ _) _ _
  exact outside_of

theorem outside_band (s : State) : OutsideFrame s (recomputeBand s) := outside_of

theorem outside_window (s : State) : OutsideFrame s (recomputeWindow s) := by
  unfold recomputeWindow; dsimp only
  refine outside_ite (outside_refl s) (outside_trans ?_ (outside_eval _)); exact outside_of

theorem outside_steer (s : State) : OutsideFrame s (steerRule s) := outside_ite outside_of (outside_refl s)

theorem outside_clockStep (t b) (s : State) : OutsideFrame s (clockStep t b s) := by
  have hr : ∀ a b (v : State), OutsideFrame v (reportStep a b v) := by
    intro a b v
    unfold reportStep
    exact outside_ite (outside_refl v) (outside_ite (outside_flag _ _) (outside_roll _ _ _ _ _))
  have h0 : OutsideFrame s { s with ce := { s.ce with minuteDue := false } } := outside_of
  have h1 : ∀ v : State, ∀ d, OutsideFrame v (if b then setLastDay d v else v) :=
      fun v d => outside_ite outside_of (outside_refl v)
  unfold clockStep
  exact outside_trans (outside_trans (outside_trans (outside_trans (outside_trans h0 (hr _ _ _)) (h1 _ _)) (outside_band
      _)) (outside_window _)) (outside_steer _)

theorem outside_setClock (c t) (s : State) : OutsideFrame s (setClock c t s) := by
  unfold setClock; dsimp only
  have h0 : OutsideFrame s
      { s with bat := { s.bat with clock := t, clockValid := true, clockSource := c, steerDay := dayOf t, steerUsed := 0 } }
      := outside_of
  exact outside_ite h0 (outside_trans h0 (outside_clockStep _ _ _))

theorem outside_take (c) (s : State) (x) : OutsideFrame s (takeIntoUse c s x) := by
  unfold takeIntoUse
  split
  case h_3 => exact outside_window s
  case h_4 => exact outside_ite (outside_eval _) (outside_refl s)
  case h_5 => exact outside_low s
  case h_8 => exact outside_agree s
  case h_11 => exact outside_ite (outside_refl s) (outside_roll _ _ _ _ _)
  case h_7 => exact outside_ite (outside_refl s) outside_of
  all_goals first
    | exact outside_refl s
    | exact outside_band s

theorem outside_takeClock (s : State) (x) : OutsideFrame s (takeClock s x) := by
  unfold takeClock; split
  · exact outside_setClock _ _ _
  · exact outside_refl s

theorem outside_apply (l) (s : State) : OutsideFrame
    { s with cau := { s.cau with settings := l.foldl settingsWith s.cau.settings } } (applySections l s) := by
  unfold applySections
  exact outside_trans (outside_foldl (outside_take _) _ _) (outside_foldl outside_takeClock _ _)

/-- The program carries the operation. -/
def serves : Prog → StoreOp → Prop
  | .record l _, .save k => k ∈ l
  | .entry e, .append e' => e = e'
  | .bit b, .bit b' => b = b'
  | _, _ => False

/-- The operation waits in the queue, or the program in progress carries it. -/
def OpTaken (o : StoreOp) (t : Stc) : Prop := (∃ q ∈ t.queue, q.op = o) ∨ ∃ p, t.prog = some p ∧ serves p o

theorem opTaken_save {k t} : OpTaken (.save k) t → SaveTaken k t := by
  rintro (h | ⟨p, h1, h2⟩)
  · exact Or.inl h
  · cases p with
    | record l i => exact Or.inr ⟨l, i, h1, h2⟩
    | entry => exact absurd h2 id
    | bit => exact absurd h2 id

theorem opTaken_bit {b t} : OpTaken (.bit b) t → BitTaken b t := by
  rintro (h | ⟨p, h1, h2⟩)
  · exact Or.inl h
  · cases p with
    | record l i => exact absurd h2 id
    | entry => exact absurd h2 id
    | bit b' => have : b' = b := h2; subst this; exact Or.inr h1

theorem opTaken_entry {e t} : OpTaken (.append e) t → EntryTaken e t := by
  rintro (h | ⟨p, h1, h2⟩)
  · exact Or.inl h
  · cases p with
    | record l i => exact absurd h2 id
    | entry b' => have : b' = e := h2; subst this; exact Or.inr h1
    | bit => exact absurd h2 id

theorem has_erase {o : StoreOp} {l : List QItem} {w : QItem} (hw : w.op ≠ o) (h : ∃ q ∈ l, q.op = o) : ∃ q ∈ l.erase w,
    q.op = o := by
  obtain ⟨q, h1, h2⟩ := h
  refine ⟨q, ?_, h2⟩
  rw [List.mem_erase_of_ne]
  · exact h1
  · intro e; subst e; exact hw h2

theorem find_op {l : List QItem} {b : Nat} {w : QItem} (h : l.find? (erasesBlock b) = some w) : ∃ n c g,
    w.op = .erase n c g := by
  have := List.find?_some h
  unfold erasesBlock at this
  split at this
  · rename_i n c g hh; exact ⟨n, c, g, hh⟩
  · simp at this

theorem opTaken_beginOp {o} (f i q) (t : Stc) (hn : ∀ b c g, o ≠ .erase b c g) (h : ∃ q ∈ t.queue,
    q.op = o) : OpTaken o (beginOp f i q t) := by
  unfold beginOp
  split
  · rename_i k hk
    by_cases ho : ∃ k', o = .save k'
    · obtain ⟨k', rfl⟩ := ho
      exact Or.inr ⟨_, rfl, by show k' ∈ _; simpa using mem_savesOf h⟩
    · left
      obtain ⟨q, h1, h2⟩ := h
      refine ⟨q, ?_, h2⟩
      show q ∈ t.queue.filter _
      rw [List.mem_filter]
      refine ⟨h1, ?_⟩
      unfold isSave; rw [h2]
      split
      · rename_i k'; exact absurd ⟨k', rfl⟩ ho
      · rfl
  · rename_i b hb
    by_cases ho : o = .bit b
    · subst ho; exact Or.inr ⟨_, rfl, rfl⟩
    · left; exact has_erase (by rw [hb]; exact fun e => ho e.symm) h
  · rename_i hb; left; exact has_erase (by rw [hb]; exact fun e => hn _ _ _ e.symm) h
  · rename_i e he
    split
    · dsimp only
      split
      · rename_i w hw
        obtain ⟨n, c, g, hop⟩ := find_op hw
        rw [hop]
        left; exact has_erase (by rw [hop]; exact fun e => hn _ _ _ e.symm) h
      · exact Or.inl h
    · by_cases ho : o = .append e
      · subst ho; exact Or.inr ⟨_, rfl, rfl⟩
      · left; exact has_erase (by rw [he]; exact fun e => ho e.symm) h

theorem opTaken_arb {o} (f i) (t : Stc) (hn : ∀ b c g, o ≠ .erase b c g) (hb : ∀ b, o = .bit b →
    bitOf t.copy b = false) (h : OpTaken o t) : OpTaken o (arbitrate f i t) := by
  have hq : (∃ q ∈ t.queue, q.op = o) → ∃ q ∈ (raiseErase f
      { t with queue := t.queue.filter (fun q => match q.op with | .bit b => !bitOf t.copy b | _ => true) }).queue,
      q.op = o := by
    rintro ⟨q, h1, h2⟩
    have h3 : q ∈ t.queue.filter (fun q => match q.op with | .bit b => !bitOf t.copy b | _ => true) := by
      rw [List.mem_filter]
      refine ⟨h1, ?_⟩
      rw [h2]
      split
      · rename_i b; rw [hb b rfl]; rfl
      · rfl
    unfold raiseErase
    split
    · refine ⟨q, ?_, h2⟩
      rw [List.mem_map]
      refine ⟨q, h3, ?_⟩
      rw [h2]
      split
      · rename_i b c g; exact absurd rfl (hn b c g)
      · rfl
    · exact ⟨q, h3, h2⟩
  have hp : ∀ x : Stc, (raiseErase f x).prog = x.prog ∧ (raiseErase f x).erase = x.erase := by
    intro x; unfold raiseErase; split <;> exact ⟨rfl, rfl⟩
  unfold arbitrate
  dsimp only
  generalize hv : raiseErase f
      { t with queue := t.queue.filter (fun q => match q.op with | .bit b => !bitOf t.copy b | _ => true) } = v at hq
  have hvp : v.prog = t.prog := by rw [← hv, (hp _).1]
  rcases h with h | ⟨p, h1, h2⟩
  · have h := hq h
    split
    · split
      · exact opTaken_beginOp _ _ _ _ hn h
      · exact Or.inl h
    · exact Or.inl h
  · have : arrayFree v = false := by unfold arrayFree; rw [hvp, h1]; rfl
    rw [this]
    exact Or.inr ⟨p, by simp only [Bool.false_eq_true, if_false]; rw [hvp, h1], h2⟩

theorem opTaken_enq {o} (o') (t : Stc) (h : OpTaken o t) : OpTaken o (enqueue o' t) := by
  have hj : OpTaken o { t with queue := t.queue ++ [⟨o', false⟩] } := by
    rcases h with ⟨q, h1, h2⟩ | h
    · exact Or.inl ⟨q, by show q ∈ t.queue ++ _; simp [h1], h2⟩
    · exact Or.inr h
  unfold enqueue; dsimp only
  repeat' split
  all_goals assumption

theorem opTaken_new (o) (t : Stc) (hb : ∀ b, o = .bit b → bitOf t.copy b = false) (ha : (∃ e, o = .append e) →
    (t.queue.filter isAppend).length < 32) : OpTaken o (enqueue o t) := by
  have hj : OpTaken o { t with queue := t.queue ++ [⟨o, false⟩] } := Or.inl ⟨⟨o, false⟩, by simp, rfl⟩
  unfold enqueue; dsimp only
  split
  · rename_i b
    rw [hb b rfl]
    simp only [Bool.false_or]
    split
    · rename_i h
      rw [List.any_eq_true] at h
      obtain ⟨q, h1, h2⟩ := h
      exact Or.inl ⟨q, h1, by simpa using h2⟩
    · exact hj
  · rw [if_pos (ha ⟨_, rfl⟩)]; exact hj
  · exact hj

theorem opTaken_run {o} (s : State) (hn : ∀ b c g, o ≠ .erase b c g) (hb : ∀ b, o = .bit b →
    bitOf s.stc.copy b = false) (h : OpTaken o s.stc) : OpTaken o (runArbiter s).stc := by
  unfold runArbiter; split
  · exact opTaken_arb _ _ _ hn hb h
  · exact h

theorem opTaken_arrive {o} (o') (s : State) (hn : ∀ b c g, o ≠ .erase b c g) (hb : ∀ b, o = .bit b →
    bitOf s.stc.copy b = false) (h : OpTaken o s.stc) : OpTaken o (arrive o' s).stc := by
  unfold arrive; split
  · exact h
  · exact opTaken_run _ hn (fun b e =>
      by rw [show ({ s with stc := enqueue o' s.stc } : State).stc.copy = s.stc.copy from (arbiterFrame_enqueue _ _).2]; exact hb b e) (opTaken_enq _ _ h)

theorem opTaken_arrive_new (o) (s : State) (hn : ∀ b c g, o ≠ .erase b c g) (hf : s.stc.fault = false) (ht : storeTakes
    s.psv = true) (hb : ∀ b, o = .bit b → bitOf s.stc.copy b = false) (ha : (∃ e, o = .append e) →
    (s.stc.queue.filter isAppend).length < 32) : OpTaken o (arrive o s).stc := by
  unfold arrive; rw [hf, ht]
  simp only [Bool.not_true, Bool.or_self, Bool.false_eq_true, if_false]
  exact opTaken_run _ hn (fun b e =>
      by rw [show ({ s with stc := enqueue o s.stc } : State).stc.copy = s.stc.copy from (arbiterFrame_enqueue _ _).2]; exact hb b e) (opTaken_new _ _ hb ha)

/-- The appends that wait. -/
def appends (l : List QItem) : Nat := (l.filter isAppend).length

theorem appends_erase (l : List QItem) (w) : appends (l.erase w) ≤ appends l := by
  unfold appends
  exact ((List.erase_sublist (l := l) (a := w)).filter isAppend).length_le

theorem appends_filter (l : List QItem) (p) : appends (l.filter p) ≤ appends l := by
  unfold appends
  exact ((List.filter_sublist (l := l) (p := p)).filter isAppend).length_le

theorem appends_map (l : List QItem) (g : QItem → QItem) (h : ∀ q,
    isAppend (g q) = isAppend q) : appends (l.map g) = appends l := by
  unfold appends
  rw [List.filter_map, List.length_map]
  congr 1
  apply List.filter_congr
  intro q _; exact h q

theorem appends_beginOp (f i q) (t : Stc) : appends (beginOp f i q t).queue ≤ appends t.queue := by
  unfold beginOp
  split
  · exact appends_filter _ _
  · exact appends_erase _ _
  · exact appends_erase _ _
  · split
    · dsimp only
      split
      · split
        · exact appends_erase _ _
        · exact Nat.le_refl _
      · exact Nat.le_refl _
    · exact appends_erase _ _

theorem appends_arb (f i) (t : Stc) : appends (arbitrate f i t).queue ≤ appends t.queue := by
  have hr : ∀ x : Stc, appends (raiseErase f x).queue = appends x.queue := by
    intro x; unfold raiseErase; split
    · apply appends_map
      intro q
      obtain ⟨o, rt⟩ := q
      cases o with
      | erase b c g => dsimp only [isAppend]; by_cases hh : (b == 1 - x.curBlock && c == 8) = true <;> simp [hh]
      | save => rfl
      | append => rfl
      | bit => rfl
    · rfl
  have h0 := appends_filter t.queue (fun q => match q.op with | .bit b => !bitOf t.copy b | _ => true)
  have hr' := hr { t with queue := t.queue.filter (fun q => match q.op with | .bit b => !bitOf t.copy b | _ => true) }
  unfold arbitrate
  dsimp only
  generalize raiseErase f
      { t with queue := t.queue.filter (fun q => match q.op with | .bit b => !bitOf t.copy b | _ => true) } = v at hr'
  have : appends v.queue ≤ appends t.queue := by rw [hr']; exact h0
  split
  · split
    · exact Nat.le_trans (appends_beginOp _ _ _ _) this
    · exact this
  · exact this

theorem appends_bit (b) (s : State) : appends (arrive (.bit b) s).stc.queue ≤ appends s.stc.queue := by
  have he : appends (enqueue (.bit b) s.stc).queue ≤ appends s.stc.queue := by
    unfold enqueue; dsimp only; split
    · exact Nat.le_refl _
    · unfold appends; simp [isAppend]
  unfold arrive; split
  · exact Nat.le_refl _
  · unfold runArbiter; split
    · exact Nat.le_trans (appends_arb _ _ _) he
    · exact he

theorem agree_stc (s : State) : (tamperAgree s).stc = s.stc ∧ (tamperAgree s).bat = s.bat ∧
    (tamperAgree s).psv = s.psv ∧ (tamperAgree s).cau = s.cau ∧ (tamperAgree s).ce.money = s.ce.money ∧
    (tamperAgree s).exc = s.exc ∧ (tamperAgree s).flash = s.flash := by
  have hs : ∀ w (y : State), (setSwitch w y).ce = y.ce ∧ (setSwitch w y).exc = y.exc :=
      fun w y => ⟨(setSwitch_swc w y).2.1, (setSwitch_swc w y).2.2.2.2.2.2.1⟩
  have hr : ∀ b (y : State), (respond b y).ce = y.ce ∧ (respond b y).exc = y.exc := by
    intro b y
    have hb : ∀ d (y : State), (beginDrive d y).ce = y.ce ∧ (beginDrive d y).exc = y.exc := by
      intro d y; unfold beginDrive; exact hs _ _
    unfold respond
    repeat' split
    all_goals first
      | exact ⟨rfl, rfl⟩
      | exact hs _ _
      | exact hb _ _
  have e : EvalFrame s (tamperAgree s) := evalFrame_ite (evalFrame_add _ _) (evalFrame_rem _ _)
  have q := metering_agree s
  refine ⟨e.8, e.2, e.7, e.6, q.4, ?_, q.9⟩
  unfold tamperAgree addReason removeReason
  repeat' split
  all_goals first
    | rfl
    | exact (hr _ _).2

theorem setcover_frame (c x) (s : State) : (setCover c x s).toModules = s.toModules ∧ (setCover c x s).psv = s.psv ∧
    (setCover c x s).exc = s.exc ∧ (setCover c x s).flash = s.flash ∧ (setCover c x s).bat.kinds = s.bat.kinds ∧
    (setCover c x s).bat.clock = s.bat.clock ∧ coverOpen (setCover c x s).bat c = x := by
  cases c <;> exact ⟨rfl, rfl, rfl, rfl, rfl, rfl, rfl⟩

theorem coverOpen_congr {a b : Bat} (c) (h1 : a.coverMain = b.coverMain) (h2 : a.coverTerminal = b.coverTerminal) :
    coverOpen a c = coverOpen b c := by
  cases c <;> assumption

theorem perKind_set_get_same {α : Type} (p : PerKind α) (k : Kind) : p.set k (p.get k) = p := by cases k <;> rfl

theorem cutProgram_frame (x : State) : (cutProgram x).psv = x.psv ∧ (cutProgram x).stc.erase = x.stc.erase ∧
    (cutProgram x).swc = x.swc ∧ (cutProgram x).flash.bits = (match x.stc.prog with
        | some (.bit _) => (cutProgram x).flash.bits
        | _ => x.flash.bits) ∧ (x.stc.prog = none → cutProgram x = x) := by
  unfold cutProgram
  cases hp : x.stc.prog with
  | none => exact ⟨rfl, rfl, rfl, rfl, fun _ => rfl⟩
  | some p =>
    cases p with
    | record l i => exact ⟨rfl, rfl, rfl, rfl, fun h => by simp at h⟩
    | entry e => cases e <;> exact ⟨rfl, rfl, rfl, rfl, fun h => by simp at h⟩
    | bit b =>
      refine ⟨?_, ?_, ?_, rfl, fun h => by simp at h⟩
      all_goals unfold drawFree; dsimp only; split <;> rfl

theorem cutDrives_frame (x : State) : (cutDrives x).psv = x.psv ∧ (cutDrives x).stc = x.stc ∧
    (cutDrives x).flash = x.flash ∧ (cutDrives x).swc.drive = none := by
  unfold cutDrives; split
  · obtain ⟨x1, x2, x3, x4, x5, x6, x7, x8⟩ := setSwitch_swc .unknown x
    exact ⟨x8, x4, x6, rfl⟩
  · rename_i h; exact ⟨rfl, rfl, rfl, by cases hd : x.swc.drive with | none => rfl | some d => rw [hd] at h; simp at h⟩

theorem interruptStore_frame (x : State) : (interruptStore x).psv = x.psv ∧ (interruptStore x).stc.prog = none ∧
    (interruptStore x).stc.erase = none ∧ (interruptStore x).swc = x.swc ∧
    (interruptStore x).flash.bits = x.flash.bits ∧ (x.stc.erase = none → (interruptStore x).flash = x.flash) := by
  unfold interruptStore
  cases he : x.stc.erase with
  | none => exact ⟨rfl, rfl, he, rfl, rfl, fun _ => rfl⟩
  | some e =>
    refine ⟨rfl, rfl, rfl, rfl, ?_, fun h => by simp at h⟩
    show (remnants e.block false x).flash.bits = _
    unfold remnants drawFree
    dsimp only
    split
    · rfl
    · cases blockArea e.block <;> rfl

theorem cutStore_frame (x : State) : (cutStore x).psv = x.psv ∧ (cutStore x).stc.erase = x.stc.erase ∧
    (cutStore x).swc = x.swc ∧ (cutStore x).stc.queue = [] ∧ (cutStore x).flash.bits = (match x.stc.prog with
        | some (.bit _) => (cutStore x).flash.bits
        | _ => x.flash.bits) ∧ (x.stc.prog = none →
      (cutStore x).flash = { x.flash with removed := x.flash.removed ++ begunErases x.stc.queue }) := by
  obtain ⟨a1, a2, a3, a4, a5⟩ := cutProgram_frame x
  exact ⟨a1, a2, a3, rfl, a4, fun h => by unfold cutStore; rw [a5 h]; rfl⟩

theorem interruptStore_queue (x : State) : (interruptStore x).stc.queue = x.stc.queue := by
  unfold interruptStore
  cases x.stc.erase <;> rfl

theorem domainLost_parts (s : State) : let t := refresh (domainLost s)
      t.psv = { s.psv with
        power := .off, mainsPresent := false, settle := ⟨0, false⟩, seq := none, dropped := none, startNotices := [],
        holdWait := false } ∧
      t.bat = clearedDomain ∧ t.stc.prog = none ∧ t.stc.erase = none ∧ t.swc.drive = none ∧ t.exc.live = false ∧
      t.exc.mem = [] ∧ t.exc.notices = [] ∧ t.flash.bits = (match s.stc.prog with
        | some (.bit _) => t.flash.bits
        | _ => s.flash.bits) ∧
      t.stc.queue = [] ∧ (s.stc.prog = none → s.stc.erase = none →
        t.flash = { s.flash with removed := s.flash.removed ++ begunErases s.stc.queue }) := by
  have hn : refresh (domainLost s) = domainLost s := by
    unfold refresh
    have : (domainLost s).exc.live = false := rfl
    rw [this]; rfl
  rw [hn]
  obtain ⟨a1, a2, a3, a4, a5, a6⟩ := cutStore_frame s
  unfold domainLost
  obtain ⟨b1, b2, b3, b4⟩ := cutDrives_frame (cutStore s)
  obtain ⟨c1, c2, c3, c4, c5, c6⟩ := interruptStore_frame (cutDrives (cutStore s))
  have c7 := interruptStore_queue (cutDrives (cutStore s))
  dsimp only
  generalize interruptStore (cutDrives (cutStore s)) = z at *
  refine ⟨by rw [c1, b1, a1]; rfl, rfl, c2, c3, by rw [c4]; exact b4, rfl, rfl, rfl, ?_, by rw [c7, b2, a4], ?_⟩
  · rw [c5, b3]
    cases hp : s.stc.prog with
    | none => rw [hp] at a5; exact a5
    | some p => cases p <;> first | rfl | (rw [hp] at a5; exact a5)
  · intro h1 h2
    rw [c6 (by rw [b2, a2]; exact h2), b3, a6 h1]

theorem interruptStore_idle {x : State} (h : x.stc.erase = none) : interruptStore x = programOver x := by
  unfold interruptStore; rw [h]

theorem interruptStore_outside (x : State) : (interruptStore x).ce = x.ce ∧ (interruptStore x).bat = x.bat ∧
    (interruptStore x).cau = x.cau ∧ (interruptStore x).ee = x.ee ∧ (interruptStore x).exc = x.exc := by
  unfold interruptStore
  cases he : x.stc.erase with
  | none => exact ⟨rfl, rfl, rfl, rfl, rfl⟩
  | some e => exact ⟨rfl, rfl, rfl, rfl, rfl⟩

/-- The end of HOLD in a part with a battery. -/
structure HoldEnded (x t : State) : Prop where
  power : t.psv.power = .battery
  wait : t.psv.holdWait = false
  stc : t.stc = (interruptStore (cutDrives x)).stc
  flash : t.flash = (interruptStore (cutDrives x)).flash
  exc : t.exc = x.exc.lost
  ce : t.ce = x.ce
  bat : t.bat = x.bat
  cau : t.cau = x.cau
  swc : t.swc = (cutDrives x).swc

theorem enterBattery_parts (x : State) (h : x.psv.battery = true) : (enterBattery x).psv.power = .battery ∧
    (enterBattery x).toModules = x.toModules ∧ (enterBattery x).flash = x.flash ∧ (enterBattery x).bat = x.bat ∧
    (enterBattery x).exc = x.exc.lost ∧ (enterBattery x).psv.holdWait = x.psv.holdWait := by
  have he : enterBattery x = beginSettle (setPower .battery { x with exc := x.exc.lost }) := by
    unfold enterBattery
    exact if_pos h
  rw [he]
  unfold beginSettle
  split <;> exact ⟨rfl, rfl, rfl, rfl, rfl, rfl⟩

theorem finishHold_ended (x : State) (h : x.psv.battery = true) : HoldEnded x (finishHold x) := by
  obtain ⟨b1, b2, b3, b4⟩ := cutDrives_frame x
  have c := interruptStore_frame (cutDrives x)
  have d := interruptStore_outside (cutDrives x)
  have e : (cutDrives x).ce = x.ce ∧ (cutDrives x).bat = x.bat ∧ (cutDrives x).cau = x.cau ∧
      (cutDrives x).exc = x.exc := by
    unfold cutDrives; split
    · obtain ⟨x1, x2, x3, x4, x5, x6, x7, x8⟩ := setSwitch_swc .unknown x
      exact ⟨x2, x5, x3, x7⟩
    · exact ⟨rfl, rfl, rfl, rfl⟩
  have m := enterBattery_parts
      { interruptStore (cutDrives x) with psv := { (interruptStore (cutDrives x)).psv with holdWait := false } }
      (by show (interruptStore (cutDrives x)).psv.battery = true; rw [c.1, b1]; exact h)
  have hf : finishHold x = enterBattery
      { interruptStore (cutDrives x) with psv := { (interruptStore (cutDrives x)).psv with holdWait := false } } := rfl
  rw [← hf] at m
  obtain ⟨m1, m2, m3, m4, m5, m6⟩ := m
  have g1 : (finishHold x).stc = _ := congrArg Modules.stc m2
  have g2 : (finishHold x).ce = _ := congrArg Modules.ce m2
  have g3 : (finishHold x).cau = _ := congrArg Modules.cau m2
  have g4 : (finishHold x).swc = _ := congrArg Modules.swc m2
  exact ⟨m1, m6, g1, m3,
      by rw [m5]; show (interruptStore (cutDrives x)).exc.lost = _; rw [d.2.2.2.2, e.2.2.2], by rw [g2]; exact d.1.trans e.1, by rw [m4]; exact d.2.1.trans e.2.1, by rw [g3]; exact d.2.2.1.trans e.2.2.1, by rw [g4]; exact c.2.2.2.1⟩

theorem refresh_fresh (s : State) (h1 : s.exc.page = summaryOf s) (h2 : s.exc.image = s.exc.notices) : refresh s = s :=
    by
  unfold refresh
  split
  · rw [← h1, ← h2]
  · rfl

theorem status_bits (b0 b1 b2 b3 b4 b5 b6 b7 : Bool) : (List.range 8).map (BitVec.ofNat 8 (flagNat b0 + 2 * flagNat b1 +
    4 * flagNat b2 + 8 * flagNat b3 + 16 * flagNat b4 + 32 * flagNat b5 + 64 * flagNat b6 + 128 * flagNat b7)).getLsbD =
    [b0, b1, b2, b3, b4, b5, b6, b7] := by
  revert b0 b1 b2 b3 b4 b5 b6 b7; decide

theorem endRead_eq (l x) (s : State) (hb : s.exc.bus = .idle) (hd : s.exc.deferred = []) : endRead (sendOut l
    { s with exc := { s.exc with bus := x } }) = sendOut l s := by
  obtain ⟨m, bt, fl, ps, e, p, f⟩ := s
  obtain ⟨e1, e2, e3, e4, e5, e6, e7, e8, e9, e10, e11, e12, e13, e14, e15, e16, e17, e18, e19, e20⟩ := e
  dsimp only at hb hd
  subst hb; subst hd; rfl

theorem legal_iff (old new : Nat) : legalChange old new = true ↔ ((old = FREE ∧ new = POSTED) ∨ (old = DONE ∧
    new = FREE) ∨
    (old = PAUSED ∧ new = POSTED) ∨ (old = TAKEN ∧ new = CANCEL) ∨ (old = PAUSED ∧ new = CANCEL)) := by
  unfold legalChange; simp only [Bool.or_eq_true, Bool.and_eq_true, beq_iff_eq]
  constructor
  · rintro ((((h | h) | h) | h) | h) <;> simp [h]
  · rintro (h | h | h | h | h) <;> simp [h]

theorem post_modules (b) (s : State) : (post b s).toModules = s.toModules ∧ (post b s).bat = s.bat ∧
    (post b s).flash = s.flash ∧ (post b s).exc.markReg = s.exc.markReg := by
  refine ⟨rfl, rfl, rfl, ?_⟩
  unfold post Exc.post; dsimp only; repeat' split
  all_goals rfl

theorem writeState_frame (i v) (s : State) : (writeState i v s).toModules = s.toModules ∧
    (writeState i v s).bat = s.bat ∧ (writeState i v s).flash = s.flash ∧
    (writeState i v s).exc.markReg = s.exc.markReg := by
  unfold writeState; dsimp only; repeat' split
  · exact ⟨rfl, rfl, rfl, rfl⟩
  · exact ⟨rfl, rfl, rfl, rfl⟩
  · exact post_modules _ s

theorem writeRegion_frame (a b) (s : State) : (writeRegion a b s).toModules = s.toModules ∧
    (writeRegion a b s).bat = s.bat ∧ (writeRegion a b s).flash = s.flash := by
  unfold writeRegion; repeat' split
  · exact ⟨rfl, rfl, rfl⟩
  · unfold writeSlot; dsimp only; repeat' split
    · have := writeState_frame ⟨(a - 512) / 64 % 16, Nat.mod_lt _ (by decide)⟩ b s; exact ⟨this.1, this.2.1, this.2.2.1⟩
    · exact ⟨rfl, rfl, rfl⟩
    · exact ⟨rfl, rfl, rfl⟩
  · exact ⟨rfl, rfl, rfl⟩
  · exact ⟨rfl, rfl, rfl⟩

theorem slot_at (i : Fin 16) (x : Nat) (h1 : slotAddr i ≤ x) (h2 : x < slotAddr i + 64) : (x - 512) / 64 % 16 = i.val ∧
    (x = slotAddr i ↔ (x - 512) % 64 = 0) ∧ 512 ≤ x ∧ x < 1536 := by
  unfold slotAddr at *
  have := i.isLt
  omega

/-- Equal exchanges but for pictures, bus, deferred rewrites and ATTN. -/
structure ExchangeFrame (x y : Exc) : Prop where
  live : y.live = x.live
  xrst : y.xrst = x.xrst
  takeCtr : y.takeCtr = x.takeCtr
  mem : y.mem = x.mem
  mark : y.markReg = x.markReg
  notices : y.notices = x.notices
  oldest : y.oldest = x.oldest
  overflow : y.overflow = x.overflow
  code : y.code = x.code
  control : y.control = x.control
  query : y.query = x.query
  standing : y.standing = x.standing
  bulk : y.bulk = x.bulk
  wake : y.wake = x.wake

theorem exchangeFrame_refl (x : Exc) : ExchangeFrame x x := ⟨rfl, rfl, rfl, rfl, rfl, rfl, rfl, rfl, rfl, rfl, rfl, rfl,
    rfl, rfl⟩

theorem exchangeFrame_refresh (t : State) : ExchangeFrame t.exc (refresh t).exc := by
  unfold refresh; split <;> exact ⟨rfl, rfl, rfl, rfl, rfl, rfl, rfl, rfl, rfl, rfl, rfl, rfl, rfl, rfl⟩

theorem exchangeFrame_after (w) (t : State) : ExchangeFrame t.exc (afterAct w t).exc ∧
    (afterAct w t).toModules = t.toModules ∧ (afterAct w t).bat = t.bat ∧ (afterAct w t).flash = t.flash ∧
    (afterAct w t).psv = t.psv := by
  unfold afterAct endWrite Exc.recomputeAttn; split <;> exact ⟨⟨rfl, rfl, rfl, rfl, rfl, rfl, rfl, rfl, rfl, rfl, rfl,
      rfl, rfl, rfl⟩, rfl, rfl, rfl, rfl⟩

theorem exchangeFrame_trans {x y z : Exc} (h : ExchangeFrame x y) (k : ExchangeFrame y z) : ExchangeFrame x z :=
    ⟨k.1.trans h.1, k.2.trans h.2, k.3.trans h.3, k.4.trans h.4, k.5.trans h.5, k.6.trans h.6, k.7.trans h.7,
    k.8.trans h.8, k.9.trans h.9, k.10.trans h.10, k.11.trans h.11, k.12.trans h.12, k.13.trans h.13, k.14.trans h.14⟩

/-- an act of the rise -/
theorem rise_act {w : WriteTxn} {s : State} (h : WriteOpen w s) (c : Instr) (cond m k act) (he : exec c s = done
    (riseAct cond m k act s)) (hc : cond w s.exc.mem = true) :
    ∃ t, exec c s = .next t ∧ ExchangeFrame (act s).exc t.exc ∧ t.toModules = (act s).toModules ∧ t.bat = (act s).bat ∧
        t.flash = (act s).flash ∧ t.psv = (act s).psv := by
  obtain ⟨h1, h2⟩ := h
  have ho : openWrite s.exc = some w := by unfold openWrite; rw [h2]
  have : riseAct cond m k act s = afterAct { w with mark := m w, capture := k w } (act s) := by
    unfold riseAct; rw [ho]; dsimp only; rw [h1, hc]; rfl
  rw [this] at he
  refine ⟨_, he, ?_⟩
  obtain ⟨a1, a2, a3, a4, a5⟩ := exchangeFrame_after { w with mark := m w, capture := k w } (act s)
  obtain ⟨r1, r2, r3, r4, _⟩ := refresh_frame (afterAct { w with mark := m w, capture := k w } (act s))
  exact ⟨exchangeFrame_trans a1 (exchangeFrame_refresh _), r1.trans a2, r2.trans a3, r3.trans a4, r4.trans a5⟩

theorem readByte_writeByte_ne_zero : ∀ (m : Memory) (a : Nat) (b : Byte), b ≠ 0 → readByte (writeByte m a b) a = b
  | [], a, b, h => by unfold writeByte; rw [if_neg h]; simp [readByte]
  | (k, v) :: rest, a, b, h => by
    unfold writeByte
    split
    · simp [readByte]
    · split
      · rename_i e; simp [readByte, e]
      · rename_i e; unfold readByte; rw [if_neg (fun h => e h.symm)]; exact readByte_writeByte_ne_zero rest a b h

theorem slotState_putState_eq (m i v) (h : v % 256 ≠ 0) : slotState (putState m i v) i = v % 256 := by
  unfold slotState putState
  rw [readByte_writeByte_ne_zero]
  · simp
  · intro hc; have := congrArg BitVec.toNat hc; simp at this; exact h this

theorem complete_parts (i r f n l) (x : State) : (complete i r f n l x).exc.mem = doneMem i r f n l x.exc.mem ∧
    (complete i r f n l x).exc.code = x.exc.code ∧ (complete i r f n l x).exc.control = x.exc.control ∧
    (complete i r f n l x).exc.query = x.exc.query ∧ (complete i r f n l x).exc.takeCtr = x.exc.takeCtr ∧
    (complete i r f n l x).toModules = x.toModules := ⟨rfl, rfl, rfl, rfl, rfl, rfl⟩

theorem finishQuery_parts (i r f n l) (s : State) : (finishQuery i r f n l s).exc.mem = doneMem i r f n l s.exc.mem ∧
    (finishQuery i r f n l s).exc.bulk = none ∧ (finishQuery i r f n l s).exc.query = ⟨s.exc.query.queue.tail, false⟩ :=
    ⟨rfl, rfl, rfl⟩

theorem joinLane_parts (r x) : (joinLane r x).takeCtr = x.takeCtr ∧ (joinLane r x).mem = x.mem := by
  unfold joinLane; cases r.kind <;> exact ⟨rfl, rfl⟩

theorem joinLane_lanes (r x y) (h1 : x.code = y.code) (h2 : x.control = y.control) (h3 : x.query = y.query) : (joinLane
    r x).code = (joinLane r y).code ∧ (joinLane r x).control = (joinLane r y).control ∧
    (joinLane r x).query = (joinLane r y).query := by
  unfold joinLane; cases r.kind <;> simp [h1, h2, h3]

theorem takes_iff (w : WriteTxn) (m : Memory) (j) : takes w m j = true ↔ (slotState m j = POSTED ∧
    stateBefore w j = FREE) := by
  unfold takes; simp

theorem takesNext_iff (w : WriteTxn) (m : Memory) (i) : takesNext w m i = true ↔ (takes w m i = true ∧ ∀ j, j < i →
    ¬ takes w m j = true) := by
  unfold takesNext
  simp only
      [Bool.and_eq_true, List.all_eq_true, List.mem_finRange, true_implies, Bool.or_eq_true, decide_eq_true_eq, Bool.not_eq_true', Bool.not_eq_true]
  constructor
  · rintro ⟨h1, h2⟩
    refine ⟨h1, fun j hj => ?_⟩
    rcases h2 j with h | h
    · omega
    · exact h
  · rintro ⟨h1, h2⟩
    refine ⟨h1, fun j => ?_⟩
    by_cases hj : j < i
    · exact Or.inr (h2 j hj)
    · exact Or.inl (by omega)

theorem rise_none {w : WriteTxn} {s : State} (h : WriteOpen w s) (cond m k act) (hc : cond w s.exc.mem = false) :
    riseAct cond m k act s = s := by
  obtain ⟨h1, h2⟩ := h
  have ho : openWrite s.exc = some w := by unfold openWrite; rw [h2]
  unfold riseAct; rw [ho]; dsimp only; rw [hc]; simp

theorem readsDone_parts (x : State) : (readsDone x).exc = x.exc ∧ (readsDone x).flash = x.flash ∧
    (readsDone x).ce = x.ce ∧ (readsDone x).ee = x.ee := by
  unfold readsDone runArbiter; dsimp only; split <;> exact ⟨rfl, rfl, rfl, rfl⟩

theorem take_parts (q i o) (s : State) : (takeLifecycle q i o s).psv = { s.psv with req := some ⟨q, some i⟩ } ∧
    (takeLifecycle q i o s).exc.control = { s.exc.control with begun := true } ∧ (takeLifecycle q i o s).ce = s.ce ∧
    (takeLifecycle q i o s).swc = s.swc ∧ (takeLifecycle q i o s).bat = s.bat ∧
    (takeLifecycle q i o s).flash = s.flash ∧ (takeLifecycle q i o s).exc.mem = s.exc.mem ∧
    (takeLifecycle q i o s).cau = s.cau ∧ (takeLifecycle q i o s).rlr = s.rlr ∧ (takeLifecycle q i o s).ee = s.ee := by
  unfold takeLifecycle
  obtain ⟨w1, w2, w3, w4, w5, w6, w7, w8, w9, w10, w11⟩ := arrive_parts o (beginControl
      { s with psv := { s.psv with req := some ⟨q, some i⟩ } })
  rw [w1, w2, w3, w4, w5, w6, w7, w9, w10]
  exact ⟨rfl, rfl, rfl, rfl, rfl, rfl, rfl, rfl, rfl, rfl⟩

/-- What telling an owner that a save or bit ended leaves, with the store controller exact. -/
structure OwnersExact (s t : State) : Prop where
  flash : t.flash = s.flash
  ee : t.ee = s.ee
  ce : t.ce = s.ce
  swc : t.swc = s.swc
  stc : t.stc = s.stc
  power : t.psv.power = s.psv.power
  tmo : t.tmoHead = s.tmoHead

theorem ownersExact_refl (s : State) : OwnersExact s s := ⟨rfl, rfl, rfl, rfl, rfl, rfl, rfl⟩

theorem ownersExact_trans {s t u : State} (h : OwnersExact s t) (k : OwnersExact t u) : OwnersExact s u :=
    ⟨k.1.trans h.1, k.2.trans h.2, k.3.trans h.3, k.4.trans h.4, k.5.trans h.5, k.6.trans h.6, k.7.trans h.7⟩

theorem ownersExact_of {s t : State}
    (a : t.flash = s.flash := by rfl)
    (b : t.ee = s.ee := by rfl)
    (c : t.ce = s.ce := by rfl)
    (d : t.swc = s.swc := by rfl)
    (e : t.stc = s.stc := by rfl)
    (f : t.psv.power = s.psv.power := by rfl)
    (g : t.tmoHead = s.tmoHead := by rfl) :
    OwnersExact s t := ⟨a, b, c, d, e, f, g⟩

theorem popCode_complete_psv (i r f n l) (x : State) : (popCode (complete i r f n l x)).psv = x.psv := rfl

theorem ownersExact_give (src slot r k i a) (s : State) : OwnersExact s (giveOutcome src slot r k i a s) := by
  unfold giveOutcome; split
  · rename_i j
    have p := popCode_complete_modules j r 0 0 (codeResults k i a s.ce.money.b) s
    have q := popCode_complete_flash j r 0 0 (codeResults k i a s.ce.money.b) s
    have v := popCode_complete_psv j r 0 0 (codeResults k i a s.ce.money.b) s
    generalize popCode (complete j r 0 0 (codeResults k i a s.ce.money.b) s) = y at *
    exact ⟨q, congrArg Modules.ee p, congrArg Modules.ce p, congrArg Modules.swc p, congrArg Modules.stc p,
        by rw [v], congrArg Modules.tmoHead p⟩
  · exact ownersExact_of

theorem ownersExact_code (ok) (s : State) : OwnersExact s (codeCommitted ok s) := by
  unfold codeCommitted; split
  · dsimp only
    have h1 : ∀ (f) (src) (x : State), OwnersExact x (mapPenalty src f x) := fun _ _ _ => ownersExact_of
    have h2 : ∀ x, OwnersExact x (dropHead x) := fun _ => ownersExact_of
    exact ownersExact_trans (ownersExact_trans (h1 _ _ _) (ownersExact_give _ _ _ _ _ _ _)) (h2 _)
  · exact ownersExact_refl s

theorem ownersExact_pkg (ok) (s : State) : OwnersExact s (packageCommitted ok s) := by
  unfold packageCommitted
  have h1 : ∀ (f) (src) (x : State), OwnersExact x (mapPenalty src f x) := fun _ _ _ => ownersExact_of
  have h2 : ∀ n x, OwnersExact x (releasePending n x) := fun _ _ => ownersExact_of
  have h3 : ∀ p r a b x, OwnersExact x (givePackage p r a b x) := by
    intro p r a b x; unfold givePackage; dsimp only; split <;> exact ownersExact_of
  repeat' split
  all_goals first
    | exact ownersExact_refl s
    | exact ownersExact_trans (ownersExact_trans (h2 _ _) (h1 _ _ _)) (h3 _ _ _ _ _)

theorem ownersExact_fin (q r l) (s : State) : OwnersExact s (finishRequest q r l s) := by
  unfold finishRequest; dsimp only; split <;> exact ownersExact_of

theorem ownersExact_life (s : State) : OwnersExact s (lifecycleSaved false s) := by
  unfold lifecycleSaved; split
  · exact ownersExact_fin _ _ _ _
  · exact ownersExact_refl s

theorem ownersExact_tell (s : State) (k) : OwnersExact s (tellSave false s k) := by
  unfold tellSave; split
  · exact ownersExact_refl s
  · split <;> first | exact ownersExact_code _ _ | exact ownersExact_pkg _ _ | exact ownersExact_life _ | exact ownersExact_refl s

theorem ownersExact_foldl {α : Type} {f : State → α → State} (hf : ∀ s x,
    OwnersExact s (f s x)) : ∀ (l : List α) (s : State), OwnersExact s (l.foldl f s)
  | [], s => ownersExact_refl s
  | x :: rest, s => ownersExact_trans (hf s x) (ownersExact_foldl hf rest (f s x))

theorem ownersExact_bit (b) (s : State) : OwnersExact s (bitEnded b .byFault s) := by
  unfold bitEnded
  split <;> (try contradiction)
  all_goals (repeat' split)
  all_goals first
    | exact ownersExact_refl s
    | exact ownersExact_fin _ _ _ _
    | simp_all

theorem ownersExact_ann (b) (s : State) : OwnersExact s (announceFault b s) := by
  unfold announceFault; split <;> exact ownersExact_of

theorem fault_own (l bs b) (s : State) : OwnersExact
    { s with stc := { s.stc with queue := [], fault := true }, flash := { s.flash with removed := s.flash.removed ++ begunErases s.stc.queue } }
    (enterFault l bs b s) := by
  unfold enterFault; dsimp only
  exact ownersExact_trans (ownersExact_trans (ownersExact_foldl ownersExact_tell _ _) (ownersExact_foldl (fun t b =>
      ownersExact_bit b t) _ _)) (ownersExact_ann _ _)

/-- What telling an owner leaves, where it may let an operation arrive. -/
structure OwnersFrame (s t : State) : Prop where
  flash : t.flash = s.flash
  ee : t.ee = s.ee
  ce : t.ce = s.ce
  swc : t.swc = s.swc
  stc : ArbiterFrame s.stc t.stc
  power : t.psv.power = s.psv.power
  tmo : t.tmoHead = s.tmoHead

theorem OwnersExact.own {s t : State} (h : OwnersExact s t) : OwnersFrame s t := ⟨h.1, h.2, h.3, h.4,
    by rw [h.5]; exact arbiterFrame_refl _, h.6, h.7⟩

theorem owners_trans {s t u : State} (h : OwnersFrame s t) (k : OwnersFrame t u) : OwnersFrame s u := ⟨k.1.trans h.1,
    k.2.trans h.2, k.3.trans h.3, k.4.trans h.4, arbiterFrame_trans h.5 k.5, k.6.trans h.6, k.7.trans h.7⟩

theorem owners_arrive (o) (s : State) : OwnersFrame s (arrive o s) := by
  obtain ⟨w1, w2, w3, w4, w5, w6, w7, w8, w9, w10, w11⟩ := arrive_parts o s
  exact ⟨w10, w5, w3, w7, (outside_arrive o s).3, by rw [w4], w11⟩

theorem runArbiter_parts (s : State) : (runArbiter s).exc = s.exc ∧ (runArbiter s).bat = s.bat ∧
    (runArbiter s).ce = s.ce ∧ (runArbiter s).psv = s.psv ∧ (runArbiter s).ee = s.ee ∧ (runArbiter s).cau = s.cau ∧
    (runArbiter s).swc = s.swc ∧ (runArbiter s).flash = s.flash ∧ (runArbiter s).tmoHead = s.tmoHead := by
  unfold runArbiter; split <;> exact ⟨rfl, rfl, rfl, rfl, rfl, rfl, rfl, rfl, rfl⟩

theorem owners_run (s : State) : OwnersFrame s (runArbiter s) := by
  obtain ⟨w1, w2, w3, w4, w5, w6, w7, w8, w9⟩ := runArbiter_parts s
  exact ⟨w8, w5, w3, w7, (outside_arb s).3, by rw [w4], w9⟩

theorem owners_tell (s : State) (k) : OwnersFrame s (tellSave true s k) := by
  unfold tellSave; split
  · exact (ownersExact_refl s).own
  · split
    · exact (ownersExact_code _ _).own
    · exact (ownersExact_pkg _ _).own
    · unfold lifecycleSaved; split
      · simp only [if_true]
        split
        · exact (ownersExact_fin _ _ _ _).own
        · exact owners_arrive _ _
      · exact (ownersExact_refl s).own
    all_goals exact (ownersExact_refl s).own

theorem owners_tells : ∀ (l : List SaveKind) (s : State), OwnersFrame s (tellSaves true l s)
  | [], s => (ownersExact_refl s).own
  | k :: rest, s => owners_trans (owners_tell s k) (owners_tells rest (tellSave true s k))

theorem over_parts (s : State) : OwnersFrame s (programOver s) := ⟨rfl, rfl, rfl, rfl, ⟨rfl, rfl, rfl, rfl, rfl, rfl⟩,
    rfl, rfl⟩

theorem recount_parts (s : State) : (recount s).exc = s.exc ∧ (recount s).bat = s.bat ∧ (recount s).ce = s.ce ∧
    (recount s).psv = s.psv ∧ (recount s).ee = s.ee ∧ (recount s).cau = s.cau ∧ (recount s).swc = s.swc ∧
    (recount s).flash = s.flash ∧ (recount s).tmoHead = s.tmoHead ∧ ArbiterFrame s.stc (recount s).stc ∧
    (∀ q ∈ s.stc.queue, q ∈ (recount s).stc.queue) := by
  unfold recount; split
  · exact ⟨rfl, rfl, rfl, rfl, rfl, rfl, rfl, rfl, rfl, ⟨rfl, rfl, rfl, rfl, rfl, rfl⟩,
      fun q h => by show q ∈ s.stc.queue ++ _; simp [h]⟩
  · exact ⟨rfl, rfl, rfl, rfl, rfl, rfl, rfl, rfl, rfl, arbiterFrame_refl _, fun q h => h⟩

theorem arbitrate_empty (f i) (t : Stc) (h : t.queue = []) : arbitrate f i t = t := by
  obtain ⟨a, b, c, d, e, g, q, p, er, st, rw', fc, fa, pe⟩ := t
  dsimp only at h
  subst h
  unfold arbitrate
  have h2 : ∀ t : Stc, t.queue = [] → raiseErase f t = t := by intro t h; unfold raiseErase; rw [h]; simp
  dsimp only [List.filter_nil]
  rw [h2 _ rfl]
  have h3 : ∀ t : Stc, t.queue = [] → choose f t = none := by intro t h; unfold choose bestRank; rw [h]; rfl
  rw [h3 _ rfl]; simp

theorem runArbiter_empty (s : State) (h : s.stc.queue = []) : runArbiter s = s := by
  unfold runArbiter; rw [arbitrate_empty _ _ _ h]; simp

theorem afterStore_run {s : State} (h : s.psv.power = .run) : afterStore s = runArbiter s := by
  unfold afterStore; rw [h]; rfl

theorem posOf_putPos (t a p) : posOf (putPos t a p) a = p := by cases a <;> rfl

theorem arbiterFrame_putPos (t : Stc) (a p) : (putPos t a p).fault = t.fault ∧ (putPos t a p).copy = t.copy ∧
    (putPos t a p).failCount = t.failCount ∧ (putPos t a p).queue = t.queue := by
  cases a <;> exact ⟨rfl, rfl, rfl, rfl⟩

theorem arbiterFrame_pos {t u : Stc} (h : ArbiterFrame t u) (a) : posOf u a = posOf t a := by
  cases a; exact h.5; exact h.6

theorem headOfArea_putHead (a h) (s : State) : headOfArea (putHead a h s) a = h := by cases a <;> rfl

theorem putHead_parts (a h) (s : State) : (putHead a h s).ee.energy = s.ee.energy ∧ (putHead a h s).ce = s.ce ∧
    (putHead a h s).swc = s.swc ∧ (putHead a h s).bat = s.bat ∧ (putHead a h s).exc = s.exc ∧
    (putHead a h s).stc = s.stc ∧ (putHead a h s).flash = s.flash ∧ (putHead a h s).psv = s.psv ∧
    (putHead a h s).cau = s.cau := by
  cases a <;> exact ⟨rfl, rfl, rfl, rfl, rfl, rfl, rfl, rfl, rfl⟩

theorem headOfArea_congr {s t : State} (a) (h1 : t.tmoHead = s.tmoHead) (h2 : t.ee = s.ee) : headOfArea t a = headOfArea
    s a := by
  cases a; exact h1; exact congrArg Ee.head h2

/-- after the arbiter and the refresh -/
theorem exec_programOver (c : Instr) (s x : State) (he : exec c s = done (afterStore (programOver x))) (hr : x.psv.power
    = .run) :
    ∃ t, exec c s = .next t ∧ t.flash = x.flash ∧ t.ee = x.ee ∧ t.ce = x.ce ∧ t.swc = x.swc ∧ t.bat = x.bat ∧
        t.exc.mem = x.exc.mem ∧ t.tmoHead = x.tmoHead ∧ ArbiterFrame x.stc t.stc ∧ t.psv = x.psv ∧
        t.exc.control = x.exc.control ∧
      t.stc = (runArbiter (programOver x)).stc := by
  refine ⟨_, he, ?_⟩
  rw [afterStore_run (s := programOver x) hr]
  have m := refresh_frame (runArbiter (programOver x))
  obtain ⟨w1, w2, w3, w4, w5, w6, w7, w8, w9⟩ := runArbiter_parts (programOver x)
  have ws := (owners_run (programOver x)).5
  generalize runArbiter (programOver x) = w at *
  generalize refresh w = u at *
  obtain ⟨m1, m2, m3, m4, m5, m6, m7, m8, m9⟩ := m
  have us : u.stc = w.stc := congrArg Modules.stc m1
  refine ⟨m3.trans w8, (congrArg Modules.ee m1 : _).trans w5, (congrArg Modules.ce m1 : _).trans w3,
      (congrArg Modules.swc m1 : _).trans w7, m2.trans w2,
      by rw [m5, w1]; rfl, (congrArg Modules.tmoHead m1 : _).trans w9, ?_, m4.trans w4, by rw [m8, w1]; rfl, us⟩
  rw [us]; exact ⟨ws.1, ws.2, ws.3, ws.4, ws.5, ws.6⟩

/-- What the parts of the lifecycle change leave. -/
structure WeakFrame (s t : State) : Prop where
  flash : t.flash = s.flash
  stc : ArbiterFrame s.stc t.stc
  psv : t.psv = s.psv
  clock : t.bat.clock = s.bat.clock
  prog : ∀ p, s.stc.prog = some p → t.stc.prog = some p

theorem weakFrame_of {s t : State} (g : OutsideFrame s t) (q : MeteringSame s t) : WeakFrame s t := ⟨g.4, g.3, g.2, q.6,
    g.10⟩

theorem weakFrame_trans {s t u : State} (h : WeakFrame s t) (k : WeakFrame t u) : WeakFrame s u := ⟨k.1.trans h.1,
    arbiterFrame_trans h.2 k.2, k.3.trans h.3, k.4.trans h.4, fun p e => k.5 p (h.5 p e)⟩

theorem weakFrame_rfl {s t : State}
    (a : t.flash = s.flash := by rfl)
    (b : t.stc = s.stc := by rfl)
    (c : t.psv = s.psv := by rfl)
    (d : t.bat.clock = s.bat.clock := by rfl) :
    WeakFrame s t := ⟨a, by rw [b]; exact arbiterFrame_refl _, c, d, fun p h => by rw [b]; exact h⟩

theorem weakFrame_refl (s : State) : WeakFrame s s := ⟨rfl, arbiterFrame_refl _, rfl, rfl, fun _ h => h⟩

/-- the lifecycle change, energy -/
theorem energy_parts (s : State) : WeakFrame s (commissionEnergy s) ∧ (commissionEnergy s).ee.energy = Energy.zero := by
  unfold commissionEnergy
  dsimp only
  have h := weakFrame_of (outside_roll s.bat.clock (lenOf s) id s.bat.clock s) (metering_roll s.bat.clock (lenOf s) id
      s.bat.clock s)
  refine ⟨weakFrame_trans h ?_, rfl⟩
  exact weakFrame_rfl

theorem credit_parts (s : State) : WeakFrame s (commissionCredit s) ∧ (commissionCredit s).ee.energy = s.ee.energy ∧
    (commissionCredit s).ce.money = ⟨0, 0, 0, false, s.bat.clock / 86400⟩ := by
  unfold commissionCredit
  generalize hx : rearm
      { s with ce := { s.ce with money := { b := 0, cRes := 0, u := 0, emergency := false, lastDay := dayOf s.bat.clock } } }
      = x
  have q := metering_evaluate x
  have w := weakFrame_of (outside_eval x) q
  have w0 : WeakFrame s x := by rw [← hx]; exact weakFrame_rfl
  refine ⟨weakFrame_trans w0 w, by rw [q.1, ← hx]; rfl, by rw [q.4, ← hx]; rfl⟩

theorem outside_mapKind (k f) (s : State) : OutsideFrame s (mapKind k f s) := outside_of

theorem kind_parts (s : State) (k) : WeakFrame s (commissionKind s k) ∧ (commissionKind s k).ee.energy = s.ee.energy ∧
    (commissionKind s k).ce.money = s.ce.money ∧ (∀ j, (s.bat.kinds.get j).counter = 0 ∨ j = k →
    ((commissionKind s k).bat.kinds.get j).counter = 0) := by
  unfold commissionKind
  dsimp only
  have hm : ∀ j, (s.bat.kinds.get j).counter = 0 ∨ j = k → ((mapKind k (fun r => { r with counter := 0 })
      s).bat.kinds.get j).counter = 0 := by
    intro j hj
    show ((s.bat.kinds.set k _).get j).counter = 0
    rcases hj with hj | hj
    · cases k <;> cases j <;> first | exact hj | rfl
    · subst hj; rw [perKind_get_set_same]
  have gm := outside_mapKind k (fun r => { r with counter := 0 }) s
  have qm := metering_mapKind k (fun r => { r with counter := 0 }) s
  generalize mapKind k (fun r => { r with counter := 0 }) s = x at *
  split
  · unfold warningEnd
    dsimp only
    have g1 : OutsideFrame x (setKindState k .quiet x) := outside_mapKind _ _ _
    have q1 : MeteringSame x (setKindState k .quiet x) := metering_mapKind _ _ _
    have hk : ∀ j, ((setKindState k .quiet x).bat.kinds.get j).counter = (x.bat.kinds.get j).counter := by
      intro j; show ((x.bat.kinds.set k _).get j).counter = _
      cases k <;> cases j <;> rfl
    generalize setKindState k .quiet x = y at *
    split
    · have g2 := outside_arrive (.append (.log (logEntry k .warningEnd y))) y
      have q2 := metering_arrive (.append (.log (logEntry k .warningEnd y))) y
      have p2 := arrive_parts (.append (.log (logEntry k .warningEnd y))) y
      refine ⟨weakFrame_of (outside_trans gm (outside_trans g1 g2)) (metering_trans qm (metering_trans q1 q2)),
          (metering_trans qm (metering_trans q1 q2)).1, ?_, ?_⟩
      · exact (metering_trans qm (metering_trans q1 q2)).4
      · intro j hj
        show ((arrive _ y).bat.kinds.get j).counter = 0
        rw [p2.2.1, hk, hm j hj]
    · exact ⟨weakFrame_of (outside_trans gm g1) (metering_trans qm q1), (metering_trans qm q1).1,
        (metering_trans qm q1).4, fun j hj => by rw [hk, hm j hj]⟩
  · exact ⟨weakFrame_of gm qm, qm.1, qm.4, hm⟩

theorem kinds_fold : ∀ (l : List Kind) (s : State), WeakFrame s (l.foldl commissionKind s) ∧
    (l.foldl commissionKind s).ee.energy = s.ee.energy ∧ (l.foldl commissionKind s).ce.money = s.ce.money ∧ (∀ j,
    (s.bat.kinds.get j).counter = 0 ∨ j ∈ l → ((l.foldl commissionKind s).bat.kinds.get j).counter = 0)
  | [], s => ⟨weakFrame_refl s, rfl, rfl, fun j hj => by rcases hj with hj | hj; exact hj; simp at hj⟩
  | k :: rest, s => by
    obtain ⟨a1, a2, a3, a4⟩ := kind_parts s k
    obtain ⟨b1, b2, b3, b4⟩ := kinds_fold rest (commissionKind s k)
    refine ⟨weakFrame_trans a1 b1, b2.trans a2, b3.trans a3, ?_⟩
    intro j hj
    apply b4
    rcases hj with hj | hj
    · exact Or.inl (a4 j (Or.inl hj))
    · rw [List.mem_cons] at hj
      rcases hj with hj | hj
      · exact Or.inl (a4 j (Or.inr hj))
      · exact Or.inr hj

theorem tamper_parts (s : State) : WeakFrame s (commissionTamper s) ∧ (commissionTamper s).ee.energy = s.ee.energy ∧
    (commissionTamper s).ce.money = s.ce.money ∧ (∀ j, ((commissionTamper s).bat.kinds.get j).counter = 0) := by
  unfold commissionTamper
  obtain ⟨a1, a2, a3, a4⟩ := kinds_fold kinds s
  generalize kinds.foldl commissionKind s = x at *
  have q := metering_agree x
  have b := (agree_stc x).2.1
  refine ⟨weakFrame_trans a1 (weakFrame_of (outside_agree x) q), q.1.trans a2, q.4.trans a3, fun j => ?_⟩
  rw [b]; exact a4 j (Or.inr (by cases j <;> simp [kinds]))

theorem setSwitch_keeps_reasons (w) (s : State) : (setSwitch w s).swc.set = s.swc.set ∧
    (setSwitch w s).swc.consent = s.swc.consent ∧ (setSwitch w s).swc.tripMem = s.swc.tripMem := by
  have x := (setSwitch_swc w s).1
  exact ⟨(congrArg Swc.set x :), (congrArg Swc.consent x :), (congrArg Swc.tripMem x :)⟩

theorem beginDrive_keeps_reasons (d) (s : State) : (beginDrive d s).swc.set = s.swc.set ∧
    (beginDrive d s).swc.consent = s.swc.consent ∧ (beginDrive d s).swc.tripMem = s.swc.tripMem := by
  unfold beginDrive
  exact setSwitch_keeps_reasons _ s

/-- What the lifecycle change leaves and sets in the switch controller. -/
def SwitchParts (s t : State) : Prop := WeakFrame s t ∧ t.ee.energy = s.ee.energy ∧ t.ce.money = s.ce.money ∧
    t.bat = s.bat ∧ t.swc.set.loadLimit = false ∧ t.swc.set.lockout = false ∧ t.swc.consent = false ∧ t.swc.tripMem = 0

theorem switchParts_set (w) {s x : State} (h : SwitchParts s x) : SwitchParts s (setSwitch w x) := by
  obtain ⟨a1, a2, a3, a4, a5, a6, a7, a8⟩ := h
  have q := metering_setSwitch w x
  obtain ⟨s1, s2, s3⟩ := setSwitch_keeps_reasons w x
  exact ⟨weakFrame_trans a1 (weakFrame_of (outside_setSwitch w x) q), q.1.trans a2, q.4.trans a3,
      ((setSwitch_swc w x).2.2.2.2.1).trans a4, by rw [s1, a5], by rw [s1, a6], by rw [s2, a7], by rw [s3, a8]⟩

theorem switchParts_drive (d) {s x : State} (h : SwitchParts s x) : SwitchParts s (beginDrive d x) := by
  obtain ⟨a1, a2, a3, a4, a5, a6, a7, a8⟩ := h
  have q := metering_beginDrive d x
  obtain ⟨s1, s2, s3⟩ := beginDrive_keeps_reasons d x
  exact ⟨weakFrame_trans a1 (weakFrame_of (outside_beginDrive d x) q), q.1.trans a2, q.4.trans a3,
      by have := (evalFrame_beginDrive d x).2; rw [this, a4], by rw [s1, a5], by rw [s1, a6], by rw [s2, a7], by rw [s3, a8]⟩

theorem switch_parts (s : State) : SwitchParts s (commissionSwitch s) := by
  have h0 : SwitchParts s
      { s with swc := { s.swc with consent := false, overLimit := 0, tripMem := 0, quiet := 0, recovery := Timer.stopped, set := putReason (putReason s.swc.set .loadLimit false) .lockout false } }
      := ⟨weakFrame_rfl, rfl, rfl, rfl, rfl, rfl, rfl, rfl⟩
  unfold commissionSwitch
  dsimp only
  repeat' split
  all_goals first
    | exact switchParts_set _ h0
    | exact switchParts_drive _ h0
    | exact h0

theorem change_parts (s : State) : let t := lifecycleChange s
    t.flash = s.flash ∧ ArbiterFrame s.stc t.stc ∧ t.psv = { s.psv with inService := true } ∧
        t.bat.clock = s.bat.clock ∧ t.ee.energy = Energy.zero ∧ t.ce.money = ⟨0, 0, 0, false, s.bat.clock / 86400⟩ ∧
        (∀ j, (t.bat.kinds.get j).counter = 0) ∧ t.swc.set.loadLimit = false ∧ t.swc.set.lockout = false ∧
        t.swc.consent = false ∧ t.swc.tripMem = 0 ∧ (∀ p, s.stc.prog = some p → t.stc.prog = some p) := by
  dsimp only
  unfold lifecycleChange
  have h0 : ∀ x : State, x = { s with psv := { s.psv with inService := true } } → x.flash = s.flash ∧ x.stc = s.stc ∧
      x.psv = { s.psv with inService := true } ∧ x.bat.clock = s.bat.clock := by
    intro x hx; rw [hx]; exact ⟨rfl, rfl, rfl, rfl⟩
  generalize hx : ({ s with psv := { s.psv with inService := true } } : State) = x
  obtain ⟨x1, x2, x3, x4⟩ := h0 x hx.symm
  obtain ⟨a1, a2⟩ := energy_parts x
  generalize commissionEnergy x = y at *
  obtain ⟨b1, b2, b3⟩ := credit_parts y
  generalize commissionCredit y = z at *
  obtain ⟨c1, c2, c3, c4⟩ := tamper_parts z
  generalize commissionTamper z = v at *
  obtain ⟨d1, d2, d3, d4, d5, d6, d7, d8⟩ := switch_parts v
  have w := weakFrame_trans a1 (weakFrame_trans b1 (weakFrame_trans c1 d1))
  refine ⟨w.1.trans x1,
      by rw [← x2]; exact w.2, w.3.trans x3, w.4.trans x4, by rw [d2, c2, b2, a2], by rw [d3, c3, b3, a1.4, x4], fun j => by rw [d4]; exact c4 j, d5, d6, d7, d8, fun p h => w.5 p (by rw [x2]; exact h)⟩

theorem exec_afterStore (c : Instr) (s x : State) (he : exec c s = done (afterStore x)) (hr : x.psv.power = .run) :
    ∃ t, exec c s = .next t ∧ t.flash = x.flash ∧ t.ee = x.ee ∧ t.ce = x.ce ∧ t.swc = x.swc ∧ t.bat = x.bat ∧
        t.exc.mem = x.exc.mem ∧ t.tmoHead = x.tmoHead ∧ ArbiterFrame x.stc t.stc ∧ t.psv = x.psv ∧
      t.stc = (runArbiter x).stc := by
  refine ⟨_, he, ?_⟩
  rw [afterStore_run (s := x) hr]
  have m := refresh_frame (runArbiter x)
  obtain ⟨w1, w2, w3, w4, w5, w6, w7, w8, w9⟩ := runArbiter_parts x
  have ws := (owners_run x).5
  generalize runArbiter x = w at *
  generalize refresh w = u at *
  obtain ⟨m1, m2, m3, m4, m5, m6, m7, m8, m9⟩ := m
  have us : u.stc = w.stc := congrArg Modules.stc m1
  refine ⟨m3.trans w8, (congrArg Modules.ee m1 : _).trans w5, (congrArg Modules.ce m1 : _).trans w3,
      (congrArg Modules.swc m1 : _).trans w7, m2.trans w2,
      by rw [m5, w1], (congrArg Modules.tmoHead m1 : _).trans w9, ?_, m4.trans w4, us⟩
  rw [us]; exact ws

/-- The reuse erase of block b waits, or is in progress. -/
def EraseTaken (b c g : Nat) (t : Stc) : Prop := (∃ q ∈ t.queue, q.op = .erase b c (some g)) ∨ ∃ x, t.erase = some x ∧
    x.block = b ∧ x.good = g

theorem eraseTaken_begin {b c g} (f i q) (t : Stc) (h : ∃ q ∈ t.queue,
    q.op = .erase b c (some g)) : EraseTaken b c g (beginOp f i q t) := by
  unfold beginOp
  split
  · left
    obtain ⟨q', h1, h2⟩ := h
    refine ⟨q', ?_, h2⟩
    show q' ∈ t.queue.filter _
    rw [List.mem_filter]
    exact ⟨h1, by unfold isSave; rw [h2]; rfl⟩
  · rename_i hb; left; exact has_erase (by rw [hb]; simp) h
  · rename_i b' c' g' hb
    by_cases ho : q.op = .erase b c (some g)
    · rw [hb] at ho; cases ho
      right; exact ⟨_, rfl, rfl, rfl⟩
    · left; exact has_erase ho h
  · rename_i e he
    split
    · dsimp only
      split
      · rename_i w hw
        obtain ⟨n, c', g', hop⟩ := find_op hw
        rw [hop]
        by_cases ho : w.op = .erase b c (some g)
        · rw [hop] at ho; cases ho
          right; exact ⟨_, rfl, rfl, rfl⟩
        · left; exact has_erase ho h
      · exact Or.inl h
    · left; exact has_erase (by rw [he]; simp) h

theorem eraseTaken_arb {b c g} (f i) (t : Stc) (hb : 2 ≤ b) (h : ∃ q ∈ t.queue,
    q.op = .erase b c (some g)) : EraseTaken b c g (arbitrate f i t) := by
  have hq : ∃ q ∈ (raiseErase f
      { t with queue := t.queue.filter (fun q => match q.op with | .bit b => !bitOf t.copy b | _ => true) }).queue,
      q.op = .erase b c (some g) := by
    obtain ⟨q, h1, h2⟩ := h
    have h3 : q ∈ t.queue.filter (fun q => match q.op with | .bit b => !bitOf t.copy b | _ => true) := by
      rw [List.mem_filter]
      exact ⟨h1, by rw [h2]⟩
    unfold raiseErase
    split
    · refine ⟨q, ?_, h2⟩
      rw [List.mem_map]
      refine ⟨q, h3, ?_⟩
      rw [h2]
      have : (b == 1 - t.curBlock) = false := by simp; omega
      dsimp only
      rw [this]; simp
    · exact ⟨q, h3, h2⟩
  unfold arbitrate
  dsimp only
  generalize raiseErase f
      { t with queue := t.queue.filter (fun q => match q.op with | .bit b => !bitOf t.copy b | _ => true) } = v at hq
  split
  · split
    · exact eraseTaken_begin _ _ _ _ hq
    · exact Or.inl hq
  · exact Or.inl hq

theorem eraseTaken_run {b c g} (s : State) (hb : 2 ≤ b) (h : ∃ q ∈ s.stc.queue,
    q.op = .erase b c (some g)) : EraseTaken b c g (runArbiter s).stc := by
  unfold runArbiter; split
  · exact eraseTaken_arb _ _ _ hb h
  · exact Or.inl h

theorem putPlaces_parts (f a p) : (putPlaces f a p).bits = f.bits ∧ (putPlaces f a p).records = f.records ∧ (a = .log →
    (putPlaces f a p).profile = f.profile) ∧ (a = .profile → (putPlaces f a p).log = f.log) := by
  cases a
  · exact ⟨rfl, rfl, fun _ => rfl, by simp⟩
  · exact ⟨rfl, rfl, by simp, fun _ => rfl⟩

theorem tellSave_none (k) (s : State) (h1 : s.cau.pkg = none) (h2 : s.cau.applied = none) (h3 : s.psv.req = none) :
    tellSave false s k = s := by
  unfold tellSave; split
  · rfl
  · cases k
    case code =>
      show codeCommitted false s = s
      unfold codeCommitted; rw [h2]; cases s.cau.queue <;> rfl
    case package => show packageCommitted false s = s; unfold packageCommitted; rw [h1]
    case lifecycle => show lifecycleSaved false s = s; unfold lifecycleSaved; rw [h3]
    all_goals rfl

theorem tellSaves_none (s : State) (h1 : s.cau.pkg = none) (h2 : s.cau.applied = none) (h3 : s.psv.req = none) : ∀ l :
    List SaveKind, tellSaves false l s = s
  | [] => rfl
  | k :: rest => by
    show tellSaves false rest (tellSave false s k) = s
    rw [tellSave_none k s h1 h2 h3]; exact tellSaves_none s h1 h2 h3 rest

theorem bitEnded_none (s : State) (h3 : s.psv.req = none) : ∀ l : List BitName,
    l.foldl (fun t b => bitEnded b .byFault t) s = s
  | [] => rfl
  | b :: rest => by
    have : bitEnded b .byFault s = s := by
      cases b with
      | ever k => rfl
      | commissioned => show (match s.psv.req with | some q => _ | none => s) = s; rw [h3]
      | keyInstalled => show (match s.psv.req with | some q => _ | none => s) = s; rw [h3]
    show rest.foldl _ (bitEnded b .byFault s) = s
    rw [this]; exact bitEnded_none s h3 rest

/-- What the notes at HOLD leave. -/
structure NotesFrame (s t : State) : Prop where
  mods : t.toModules = s.toModules
  psv : t.psv = s.psv
  flash : t.flash = s.flash
  exc : t.exc = s.exc
  hold : t.bat.holdBegin = s.bat.holdBegin

theorem notesFrame_notes (s : State) : NotesFrame s (notesAtHold s) := by
  have h1 : ∀ (s : State) k, NotesFrame s (noteAtHold s k) := by
    intro s k; unfold noteAtHold; split <;> exact ⟨rfl, rfl, rfl, rfl, rfl⟩
  have h2 : ∀ (l : List Kind) (s : State), NotesFrame s (l.foldl noteAtHold s) := by
    intro l; induction l with
    | nil => intro s; exact ⟨rfl, rfl, rfl, rfl, rfl⟩
    | cons k rest ih =>
      intro s
      have a := h1 s k
      have b := ih (noteAtHold s k)
      exact ⟨b.1.trans a.1, b.2.trans a.2, b.3.trans a.3, b.4.trans a.4, b.5.trans a.5⟩
  exact h2 kinds s

theorem finishHold_refresh (c : Instr) (s x : State) (he : exec c s = done (finishHold x)) (k1 : x.psv.battery = true) :
    ∃ t, exec c s = .next t ∧ t.psv.power = .battery ∧ t.flash = (interruptStore (cutDrives x)).flash ∧
        t.stc = (interruptStore (cutDrives x)).stc ∧ t.exc.attn = false ∧ t.exc.wake = false ∧ t.exc.mem = [] ∧
        t.exc.notices = [] ∧ t.ce = x.ce ∧ t.bat = x.bat := by
  have f := finishHold_ended x k1
  refine ⟨_, he, ?_⟩
  have m := refresh_frame (finishHold x)
  have mx := exchangeFrame_refresh (finishHold x)
  have ha : (refresh (finishHold x)).exc.attn = (finishHold x).exc.attn := by
    unfold refresh; split <;> rfl
  generalize finishHold x = z at *
  generalize refresh z = u at *
  obtain ⟨m1, m2, m3, m4, m5⟩ := m
  exact ⟨by rw [m4, f.power],
      by rw [m3, f.flash], by rw [show u.stc = z.stc from congrArg Modules.stc m1, f.stc], by rw [ha, f.exc]; rfl, by rw [mx.14, f.exc]; rfl, by rw [mx.4, f.exc]; rfl, by rw [mx.6, f.exc]; rfl, by rw [show u.ce = z.ce from congrArg Modules.ce m1, f.ce], by rw [m2, f.bat]⟩

theorem interruptStore_free {x : State} (k2 : x.stc.erase = none) : (interruptStore (cutDrives x)).flash = x.flash ∧
    (interruptStore (cutDrives x)).stc.prog = none := by
  have c := cutDrives_frame x
  rw [interruptStore_idle (by rw [c.2.1]; exact k2)]
  exact ⟨c.2.2.1, rfl⟩

theorem remnants_removed (b f) (x : State) : (remnants b f x).flash.removed = x.flash.removed ∧
    (remnants b f x).flash.bits = x.flash.bits := by
  unfold remnants drawFree
  dsimp only
  split
  · exact ⟨rfl, rfl⟩
  · cases blockArea b <;> exact ⟨rfl, rfl⟩

theorem interruptStore_left {x : State} {e : EraseRun} (k2 : x.stc.erase = some e) (hb : 2 ≤ e.block) : (interruptStore
    (cutDrives x)).flash.removed = x.flash.removed ++ [(e.block, e.good)] ∧
    (interruptStore (cutDrives x)).flash.bits = x.flash.bits := by
  have c := cutDrives_frame x
  have hi : interruptStore (cutDrives x) = programOver (eraseOver (stayRemoved (leavesRemoved e) (remnants e.block false
      (cutDrives x)))) := by
    unfold interruptStore; rw [c.2.1, k2]
  rw [hi]
  have r := remnants_removed e.block false (cutDrives x)
  have hl : leavesRemoved e = [(e.block, e.good)] := by unfold leavesRemoved; rw [if_pos hb]
  rw [hl]
  refine ⟨?_, ?_⟩
  · show (remnants e.block false (cutDrives x)).flash.removed ++ _ = _; rw [r.1, c.2.2.1]
  · show (remnants e.block false (cutDrives x)).flash.bits = _; rw [r.2, c.2.2.1]

theorem tellSaves_hold (ok) (s : State) (h : s.psv.power = .hold) : ∀ l : List SaveKind, tellSaves ok l s = s
  | [] => rfl
  | k :: rest => by
    show tellSaves ok rest (tellSave ok s k) = s
    have : tellSave ok s k = s := by unfold tellSave; rw [h]; rfl
    rw [this]; exact tellSaves_hold ok s h rest

theorem recount_hold {x : State} (hx : x.psv.power = .hold) : recount x = x := by
  unfold recount storeWorks; rw [hx]; rfl

theorem recordDone_powerFail_pass {s : State} (saves image) (hr : s.psv.power = .hold) (hw : s.psv.holdWait = false) (hp
    : s.stc.prog = some (.record saves image)) :
    exec (.programRecordDone .pass) s = done (finishHold (programOver (countPass (putRecord (.good image) s)))) := by
  have hd : exec (.programRecordDone .pass) s = done (afterPowerFail true (recordEnds saves image .pass s)) := by
    show done (recordDone .pass s) = _; unfold recordDone; rw [hp]; dsimp only; rw [hr, hw]; rfl
  have hre : recordEnds saves image .pass s = programOver (countPass (putRecord (.good image) s)) := by
    show programOver (tellSaves true saves (recount (countPass (putRecord (.good image) s)))) = _
    rw [recount_hold (x := countPass (putRecord (.good image) s)) hr, tellSaves_hold true (countPass (putRecord (.good image) s)) hr]
  rw [hd, hre]; rfl

/-- What the entry to RUN leaves. -/
structure RunFrame (s t : State) : Prop where
  stc : t.stc = s.stc
  rlr : t.rlr = s.rlr
  some : t.ee.interval.isSome = s.ee.interval.isSome
  load : t.swc.set.loadLimit = s.swc.set.loadLimit
  flash : t.flash = s.flash
  mem : t.exc.mem = s.exc.mem
  psv : t.psv = s.psv
  money : t.ce.money = s.ce.money

theorem runFrame_refl (s : State) : RunFrame s s := ⟨rfl, rfl, rfl, rfl, rfl, rfl, rfl, rfl⟩

theorem runFrame_trans {s t u : State} (h : RunFrame s t) (k : RunFrame t u) : RunFrame s u := ⟨k.1.trans h.1,
    k.2.trans h.2, k.3.trans h.3, k.4.trans h.4, k.5.trans h.5, k.6.trans h.6, k.7.trans h.7, k.8.trans h.8⟩

theorem runFrame_ite {s a b : State} {p : Prop} [Decidable p] (ha : RunFrame s a) (hb : RunFrame s b) : RunFrame s (if p
    then a else b) := by
  split
  · exact ha
  · exact hb

theorem runFrame_of {s t : State}
    (a : t.stc = s.stc := by rfl)
    (b : t.rlr = s.rlr := by rfl)
    (c : t.ee.interval = s.ee.interval := by rfl)
    (d : t.swc.set.loadLimit = s.swc.set.loadLimit := by rfl)
    (e : t.flash = s.flash := by rfl)
    (f : t.exc.mem = s.exc.mem := by rfl)
    (g : t.psv = s.psv := by rfl)
    (h : t.ce.money = s.ce.money := by rfl) :
    RunFrame s t := ⟨a, b, by rw [c], d, e, f, g, h⟩

theorem runFrame_post (b) (s : State) : RunFrame s (post b s) := ⟨rfl, rfl, rfl, rfl, rfl, (post_exc_parts b s).1, rfl,
    rfl⟩

theorem runFrame_setSwitch (w) (s : State) : RunFrame s (setSwitch w s) := by
  unfold setSwitch; dsimp only; split
  · exact runFrame_of
  · exact ⟨rfl, rfl, by show (s.ee.interval.map _).isSome = _; simp, rfl, rfl, rfl, rfl, rfl⟩

theorem runFrame_drive (d) (s : State) : RunFrame s (beginDrive d s) := by
  unfold beginDrive; exact runFrame_trans (runFrame_setSwitch _ _) runFrame_of

theorem runFrame_respond (b) (s : State) : RunFrame s (respond b s) := by
  unfold respond
  repeat' split
  all_goals first
    | exact runFrame_refl _
    | exact runFrame_setSwitch _ _
    | exact runFrame_drive _ _

theorem runFrame_add (s : State) : RunFrame s (addReason .credit s) := by
  unfold addReason; refine runFrame_ite (runFrame_refl s) (runFrame_trans ?_ (runFrame_respond _ _)); exact runFrame_of

theorem runFrame_rem (s : State) : RunFrame s (removeReason .credit s) := by
  unfold removeReason; refine runFrame_ite (runFrame_trans ?_ (runFrame_respond _ _)) (runFrame_refl s);
      exact runFrame_of

theorem runFrame_eval (s : State) : RunFrame s (evaluate s) := by
  have hd : ∀ b x, RunFrame x (setDeferral b x) := fun b x => runFrame_of
  unfold evaluate
  exact runFrame_ite (runFrame_trans (runFrame_rem s) (hd _ _)) (runFrame_ite (runFrame_refl s) (runFrame_ite
      (runFrame_ite (hd _ _) (runFrame_trans (hd _ _) (runFrame_post _ _))) (runFrame_trans (runFrame_add s) (hd _ _))))

theorem runFrame_credit (s : State) : RunFrame s (enterRunCredit s) := by
  unfold enterRunCredit
  have hs : ∀ x, RunFrame x (steerRule x) := fun x => runFrame_ite runFrame_of (runFrame_refl x)
  have hb : ∀ x, RunFrame x (recomputeBand x) := fun x => runFrame_of
  have h1 : ∀ x : State, RunFrame x (rearm
      { x with ce := { x.ce with window := windowAt x x.bat.clock, minuteDue := false } }) := fun x => runFrame_of
  have h0 : RunFrame s (recomputeBand (steerRule s)) := runFrame_trans (hs s) (hb _)
  exact runFrame_trans (runFrame_trans h0 (h1 _)) (runFrame_eval _)

theorem runFrame_postAll : ∀ (l : List NoticeBody) (s : State), RunFrame s (postAll l s)
  | [], s => runFrame_refl s
  | b :: rest, s => runFrame_trans (runFrame_post b s) (runFrame_postAll rest (post b s))

theorem postAll_head : ∀ (l : List NoticeBody) (s : State) (n : Notice), s.exc.notices.head? = some n →
    (postAll l s).exc.notices.head? = some n ∧ (postAll l s).exc.live = s.exc.live ∧
    (postAll l s).exc.takeCtr = s.exc.takeCtr ∧ (postAll l s).exc.mem = s.exc.mem ∧
    (postAll l s).exc.standing = s.exc.standing ∧ (postAll l s).psv = s.psv
  | [], s, n, h => ⟨h, rfl, rfl, rfl, rfl, rfl⟩
  | b :: rest, s, n, h => by
    have hp : (post b s).exc.notices.head? = some n ∧ (post b s).exc.live = s.exc.live ∧
        (post b s).exc.takeCtr = s.exc.takeCtr ∧ (post b s).exc.mem = s.exc.mem ∧
        (post b s).exc.standing = s.exc.standing := by
      unfold post Exc.post; dsimp only
      split
      · split
        · refine ⟨?_, rfl, rfl, rfl, rfl⟩
          show (s.exc.notices ++ _).head? = _
          cases hn : s.exc.notices with
          | nil => rw [hn] at h; simp at h
          | cons a r => rw [hn] at h; simpa using h
        · exact ⟨h, rfl, rfl, rfl, rfl⟩
      · exact ⟨h, rfl, rfl, rfl, rfl⟩
    obtain ⟨p1, p2, p3, p4, p5⟩ := hp
    obtain ⟨a1, a2, a3, a4, a5, a6⟩ := postAll_head rest (post b s) n p1
    exact ⟨a1, a2.trans p2, a3.trans p3, a4.trans p4, a5.trans p5, a6⟩

end Sys2Proof.Machine
end

