-- ==== Sys2Proof/Laws/FramesPeriod.lean ====
section
/-! SUPPORT. Laws/FramesPeriod.lean:
what a period, an activation, a clearing and a set clock leave unchanged, and what billing does to the open interval. -/

set_option Elab.async false

namespace Sys2Proof.Machine

open Sys2Proof

/-- What a hand-off leaves of the exchange and of the kinds other than k. -/
structure HandoffFrame (k : Kind) (s t : State) : Prop where
  mem : t.exc.mem = s.exc.mem
  standing : t.exc.standing = s.exc.standing
  deferred : t.exc.deferred = s.exc.deferred
  bus : t.exc.bus = s.exc.bus
  cau : t.cau = s.cau
  others : ∀ j, j ≠ k → t.bat.kinds.get j = s.bat.kinds.get j
  counter : ∀ j, (t.bat.kinds.get j).counter = (s.bat.kinds.get j).counter
variable {k0 : Kind}

theorem handoff_refl (s : State) : HandoffFrame k0 s s := ⟨rfl, rfl, rfl, rfl, rfl, fun _ _ => rfl, fun _ => rfl⟩

theorem handoff_of {s t : State}
    (a : t.exc.mem = s.exc.mem := by rfl)
    (b : t.exc.standing = s.exc.standing := by rfl)
    (c : t.exc.deferred = s.exc.deferred := by rfl)
    (d : t.exc.bus = s.exc.bus := by rfl)
    (e : t.cau = s.cau := by rfl)
    (f : t.bat.kinds = s.bat.kinds := by rfl) :
    HandoffFrame k0 s t := ⟨a, b, c, d, e, fun _ _ => by rw [f], fun _ => by rw [f]⟩

theorem handoff_trans {s t u : State} (h : HandoffFrame k0 s t) (k : HandoffFrame k0 t u) : HandoffFrame k0 s u :=
  ⟨k.1.trans h.1, k.2.trans h.2, k.3.trans h.3, k.4.trans h.4, k.5.trans h.5, fun j e => (k.6 j e).trans (h.6 j e),
      fun j => (k.7 j).trans (h.7 j)⟩

theorem handoff_ite {s a b : State} {p : Prop} [Decidable p] (ha : HandoffFrame k0 s a) (hb : HandoffFrame k0 s b) :
    HandoffFrame k0 s (if p then a else b) := by
  split
  · exact ha
  · exact hb

theorem perKind_get_set_ne {α : Type} (p : PerKind α) (k j : Kind) (x : α) (h : j ≠ k) : (p.set k x).get j = p.get j :=
    by
  cases k <;> cases j <;> first | rfl | exact absurd rfl h

theorem handoff_kind (f : KindRec → KindRec) (s : State) (hf : ∀ r,
    (f r).counter = r.counter) : HandoffFrame k0 s (mapKind k0 f s) := by
  refine ⟨rfl, rfl, rfl, rfl, rfl, fun j e => perKind_get_set_ne _ _ _ _ e, fun j => ?_⟩
  unfold mapKind
  by_cases e : j = k0
  · subst e; rw [perKind_get_set_same]; exact hf _
  · rw [perKind_get_set_ne _ _ _ _ e]

theorem handoff_post (b) (s : State) : HandoffFrame k0 s (post b s) := by
  unfold post Exc.post
  split
  · split <;> exact ⟨rfl, rfl, rfl, rfl, rfl, fun _ _ => rfl, fun _ => rfl⟩
  · exact ⟨rfl, rfl, rfl, rfl, rfl, fun _ _ => rfl, fun _ => rfl⟩

theorem handoff_keepNotice (b) (s : State) : HandoffFrame k0 s (keepNotice b s) := handoff_of

theorem handoff_drawFree (s : State) : HandoffFrame k0 s (drawFree s) := handoff_of

theorem handoff_arrive (o) (s : State) : HandoffFrame k0 s (arrive o s) := by
  unfold arrive
  refine handoff_ite (handoff_refl s) ?_
  unfold runArbiter
  exact handoff_ite handoff_of handoff_of

theorem handoff_flag (f) (s : State) : HandoffFrame k0 s (flagInterval f s) := handoff_of

theorem handoff_open (t) (s : State) : HandoffFrame k0 s (openInterval t s) := handoff_of

theorem handoff_roll (e n f t) (s : State) : HandoffFrame k0 s (rollInterval e n f t s) := by
  unfold rollInterval
  split
  · exact handoff_ite (handoff_open _ _) (handoff_trans (handoff_trans (handoff_open _ _) (handoff_arrive _ _))
      (handoff_drawFree _))
  · exact handoff_open _ _

theorem handoff_setDrive (d) (s : State) : HandoffFrame k0 s (setDrive d s) := handoff_of

theorem handoff_setSwitch (w) (s : State) : HandoffFrame k0 s (setSwitch w s) := by
  unfold setSwitch
  dsimp only
  exact handoff_ite handoff_of handoff_of

theorem handoff_beginDrive (d) (s : State) : HandoffFrame k0 s (beginDrive d s) :=
    handoff_trans (handoff_setSwitch _ s) handoff_of

theorem handoff_respond (b) (s : State) : HandoffFrame k0 s (respond b s) := by
  unfold respond
  repeat' split
  all_goals first
    | exact handoff_refl _
    | exact handoff_setSwitch _ _
    | exact handoff_beginDrive _ _

theorem handoff_add (r) (s : State) : HandoffFrame k0 s (addReason r s) := by
  unfold addReason
  refine handoff_ite (handoff_refl s) (handoff_trans ?_ (handoff_respond _ _)); exact handoff_of

theorem handoff_remove (r) (s : State) : HandoffFrame k0 s (removeReason r s) := by
  unfold removeReason
  refine handoff_ite (handoff_trans ?_ (handoff_respond _ _)) (handoff_refl s); exact handoff_of

theorem handoff_trip (p) (s : State) : HandoffFrame k0 s (trip p s) := by
  unfold trip
  dsimp only
  have k : HandoffFrame k0 s (post (.loadTrip ((addReason .loadLimit s).swc.tripMem + 1) p (addReason .loadLimit
      s).cau.settings.pMax)
      { addReason .loadLimit s with swc := { (addReason .loadLimit s).swc with recovery := startTimer 60, tripMem := if 3 ≤ (addReason .loadLimit s).swc.tripMem + 1 then 0 else (addReason .loadLimit s).swc.tripMem + 1, quiet := 0, overLimit := 0 } })
      := by
    refine handoff_trans (handoff_trans (handoff_add .loadLimit s) ?_) (handoff_post _ _)
    exact handoff_of
  exact handoff_ite (handoff_trans (handoff_trans k (handoff_add _ _)) (handoff_post _ _)) k

theorem handoff_limiter (t) (s : State) : HandoffFrame k0 s (limiterHandOff t s) := by
  unfold limiterHandOff
  refine handoff_ite (handoff_trans (?_ : HandoffFrame k0 s (quietStep s)) ?_) (handoff_refl s)
  · unfold quietStep
    exact handoff_ite (handoff_refl s) (handoff_ite handoff_of handoff_of)
  · unfold limitStep
    dsimp only
    refine handoff_ite (handoff_trans ?_ (handoff_trip _ _)) ?_
    · exact handoff_of
    · exact handoff_of

theorem handoff_agree (s : State) : HandoffFrame k0 s (tamperAgree s) :=
    handoff_ite (handoff_add _ s) (handoff_remove _ s)

theorem handoff_ever (k) (s : State) : HandoffFrame k0 s (programEver k s) :=
    handoff_ite (handoff_refl s) (handoff_arrive _ s)

theorem handoff_appendLog (k e) (s : State) : HandoffFrame k0 s (appendLog k e s) := handoff_arrive _ s

theorem handoff_declareKind (s : State) : HandoffFrame k0 s (declareKind k0 s) := by
  refine handoff_ite ?_ ?_
  · have h := handoff_trans (handoff_kind (k0 := k0) (fun r =>
      { r with state := .declared, count := min 65535 (r.count + 1), last := some s.bat.clock, first := match r.first with | some t => some t | none => some s.bat.clock })
      s (fun _ => rfl)) (handoff_agree _)
    unfold declareInOutage
    dsimp only
    split
    · exact h
    · exact handoff_trans h handoff_of
  · unfold declareWith
    refine handoff_trans (handoff_trans (handoff_trans (handoff_trans (handoff_trans (handoff_trans ?_ (handoff_flag _
        _)) (handoff_agree _)) (handoff_ever _ _)) (handoff_arrive _ _)) (handoff_arrive _ _)) (handoff_ite
        (handoff_post _ _) (handoff_keepNotice _ _))
    exact handoff_kind _ _ (fun _ => rfl)

theorem handoff_state (x) (s : State) : HandoffFrame k0 s (setKindState k0 x s) :=
    handoff_kind (fun r => { r with state := x }) s (fun _ => rfl)

theorem handoff_warningBegin (s : State) : HandoffFrame k0 s (warningBegin k0 s) := by
  unfold warningBegin
  exact handoff_ite (handoff_trans (handoff_trans (handoff_state _ s) (handoff_appendLog _ _ _)) (handoff_post _ _))
      (handoff_state _ s)

theorem handoff_warningEnd (s : State) : HandoffFrame k0 s (warningEnd k0 s) := by
  unfold warningEnd
  exact handoff_ite (handoff_trans (handoff_state _ s) (handoff_appendLog _ _ _)) (handoff_state _ s)

theorem handoff_moveKind (u : State) : HandoffFrame k0 u (moveKind k0 u) := by
  have hw := handoff_warningBegin (k0 := k0) u
  have hd := handoff_trans hw (handoff_declareKind _)
  unfold moveKind
  dsimp only
  split
  · exact handoff_ite (handoff_refl u) (handoff_ite hd hw)
  · exact handoff_ite (handoff_warningEnd u) (handoff_ite (handoff_declareKind u) (handoff_refl u))
  · exact handoff_refl u

theorem handoff_lowCredit (s : State) : HandoffFrame k0 s (lowCredit s) := by
  have h1 : ∀ t : State, HandoffFrame k0 s t → ∀ b (p : Bool), HandoffFrame k0 s (if p then post b t else t) :=
      fun t h b p => handoff_ite (handoff_trans h (handoff_post _ _)) h
  unfold lowCredit
  exact h1 _ (h1 _ handoff_of _ _) _ _

theorem handoff_evaluate (s : State) : HandoffFrame k0 s (evaluate s) := by
  have hd : ∀ x (t : State), HandoffFrame k0 t (setDeferral x t) := fun x t => handoff_of
  unfold evaluate
  refine handoff_ite (handoff_trans (handoff_remove _ s) (hd _ _)) (handoff_ite (handoff_refl s) (handoff_ite
      (handoff_ite (hd _ _) (handoff_trans (hd _ _) (handoff_post _ _))) (handoff_trans (handoff_add _ s) (hd _ _))))

theorem handoff_testBoundary (e) (s : State) : HandoffFrame k0 s (testBoundary e s) := by
  unfold testBoundary
  split
  · exact handoff_ite (handoff_roll _ _ _ _ _) (handoff_refl s)
  · exact handoff_refl s

/-- What of an interval the hand-offs other than billing leave. -/
def ivCore (v : Interval) : Interval :=
    { v with flags := { ProfileFlags.clear with overrange := v.flags.overrange, clockInvalid := v.flags.clockInvalid, saturated := v.flags.saturated } }

/-- A hand-off leaves the core of the open interval and the arming flags. -/
structure IntervalFrame (s t : State) : Prop where
  iv : t.ee.interval.map ivCore = s.ee.interval.map ivCore
  arm1 : t.ce.arm1 = s.ce.arm1
  arm2 : t.ce.arm2 = s.ce.arm2

theorem interval_refl (s : State) : IntervalFrame s s := ⟨rfl, rfl, rfl⟩

theorem interval_of {s t : State}
    (a : t.ee.interval = s.ee.interval := by rfl)
    (b : t.ce.arm1 = s.ce.arm1 := by rfl)
    (c : t.ce.arm2 = s.ce.arm2 := by rfl) :
    IntervalFrame s t := ⟨by rw [a], b, c⟩

theorem interval_trans {s t u : State} (h : IntervalFrame s t) (k : IntervalFrame t u) : IntervalFrame s u :=
    ⟨k.1.trans h.1, k.2.trans h.2, k.3.trans h.3⟩

theorem interval_ite {s a b : State} {p : Prop} [Decidable p] (ha : IntervalFrame s a) (hb : IntervalFrame s b) :
    IntervalFrame s (if p then a else b) := by
  split
  · exact ha
  · exact hb

theorem interval_post (b) (s : State) : IntervalFrame s (post b s) := interval_of

theorem interval_keepNotice (b) (s : State) : IntervalFrame s (keepNotice b s) := interval_of

theorem interval_drawFree (s : State) : IntervalFrame s (drawFree s) := interval_of

theorem interval_arrive (o) (s : State) : IntervalFrame s (arrive o s) := by
  unfold arrive
  refine interval_ite (interval_refl s) ?_
  unfold runArbiter
  exact interval_ite interval_of interval_of

theorem interval_flag (f : ProfileFlags → ProfileFlags) (s : State) (hf : ∀ v : Interval,
    ivCore { v with flags := f v.flags } = ivCore v) : IntervalFrame s (flagInterval f s) := by
  refine ⟨?_, rfl, rfl⟩
  unfold flagInterval
  cases h : s.ee.interval with
  | none => rfl
  | some v => simp [hf v]

theorem interval_setDrive (d) (s : State) : IntervalFrame s (setDrive d s) := interval_of

theorem interval_setSwitch (w) (s : State) : IntervalFrame s (setSwitch w s) := by
  unfold setSwitch
  dsimp only
  refine interval_ite ?_ ?_
  · exact interval_of
  · refine interval_trans ?_ (interval_flag _ _ (fun _ => rfl))
    exact interval_of

theorem interval_beginDrive (d) (s : State) : IntervalFrame s (beginDrive d s) :=
    interval_trans (interval_setSwitch _ s) interval_of

theorem interval_respond (b) (s : State) : IntervalFrame s (respond b s) := by
  unfold respond
  repeat' split
  all_goals first
    | exact interval_refl _
    | exact interval_setSwitch _ _
    | exact interval_beginDrive _ _

theorem interval_add (r) (s : State) : IntervalFrame s (addReason r s) := by
  unfold addReason
  refine interval_ite (interval_refl s) (interval_trans ?_ (interval_respond _ _)); exact interval_of

theorem interval_remove (r) (s : State) : IntervalFrame s (removeReason r s) := by
  unfold removeReason
  refine interval_ite (interval_trans ?_ (interval_respond _ _)) (interval_refl s); exact interval_of

theorem interval_trip (p) (s : State) : IntervalFrame s (trip p s) := by
  unfold trip
  dsimp only
  have k : IntervalFrame s (post (.loadTrip ((addReason .loadLimit s).swc.tripMem + 1) p (addReason .loadLimit
      s).cau.settings.pMax)
      { addReason .loadLimit s with swc := { (addReason .loadLimit s).swc with recovery := startTimer 60, tripMem := if 3 ≤ (addReason .loadLimit s).swc.tripMem + 1 then 0 else (addReason .loadLimit s).swc.tripMem + 1, quiet := 0, overLimit := 0 } })
      := by
    refine interval_trans (interval_trans (interval_add .loadLimit s) ?_) (interval_post _ _)
    exact interval_of
  exact interval_ite (interval_trans (interval_trans k (interval_add _ _)) (interval_post _ _)) k

theorem interval_limiter (t) (s : State) : IntervalFrame s (limiterHandOff t s) := by
  unfold limiterHandOff
  refine interval_ite (interval_trans (?_ : IntervalFrame s (quietStep s)) ?_) (interval_refl s)
  · unfold quietStep
    exact interval_ite (interval_refl s) (interval_ite interval_of interval_of)
  · unfold limitStep
    dsimp only
    refine interval_ite (interval_trans ?_ (interval_trip _ _)) ?_
    · exact interval_of
    · exact interval_of

theorem interval_mapKind (k f) (s : State) : IntervalFrame s (mapKind k f s) := interval_of

theorem interval_agree (s : State) : IntervalFrame s (tamperAgree s) :=
    interval_ite (interval_add _ s) (interval_remove _ s)

theorem interval_ever (k) (s : State) : IntervalFrame s (programEver k s) :=
    interval_ite (interval_refl s) (interval_arrive _ s)

theorem interval_appendLog (k e) (s : State) : IntervalFrame s (appendLog k e s) := interval_arrive _ s

theorem interval_declareKind (k) (s : State) : IntervalFrame s (declareKind k s) := by
  refine interval_ite ?_ ?_
  · have h := interval_trans (interval_mapKind k (fun r =>
      { r with state := .declared, count := min 65535 (r.count + 1), last := some s.bat.clock, first := match r.first with | some t => some t | none => some s.bat.clock })
      s) (interval_agree _)
    unfold declareInOutage
    dsimp only
    split
    · exact h
    · exact interval_trans h interval_of
  · unfold declareWith
    refine interval_trans (interval_trans (interval_trans (interval_trans (interval_trans (interval_trans ?_
        (interval_flag _ _ (fun _ => rfl))) (interval_agree _)) (interval_ever _ _)) (interval_arrive _ _))
        (interval_arrive _ _)) (interval_ite (interval_post _ _) (interval_keepNotice _ _))
    exact interval_mapKind _ _ _

theorem interval_warningBegin (k) (s : State) : IntervalFrame s (warningBegin k s) := by
  unfold warningBegin
  exact interval_ite (interval_trans (interval_trans (interval_mapKind _ _ s) (interval_appendLog _ _ _)) (interval_post
      _ _)) (interval_mapKind _ _ s)

theorem interval_warningEnd (k) (s : State) : IntervalFrame s (warningEnd k s) := by
  unfold warningEnd
  exact interval_ite (interval_trans (interval_mapKind _ _ s) (interval_appendLog _ _ _)) (interval_mapKind _ _ s)

theorem interval_indicator (k p) (s : State) : IntervalFrame s (indicator k p s) := by
  unfold indicator
  generalize hu : mapKind k _ s = u
  refine interval_trans (?_ : IntervalFrame s u) ?_
  · rw [← hu]; exact interval_mapKind _ _ s
  have hw := interval_warningBegin k u
  have hd := interval_trans hw (interval_declareKind k _)
  unfold moveKind
  dsimp only
  split
  · exact interval_ite (interval_refl u) (interval_ite hd hw)
  · exact interval_ite (interval_warningEnd k u) (interval_ite (interval_declareKind k u) (interval_refl u))
  · exact interval_refl u

theorem interval_evaluate (s : State) : IntervalFrame s (evaluate s) := by
  have hd : ∀ x (t : State), IntervalFrame t (setDeferral x t) := fun x t => interval_of
  unfold evaluate
  refine interval_ite (interval_trans (interval_remove _ s) (hd _ _)) (interval_ite (interval_refl s) (interval_ite
      (interval_ite (hd _ _) (interval_trans (hd _ _) (interval_post _ _))) (interval_trans (interval_add _ s) (hd _
      _))))

/-- An interval after a deduction of d out of k. -/
def addDed (d k : Nat) (c : Interval) : Interval :=
    { c with credit := c.credit + d, flags := { c.flags with saturated := c.flags.saturated || decide (d < k) } }

theorem deduct_iv (k) (s : State) : (deduct k s).ee.interval.map ivCore = (s.ee.interval.map ivCore).map (addDed
    (deductible s.ce.money.b k) k) := by
  unfold deduct reportDeduction flagInterval
  dsimp only
  split
  · rename_i h
    cases hv : s.ee.interval with
    | none => rfl
    | some v => simp [ivCore, addDed, h]
  · rename_i h
    cases hv : s.ee.interval with
    | none => rfl
    | some v => simp [ivCore, addDed, h]

theorem addDed_comp (a b c d : Nat) (h1 : a ≤ b) (h2 : c ≤ d) (v : Interval) : addDed c d (addDed a b v) = addDed (a +
    c) (b + d) v := by
  unfold addDed
  have : (decide (a < b) || decide (c < d)) = decide (a + c < b + d) := by
    rw [← Bool.decide_or, decide_eq_decide]; omega
  simp only [Bool.or_assoc, this, Nat.add_assoc]

theorem charge_iv : ∀ n (s : State), (chargeDays n s).ee.interval.map ivCore = (s.ee.interval.map ivCore).map (addDed
    (min (n * s.cau.settings.fixed) (s.ce.money.b + 2000000).toNat) (n * s.cau.settings.fixed))
  | 0, s => by
    cases h : s.ee.interval with
    | none => simp [chargeDays, h]
    | some v => simp [chargeDays, h, addDed]
  | n + 1, s => by
    rw [chargeDays, charge_iv n, deduct_iv, (billFrame_deduct _ s).settings, deduct_money]
    simp only [moneyAfter, deductible, balanceFloor]
    generalize s.cau.settings.fixed = F
    have hs : (n + 1) * F = n * F + F := Nat.succ_mul n F
    rw [Option.map_map]
    congr 1
    funext v
    simp only [Function.comp]
    rw [addDed_comp _ _ _ _ (Nat.min_le_left _ _) (Nat.min_le_left _ _)]
    congr 1
    · omega
    · omega

theorem fixed_iv (d) (s : State) : (fixedCharge d s).ee.interval.map ivCore = (s.ee.interval.map ivCore).map
    (addDed (min ((if s.bat.clockValid = true ∧ s.psv.inService = true ∧
        s.ce.money.lastDay < d then d - s.ce.money.lastDay else 0) * s.cau.settings.fixed) (s.ce.money.b +
        2000000).toNat)
      ((if s.bat.clockValid = true ∧ s.psv.inService = true ∧
          s.ce.money.lastDay < d then d - s.ce.money.lastDay else 0) * s.cau.settings.fixed)) := by
  unfold fixedCharge
  simp only [Bool.and_eq_true, decide_eq_true_eq, and_assoc]
  split
  · exact charge_iv _ s
  · cases h : s.ee.interval with
    | none => rfl
    | some v => simp [addDed]

theorem deduct_arm (k) (s : State) : (deduct k s).ce.arm1 = s.ce.arm1 ∧ (deduct k s).ce.arm2 = s.ce.arm2 := by
  unfold deduct; dsimp only; split <;> exact ⟨rfl, rfl⟩

theorem charge_arm : ∀ n (s : State), (chargeDays n s).ce.arm1 = s.ce.arm1 ∧ (chargeDays n s).ce.arm2 = s.ce.arm2
  | 0, s => ⟨rfl, rfl⟩
  | n + 1, s => by
    have h := charge_arm n (deduct s.cau.settings.fixed s)
    exact ⟨h.1.trans (deduct_arm _ s).1, h.2.trans (deduct_arm _ s).2⟩

theorem fixed_arm (d) (s : State) : (fixedCharge d s).ce.arm1 = s.ce.arm1 ∧ (fixedCharge d s).ce.arm2 = s.ce.arm2 := by
  unfold fixedCharge; split
  · exact charge_arm _ s
  · exact ⟨rfl, rfl⟩

theorem armStep_fst (a b t) : (armStep a b t).1 = decide (if a = true then (t : Int) ≤ b else (t : Int) < b) := by
  unfold armStep
  cases a
  · rfl
  · simp only [if_true]
    split
    · rename_i h; simp; omega
    · rename_i h; simp; omega

theorem lowCredit_arm (s : State) : (lowCredit s).ce = { s.ce with
      arm1 := decide (if s.ce.arm1 = true then (s.cau.settings.l1 : Int) ≤ s.ce.money.b else (s.cau.settings.l1 : Int) <
          s.ce.money.b),
      arm2 := decide (if s.ce.arm2 = true then (s.cau.settings.l2 : Int) ≤ s.ce.money.b else (s.cau.settings.l2 : Int) <
          s.ce.money.b) } ∧
      (lowCredit s).ee = s.ee ∧ (lowCredit s).swc = s.swc ∧ (lowCredit s).bat = s.bat ∧ (lowCredit s).stc = s.stc ∧
          (lowCredit s).cau = s.cau := by
  rw [← armStep_fst, ← armStep_fst]
  unfold lowCredit
  dsimp only
  split
  · split <;> exact ⟨rfl, rfl, rfl, rfl, rfl, rfl⟩
  · split <;> exact ⟨rfl, rfl, rfl, rfl, rfl, rfl⟩

/-- What billing does to the open interval and the arming flags. -/
structure BilledInterval (s : State) (n e : Nat) (t : State) : Prop where
  iv : let today := e / 86400
    let days := if s.bat.clockValid = true ∧ s.psv.inService = true ∧
        s.ce.money.lastDay < today then today - s.ce.money.lastDay else 0
    let fixed := days * s.cau.settings.fixed
    let taken := min fixed (s.ce.money.b + 2000000).toNat
    let k := (s.ce.money.cRes + n * priceOf s.cau.settings (bandAt s e)) / 1000000
    let billed := min k (s.ce.money.b - taken + 2000000).toNat
    t.ee.interval.map ivCore = (s.ee.interval.map ivCore).map (addDed (taken + billed) (fixed + k))
  arm1 : t.ce.arm1 = decide (if s.ce.arm1 = true then (s.cau.settings.l1 : Int) ≤ t.ce.money.b else (s.cau.settings.l1 :
      Int) < t.ce.money.b)
  arm2 : t.ce.arm2 = decide (if s.ce.arm2 = true then (s.cau.settings.l2 : Int) ≤ t.ce.money.b else (s.cau.settings.l2 :
      Int) < t.ce.money.b)

theorem fixed_b (d) (s : State) : BillFrame s (fixedCharge d s) := by
  unfold fixedCharge
  split
  · exact (billFrame_charge _ s).trans ⟨rfl, rfl, rfl, rfl, rfl, rfl, rfl⟩
  · exact ⟨rfl, rfl, rfl, rfl, rfl, rfl, rfl⟩

theorem cost_b (n e) (t : State) : BillFrame t (costStage n e t) := by
  unfold costStage
  dsimp only
  refine BillFrame.trans ?_ (billFrame_deduct _ _)
  exact ⟨rfl, rfl, rfl, rfl, rfl, rfl, rfl⟩

theorem fixed_money (d) (s : State) : (fixedCharge d s).ce.money.b = s.ce.money.b - min ((if s.bat.clockValid = true ∧
    s.psv.inService = true ∧ s.ce.money.lastDay < d then d - s.ce.money.lastDay else 0) * s.cau.settings.fixed)
    (s.ce.money.b + 2000000).toNat ∧ (fixedCharge d s).ce.money.cRes = s.ce.money.cRes := by
  unfold fixedCharge
  simp only [Bool.and_eq_true, decide_eq_true_eq, and_assoc]
  split
  · rename_i h
    have hx := charge_money (d - s.ce.money.lastDay) s (Or.inr (by omega))
    dsimp only at hx
    unfold setLastDay
    dsimp only
    rw [hx]
    exact ⟨rfl, rfl⟩
  · simp

theorem bill_iv (n e) (s : State) : BilledInterval s n e (billPeriod n e s) := by
  have hl := lowCredit_arm (costStage n e (fixedCharge (dayOf e) s))
  have hc : (costStage n e (fixedCharge (dayOf e) s)).ce.arm1 = s.ce.arm1 ∧
      (costStage n e (fixedCharge (dayOf e) s)).ce.arm2 = s.ce.arm2 := by
    have h := fixed_arm (dayOf e) s
    unfold costStage
    dsimp only
    rw [(deduct_arm _ _).1, (deduct_arm _ _).2]
    exact h
  have hst : (costStage n e (fixedCharge (dayOf e) s)).cau.settings = s.cau.settings :=
      (cost_b _ _ _).settings.trans (fixed_b _ s).settings
  have key : ∀ t : State, IntervalFrame (lowCredit (costStage n e (fixedCharge (dayOf e) s))) t →
      t.ce.money = (lowCredit (costStage n e (fixedCharge (dayOf e) s))).ce.money → BilledInterval s n e t := by
    intro t ht hm
    refine ⟨?_, ?_, ?_⟩
    · dsimp only
      rw [ht.1, hl.2.1]
      unfold costStage
      dsimp only
      rw [deduct_iv]
      dsimp only
      rw [fixed_iv, Option.map_map]
      have hfm := fixed_money (dayOf e) s
      congr 1
      funext v
      simp only [Function.comp]
      simp only [deductible]
      rw [addDed_comp _ _ _ _ (Nat.min_le_left _ _) (Nat.min_le_left _ _), hfm.1, hfm.2, band_congr (s := s) (by rw [(fixed_b _ s).bat]) (fixed_b _ s).settings, (fixed_b _ s).settings]
      simp only [deductible, balanceFloor, Int.sub_neg]
      rfl
    · rw [ht.2, hm, hl.1]
      dsimp only
      rw [hc.1, hst]
    · rw [ht.3, hm, hl.1]
      dsimp only
      rw [hc.2, hst]
  unfold billPeriod
  dsimp only
  split
  · exact key _ (interval_refl _) rfl
  · exact key _ (interval_evaluate _) (metering_evaluate _).money

/-- An interval after a billed period. -/
def addBilled (n m f tp e : Nat) (ovr invalid : Bool) (c : Interval) : Interval :=
    { c with imp := c.imp + n, exp := c.exp + m, fb := c.fb + f, maxW := max c.maxW (tp / 1000), lastBilled := e, flags := { c.flags with overrange := c.flags.overrange || ovr, clockInvalid := c.flags.clockInvalid || invalid } }

theorem billed_iv (n m f tp e ov) (s : State) : (billInterval n m f tp e ov s).ee.interval.map ivCore =
    (s.ee.interval.map ivCore).map (addBilled n m f tp e ov (!s.bat.clockValid)) := by
  unfold billInterval
  cases h : s.ee.interval with
  | none => rfl
  | some v => rfl

theorem test_early {e : Nat} {s : State} {c : Interval} (h : s.ee.interval.map ivCore = some c) (hn : e < c.nominalEnd)
    : testBoundary e s = s := by
  cases hv : s.ee.interval with
  | none => rw [hv] at h; simp at h
  | some v =>
    rw [hv] at h
    simp only [Option.map_some, Option.some.injEq] at h
    have : v.nominalEnd = c.nominalEnd := by rw [← h]; rfl
    unfold testBoundary
    rw [hv]
    dsimp only
    rw [if_neg (by omega)]

theorem interval_handOff (o) (s : State) (a) (h : a ≠ .billing) : IntervalFrame s (handOff o s a) := by
  cases a
  · exact absurd rfl h
  · exact interval_limiter _ _
  all_goals exact interval_indicator _ _ _

theorem interval_others (o) : ∀ (l : List Arrival) (s : State), Arrival.billing ∉ l →
    IntervalFrame s (l.foldl (handOff o) s)
  | [], s, _ => interval_refl s
  | a :: l, s, h => by
    simp only [List.mem_cons, not_or] at h
    exact interval_trans (interval_handOff o s a (fun e => h.1 e.symm)) (interval_others o l _ h.2)

theorem arrive_parts_more (o) (s : State) : (arrive o s).ce = s.ce ∧ (arrive o s).exc = s.exc ∧
    (arrive o s).swc = s.swc ∧ (arrive o s).bat = s.bat ∧ (arrive o s).cau = s.cau ∧ (arrive o s).ee = s.ee ∧
    (arrive o s).flash = s.flash ∧ (arrive o s).psv = s.psv ∧ (arrive o s).tmoHead = s.tmoHead ∧
    (arrive o s).free = s.free := by
  unfold arrive
  split
  · exact ⟨rfl, rfl, rfl, rfl, rfl, rfl, rfl, rfl, rfl, rfl⟩
  · unfold runArbiter
    split <;> exact ⟨rfl, rfl, rfl, rfl, rfl, rfl, rfl, rfl, rfl, rfl⟩

theorem rollInterval_parts (e n f t) (s : State) : (rollInterval e n f t s).ce = s.ce ∧
    (rollInterval e n f t s).exc = s.exc ∧ (rollInterval e n f t s).swc = s.swc ∧ (rollInterval e n f t s).bat = s.bat ∧
    (rollInterval e n f t s).cau = s.cau ∧ (rollInterval e n f t s).flash = s.flash ∧
    (rollInterval e n f t s).psv = s.psv := by
  unfold rollInterval
  split
  · rename_i v _
    split
    · exact ⟨rfl, rfl, rfl, rfl, rfl, rfl, rfl⟩
    · have h := arrive_parts_more (.append (.profile (profileEntry v e n f s))) (openInterval t s)
      unfold drawFree
      dsimp only
      exact ⟨h.1, h.2.1, h.2.2.1, h.2.2.2.1, h.2.2.2.2.1, h.2.2.2.2.2.2.1, h.2.2.2.2.2.2.2.1⟩
  · exact ⟨rfl, rfl, rfl, rfl, rfl, rfl, rfl⟩

theorem testBoundary_ce (e) (s : State) : (testBoundary e s).ce = s.ce := by
  unfold testBoundary
  split
  · split
    · exact (rollInterval_parts _ _ _ _ _).1
    · rfl
  · rfl

theorem handoff_bill (n e) (s : State) (k : Kind) : HandoffFrame k s (billPeriod n e s) := by
  have hde : ∀ j t, HandoffFrame k t (deduct j t) := fun j t => by unfold deduct; dsimp only; split <;> exact handoff_of
  have hch : ∀ n t, HandoffFrame k t (chargeDays n t) := by
    intro n
    induction n with
    | zero => exact fun t => handoff_refl t
    | succ n ih => exact fun t => handoff_trans (hde _ t) (ih _)
  have hf : HandoffFrame k s (fixedCharge (dayOf e) s) := by
    unfold fixedCharge
    refine handoff_ite (handoff_trans (hch (dayOf e - s.ce.money.lastDay) s) ?_) (handoff_refl s)
    exact handoff_of
  have hc : ∀ t, HandoffFrame k t (costStage n e t) := fun t => by
    unfold costStage
    dsimp only
    refine handoff_trans ?_ (hde _ _)
    exact handoff_of
  have h := handoff_trans (handoff_trans hf (hc _)) (handoff_lowCredit _)
  unfold billPeriod
  dsimp only
  exact handoff_ite h (handoff_trans h (handoff_evaluate _))

/-- The kind whose indicator a hand-off brings. -/
def arrKind : Arrival → Option Kind
  | .billing => none
  | .limiter => none
  | .reverse => some .reverse
  | .imbalance => some .imbalance
  | .bypass => some .bypass
  | .noVoltage => some .noVoltage
  | .magnet => some .magnet

theorem handoff_indicator (k p) (s : State) : let t := indicator k p s
    t.exc.mem = s.exc.mem ∧ t.exc.standing = s.exc.standing ∧ t.exc.deferred = s.exc.deferred ∧ t.exc.bus = s.exc.bus ∧
        t.cau = s.cau ∧ (∀ j, j ≠ k → t.bat.kinds.get j = s.bat.kinds.get j) ∧
        (t.bat.kinds.get k).counter = counterAfter p (s.bat.kinds.get k).counter := by
  have h := handoff_moveKind (k0 := k) (mapKind k (fun r => { r with counter := counterAfter p r.counter }) s)
  refine ⟨h.1, h.2, h.3, h.4, h.5, fun j e => ?_, ?_⟩
  · exact (h.6 j e).trans (perKind_get_set_ne _ _ _ _ e)
  · refine (h.7 k).trans ?_
    show ((s.bat.kinds.set k _).get k).counter = _
    rw [perKind_get_set_same]

theorem handoff_kinds_same {s t : State} (h : ∀ k, HandoffFrame k s t) (j) : t.bat.kinds.get j = s.bat.kinds.get j := by
  cases j
  case coverMain => exact (h .coverTerminal).6 _ (by simp)
  all_goals exact (h .coverMain).6 _ (by simp)

/-- Whether the indicator that a hand-off brings is positive. -/
def outPos (o : PeriodOut) : Arrival → Bool
  | .billing => false
  | .limiter => false
  | .reverse => o.reverse
  | .imbalance => o.imbalance
  | .bypass => o.bypass
  | .noVoltage => o.noVoltage
  | .magnet => o.magnet

/-- What a hand-off does to the counter of its kind. -/
structure HandoffCounts (o : PeriodOut) (a : Arrival) (s t : State) : Prop where
  mem : t.exc.mem = s.exc.mem
  standing : t.exc.standing = s.exc.standing
  deferred : t.exc.deferred = s.exc.deferred
  bus : t.exc.bus = s.exc.bus
  cau : t.cau = s.cau
  others : ∀ j, arrKind a ≠ some j → t.bat.kinds.get j = s.bat.kinds.get j
  counter : ∀ j, arrKind a = some j → (t.bat.kinds.get j).counter = counterAfter (outPos o a) (s.bat.kinds.get
      j).counter

theorem handoff_ind (o a k p) (s : State) (e1 : arrKind a = some k) (e2 : p = outPos o a) : HandoffCounts o a s
    (indicator k p s) := by
  have h := handoff_indicator k p s
  refine ⟨h.1, h.2.1, h.2.2.1, h.2.2.2.1, h.2.2.2.2.1, fun j e => h.2.2.2.2.2.1 j (fun e' => e (by rw [e1, e'])),
      fun j e => ?_⟩
  rw [e1, Option.some.injEq] at e
  subst e; subst e2
  exact h.2.2.2.2.2.2

theorem handoff_hand (o) (s : State) (a) : HandoffCounts o a s (handOff o s a) := by
  have hb : ∀ k, HandoffFrame k s (handOff o s .billing) := fun k => by
    refine handoff_trans (handoff_trans (handoff_bill o.n o.live.endTime s k) ?_) (handoff_testBoundary _ _)
    exact handoff_of
  have hl : ∀ k, HandoffFrame k s (handOff o s .limiter) := fun k => handoff_limiter _ _
  cases a
  · have h := hb .coverMain
    exact ⟨h.1, h.2, h.3, h.4, h.5, fun j _ => handoff_kinds_same hb j, fun j e => by simp [arrKind] at e⟩
  · have h := hl .coverMain
    exact ⟨h.1, h.2, h.3, h.4, h.5, fun j _ => handoff_kinds_same hl j, fun j e => by simp [arrKind] at e⟩
  all_goals exact handoff_ind _ _ _ _ _ rfl rfl

theorem handoff_skip (o) : ∀ (l : List Arrival) (s : State), let t := l.foldl (handOff o) s
    t.exc.mem = s.exc.mem ∧ t.exc.standing = s.exc.standing ∧ t.exc.deferred = s.exc.deferred ∧ t.exc.bus = s.exc.bus ∧
        t.cau = s.cau ∧ (∀ j, (∀ a ∈ l, arrKind a ≠ some j) → t.bat.kinds.get j = s.bat.kinds.get j)
  | [], s => ⟨rfl, rfl, rfl, rfl, rfl, fun _ _ => rfl⟩
  | a :: l, s => by
    have h := handoff_hand o s a
    have k := handoff_skip o l (handOff o s a)
    dsimp only [List.foldl_cons] at k ⊢
    exact ⟨k.1.trans h.1, k.2.1.trans h.2, k.2.2.1.trans h.3, k.2.2.2.1.trans h.4, k.2.2.2.2.1.trans h.5,
      fun j e => (k.2.2.2.2.2 j (fun b hb => e b (by simp [hb]))).trans (h.6 j (e a (by simp)))⟩

theorem arrKind_inj {a b : Arrival} {j} (h : arrKind a = some j) (k : arrKind b = some j) : a = b := by
  cases a <;> cases b <;> first | rfl | (simp [arrKind] at h k; done) | (simp only [arrKind, Option.some.injEq, reduceCtorEq] at h k; subst h; cases k)

theorem hand_counter (o l) (s : State) (a : Arrival) (j) (h : arrKind a = some j) :
    ((handOffs o l s).bat.kinds.get j).counter = counterAfter (outPos o a) (s.bat.kinds.get j).counter := by
  obtain ⟨l1, l2, hl⟩ := List.append_of_mem (eachOnce_mem l a)
  have hn := eachOnce_nodup l
  rw [hl, List.nodup_append] at hn
  have h1 : ∀ b ∈ l1, arrKind b ≠ some j := fun b hb e => hn.2.2 b hb a (by simp) (arrKind_inj e h)
  have h2 : ∀ b ∈ l2, arrKind b ≠ some j := fun b hb e => by
    have := (List.nodup_cons.mp hn.2.1).1
    rw [arrKind_inj e h] at hb
    exact this hb
  unfold handOffs
  rw [hl, List.foldl_append, List.foldl_cons, (handoff_skip o l2 _).2.2.2.2.2 j h2, (handoff_hand o _ a).7 j h, (handoff_skip o l1 s).2.2.2.2.2 j h1]

/-- interval and arms after the hand-offs -/
theorem handOffs_iv (o l) (s : State) (he : o.live.endTime = s.bat.clock) : let t := handOffs o l s
    t.ce.arm1 = decide (if s.ce.arm1 = true then (s.cau.settings.l1 : Int) ≤ t.ce.money.b else (s.cau.settings.l1 : Int)
        < t.ce.money.b) ∧
    t.ce.arm2 = decide (if s.ce.arm2 = true then (s.cau.settings.l2 : Int) ≤ t.ce.money.b else (s.cau.settings.l2 : Int)
        < t.ce.money.b) ∧
    ∀ c, s.ee.interval.map ivCore = some c → s.bat.clock < c.nominalEnd →
      let today := s.bat.clock / 86400
      let days := if s.bat.clockValid = true ∧ s.psv.inService = true ∧
          s.ce.money.lastDay < today then today - s.ce.money.lastDay else 0
      let fixed := days * s.cau.settings.fixed
      let taken := min fixed (s.ce.money.b + 2000000).toNat
      let k := (s.ce.money.cRes + o.n * priceOf s.cau.settings (bandAt s s.bat.clock)) / 1000000
      let billed := min k (s.ce.money.b - taken + 2000000).toNat
      t.ee.interval.map ivCore = some (addBilled o.n o.m o.f o.tPrime s.bat.clock o.overrange (!s.bat.clockValid)
          (addDed (taken + billed) (fixed + k) c)) := by
  obtain ⟨l1, l2, hl⟩ := List.append_of_mem (eachOnce_mem l .billing)
  have hn := eachOnce_nodup l
  rw [hl] at hn
  have h1 : Arrival.billing ∉ l1 := by
    intro h
    rw [List.nodup_append] at hn
    exact hn.2.2 _ h _ (by simp) rfl
  have h2 : Arrival.billing ∉ l2 := by
    rw [List.nodup_append] at hn
    simpa using (List.nodup_cons.mp hn.2.1).1
  dsimp only
  unfold handOffs
  rw [hl, List.foldl_append, List.foldl_cons]
  have q1 := metering_others o l1 s h1
  have i1 := interval_others o l1 s h1
  generalize l1.foldl (handOff o) s = u at q1 i1
  have q2 := metering_others o l2 (handOff o u .billing) h2
  have i2 := interval_others o l2 (handOff o u .billing) h2
  have b := bill_iv o.n o.live.endTime u
  have bc := (handoff_bill o.n o.live.endTime u .coverMain).5
  generalize l2.foldl (handOff o) (handOff o u .billing) = w at q2 i2
  have hbc : (handOff o u .billing).ce = (billPeriod o.n o.live.endTime u).ce := testBoundary_ce _ _
  have hm : w.ce.money = (billPeriod o.n o.live.endTime u).ce.money := by rw [q2.money, hbc]
  refine ⟨?_, ?_, ?_⟩
  · rw [i2.2, hbc, b.2, hm, i1.2, q1.settings]
  · rw [i2.3, hbc, b.3, hm, i1.3, q1.settings]
  · intro c hc hlt
    have hb := b.1
    have hclk : (billPeriod o.n o.live.endTime u).bat.clockValid = u.bat.clockValid := by
      have e1 := (fixed_b (dayOf o.live.endTime) u).bat
      have e2 := (cost_b o.n o.live.endTime (fixedCharge (dayOf o.live.endTime) u)).bat
      have e3 := (lowCredit_arm (costStage o.n o.live.endTime (fixedCharge (dayOf o.live.endTime) u))).2.2.2.1
      unfold billPeriod
      dsimp only
      split
      · rw [e3, e2, e1]
      · rw [(metering_evaluate _).valid, e3, e2, e1]
    have hi := billed_iv o.n o.m o.f o.tPrime o.live.endTime o.overrange (billPeriod o.n o.live.endTime u)
    dsimp only at hb
    rw [hb, i1.1, hc, hclk] at hi
    simp only [Option.map_some] at hi
    have ht := test_early (e := o.live.endTime) hi (by rw [he]; exact hlt)
    rw [i2.1]
    show (testBoundary _ (billInterval _ _ _ _ _ _ _)).ee.interval.map ivCore = _
    rw [ht, hi, he]
    rw [band_congr q1.valid q1.settings, q1.settings, q1.money, q1.valid, q1.service]

/-- What an activation leaves of exchange and kinds. -/
structure ActivationFrame (s t : State) : Prop where
  mem : t.exc.mem = s.exc.mem
  standing : t.exc.standing = s.exc.standing
  kinds : t.bat.kinds = s.bat.kinds

theorem activation_refl (s : State) : ActivationFrame s s := ⟨rfl, rfl, rfl⟩

theorem activation_trans {s t u : State} (h : ActivationFrame s t) (k : ActivationFrame t u) : ActivationFrame s u :=
    ⟨k.1.trans h.1, k.2.trans h.2, k.3.trans h.3⟩

theorem activation_ite {s a b : State} {p : Prop} [Decidable p] (ha : ActivationFrame s a) (hb : ActivationFrame s b) :
    ActivationFrame s (if p then a else b) := by
  split
  · exact ha
  · exact hb

theorem perKind_ext {α : Type} {p q : PerKind α} (h : ∀ j, p.get j = q.get j) : p = q := by
  cases p; cases q
  have a1 := h .coverMain; have a2 := h .coverTerminal; have a3 := h .magnet; have a4 := h .reverse
  have a5 := h .imbalance; have a6 := h .bypass; have a7 := h .noVoltage; have a8 := h .watchLost
  simp only [PerKind.get] at a1 a2 a3 a4 a5 a6 a7 a8
  subst a1 a2 a3 a4 a5 a6 a7 a8
  rfl

theorem HandoffFrame.ax {s t : State} (h : ∀ k, HandoffFrame k s t) : ActivationFrame s t := ⟨(h .magnet).1,
    (h .magnet).2, perKind_ext (handoff_kinds_same h)⟩

theorem activation_foldl {α : Type} {f : State → α → State} (hf : ∀ s x,
    ActivationFrame s (f s x)) : ∀ (l : List α) (s : State), ActivationFrame s (l.foldl f s)
  | [], s => activation_refl s
  | x :: rest, s => activation_trans (hf s x) (activation_foldl hf rest (f s x))

theorem activation_window (s : State) : ActivationFrame s (recomputeWindow s) := by
  unfold recomputeWindow
  dsimp only
  refine activation_ite (activation_refl s) (activation_trans ?_ (HandoffFrame.ax (fun k => handoff_evaluate _)))
  exact ⟨rfl, rfl, rfl⟩

theorem activation_take (c) (s : State) (x) : ActivationFrame s (takeIntoUse c s x) := by
  unfold takeIntoUse
  split
  case h_3 => exact activation_window s
  case h_4 => exact activation_ite (HandoffFrame.ax (fun k => handoff_evaluate _)) (activation_refl s)
  case h_5 => exact HandoffFrame.ax (fun k => handoff_lowCredit s)
  case h_8 => exact HandoffFrame.ax (fun k => handoff_agree s)
  case h_11 => exact activation_ite (activation_refl s) (HandoffFrame.ax (fun k => handoff_roll _ _ _ _ _))
  case h_7 => exact activation_ite (activation_refl s) ⟨rfl, rfl, rfl⟩
  all_goals first
    | exact activation_refl s
    | exact ⟨rfl, rfl, rfl⟩

theorem activation_step (t b) (s : State) : ActivationFrame s (clockStep t b s) := by
  have hr : ∀ a b (v : State), ActivationFrame v (reportStep a b v) := by
    intro a b v
    unfold reportStep
    exact activation_ite (activation_refl v) (activation_ite ⟨rfl, rfl,
        rfl⟩ (HandoffFrame.ax (fun k => handoff_roll _ _ _ _ _)))
  have hs : ∀ v : State, ActivationFrame v (steerRule v) := fun v => activation_ite ⟨rfl, rfl, rfl⟩ (activation_refl _)
  have h0 : ActivationFrame s { s with ce := { s.ce with minuteDue := false } } := ⟨rfl, rfl, rfl⟩
  have h1 := hr t s.bat.clock { s with ce := { s.ce with minuteDue := false } }
  unfold clockStep
  dsimp only
  generalize reportStep t s.bat.clock { s with ce := { s.ce with minuteDue := false } } = v at *
  have h2 : ActivationFrame v (if b = true then setLastDay (dayOf v.bat.clock) v else v) :=
      by cases b; exact activation_refl _; exact ⟨rfl, rfl, rfl⟩
  generalize (if b = true then setLastDay (dayOf v.bat.clock) v else v) = w at *
  have h3 : ActivationFrame w (recomputeBand w) := ⟨rfl, rfl, rfl⟩
  exact activation_trans (activation_trans (activation_trans (activation_trans (activation_trans h0 h1) h2) h3)
      (activation_window _)) (hs _)

theorem activation_clock (s : State) (x) : ActivationFrame s (takeClock s x) := by
  unfold takeClock
  split
  · rename_i t
    unfold setClock
    dsimp only
    refine activation_ite ⟨rfl, rfl, rfl⟩ (activation_trans ?_ (activation_step _ _ _))
    exact ⟨rfl, rfl, rfl⟩
  · exact activation_refl s

theorem activation_sections (l) (s : State) : ActivationFrame s (applySections l s) := by
  unfold applySections
  dsimp only
  refine activation_trans (activation_trans ?_ (activation_foldl (activation_take _) _ _)) (activation_foldl
      activation_clock _ _)
  exact ⟨rfl, rfl, rfl⟩

theorem activation_activate (e) (s : State) : ActivationFrame s (activatePending e s) := by
  unfold activatePending
  split
  · dsimp only
    rename_i p _
    refine activation_trans (activation_trans (activation_trans (activation_sections p.sections s) ?_) (HandoffFrame.ax
        (fun k => handoff_post _ _))) (HandoffFrame.ax (fun k => handoff_arrive _ _))
    exact ⟨rfl, rfl, rfl⟩
  · exact activation_refl s

/-- The exchange RAM after one standing request, outside a READ. -/
def standMem (v : LiveValues) (n : Memory) (q : Standing) : Memory :=
  if q.every ≤ q.since + 1 then
          putFields n q.slot [(6, le 2 ((fromLe (readBytes n (slotAddr q.slot + 6) 2) + 1) % 65536)),
            (12, liveResult q.totals v)] else n

theorem stand_fold (v : LiveValues) : ∀ (l : List Standing) (x : Exc), isReading x = false → x.deferred = [] →
    let y := l.foldl (standStep v) x
    y.mem = l.foldl (standMem v) x.mem ∧ y.standing = x.standing ++ l.map (fun q =>
        { q with since := if q.every ≤ q.since + 1 then 0 else q.since + 1 })
  | [], x, _, _ => by simp
  | q :: l, x, h1, h2 => by
    have hs : isReading (standStep v x q) = false ∧ (standStep v x q).deferred = [] ∧
        (standStep v x q).mem = standMem v x.mem q ∧ (standStep v x q).standing = x.standing ++
        [{ q with since := if q.every ≤ q.since + 1 then 0 else q.since + 1 }] := by
      unfold standStep standMem
      split
      · unfold rewriteStanding
        simp only [h1, h2, applyDeferred, Bool.false_eq_true, if_false]
        exact ⟨h1, by trivial, by trivial, by trivial⟩
      · exact ⟨h1, h2, rfl, rfl⟩
    have ih := stand_fold v l (standStep v x q) hs.1 hs.2.1
    dsimp only at ih ⊢
    rw [List.foldl_cons, List.foldl_cons, ih.1, ih.2, hs.2.2.1, hs.2.2.2]
    simp

theorem period_eq (p) (s : State) (hr : s.psv.power = .run) : periodEnd p s = activatePending s.bat.clock
    (standingPeriod (handOffs (periodOut p s) p.order (markPeriod (takeResults (periodOut p s) s)))) := by
  unfold periodEnd; simp [hr]

theorem refresh_frame_more (t : State) : (refresh t).exc.standing = t.exc.standing ∧ (refresh t).exc.mem = t.exc.mem ∧
    (refresh t).bat = t.bat ∧ (refresh t).ee = t.ee ∧ (refresh t).ce = t.ce ∧ (refresh t).cau = t.cau ∧
    (refresh t).swc = t.swc ∧ (refresh t).flash = t.flash ∧ (refresh t).psv = t.psv ∧ (refresh t).stc = t.stc := by
  unfold refresh; split <;> exact ⟨rfl, rfl, rfl, rfl, rfl, rfl, rfl, rfl, rfl, rfl⟩

theorem mark_decide (s : State) : heldOpen s.psv.inService s.swc = decide (s.swc.sw = .opened ∨ s.swc.sw = .ready ∨
    (s.swc.sw = .fault ∧ s.psv.inService = true ∧ wantsClosed s.swc = false)) := by
  unfold heldOpen
  cases s.swc.sw <;> simp

theorem appends_append (e) (s : State) : appends (arrive (.append e) s).stc.queue ≤ appends s.stc.queue + 1 := by
  have he : appends (enqueue (.append e) s.stc).queue ≤ appends s.stc.queue + 1 := by
    unfold enqueue; dsimp only
    repeat' split
    all_goals first
      | exact Nat.le_succ _
      | (unfold appends; simp [isAppend, List.filter_append]; done)
      | (unfold appends; rw [List.filter_append, List.length_append];
          exact Nat.add_le_add_left (List.length_filter_le _ _) _)
  unfold arrive; split
  · exact Nat.le_succ _
  · unfold runArbiter; split
    · exact Nat.le_trans (appends_arb _ _ _) he
    · exact he

/-- The record of a kind that a code clears. -/
def clearedRec (s : State) (k : Kind) : KindRec :=
    { s.bat.kinds.get k with state := .quiet, cleared := some s.bat.clock }

/-- The log entry of a kind that a code names. -/
def clearEntry (s : State) (k : Kind) : TamperEntry := ⟨s.bat.clock, k,
    if conditionPresent s.bat k = true then .clearRefused else .cleared, s.psv.power, s.swc.sw, s.ce.money.b,
    (s.bat.kinds.get k).counter⟩

/-- The kind is declared and its condition is not present. -/
def clears (s : State) (k : Kind) : Bool := isDeclared s k && !conditionPresent s.bat k

/-- The kinds of a list taken by a CLEAR_TAMPER code. -/
structure ClearedKinds (l : List Kind) (s u : State) : Prop where
  kinds : ∀ k, u.bat.kinds.get k = if k ∈ l ∧ clears s k = true then clearedRec s k else s.bat.kinds.get k
  bat : u.bat = { s.bat with kinds := u.bat.kinds }
  exc : u.exc = (postAll ((l.filter (clears s)).map (fun k => .tamperCleared k (s.bat.kinds.get k).counter)) s).exc
  ce : u.ce = s.ce
  swc : u.swc = s.swc
  cau : u.cau = s.cau
  psv : u.psv = s.psv
  flash : u.flash = s.flash
  fault : u.stc.fault = s.stc.fault
  apps : appends u.stc.queue ≤ appends s.stc.queue + l.length
  keep : ∀ e, OpTaken (.append e) s.stc → OpTaken (.append e) u.stc
  tk : s.stc.fault = false → storeTakes s.psv = true → appends s.stc.queue + l.length ≤ 32 → ∀ k ∈ l,
      isDeclared s k = true → OpTaken (.append (.log (clearEntry s k))) u.stc

theorem fold_post : ∀ (l : List NoticeBody) (u v : State), u.bat.clock = v.bat.clock → u.exc = v.exc →
    (postAll l u).exc = (postAll l v).exc
  | [], _, _, _, h => h
  | b :: l, u, v, h1, h2 => fold_post l (post b u) (post b v) h1 (by unfold post; dsimp only; rw [h1, h2])

theorem clearKind_cleared (s : State) (k : Kind) : ClearedKinds [k] s (clearKind s k) := by
  unfold clearKind
  by_cases hd : isDeclared s k = true
  · rw [if_pos hd]
    by_cases hp : conditionPresent s.bat k = true
    · rw [if_pos hp]
      have hc : clears s k = false := by unfold clears; rw [hp]; simp
      unfold appendLog
      obtain ⟨h1, h2, h3, h4, h5, h6, h7, h8, h9, h10, h11⟩ :=
          arrive_parts (.append (.log (logEntry k .clearRefused s))) s
      have hf := (outside_arrive (.append (.log (logEntry k .clearRefused s))) s).3
      refine ⟨?_,
          by rw [h2], ?_, h3, h7, h6, h4, h10, hf.1, appends_append _ _, fun e he => opTaken_arrive _ _ (by simp) (by simp) he, ?_⟩
      · intro j
        rw [h2, if_neg]
        rintro ⟨a, b⟩
        simp only [List.mem_singleton] at a
        subst a; rw [hc] at b; simp at b
      · rw [h1]; simp [hc, postAll]
      · intro a1 a2 a3 j hj _
        simp only [List.mem_singleton] at hj
        subst hj
        have : clearEntry s j = logEntry j .clearRefused s := by unfold clearEntry logEntry; rw [if_pos hp]
        rw [this]
        exact opTaken_arrive_new _ _ (by simp) a1 a2 (by simp) (fun _ =>
            by have : appends s.stc.queue + 1 ≤ 32 := a3; unfold appends at this; omega)
    · rw [if_neg hp]
      have hp : conditionPresent s.bat k = false := by simpa using hp
      have hc : clears s k = true := by unfold clears; rw [hp, hd]; rfl
      unfold appendLog
      dsimp only
      have hx1 : (mapKind k (fun r => { r with state := .quiet, cleared := some s.bat.clock }) s).bat.kinds =
          s.bat.kinds.set k (clearedRec s k) := rfl
      have hx2 : (mapKind k (fun r => { r with state := .quiet, cleared := some s.bat.clock }) s).bat =
          { s.bat with kinds := s.bat.kinds.set k (clearedRec s k) } := rfl
      have hxs : (mapKind k (fun r => { r with state := .quiet, cleared := some s.bat.clock }) s).stc = s.stc := rfl
      have hxm : (mapKind k (fun r => { r with state := .quiet, cleared := some s.bat.clock }) s).toModules =
          s.toModules := rfl
      have hxp : (mapKind k (fun r => { r with state := .quiet, cleared := some s.bat.clock }) s).psv = s.psv := rfl
      have hxe : (mapKind k (fun r => { r with state := .quiet, cleared := some s.bat.clock }) s).exc = s.exc := rfl
      have hxf : (mapKind k (fun r => { r with state := .quiet, cleared := some s.bat.clock }) s).flash = s.flash := rfl
      have hle : logEntry k .cleared (mapKind k (fun r => { r with state := .quiet, cleared := some s.bat.clock }) s) =
          clearEntry s k := by
        unfold logEntry clearEntry
        rw [hx1, perKind_get_set_same, if_neg (by rw [hp]; simp)]
        rfl
      rw [hle]
      generalize mapKind k (fun r => { r with state := .quiet, cleared := some s.bat.clock }) s = x at *
      obtain ⟨h1, h2, h3, h4, h5, h6, h7, h8, h9, h10, h11⟩ := arrive_parts (.append (.log (clearEntry s k))) x
      have hf := (outside_arrive (.append (.log (clearEntry s k))) x).3
      have hkeep : ∀ e, OpTaken (.append e) x.stc → OpTaken (.append e) (arrive (.append (.log (clearEntry s k))) x).stc
          := fun e he => opTaken_arrive _ _ (by simp) (by simp) he
      have happ := appends_append (.log (clearEntry s k)) x
      have hnew : x.stc.fault = false → storeTakes x.psv = true → appends x.stc.queue < 32 →
          OpTaken (.append (.log (clearEntry s k))) (arrive (.append (.log (clearEntry s k))) x).stc :=
        fun a1 a2 a3 => opTaken_arrive_new _ _ (by simp) a1 a2 (by simp) (fun _ => a3)
      generalize arrive (.append (.log (clearEntry s k))) x = y at *
      have hcn : (x.bat.kinds.get k).counter = (s.bat.kinds.get k).counter := by rw [hx1, perKind_get_set_same]; rfl
      refine ⟨?_, ?_, ?_, h3.trans (congrArg Modules.ce hxm), h7.trans (congrArg Modules.swc hxm),
          h6.trans (congrArg Modules.cau hxm), h4.trans hxp, h10.trans hxf, hf.1.trans (by rw [hxs]), ?_, ?_, ?_⟩
      · intro j
        show y.bat.kinds.get j = _
        rw [h2, hx1]
        by_cases hj : j = k
        · subst hj; rw [perKind_get_set_same, if_pos ⟨by simp, hc⟩]
        · rw [perKind_get_set_ne _ _ _ _ hj, if_neg]
          rintro ⟨a, _⟩
          simp only [List.mem_singleton] at a
          exact hj a
      · show y.bat = { s.bat with kinds := y.bat.kinds }
        rw [h2, hx2]
      · show y.exc.post y.bat.clock _ = _
        rw [h1, h2, hxe, hcn, hx2]
        simp [hc, postAll, post]
      · show appends y.stc.queue ≤ _
        rw [hxs] at happ; exact happ
      · intro e he
        show OpTaken _ y.stc
        exact hkeep e (by rw [hxs]; exact he)
      · intro a1 a2 a3 j hj _
        simp only [List.mem_singleton] at hj
        subst hj
        show OpTaken _ y.stc
        have a3 : appends s.stc.queue + 1 ≤ 32 := a3
        exact hnew (by rw [hxs]; exact a1) (by rw [hxp]; exact a2) (by rw [hxs]; omega)
  · rw [if_neg hd]
    have hd : isDeclared s k = false := by simpa using hd
    have hc : clears s k = false := by unfold clears; rw [hd]; rfl
    refine ⟨?_, rfl, ?_, rfl, rfl, rfl, rfl, rfl, rfl, Nat.le_add_right _ _, fun _ h => h, ?_⟩
    · intro j
      rw [if_neg]
      rintro ⟨a, b⟩
      simp only [List.mem_singleton] at a
      subst a; rw [hc] at b; simp at b
    · simp [hc, postAll]
    · intro _ _ _ j hj h
      simp only [List.mem_singleton] at hj
      subst hj; rw [hd] at h; simp at h

theorem cond_congr {b c : Bat} (k) (h1 : b.kinds.get k = c.kinds.get k) (h2 : b.coverMain = c.coverMain) (h3 :
    b.coverTerminal = c.coverTerminal) : conditionPresent b k = conditionPresent c k := by
  unfold conditionPresent
  cases k <;> first | exact h2 | exact h3 | rfl | (show decide (96 ≤ (b.kinds.get _).counter) = decide (96 ≤ (c.kinds.get _).counter); rw [h1])

theorem clearKinds_cleared : ∀ (l : List Kind) (s : State), l.Nodup → ClearedKinds l s (l.foldl clearKind s)
  | [], s, _ => ⟨fun k =>
      by rw [if_neg]; exact List.foldl_nil ▸ rfl; simp, rfl, rfl, rfl, rfl, rfl, rfl, rfl, rfl, Nat.le_refl _, fun _ h => h, fun _ _ _ k hk => by simp at hk⟩
  | k :: l, s, hn => by
    have hn := List.nodup_cons.mp hn
    have a := clearKind_cleared s k
    have b := clearKinds_cleared l (clearKind s k) hn.2
    rw [List.foldl_cons]
    generalize clearKind s k = x at *
    generalize l.foldl clearKind x = u at *
    have hne : ∀ j ∈ l, x.bat.kinds.get j = s.bat.kinds.get j := by
      intro j hj
      rw [a.kinds, if_neg]
      rintro ⟨h, _⟩
      simp only [List.mem_singleton] at h
      subst h; exact hn.1 hj
    have hd : ∀ j ∈ l, isDeclared x j = isDeclared s j := fun j hj => by unfold isDeclared; rw [hne j hj]
    have hcl : x.bat.clock = s.bat.clock ∧ x.bat.coverMain = s.bat.coverMain ∧
        x.bat.coverTerminal = s.bat.coverTerminal := by rw [a.bat]; exact ⟨rfl, rfl, rfl⟩
    have hp : ∀ j ∈ l, conditionPresent x.bat j = conditionPresent s.bat j :=
        fun j hj => cond_congr j (hne j hj) hcl.2.1 hcl.2.2
    have hc : ∀ j ∈ l, clears x j = clears s j := fun j hj => by unfold clears; rw [hd j hj, hp j hj]
    have hr : ∀ j ∈ l, clearedRec x j = clearedRec s j := fun j hj => by unfold clearedRec; rw [hne j hj, hcl.1]
    have he : ∀ j ∈ l, clearEntry x j = clearEntry s j := fun j hj =>
        by unfold clearEntry; rw [hne j hj, hcl.1, hp j hj, a.psv, a.swc, a.ce]
    refine ⟨?_, ?_, ?_, b.ce.trans a.ce, b.swc.trans a.swc, b.cau.trans a.cau, b.psv.trans a.psv, b.flash.trans a.flash,
        b.fault.trans a.fault, ?_, fun e h => b.keep e (a.keep e h), ?_⟩
    · intro j
      rw [b.kinds]
      by_cases hj : j ∈ l
      · rw [hc j hj, hr j hj, hne j hj]
        simp only [hj, List.mem_cons, or_true]
      · rw [if_neg (fun h => hj h.1), a.kinds]
        simp only [hj, List.mem_cons, List.not_mem_nil, or_false]
    · rw [b.bat, a.bat]
    · rw [b.exc]
      have e1 : (l.filter (clears x)).map (fun k => NoticeBody.tamperCleared k (x.bat.kinds.get k).counter) = (l.filter
          (clears s)).map (fun k => NoticeBody.tamperCleared k (s.bat.kinds.get k).counter) := by
        rw [List.filter_congr hc]
        apply List.map_congr_left
        intro j hj
        rw [hne j (List.mem_filter.mp hj).1]
      rw [e1]
      have e2 : (k :: l).filter (clears s) = [k].filter (clears s) ++ l.filter (clears s) :=
          by rw [← List.filter_append]; rfl
      rw [e2, List.map_append]
      unfold postAll
      rw [List.foldl_append]
      refine fold_post _ _ _ ?_ a.exc
      have : ∀ (m : List NoticeBody) (v : State), (m.foldl (fun t b => post b t) v).bat = v.bat := by
        intro m
        induction m with
        | nil => intro v; rfl
        | cons b m ih => intro v; exact ih (post b v)
      rw [this, hcl.1]
    · have := b.apps; have := a.apps; simp only [List.length_cons, List.length_nil] at *; omega
    · intro a1 a2 a3 j hj hdj
      simp only [List.length_cons] at a3
      rcases List.mem_cons.mp hj with h | h
      · subst h
        exact b.keep _ (a.tk a1 a2 (by simp only [List.length_cons, List.length_nil]; omega) j (by simp) hdj)
      · rw [← he j h]
        have := a.apps
        simp only [List.length_cons, List.length_nil] at this
        exact b.tk (by rw [a.fault]; exact a1) (by rw [a.psv]; exact a2) (by omega) j h (by rw [hd j h]; exact hdj)

theorem mask_zero (p : Kind → Bool) : maskOf p = 0 ↔ kinds.any p = false := by
  simp [maskOf, kinds]

theorem tamper_cong2 {s t : State} (h1 : t.psv = s.psv) (h2 : t.bat.kinds = s.bat.kinds) (h3 : t.cau.settings =
    s.cau.settings) : tamperRequired t = tamperRequired s := by
  unfold tamperRequired isDeclared; rw [h1, h2, h3]

theorem postAll_mem : ∀ (l : List NoticeBody) (s : State), (postAll l s).exc.mem = s.exc.mem
  | [], _ => rfl
  | b :: l, s => (postAll_mem l (post b s)).trans (post_exc_parts b s).1

/-- The power state and the clock stay. -/
structure PowerClockFrame (s t : State) : Prop where
  power : t.psv.power = s.psv.power
  clock : t.bat.clock = s.bat.clock
  valid : t.bat.clockValid = s.bat.clockValid

theorem powerClock_refl (s : State) : PowerClockFrame s s := ⟨rfl, rfl, rfl⟩

theorem powerClock_of {s t : State}
    (a : t.psv.power = s.psv.power := by rfl)
    (b : t.bat.clock = s.bat.clock := by rfl)
    (c : t.bat.clockValid = s.bat.clockValid := by rfl) :
    PowerClockFrame s t := ⟨a, b, c⟩

theorem powerClock_trans {s t u : State} (h : PowerClockFrame s t) (k : PowerClockFrame t u) : PowerClockFrame s u :=
    ⟨k.1.trans h.1, k.2.trans h.2, k.3.trans h.3⟩

theorem powerClock_ite {s a b : State} {p : Prop} [Decidable p] (ha : PowerClockFrame s a) (hb : PowerClockFrame s b) :
    PowerClockFrame s (if p then a else b) := by
  split
  · exact ha
  · exact hb

theorem powerClock_foldl {α : Type} {f : State → α → State} (hf : ∀ s x,
    PowerClockFrame s (f s x)) : ∀ (l : List α) (s : State), PowerClockFrame s (l.foldl f s)
  | [], s => powerClock_refl s
  | x :: rest, s => powerClock_trans (hf s x) (powerClock_foldl hf rest (f s x))

theorem powerClock_post (b) (s : State) : PowerClockFrame s (post b s) := powerClock_of

theorem powerClock_keepNotice (b) (s : State) : PowerClockFrame s (keepNotice b s) := powerClock_of

theorem powerClock_complete (i r f n l) (s : State) : PowerClockFrame s (complete i r f n l s) := powerClock_of

theorem powerClock_drawFree (s : State) : PowerClockFrame s (drawFree s) := powerClock_of

theorem powerClock_arrive (o) (s : State) : PowerClockFrame s (arrive o s) := by
  unfold arrive
  refine powerClock_ite (powerClock_refl s) ?_
  unfold runArbiter
  exact powerClock_ite powerClock_of powerClock_of

theorem powerClock_flag (f) (s : State) : PowerClockFrame s (flagInterval f s) := powerClock_of

theorem powerClock_open (t) (s : State) : PowerClockFrame s (openInterval t s) := powerClock_of

theorem powerClock_roll (e n f t) (s : State) : PowerClockFrame s (rollInterval e n f t s) := by
  unfold rollInterval
  split
  · exact powerClock_ite (powerClock_open _ _) (powerClock_trans (powerClock_trans (powerClock_open _ _)
      (powerClock_arrive _ _)) (powerClock_drawFree _))
  · exact powerClock_open _ _

theorem powerClock_setDrive (d) (s : State) : PowerClockFrame s (setDrive d s) := powerClock_of

theorem powerClock_setSwitch (w) (s : State) : PowerClockFrame s (setSwitch w s) := by
  unfold setSwitch
  dsimp only
  exact powerClock_ite powerClock_of powerClock_of

theorem powerClock_beginDrive (d) (s : State) : PowerClockFrame s (beginDrive d s) :=
    powerClock_trans (powerClock_setSwitch _ s) powerClock_of

theorem powerClock_respond (b) (s : State) : PowerClockFrame s (respond b s) := by
  unfold respond
  repeat' split
  all_goals first
    | exact powerClock_refl _
    | exact powerClock_setSwitch _ _
    | exact powerClock_beginDrive _ _

theorem powerClock_add (r) (s : State) : PowerClockFrame s (addReason r s) := by
  unfold addReason
  refine powerClock_ite (powerClock_refl s) (powerClock_trans ?_ (powerClock_respond _ _)); exact powerClock_of

theorem powerClock_remove (r) (s : State) : PowerClockFrame s (removeReason r s) := by
  unfold removeReason
  refine powerClock_ite (powerClock_trans ?_ (powerClock_respond _ _)) (powerClock_refl s); exact powerClock_of

theorem powerClock_trip (p) (s : State) : PowerClockFrame s (trip p s) := by
  unfold trip
  dsimp only
  have k : PowerClockFrame s (post (.loadTrip ((addReason .loadLimit s).swc.tripMem + 1) p (addReason .loadLimit
      s).cau.settings.pMax)
      { addReason .loadLimit s with swc := { (addReason .loadLimit s).swc with recovery := startTimer 60, tripMem := if 3 ≤ (addReason .loadLimit s).swc.tripMem + 1 then 0 else (addReason .loadLimit s).swc.tripMem + 1, quiet := 0, overLimit := 0 } })
      := by
    refine powerClock_trans (powerClock_trans (powerClock_add .loadLimit s) ?_) (powerClock_post _ _)
    exact powerClock_of
  exact powerClock_ite (powerClock_trans (powerClock_trans k (powerClock_add _ _)) (powerClock_post _ _)) k

theorem powerClock_limiter (t) (s : State) : PowerClockFrame s (limiterHandOff t s) := by
  unfold limiterHandOff
  refine powerClock_ite (powerClock_trans (?_ : PowerClockFrame s (quietStep s)) ?_) (powerClock_refl s)
  · unfold quietStep
    exact powerClock_ite (powerClock_refl s) (powerClock_ite powerClock_of powerClock_of)
  · unfold limitStep
    dsimp only
    refine powerClock_ite (powerClock_trans ?_ (powerClock_trip _ _)) ?_
    · exact powerClock_of
    · exact powerClock_of

theorem powerClock_mapKind (k f) (s : State) : PowerClockFrame s (mapKind k f s) := powerClock_of

theorem powerClock_agree (s : State) : PowerClockFrame s (tamperAgree s) :=
    powerClock_ite (powerClock_add _ s) (powerClock_remove _ s)

theorem powerClock_ever (k) (s : State) : PowerClockFrame s (programEver k s) :=
    powerClock_ite (powerClock_refl s) (powerClock_arrive _ s)

theorem powerClock_appendLog (k e) (s : State) : PowerClockFrame s (appendLog k e s) := powerClock_arrive _ s

theorem powerClock_declareKind (k) (s : State) : PowerClockFrame s (declareKind k s) := by
  refine powerClock_ite ?_ ?_
  · have h := powerClock_trans (powerClock_mapKind k (fun r =>
      { r with state := .declared, count := min 65535 (r.count + 1), last := some s.bat.clock, first := match r.first with | some t => some t | none => some s.bat.clock })
      s) (powerClock_agree _)
    unfold declareInOutage
    dsimp only
    split
    · exact h
    · exact powerClock_trans h powerClock_of
  · unfold declareWith
    refine powerClock_trans (powerClock_trans (powerClock_trans (powerClock_trans (powerClock_trans (powerClock_trans ?_
        (powerClock_flag _ _)) (powerClock_agree _)) (powerClock_ever _ _)) (powerClock_arrive _ _)) (powerClock_arrive
        _ _)) (powerClock_ite (powerClock_post _ _) (powerClock_keepNotice _ _))
    exact powerClock_mapKind _ _ _

theorem powerClock_warningBegin (k) (s : State) : PowerClockFrame s (warningBegin k s) := by
  unfold warningBegin
  exact powerClock_ite (powerClock_trans (powerClock_trans (powerClock_mapKind _ _ s) (powerClock_appendLog _ _ _))
      (powerClock_post _ _)) (powerClock_mapKind _ _ s)

theorem powerClock_warningEnd (k) (s : State) : PowerClockFrame s (warningEnd k s) := by
  unfold warningEnd
  exact powerClock_ite (powerClock_trans (powerClock_mapKind _ _ s) (powerClock_appendLog _ _ _)) (powerClock_mapKind _
      _ s)

theorem powerClock_indicator (k p) (s : State) : PowerClockFrame s (indicator k p s) := by
  unfold indicator
  generalize hu : mapKind k _ s = u
  refine powerClock_trans (?_ : PowerClockFrame s u) ?_
  · rw [← hu]; exact powerClock_mapKind _ _ s
  have hw := powerClock_warningBegin k u
  have hd := powerClock_trans hw (powerClock_declareKind k _)
  unfold moveKind
  dsimp only
  split
  · exact powerClock_ite (powerClock_refl u) (powerClock_ite hd hw)
  · exact powerClock_ite (powerClock_warningEnd k u) (powerClock_ite (powerClock_declareKind k u) (powerClock_refl u))
  · exact powerClock_refl u

theorem powerClock_lowCredit (s : State) : PowerClockFrame s (lowCredit s) := by
  have h1 : ∀ t : State, PowerClockFrame s t → ∀ b (p : Bool), PowerClockFrame s (if p then post b t else t) :=
      fun t h b p => powerClock_ite (powerClock_trans h (powerClock_post _ _)) h
  unfold lowCredit
  exact h1 _ (h1 _ powerClock_of _ _) _ _

theorem powerClock_evaluate (s : State) : PowerClockFrame s (evaluate s) := by
  have hd : ∀ x (t : State), PowerClockFrame t (setDeferral x t) := fun x t => powerClock_of
  unfold evaluate
  refine powerClock_ite (powerClock_trans (powerClock_remove _ s) (hd _ _)) (powerClock_ite (powerClock_refl s)
      (powerClock_ite (powerClock_ite (hd _ _) (powerClock_trans (hd _ _) (powerClock_post _ _))) (powerClock_trans
      (powerClock_add _ s) (hd _ _))))

theorem powerClock_testBoundary (e) (s : State) : PowerClockFrame s (testBoundary e s) := by
  unfold testBoundary
  split
  · exact powerClock_ite (powerClock_roll _ _ _ _ _) (powerClock_refl s)
  · exact powerClock_refl s

theorem powerClock_handAll (o) (s : State) (a) : PowerClockFrame s (handOff o s a) := by
  cases a
  · have hf := fixed_b (dayOf o.live.endTime) s
    have hc := cost_b o.n o.live.endTime (fixedCharge (dayOf o.live.endTime) s)
    have h0 : PowerClockFrame s (costStage o.n o.live.endTime (fixedCharge (dayOf o.live.endTime) s)) :=
        ⟨by rw [hc.psv, hf.psv], by rw [hc.bat, hf.bat], by rw [hc.bat, hf.bat]⟩
    have h1 : PowerClockFrame s (billPeriod o.n o.live.endTime s) := by
      unfold billPeriod
      dsimp only
      exact powerClock_ite (powerClock_trans h0 (powerClock_lowCredit _)) (powerClock_trans (powerClock_trans h0
          (powerClock_lowCredit _)) (powerClock_evaluate _))
    refine powerClock_trans (powerClock_trans h1 ?_) (powerClock_testBoundary _ _)
    exact powerClock_of
  · exact powerClock_limiter _ _
  all_goals exact powerClock_indicator _ _ _

theorem setClock_parts (c t) (s : State) : (setClock c t s).bat =
    { s.bat with clock := t, clockValid := true, clockSource := c, steerDay := dayOf t, steerUsed := 0 } ∧
    (setClock c t s).ce.money =
    { s.ce.money with lastDay := if s.bat.clockValid then s.ce.money.lastDay else t / 86400 } := by
  unfold setClock
  dsimp only
  split
  · rename_i h
    simp only [Bool.and_eq_true] at h
    exact ⟨rfl, by rw [h.1]; rfl⟩
  · have h := step_frame s.bat.clock (!s.bat.clockValid)
      { s with bat := { s.bat with clock := t, clockValid := true, clockSource := c, steerDay := dayOf t, steerUsed := 0 } }
    dsimp only at h
    refine ⟨?_, ?_⟩
    · rw [h.2.2.2.2.2, if_neg (by unfold dayOf; omega)]
    · rw [h.2.2.2.2.1]
      cases s.bat.clockValid <;> rfl

/-- What a taken SET_TIME leaves of an emptied exchange. -/
structure TimeSetFrame (s t : State) : Prop where
  xrst : t.exc.xrst = s.exc.xrst
  takeCtr : t.exc.takeCtr = s.exc.takeCtr
  standing : t.exc.standing = s.exc.standing
  code : t.exc.code = s.exc.code
  query : t.exc.query = s.exc.query
  bulk : t.exc.bulk = s.exc.bulk
  wake : t.exc.wake = s.exc.wake
  rlr : t.rlr = s.rlr
  head : ∀ n, s.exc.notices.head? = some n → t.exc.notices.head? = some n

theorem timeSet_refl (s : State) : TimeSetFrame s s := ⟨rfl, rfl, rfl, rfl, rfl, rfl, rfl, rfl, fun _ h => h⟩

theorem timeSet_trans {s t u : State} (h : TimeSetFrame s t) (k : TimeSetFrame t u) : TimeSetFrame s u :=
    ⟨k.1.trans h.1, k.2.trans h.2, k.3.trans h.3, k.4.trans h.4, k.5.trans h.5, k.6.trans h.6, k.7.trans h.7,
    k.8.trans h.8, fun n e => k.9 n (h.9 n e)⟩

theorem timeSet_of {s t : State}
    (a : t.exc = s.exc := by rfl)
    (b : t.rlr = s.rlr := by rfl) :
    TimeSetFrame s t := ⟨by rw [a], by rw [a], by rw [a], by rw [a], by rw [a], by rw [a], by rw [a], b, fun n h => by rw [a]; exact h⟩

theorem timeSet_ite {s a b : State} {p : Prop} [Decidable p] (ha : TimeSetFrame s a) (hb : TimeSetFrame s b) :
    TimeSetFrame s (if p then a else b) := by
  split
  · exact ha
  · exact hb

theorem timeSet_foldl {α : Type} {f : State → α → State} (hf : ∀ s x,
    TimeSetFrame s (f s x)) : ∀ (l : List α) (s : State), TimeSetFrame s (l.foldl f s)
  | [], s => timeSet_refl s
  | x :: rest, s => timeSet_trans (hf s x) (timeSet_foldl hf rest (f s x))

theorem timeSet_post (b) (s : State) : TimeSetFrame s (post b s) := by
  have : ∀ x : Exc, let y := x.post s.bat.clock b; y.xrst = x.xrst ∧ y.takeCtr = x.takeCtr ∧ y.standing = x.standing ∧
      y.code = x.code ∧ y.query = x.query ∧ y.bulk = x.bulk ∧ y.wake = x.wake ∧ ∀ n, x.notices.head? = some n →
      y.notices.head? = some n := by
    intro x; dsimp only; unfold Exc.post
    split
    · split
      · refine ⟨rfl, rfl, rfl, rfl, rfl, rfl, rfl, ?_⟩
        intro n h
        cases hx : x.notices with
        | nil => rw [hx] at h; cases h
        | cons a l => rw [hx] at h; exact h
      · exact ⟨rfl, rfl, rfl, rfl, rfl, rfl, rfl, fun _ h => h⟩
    · exact ⟨rfl, rfl, rfl, rfl, rfl, rfl, rfl, fun _ h => h⟩
  obtain ⟨h1, h2, h3, h4, h5, h6, h7, h8⟩ := this s.exc
  exact ⟨h1, h2, h3, h4, h5, h6, h7, rfl, h8⟩

theorem timeSet_setSwitch (w) (s : State) : TimeSetFrame s (setSwitch w s) := by
  unfold setSwitch; dsimp only; exact timeSet_ite timeSet_of timeSet_of

theorem timeSet_beginDrive (d) (s : State) : TimeSetFrame s (beginDrive d s) :=
    timeSet_trans (timeSet_setSwitch _ s) timeSet_of

theorem timeSet_respond (b) (s : State) : TimeSetFrame s (respond b s) := by
  unfold respond
  repeat' split
  all_goals first
    | exact timeSet_refl _
    | exact timeSet_setSwitch _ _
    | exact timeSet_beginDrive _ _

theorem timeSet_add (r) (s : State) : TimeSetFrame s (addReason r s) := by
  unfold addReason; refine timeSet_ite (timeSet_refl s) (timeSet_trans ?_ (timeSet_respond _ _)); exact timeSet_of

theorem timeSet_rem (r) (s : State) : TimeSetFrame s (removeReason r s) := by
  unfold removeReason; refine timeSet_ite (timeSet_trans ?_ (timeSet_respond _ _)) (timeSet_refl s); exact timeSet_of

theorem timeSet_eval (s : State) : TimeSetFrame s (evaluate s) := by
  have hd : ∀ b x, TimeSetFrame x (setDeferral b x) := fun b x => timeSet_of
  unfold evaluate
  exact timeSet_ite (timeSet_trans (timeSet_rem _ s) (hd _ _)) (timeSet_ite (timeSet_refl s) (timeSet_ite (timeSet_ite
      (hd _ _) (timeSet_trans (hd _ _) (timeSet_post _ _))) (timeSet_trans (timeSet_add _ s) (hd _ _))))

theorem timeSet_arrive (o) (s : State) : TimeSetFrame s (arrive o s) := by
  unfold arrive
  refine timeSet_ite (timeSet_refl s) ?_
  unfold runArbiter
  exact timeSet_ite timeSet_of timeSet_of

theorem timeSet_roll (e n f t) (s : State) : TimeSetFrame s (rollInterval e n f t s) := by
  have ho : ∀ t (x : State), TimeSetFrame x (openInterval t x) := fun t x => timeSet_of
  have hd : ∀ (x : State), TimeSetFrame x (drawFree x) := fun x => timeSet_of
  unfold rollInterval
  split
  · exact timeSet_ite (ho _ _) (timeSet_trans (timeSet_trans (ho _ _) (timeSet_arrive _ _)) (hd _))
  · exact ho _ _

theorem timeSet_window (s : State) : TimeSetFrame s (recomputeWindow s) := by
  unfold recomputeWindow; dsimp only
  refine timeSet_ite (timeSet_refl s) (timeSet_trans ?_ (timeSet_eval _)); exact timeSet_of

theorem timeSet_steerRule (s : State) : TimeSetFrame s (steerRule s) := timeSet_ite timeSet_of (timeSet_refl s)

theorem timeSet_clockStep (t b) (s : State) : TimeSetFrame s (clockStep t b s) := by
  have hr : ∀ a b (v : State), TimeSetFrame v (reportStep a b v) := by
    intro a b v
    unfold reportStep
    exact timeSet_ite (timeSet_refl v) (timeSet_ite timeSet_of (timeSet_roll _ _ _ _ _))
  have h0 : TimeSetFrame s { s with ce := { s.ce with minuteDue := false } } := timeSet_of
  have h1 : ∀ v : State, ∀ d, TimeSetFrame v (if b then setLastDay d v else v) :=
      fun v d => timeSet_ite timeSet_of (timeSet_refl v)
  have h2 : ∀ v : State, TimeSetFrame v (recomputeBand v) := fun v => timeSet_of
  unfold clockStep
  exact timeSet_trans (timeSet_trans (timeSet_trans (timeSet_trans (timeSet_trans h0 (hr _ _ _)) (h1 _ _)) (h2 _))
      (timeSet_window _)) (timeSet_steerRule _)

theorem timeSet_setClock (c t) (s : State) : TimeSetFrame s (setClock c t s) := by
  unfold setClock; dsimp only
  have h0 : TimeSetFrame s
      { s with bat := { s.bat with clock := t, clockValid := true, clockSource := c, steerDay := dayOf t, steerUsed := 0 } }
      := timeSet_of
  exact timeSet_ite h0 (timeSet_trans h0 (timeSet_clockStep _ _ _))

theorem timeSet_steer (a) (s : State) : TimeSetFrame s (steer a s) := by
  unfold steer; dsimp only
  have h0 : TimeSetFrame s
      { s with bat := { s.bat with clock := ((s.bat.clock : Int) + a).toNat, steerUsed := s.bat.steerUsed + a.natAbs } }
      := timeSet_of
  exact timeSet_ite (timeSet_trans h0 (timeSet_steerRule _)) (timeSet_trans h0 (timeSet_clockStep _ _ _))

theorem outside_steerBy (a) (s : State) : OutsideFrame s (steer a s) := by
  unfold steer; dsimp only
  have h0 : OutsideFrame s
      { s with bat := { s.bat with clock := ((s.bat.clock : Int) + a).toNat, steerUsed := s.bat.steerUsed + a.natAbs } }
      := outside_of
  exact outside_ite (outside_trans h0 (outside_steer _)) (outside_trans h0 (outside_clockStep _ _ _))

theorem timeSet_time (s : State) (r) : TimeSetFrame s (timeApplied s r) := by
  unfold timeApplied
  refine timeSet_ite ?_ (timeSet_refl s)
  split
  · exact timeSet_ite (timeSet_steer _ _) (timeSet_refl s)
  · exact timeSet_ite (timeSet_refl s) (timeSet_setClock _ _ _)
  · exact timeSet_refl s

theorem outside_time (s : State) (r) : OutsideFrame s (timeApplied s r) := by
  unfold timeApplied
  refine outside_ite ?_ (outside_refl s)
  split
  · exact outside_ite (outside_steerBy _ _) (outside_refl s)
  · exact outside_ite (outside_refl s) (outside_setClock _ _ _)
  · exact outside_refl s

theorem time_none : ∀ (l : List Request) (s : State), (∀ r ∈ l, r.kind ≠ .setTime) → l.foldl timeApplied s = s
  | [], s, _ => rfl
  | r :: l, s, h => by
    have : timeApplied s r = s := by unfold timeApplied; rw [if_neg (h r (by simp))]
    show l.foldl timeApplied (timeApplied s r) = s
    rw [this]; exact time_none l s (fun q hq => h q (by simp [hq]))

theorem entryLength_forward {start endTime : Nat} (h : start ≤ endTime) (n : Nat) :
    entryLength start endTime n = (endTime - start + 59) / 60 := by
  unfold entryLength
  rw [if_pos (by omega)]; congr 1; omega

theorem entryLength_justBefore {start endTime : Nat} (h : endTime < start) (h' : start ≤ endTime + 118) (n : Nat) :
    entryLength start endTime n = 0 := by
  unfold entryLength
  rw [if_pos (by omega)]; omega

end Sys2Proof.Machine
end

