-- ==== Sys2Proof/Laws/FramesMoves.lean ====
section
/-! SUPPORT. Laws/FramesMoves.lean:
what a clock step, an indicator, a trip, a period and the verify of a record do: one lemma per operation. -/

set_option Elab.async false

namespace Sys2Proof.Machine

open Sys2Proof

/-- Only SUPPLY_OPEN of the open interval moves. -/
def IvOpen (s t : State) : Prop := (∀ v, s.ee.interval = some v → ∃ o,
    t.ee.interval = some { v with flags := { v.flags with supplyOpen := o } })

theorem supplyOpen_refl (s : State) : IvOpen s s := fun v h => ⟨v.flags.supplyOpen, h⟩

theorem supplyOpen_of {s t : State}
    (a : t.ee.interval = s.ee.interval := by rfl) :
    IvOpen s t := fun v h => ⟨v.flags.supplyOpen, a.trans h⟩

theorem supplyOpen_trans {s t u : State} (h : IvOpen s t) (k : IvOpen t u) : IvOpen s u := fun v hv => by
  obtain ⟨o, ho⟩ := h v hv
  obtain ⟨o', ho'⟩ := k _ ho
  exact ⟨o', ho'⟩

theorem supplyOpen_ite {s a b : State} {p : Prop} [Decidable p] (ha : IvOpen s a) (hb : IvOpen s b) : IvOpen s (if p
    then a else b) := by
  split
  · exact ha
  · exact hb

theorem supplyOpen_setSwitch (w) (s : State) : IvOpen s (setSwitch w s) := by
  unfold setSwitch
  dsimp only
  refine supplyOpen_ite supplyOpen_of ?_
  intro v hv
  exact ⟨true, by simp [flagInterval, hv]⟩

theorem supplyOpen_beginDrive (d) (s : State) : IvOpen s (beginDrive d s) :=
    supplyOpen_trans (supplyOpen_setSwitch _ s) supplyOpen_of

theorem supplyOpen_respond (b) (s : State) : IvOpen s (respond b s) := by
  unfold respond
  repeat' split
  all_goals first
    | exact supplyOpen_refl _
    | exact supplyOpen_setSwitch _ _
    | exact supplyOpen_beginDrive _ _

theorem putReason_ne {x : Reasons} {r : Reason} {b : Bool} (h : hasReason x r ≠ b) : putReason x r b ≠ x := by
  intro e; apply h; rw [← e]; cases r <;> rfl

theorem supplyOpen_add (r) (s : State) : IvOpen s (addReason r s) ∧ ((addReason r s).swc = s.swc →
    (addReason r s).ee = s.ee) := by
  unfold addReason
  split
  · exact ⟨supplyOpen_refl s, fun _ => rfl⟩
  · rename_i h
    refine ⟨supplyOpen_trans (t := { s with swc := { s.swc with set := putReason s.swc.set r true, consent := false } })
        supplyOpen_of (supplyOpen_respond _ _), fun e => ?_⟩
    have := congrArg Swc.set e
    rw [(respond_all _ _).1] at this
    exact absurd this (putReason_ne (by simpa using h))

theorem supplyOpen_remove (r) (s : State) : IvOpen s (removeReason r s) ∧ ((removeReason r s).swc = s.swc →
    (removeReason r s).ee = s.ee) := by
  unfold removeReason
  split
  · rename_i h
    refine ⟨supplyOpen_trans (t := { s with swc := { s.swc with set := putReason s.swc.set r false } }) supplyOpen_of
        (supplyOpen_respond _ _), fun e => ?_⟩
    have := congrArg Swc.set e
    rw [(respond_all _ _).1] at this
    exact absurd this (putReason_ne (by simpa using h))
  · exact ⟨supplyOpen_refl s, fun _ => rfl⟩

theorem supplyOpen_evaluate (s : State) : IvOpen s (evaluate s) ∧ ((evaluate s).swc = s.swc → (evaluate s).ee = s.ee) :=
    by
  unfold evaluate
  split
  · exact ⟨supplyOpen_trans (supplyOpen_remove _ s).1 supplyOpen_of, fun e => (supplyOpen_remove _ s).2 e⟩
  split
  · exact ⟨supplyOpen_refl s, fun _ => rfl⟩
  split
  · dsimp only
    split
    · exact ⟨supplyOpen_of, fun _ => rfl⟩
    · exact ⟨supplyOpen_of, fun _ => rfl⟩
  · exact ⟨supplyOpen_trans (supplyOpen_add _ s).1 supplyOpen_of, fun e => (supplyOpen_add _ s).2 e⟩

theorem supplyOpen_window (s : State) : IvOpen s (recomputeWindow s) ∧ ((recomputeWindow s).swc = s.swc →
    (recomputeWindow s).ee = s.ee) := by
  unfold recomputeWindow
  dsimp only
  split
  · exact ⟨supplyOpen_refl s, fun _ => rfl⟩
  · exact ⟨supplyOpen_trans supplyOpen_of (supplyOpen_evaluate _).1, fun e => (supplyOpen_evaluate _).2 e⟩

theorem recomputeWindow_stc (s : State) : (recomputeWindow s).stc = s.stc ∧ (recomputeWindow s).cau = s.cau := by
  unfold recomputeWindow
  dsimp only
  split
  · exact ⟨rfl, rfl⟩
  · exact ⟨(evalFrame_eval _).8, (evalFrame_eval _).6⟩

/-- a report's part outside the EE and the store -/
theorem reportStep_parts (a b) (s : State) : let r := reportStep a b s
    r.swc = s.swc ∧ r.ce = s.ce ∧ r.exc = s.exc ∧ r.bat = s.bat ∧ r.cau = s.cau ∧ r.psv = s.psv := by
  have ha : ∀ o (x : State), (arrive o x).swc = x.swc ∧ (arrive o x).cau = x.cau := by
    intro o x
    unfold arrive
    split
    · exact ⟨rfl, rfl⟩
    · unfold runArbiter; split <;> exact ⟨rfl, rfl⟩
  unfold reportStep
  split
  · exact ⟨rfl, rfl, rfl, rfl, rfl, rfl⟩
  split
  · exact ⟨rfl, rfl, rfl, rfl, rfl, rfl⟩
  · unfold rollInterval
    split
    · split
      · exact ⟨rfl, rfl, rfl, rfl, rfl, rfl⟩
      · have h := arrive_outside
        refine ⟨(ha _ _).1, (h _ _).2.2.1, (h _ _).1, (h _ _).2.1, (ha _ _).2, (h _ _).2.2.2⟩
    · exact ⟨rfl, rfl, rfl, rfl, rfl, rfl⟩

theorem windowAt_congr {s t : State} (h1 : t.bat.clockValid = s.bat.clockValid) (h2 : t.cau.settings = s.cau.settings) (e)
    : windowAt t e = windowAt s e := by
  unfold windowAt; rw [h1, h2]

theorem lenOf_congr {s t : State} (h2 : t.cau.settings = s.cau.settings) : lenOf t = lenOf s := by unfold lenOf; rw [h2]

theorem boundary_crossed_iff {t0 t1 len : Nat} : (∃ n, (t0 < n * len ∧ n * len ≤ t1) ∨ (t1 < n * len ∧
    n * len ≤ t0)) ↔ t0 / len ≠ t1 / len := by
  rcases Nat.eq_zero_or_pos len with rfl | hl
  · simp
  have up : ∀ a b : Nat, (∃ n, a < n * len ∧ n * len ≤ b) ↔ a / len < b / len := by
    intro a b
    constructor
    · rintro ⟨n, h1, h2⟩
      have := (Nat.div_lt_iff_lt_mul hl).mpr h1
      have := (Nat.le_div_iff_mul_le hl).mpr h2
      omega
    · intro h
      exact ⟨b / len, (Nat.div_lt_iff_lt_mul hl).mp h, (Nat.le_div_iff_mul_le hl).mp (Nat.le_refl _)⟩
  rw [exists_or, up, up]; omega

/-- the report's part in the interval and the store -/
theorem reportStep_interval (t0 t1 : Nat) (s : State) (v : Interval) (hv : s.ee.interval = some v) :
    let r := reportStep t0 t1 s
    let len := s.cau.settings.intervalLen * 60
    (t0 ≠ t1 → t0 / len = t1 / len → r.ee.interval = some { v with flags := { v.flags with timeSteered := true } }) ∧
    (t0 / len ≠ t1 / len → r.ee.interval = some (newInterval t1 s) ∧
      (v.start < t0 → storeTakes s.psv = true → s.stc.fault = false → (s.stc.queue.filter isAppend).length < 32 →
        EntryTaken (.profile {
          endTime := t0, imp := v.imp, exp := v.exp, fb := v.fb, credit := v.credit, balance := s.ce.money.b,
          maxW := v.maxW, length := (t0 - v.start + 59) / 60,
          flags := { v.flags with
            timeSteered := true, short := v.flags.short || decide (t0 - v.start < len) } }) r.stc)) := by
  dsimp only
  refine ⟨fun h1 h2 => ?_, fun h1 => ?_⟩
  · unfold reportStep lenOf
    rw [if_neg h1, if_pos h2]
    simp [flagInterval, hv]
  · have h0 : t0 ≠ t1 := fun e => h1 (by rw [e])
    have hr : reportStep t0 t1 s = rollInterval t0 (lenOf s) (fun g => { g with timeSteered := true }) t1 s := by
      unfold reportStep
      rw [if_neg h0, if_neg (by unfold lenOf; exact h1)]
    rw [hr]
    unfold rollInterval
    rw [hv]
    dsimp only
    split
    · rename_i h2; exact ⟨rfl, fun h => absurd h2 (by omega)⟩
    · refine ⟨?_, ?_⟩
      · show (arrive _ _).ee.interval = _
        have : ∀ o (x : State), (arrive o x).ee = x.ee := by
          intro o x; unfold arrive; split
          · rfl
          · unfold runArbiter; split <;> rfl
        rw [this]; rfl
      · intro h2 h3 h4 h5
        have := opTaken_entry (opTaken_arrive_new (.append (.profile (profileEntry v t0 (lenOf s) (fun g =>
            { g with timeSteered := true }) s))) (openInterval t1 s) (by simp) h4 h3 (by simp) (fun _ => h5))
        have he : profileEntry v t0 (lenOf s) (fun g => { g with timeSteered := true }) s = {
          endTime := t0, imp := v.imp, exp := v.exp, fb := v.fb, credit := v.credit, balance := s.ce.money.b,
          maxW := v.maxW, length := (t0 - v.start + 59) / 60,
          flags := { v.flags with
            timeSteered := true, short := v.flags.short || decide (t0 - v.start < s.cau.settings.intervalLen * 60)
                } } := by
          unfold profileEntry closingFlags lenOf entryLength
          have h5 : decide ((t0 : Int) - v.start < (s.cau.settings.intervalLen * 60 : Nat)) = decide (t0 - v.start <
              s.cau.settings.intervalLen * 60) := by
            rw [decide_eq_decide]; omega
          rw [h5, if_pos (by omega), show t0 + 59 - v.start = t0 - v.start + 59 by omega]
        have h6 : ∀ E, E = profileEntry v t0 (lenOf s) (fun g => { g with timeSteered := true }) s →
            EntryTaken (.profile E) (drawFree (arrive (.append (.profile (profileEntry v t0 (lenOf s) (fun g =>
            { g with timeSteered := true }) s))) (openInterval t1 s))).stc := by
          intro E h; rw [h]; exact this
        exact h6 _ he.symm

theorem clockBrings_stepped (t0 : Nat) (b : Bool) (s s0 : State) (hm : s.toModules = s0.toModules) (hx : s.exc = s0.exc)
    (hp : s.psv = s0.psv) :
    ClockStepped t0 s0 (clockStep t0 b s) := by
  have hce : s.ce = s0.ce := by rw [hm]
  have hsw : s.swc = s0.swc := by rw [hm]
  have hee : s.ee = s0.ee := by rw [hm]
  have hca : s.cau = s0.cau := by rw [hm]
  have hst : s.stc = s0.stc := by rw [hm]
  unfold clockStep
  dsimp only
  have ho := reportStep_parts t0 s.bat.clock { s with ce := { s.ce with minuteDue := false } }
  have hi := fun v hv => reportStep_interval t0 s.bat.clock { s with ce := { s.ce with minuteDue := false } } v hv
  dsimp only at ho hi
  generalize reportStep t0 s.bat.clock { s with ce := { s.ce with minuteDue := false } } = r at ho hi
  obtain ⟨o1, o2, o3, o4, o5, o6⟩ := ho
  have hl : ∃ m, (if b = true then setLastDay (dayOf r.bat.clock) r else r) =
      { r with ce := { r.ce with money := { r.ce.money with lastDay := m } } } := by
    cases b
    · exact ⟨r.ce.money.lastDay, rfl⟩
    · exact ⟨_, rfl⟩
  obtain ⟨m, hl⟩ := hl
  rw [hl]
  generalize hw : recomputeBand ({ r with ce := { r.ce with money := { r.ce.money with lastDay := m } } } : State) = w
  have w1 : w.swc = s0.swc := by rw [← hw]; exact o1.trans hsw
  have w2 : w.bat = s.bat := by rw [← hw]; exact o4
  have w3 : w.cau = s0.cau := by rw [← hw]; exact o5.trans hca
  have w4 : w.exc = s0.exc := by rw [← hw]; exact o3.trans hx
  have hb : bandAt ({ r with ce := { r.ce with money := { r.ce.money with lastDay := m } } } : State) r.bat.clock =
      bandAt s s.bat.clock := by
    have h1 : r.bat.clockValid = s.bat.clockValid := by rw [o4]
    have h2 : r.cau.settings = s.cau.settings := by rw [o5]
    have h3 : r.bat.clock = s.bat.clock := by rw [o4]
    rw [h3]; exact band_congr h1 h2 _
  have w5 : w.ce =
      { s0.ce with minuteDue := false, band := bandAt s s.bat.clock, money := { s0.ce.money with lastDay := m } } := by
    rw [← hw]
    show ({ ({ r.ce with money := { r.ce.money with lastDay := m } } : Ce) with band := bandAt _ r.bat.clock } : Ce) = _
    rw [hb, o2, hce]
  have w6 : w.ee = r.ee := by rw [← hw]; rfl
  have w7 : w.stc = r.stc := by rw [← hw]; rfl
  clear hw hl
  have f := recomputeWindow_frame w
  have g := recomputeWindow_stc w
  have i := supplyOpen_window w
  have n := fun h => window_ne (s := w) h
  have hsame : windowAt w w.bat.clock = w.ce.window → recomputeWindow w = w := by
    intro h; unfold recomputeWindow; dsimp only; rw [if_pos h]
  generalize recomputeWindow w = x at *
  obtain ⟨f1, f2, f3, f4, f5, f6, f7, f8, f9⟩ := f
  obtain ⟨z1, z2, z3, z4⟩ := steer_frame x
  have zc : (steerRule x).bat.clock = s.bat.clock := by rw [z4, f4, w2]; split <;> rfl
  have zv : (steerRule x).bat.clockValid = s.bat.clockValid := by rw [z4, f4, w2]; split <;> rfl
  generalize steerRule x = z at *
  have zce : z.ce = x.ce := by rw [z1]
  have zsw : z.swc = x.swc := by rw [z1]
  have zee : z.ee = x.ee := by rw [z1]
  have zst : z.stc = x.stc := by rw [z1]
  have zca : z.cau = s0.cau := by rw [show z.cau = x.cau by rw [z1], g.2, w3]
  have hwin : windowAt z z.bat.clock = windowAt w w.bat.clock := by
    rw [zc, w2]; exact windowAt_congr (by rw [zv, w2]) (by rw [zca, w3]) _
  have hband : bandAt z z.bat.clock = bandAt s s.bat.clock := by
    rw [zc]; exact band_congr zv (by rw [zca, hca]) _
  unfold ClockStepped
  dsimp only
  rw [hwin, hband, zce, zsw, zee, zst, z2, zc]
  refine ⟨by rw [f3, w5], by rw [f2, w5], f1, ?_, ?_, ?_⟩
  · intro h
    rw [hsame (by rw [h, w5])]
    exact ⟨w1, by rw [w5], by rw [w4]⟩
  · intro h
    have := n (by rw [w5]; exact h)
    have hlim : creditLimit w = if s0.ce.money.emergency = true then -(s0.cau.settings.e : Int) else 0 := by
      unfold creditLimit; rw [w5, w3]
    rw [hlim, w4, show w.ce.money.b = s0.ce.money.b by rw [w5]] at this
    refine Evaluated_congr (t := x) ?_ zsw (by rw [zce]) (by rw [z2])
    unfold Evaluated at this ⊢
    rw [w1, show w.ce.deferral = s0.ce.deferral by rw [w5], w2] at this
    rw [w2]
    exact this
  · intro v hv
    obtain ⟨i1, i2⟩ := hi v (by show s.ee.interval = _; rw [hee]; exact hv)
    rw [← boundary_crossed_iff] at i2
    have i1' := fun h1 (h2 : ¬∃ n, (t0 < n * (s.cau.settings.intervalLen * 60) ∧
        n * (s.cau.settings.intervalLen * 60) ≤ s.bat.clock) ∨ (s.bat.clock < n * (s.cau.settings.intervalLen * 60) ∧
        n * (s.cau.settings.intervalLen * 60) ≤ t0)) => i1 h1 (Decidable.byContradiction fun h => h2 (boundary_crossed_iff.mpr
        h))
    rw [hca] at i1' i2
    refine ⟨fun h1 h2 => ?_, fun h1 => ?_⟩
    · have := i1' h1 h2
      obtain ⟨o, ho⟩ := i.1 _ (w6 ▸ this)
      refine ⟨o, ho, fun e => ?_⟩
      have := i.2 (e.trans w1.symm)
      rw [this, w6, i1' h1 h2] at ho
      simp only [Option.some.injEq] at ho
      exact (congrArg (fun y : Interval => y.flags.supplyOpen) ho).symm
    · obtain ⟨j1, j2⟩ := i2 h1
      obtain ⟨o, ho⟩ := i.1 _ (w6 ▸ j1)
      refine ⟨⟨_, ho, rfl, rfl, rfl, rfl, rfl, rfl, rfl, rfl⟩, ?_⟩
      rw [g.1, w7]
      intro k1 k2 k3 k4
      have := j2 k1 (by show storeTakes s.psv = _; rw [hp]; exact k2) (by rw [hst]; exact k3) (by rw [hst]; exact k4)
      rw [hce] at this
      exact this

theorem finishControl_notices (i r f l) (u : State) : (finishControl i r f l u).exc.notices = u.exc.notices := rfl

theorem clockStepped_congr {t0 s u z} (h : ClockStepped t0 s u) (h1 : z.toModules = u.toModules) (h2 : z.bat = u.bat)
    (h3 : z.exc.notices = u.exc.notices) : ClockStepped t0 s z := by
  unfold ClockStepped at *
  dsimp only at *
  rw [show bandAt z z.bat.clock = bandAt u u.bat.clock from by rw [h2]; exact band_congr (by rw [h2]) (by rw [h1]) _,
    show windowAt z z.bat.clock = windowAt u u.bat.clock from
        by rw [h2]; exact windowAt_congr (by rw [h2]) (by rw [h1]) _, h2, h1, h3]
  refine ⟨h.1, h.2.1, h.2.2.1, h.2.2.2.1, fun k => ?_, h.2.2.2.2.2⟩
  exact Evaluated_congr (h.2.2.2.2.1 k) (by rw [h1]) (by rw [h1]) h3

theorem steer_stepped (a : Int) (s : State) :
    (a = 0 → (steer a s).toModules = s.toModules ∧ (steer a s).exc = s.exc) ∧ (a ≠ 0 →
        ClockStepped s.bat.clock s (steer a s)) := by
  unfold steer
  dsimp only
  refine ⟨fun h => ?_, fun h => ?_⟩
  · rw [if_pos h]; exact ⟨(steer_frame _).1, (steer_frame _).2.1⟩
  · rw [if_neg h]; exact clockBrings_stepped _ _ _ _ rfl rfl rfl

theorem setClock_stepped (src t1) (s : State) :
    (s.bat.clockValid = true → s.bat.clock = t1 → (setClock src t1 s).toModules = s.toModules ∧
        (setClock src t1 s).exc = s.exc) ∧
    (s.bat.clockValid = false ∨ s.bat.clock ≠ t1 → ClockStepped s.bat.clock s (setClock src t1 s)) := by
  unfold setClock
  dsimp only
  refine ⟨fun h h' => ?_, fun h => ?_⟩
  · rw [if_pos (by simp [h, h'])]; exact ⟨rfl, rfl⟩
  · rw [if_neg (by simp; intro h2; rcases h with h | h; · rw [h] at h2; exact absurd h2 (by simp)
                   · exact h)]; exact clockBrings_stepped _ _ _ _ rfl rfl rfl

theorem call_valid_iff (A payload : List Byte) (kind len hi lo : Byte) (hA : A.length = 18) (hlen : payload.length =
    len.toNat) :
    field (A ++ [kind, len] ++ payload ++ [hi]) 19 1 = len.toNat ∧
        field (A ++ [kind, len] ++ payload) 19 1 = len.toNat ∧
    (callValid (A ++ [kind, len] ++ payload ++ [hi] ++ [lo]) = true ↔ 256 * hi.toNat + lo.toNat = (65536 - ((kind :: len
        :: payload).map BitVec.toNat).sum % 65536) % 65536) := by
  have hd : ∀ l : List Byte, (A ++ [kind, len] ++ l).drop 19 = len :: l := by
    intro l
    have : A ++ [kind, len] ++ l = (A ++ [kind]) ++ (len :: l) := by simp
    rw [this]
    have h19 : (A ++ [kind]).length = 19 := by simp [hA]
    rw [← h19, List.drop_left]
  have hf : ∀ l : List Byte, field (A ++ [kind, len] ++ l) 19 1 = len.toNat := by
    intro l; unfold field slice; rw [hd]; simp [padTo, zeros, fromLe]
  refine ⟨by rw [List.append_assoc _ payload]; exact hf _, hf _, ?_⟩
  generalize hcall : A ++ [kind, len] ++ payload ++ [hi] ++ [lo] = call
  have hfc : field call 19 1 = payload.length :=
      by rw [← hcall, List.append_assoc _ payload, List.append_assoc _ _ [lo], hlen]; exact hf _
  have hcl : call.length = 22 + payload.length := by rw [← hcall]; simp [hA]; omega
  have hfield : ∀ i, (call.drop i).length ≥ 1 → field call i 1 = (call.getD i 0).toNat := by
    intro i hi2
    cases hd : call.drop i with
    | nil => rw [hd] at hi2; simp at hi2
    | cons x xs =>
      have h9 : call[i]? = some x := by
        have := List.getElem?_drop (xs := call) (i := i) (j := 0)
        rw [hd] at this; simpa using this.symm
      simp [field, slice, hd, padTo, zeros, fromLe, List.getD_eq_getElem?_getD, h9]
  have hpre : (A ++ [kind, len] ++ payload).length = 20 + payload.length := by simp [hA]; omega
  have hcall2 : call = A ++ [kind, len] ++ payload ++ [hi, lo] := by rw [← hcall]; simp
  have hh1 : call.getD (20 + payload.length) 0 = hi := by
    rw [hcall2, List.getD_eq_getElem?_getD, List.getElem?_append_right (by omega), hpre]; simp
  have hh2 : call.getD (21 + payload.length) 0 = lo := by
    rw [hcall2, List.getD_eq_getElem?_getD, List.getElem?_append_right (by omega), hpre]
    have : 21 + payload.length - (20 + payload.length) = 1 := by omega
    rw [this]; rfl
  unfold callValid callCheck
  dsimp only
  rw [hfc, hfield _ (by rw [List.length_drop]; omega), hfield _ (by rw [List.length_drop]; omega), hh1, hh2]
  have : (call.drop 18).take (2 + payload.length) = kind :: len :: payload := by
    have h18 : call.drop 18 = kind :: len :: (payload ++ [hi, lo]) := by
      rw [hcall2]
      have : A ++ [kind, len] ++ payload ++ [hi, lo] = A ++ (kind :: len :: (payload ++ [hi, lo])) := by simp
      rw [this, ← hA, List.drop_left]
    rw [h18, Nat.add_comm 2]; simp [List.take]
  simp only [this, sum_fold, decide_eq_true_eq, Nat.zero_add]

/-- What a declaration in RUN does. -/
structure DeclaredRun (k : Kind) (x t : State) : Prop where
  bat : t.bat = { x.bat with kinds := x.bat.kinds.set k { (x.bat.kinds.get k) with
        state := .declared, count := min 65535 ((x.bat.kinds.get k).count + 1), last := some x.bat.clock,
        first := some ((x.bat.kinds.get k).first.getD x.bat.clock) } }
  exc : t.exc = x.exc.post x.bat.clock (.tamperDeclared k false (x.bat.kinds.get k).counter (min 65535 ((x.bat.kinds.get
      k).count + 1)) x.bat.clock)
  set : t.swc.set = { x.swc.set with tamper := tamperRequired t }
  ce : t.ce = x.ce
  cau : t.cau = x.cau
  psv : t.psv = x.psv
  flash : t.flash = x.flash
  keeps : ∀ o, (∀ b c g, o ≠ .erase b c g) → (∀ b, o ≠ .bit b) → OpTaken o x.stc → OpTaken o t.stc
  takes : x.stc.fault = false → appends x.stc.queue < 32 →
    (∃ sw, EntryTaken (.log ⟨x.bat.clock, k, .declared, .run, sw, x.ce.money.b, (x.bat.kinds.get k).counter⟩) t.stc) ∧
    SaveTaken .tamper t.stc ∧ (bitOf x.stc.copy (.ever k) = false → BitTaken (.ever k) t.stc)

theorem declareKind_run (k : Kind) (x : State) (h1 : x.psv.power = .run) : DeclaredRun k x (declareKind k x) := by
  have hd : declareKind k x = declareWith k (logEntry k .declared) x := by
    unfold declareKind outageSpan; rw [h1]; rfl
  rw [hd]
  have hdw : declareWith k (logEntry k .declared) x = announceDeclared (.tamperDeclared k false
      ((arrive (.save .tamper) (arrive (.append (.log (logEntry k .declared (programEver k (tamperAgree (flagInterval
          (fun g => { g with tamper := true }) (countDeclaration k x))))))) (programEver k (tamperAgree (flagInterval
          (fun g => { g with tamper := true }) (countDeclaration k x)))))).bat.kinds.get k).counter
      ((arrive (.save .tamper) (arrive (.append (.log (logEntry k .declared (programEver k (tamperAgree (flagInterval
          (fun g => { g with tamper := true }) (countDeclaration k x))))))) (programEver k (tamperAgree (flagInterval
          (fun g => { g with tamper := true }) (countDeclaration k x)))))).bat.kinds.get k).count
      (arrive (.save .tamper) (arrive (.append (.log (logEntry k .declared (programEver k (tamperAgree (flagInterval
          (fun g => { g with tamper := true }) (countDeclaration k x))))))) (programEver k (tamperAgree (flagInterval
          (fun g => { g with tamper := true }) (countDeclaration k x)))))).bat.clock)
      (arrive (.save .tamper) (arrive (.append (.log (logEntry k .declared (programEver k (tamperAgree (flagInterval
          (fun g => { g with tamper := true }) (countDeclaration k x))))))) (programEver k (tamperAgree (flagInterval
          (fun g => { g with tamper := true }) (countDeclaration k x)))))) := rfl
  rw [hdw]
  generalize hy : flagInterval (fun g => { g with tamper := true }) (countDeclaration k x) = y
  have yb : y.bat = { x.bat with kinds := x.bat.kinds.set k { (x.bat.kinds.get k) with
        state := .declared, count := min 65535 ((x.bat.kinds.get k).count + 1), last := some x.bat.clock,
        first := some ((x.bat.kinds.get k).first.getD x.bat.clock) } } := by
    rw [← hy]
    show ({ x.bat with kinds := x.bat.kinds.set k _ } : Bat) = _
    generalize x.bat.kinds.get k = r
    obtain ⟨ra, rb, rc, refresh_frame, rl, rcl⟩ := r
    cases refresh_frame <;> rfl
  have ystc : y.stc = x.stc := by rw [← hy]; rfl
  have yce : y.ce = x.ce := by rw [← hy]; rfl
  have ycau : y.cau = x.cau := by rw [← hy]; rfl
  have yswc : y.swc = x.swc := by rw [← hy]; rfl
  have ypsv : y.psv = x.psv := by rw [← hy]; rfl
  have yexc : y.exc = x.exc := by rw [← hy]; rfl
  have yfl : y.flash = x.flash := by rw [← hy]; rfl
  clear hy hdw hd
  obtain ⟨a1, a2, a3, a4, a5, a6, a7, a8⟩ := agree_all y
  generalize tamperAgree y = z at *
  have zt : storeTakes z.psv = true := by rw [a6, ypsv]; unfold storeTakes; rw [h1]
  have pe : ArbiterFrame z.stc (programEver k z).stc ∧ (programEver k z).exc = z.exc ∧ (programEver k z).swc = z.swc ∧
      (programEver k z).flash = z.flash ∧ (programEver k z).ce = z.ce ∧ (programEver k z).bat = z.bat ∧
      (programEver k z).psv = z.psv ∧ (programEver k z).cau = z.cau ∧
      appends (programEver k z).stc.queue ≤ appends z.stc.queue ∧ (z.stc.fault = false →
      bitOf z.stc.copy (.ever k) = false → OpTaken (.bit (.ever k)) (programEver k z).stc) ∧ (∀ o, (∀ b c g,
      o ≠ .erase b c g) → (∀ b, o ≠ .bit b) → OpTaken o z.stc → OpTaken o (programEver k z).stc) := by
    unfold programEver
    split
    · rename_i hb
      exact ⟨arbiterFrame_refl _, rfl, rfl, rfl, rfl, rfl, rfl, rfl, Nat.le_refl _,
          fun _ h => by rw [h] at hb; simp at hb, fun _ _ _ h => h⟩
    · rename_i hb
      have hb' : bitOf z.stc.copy (.ever k) = false := by simpa using hb
      obtain ⟨w1, w2, w3, w4, w5, w6, w7, w8, w9, w10, w11⟩ := arrive_parts (.bit (.ever k)) z
      exact ⟨(outside_arrive _ _).3, w1, w7, w10, w3, w2, w4, w6, appends_bit _ _,
          fun zf _ => opTaken_arrive_new _ _ (fun _ _ _ =>
          by simp) zf zt (fun b e => by cases e; exact hb') (fun ⟨e, he⟩ => by simp at he), fun o h h' h'' => opTaken_arrive _ _ h (fun b e => absurd e (h' b)) h''⟩
  generalize programEver k z = v at *
  obtain ⟨v1, v2, v3, v4, v5, v6, v7, v8, v9, v10, v11⟩ := pe
  have vt : storeTakes v.psv = true := by rw [v7]; exact zt
  have hle : logEntry k .declared v = ⟨x.bat.clock, k, .declared, .run, v.swc.sw, x.ce.money.b,
      (x.bat.kinds.get k).counter⟩ := by
    unfold logEntry
    rw [v6, v7, v5, a4, a6, a3, yb, ypsv, yce, h1, perKind_get_set_same]
  have p1 := arrive_parts (.append (.log (logEntry k .declared v))) v
  have p2 := (outside_arrive (.append (.log (logEntry k .declared v))) v).3
  have k1 := fun o h h' h'' => opTaken_arrive (o := o) (.append (.log (logEntry k .declared v))) v h h' h''
  have n1 := fun vf va => opTaken_arrive_new (.append (.log (logEntry k .declared v))) v (fun _ _ _ =>
      by simp) vf vt (fun b e => by simp at e) (fun _ => va)
  rw [hle] at *
  generalize arrive (.append (.log _)) v = a at *
  obtain ⟨w1, w2, w3, w4, w5, w6, w7, w8, w9, w10, w11⟩ := p1
  have k2 := fun o h h' h'' => opTaken_arrive (o := o) (.save .tamper) a h h' h''
  have n2 := fun h => arrive_taken .tamper a h (by rw [w4]; exact vt)
  have p3 := arrive_parts (.save .tamper) a
  generalize arrive (.save .tamper) a = d at *
  obtain ⟨x1, x2, x3, x4, x5, x6, x7, x8, x9, x10, x11⟩ := p3
  have dbat : d.bat = y.bat := by rw [x2, w2, v6, a4]
  have dexc : d.exc = x.exc := by rw [x1, w1, v2, a2, yexc]
  have dpsv : d.psv = x.psv := by rw [x4, w4, v7, a6, ypsv]
  have dcau : d.cau = x.cau := by rw [x6, w6, v8, a5, ycau]
  have hann : announceDeclared (.tamperDeclared k false (d.bat.kinds.get k).counter (d.bat.kinds.get k).count
      d.bat.clock) d = post (.tamperDeclared k false (d.bat.kinds.get k).counter (d.bat.kinds.get k).count d.bat.clock)
      d := by
    unfold announceDeclared; rw [dpsv, h1]; rfl
  rw [hann]
  refine ⟨dbat.trans yb, ?_, ?_, ?_, dcau, dpsv, ?_, ?_, ?_⟩
  · show d.exc.post d.bat.clock _ = _
    rw [dexc, dbat, yb, perKind_get_set_same]
  · have : tamperRequired (post (.tamperDeclared k false (d.bat.kinds.get k).counter (d.bat.kinds.get k).count
      d.bat.clock) d) = tamperRequired y :=
      tamper_congr (by rw [show (post _ d).psv = d.psv from rfl, dpsv, ypsv])
          (by rw [show (post _ d).bat = d.bat from rfl, dbat])
          (by rw [show (post _ d).cau = d.cau from rfl, dcau, ycau])
    rw [this]
    show d.swc.set = _
    rw [x7, w7, v3, a1, yswc]
  · show d.ce = _; rw [x3, w3, v5, a3, yce]
  · show d.flash = _; rw [x10, w10, v4, a8, yfl]
  · intro o h h' ht
    exact k2 o h (fun b e => absurd e (h' b)) (k1 o h (fun b e => absurd e (h' b)) (v11 o h h'
        (by rw [a7, ystc]; exact ht)))
  · intro hf hq
    have vf : v.stc.fault = false := by rw [v1.1, a7, ystc]; exact hf
    have t1 := n1 vf (Nat.lt_of_le_of_lt v9 (by rw [a7, ystc]; exact hq))
    refine ⟨⟨_, opTaken_entry (k2 _ (by simp) (by simp) t1)⟩, n2 (by rw [p2.1]; exact vf), fun hb => opTaken_bit ?_⟩
    have hb' : bitOf z.stc.copy (.ever k) = false := by rw [a7, ystc]; exact hb
    have t2 := v10 (by rw [a7, ystc]; exact hf) hb'
    exact k2 _ (by simp) (fun b e =>
        by cases e; rw [p2.2, v1.2]; exact hb') (k1 _ (by simp) (fun b e => by cases e; rw [v1.2]; exact hb') t2)

theorem appends_arrive_le (o) (s : State) : appends (arrive o s).stc.queue ≤ appends s.stc.queue + 1 := by
  have he : appends (enqueue o s.stc).queue ≤ appends s.stc.queue + 1 := by
    have hj : appends (s.stc.queue ++ [⟨o, false⟩]) ≤ appends s.stc.queue + 1 := by
      unfold appends
      rw [List.filter_append, List.length_append]
      have := List.length_filter_le isAppend [(⟨o, false⟩ : QItem)]
      simp only [List.length_cons, List.length_nil] at this
      omega
    unfold enqueue; dsimp only
    repeat' split
    all_goals first
      | exact Nat.le_succ _
      | exact hj
  unfold arrive; split
  · exact Nat.le_succ _
  · unfold runArbiter; split
    · exact Nat.le_trans (appends_arb _ _ _) he
    · exact he

/-- What a warning that begins or ends in RUN does. -/
structure WarnRun (k : Kind) (x' : KindState) (ev : LogEvent) (x t : State) : Prop where
  bat : t.bat = { x.bat with kinds := x.bat.kinds.set k { (x.bat.kinds.get k) with state := x' } }
  swc : t.swc = x.swc
  ce : t.ce = x.ce
  cau : t.cau = x.cau
  psv : t.psv = x.psv
  ee : t.ee = x.ee
  flash : t.flash = x.flash
  stc : ArbiterFrame x.stc t.stc
  app : appends t.stc.queue ≤ appends x.stc.queue + 1
  takes : x.stc.fault = false → appends x.stc.queue < 32 →
    OpTaken (.append (.log ⟨x.bat.clock, k, ev, .run, x.swc.sw, x.ce.money.b, (x.bat.kinds.get k).counter⟩)) t.stc

theorem appendLog_run (k ev x') (x : State) (h : x.psv.power = .run) : WarnRun k x' ev x (appendLog k ev (setKindState k x'
    x)) ∧
    (appendLog k ev (setKindState k x' x)).exc = x.exc := by
  have hl : logEntry k ev (setKindState k x' x) = ⟨x.bat.clock, k, ev, .run, x.swc.sw, x.ce.money.b,
      (x.bat.kinds.get k).counter⟩ := by
    unfold logEntry
    show (⟨x.bat.clock, k, ev, x.psv.power, x.swc.sw, x.ce.money.b,
        ((x.bat.kinds.set k { (x.bat.kinds.get k) with state := x' }).get k).counter⟩ : TamperEntry) = _
    rw [perKind_get_set_same, h]
  unfold appendLog
  rw [hl]
  have p := arrive_parts (.append (.log ⟨x.bat.clock, k, ev, .run, x.swc.sw, x.ce.money.b,
      (x.bat.kinds.get k).counter⟩)) (setKindState k x' x)
  obtain ⟨w1, w2, w3, w4, w5, w6, w7, w8, w9, w10, w11⟩ := p
  refine ⟨⟨w2, w7, w3, w6, w4, w5, w10, (outside_arrive _ (setKindState k x' x)).3,
      appends_arrive_le _ (setKindState k x' x), fun hf hq => ?_⟩, w1⟩
  exact opTaken_arrive_new _ (setKindState k x' x) (fun _ _ _ =>
      by simp) hf (by show storeTakes x.psv = _; unfold storeTakes; rw [h]) (fun b e => by simp at e) (fun _ => hq)

theorem warningBegin_run (k) (x : State) (h : x.psv.power = .run) : WarnRun k .warning .warningBegin x (warningBegin k x) ∧
    (warningBegin k x).exc = x.exc.post x.bat.clock (.tamperWarning k (x.bat.kinds.get k).counter) := by
  have hw : warningBegin k x = post (.tamperWarning k (x.bat.kinds.get k).counter) (appendLog k .warningBegin
      (setKindState k .warning x)) := by
    unfold warningBegin; dsimp only
    have : (setKindState k .warning x).psv.power = .run := h
    rw [this]
    show post (.tamperWarning k ((x.bat.kinds.set k { (x.bat.kinds.get k) with state := .warning }).get k).counter) _ =
        _
    rw [perKind_get_set_same]
  rw [hw]
  obtain ⟨a, b⟩ := appendLog_run k .warningBegin .warning x h
  generalize appendLog k .warningBegin (setKindState k .warning x) = y at *
  refine ⟨⟨a.1, a.2, a.3, a.4, a.5, a.6, a.7, a.8, a.9, a.10⟩, ?_⟩
  show y.exc.post y.bat.clock _ = _
  rw [b, a.1]

theorem warningEnd_run (k) (x : State) (h : x.psv.power = .run) : WarnRun k .quiet .warningEnd x (warningEnd k x) ∧
    (warningEnd k x).exc = x.exc := by
  have hw : warningEnd k x = appendLog k .warningEnd (setKindState k .quiet x) := by
    unfold warningEnd; dsimp only
    have : (setKindState k .quiet x).psv.power = .run := h
    rw [this]; rfl
  rw [hw]
  exact appendLog_run k .warningEnd .quiet x h

theorem indicator_moved : ∀ (k : Kind) (positive : Bool) (s : State), s.psv.power = .run →
    let r := s.bat.kinds.get k
    let c := if positive = true then min 255 (r.counter + 8) else r.counter - 1
    let declares := 128 ≤ c ∧ s.psv.inService = true
    let room := (s.stc.queue.filter isAppend).length ≤ 30 ∧ s.stc.fault = false
    let entry := fun (ev : LogEvent) (sw : SwitchState) =>
      Entry.log ⟨s.bat.clock, k, ev, .run, sw, s.ce.money.b, c⟩
    let now := s.bat.clock
    let t := indicator k positive s
    (t.bat = { s.bat with kinds := s.bat.kinds.set k (t.bat.kinds.get k) } ∧ t.psv = s.psv ∧
      (t.exc = s.exc ∨ (∃ b, t.exc = s.exc.post now b) ∨ ∃ b b', t.exc = (s.exc.post now b).post now b')) ∧
    t.bat.kinds = s.bat.kinds.set k (t.bat.kinds.get k) ∧ KindMoved s.psv.inService now c r (t.bat.kinds.get k) ∧
    t.ce = s.ce ∧ t.cau = s.cau ∧ t.flash = s.flash ∧ t.exc.mem = s.exc.mem ∧
    (r.state = .declared ∨ (r.state = .quiet ∧ c < 96) ∨ (r.state = .warning ∧ 96 ≤ c ∧ ¬declares) →
      t.exc = s.exc ∧ t.stc = s.stc ∧ t.swc = s.swc ∧ t.ee = s.ee) ∧
    (r.state = .quiet → 96 ≤ c → ¬declares →
      t.exc = s.exc.post now (.tamperWarning k c) ∧ t.swc = s.swc ∧
      (room → EntryTaken (entry .warningBegin s.swc.sw) t.stc)) ∧
    (r.state = .warning → c < 96 → t.exc = s.exc ∧ t.swc = s.swc ∧
      (room → EntryTaken (entry .warningEnd s.swc.sw) t.stc)) ∧
    (r.state ≠ .declared → declares →
      let x := if r.state = .quiet then s.exc.post now (.tamperWarning k c) else s.exc
      t.exc.notices = (x.post now (.tamperDeclared k false c (min 65535 (r.count + 1)) now)).notices ∧
      t.swc.set = { s.swc.set with tamper := tamperRequired t } ∧
      (room → (r.state = .quiet → EntryTaken (entry .warningBegin s.swc.sw) t.stc) ∧
        (∃ sw, EntryTaken (entry .declared sw) t.stc) ∧ SaveTaken .tamper t.stc ∧
        (bitOf s.stc.copy (.ever k) = false → BitTaken (.ever k) t.stc))) := by
  intro k positive s h r c declares room entry now
  have hc : counterAfter positive r.counter = c := rfl
  let y : State := { s with bat := { s.bat with kinds := s.bat.kinds.set k { r with counter := c } } }
  have ht : indicator k positive s = moveKind k y := rfl
  have yk : y.bat.kinds.get k = { r with counter := c } := perKind_get_set_same _ _ _
  have hyp : y.psv.power = .run := h
  have hpm : ∀ n b (x : Exc), (x.post n b).mem = x.mem := by
    intro n b x; unfold Exc.post; split
    · split <;> rfl
    · rfl
  have hset : ∀ x : KindRec, ({ y.bat with kinds := y.bat.kinds.set k x } : Bat) =
      { s.bat with kinds := s.bat.kinds.set k x } := by
    intro x; show ({ s.bat with kinds := (s.bat.kinds.set k _).set k x } : Bat) = _; rw [perKind_set_set]
  rw [ht]
  unfold moveKind
  rw [yk]
  dsimp only
  have ypsv : y.psv = s.psv := rfl
  rw [ypsv]
  cases hst : r.state with
  | declared =>
    dsimp only
    refine ⟨⟨by rw [yk], rfl, Or.inl rfl⟩, ?_, ?_, rfl, rfl, rfl, rfl, fun _ => ⟨rfl, rfl, rfl, rfl⟩,
        fun e => by simp at e, fun e => by simp at e, fun e => absurd rfl e⟩
    · rw [yk]
    · rw [yk]
      refine ⟨fun _ => rfl, fun e => absurd hst e, fun e => absurd hst e, fun e => absurd hst e⟩
  | quiet =>
    dsimp only
    have hb := warningBegin_run k y hyp
    have hd := declareKind_run k (warningBegin k y) (by rw [hb.1.5]; exact hyp)
    generalize warningBegin k y = w at *
    obtain ⟨b1, b2⟩ := hb
    have wk : w.bat.kinds.get k = { r with counter := c, state := .warning } := by
      rw [b1.bat]; show (PerKind.set _ k { (y.bat.kinds.get k) with state := .warning }).get k = _;
          rw [perKind_get_set_same, yk]
    have wb : w.bat = { s.bat with kinds := s.bat.kinds.set k { r with counter := c, state := .warning } } := by
      rw [b1.bat, hset, yk]
    have we : w.exc = s.exc.post now (.tamperWarning k c) := by rw [b2, yk]
    by_cases c1 : c < 96
    · rw [if_pos c1]
      refine ⟨⟨by rw [yk], rfl, Or.inl rfl⟩, ?_, ?_, rfl, rfl, rfl, rfl, fun _ => ⟨rfl, rfl, rfl, rfl⟩,
          fun _ e => by omega, fun e => by simp at e, fun _ e => by have := e.1; omega⟩
      · rw [yk]
      · rw [yk]
        refine ⟨fun e => absurd (hst.symm.trans e) (by decide),
            fun _ _ => by rw [← hst], fun _ e => by omega, fun _ e => by omega⟩
    rw [if_neg c1]
    by_cases c2 : 128 ≤ c ∧ s.psv.inService = true
    · rw [if_pos c2]
      generalize declareKind k w = t at *
      have tk : t.bat.kinds.get k =
          { r with counter := c, state := .declared, count := min 65535 (r.count + 1), last := some now, first := some (r.first.getD now) }
          := by
        rw [hd.bat]; show (PerKind.set _ k _).get k = _; rw
            [perKind_get_set_same, wk, show w.bat.clock = now by rw [wb]]
      have tb : t.bat = { s.bat with kinds := s.bat.kinds.set k (t.bat.kinds.get k) } := by
        rw [tk, hd.bat, wk, wb, perKind_set_set]
      have te : t.exc = (s.exc.post now (.tamperWarning k c)).post now (.tamperDeclared k false c (min 65535 (r.count +
          1)) now) := by
        rw [hd.exc, we, wk, show w.bat.clock = now by rw [wb]]
      refine ⟨⟨tb,
          by rw [hd.psv, b1.psv], Or.inr (Or.inr ⟨_, _, te⟩)⟩, congrArg Bat.kinds tb, ?_, by rw [hd.ce, b1.ce], by rw [hd.cau, b1.cau], by rw [hd.flash, b1.flash], by rw [te, hpm, hpm], ?_, fun _ _ e => absurd c2 e, fun e => by simp at e, fun _ _ => ⟨by rw [te]; rfl, ?_, fun hr => ?_⟩⟩
      · rw [tk]; refine ⟨fun e => by rw [hst] at e; simp at e, fun _ e => by omega, fun _ _ e => ?_, fun _ _ _ => rfl⟩
        rcases e with e | e
        · omega
        · rw [c2.2] at e; simp at e
      · rintro (e | ⟨_, e⟩ | ⟨e, _⟩)
        · simp at e
        · omega
        · simp at e
      · rw [hd.set, b1.swc]
      · have hf : w.stc.fault = false := by rw [b1.stc.1]; exact hr.2
        have ha : appends y.stc.queue ≤ 30 := hr.1
        have h1 := b1.takes hr.2 (by omega)
        have h2 := hd.takes hf (by have := b1.app; omega)
        rw [wk, show w.bat.clock = now by rw [wb], b1.ce] at h2
        rw [yk] at h1
        refine ⟨fun _ => opTaken_entry (hd.keeps _ (by simp) (by simp) h1), h2.1, h2.2.1, fun e => h2.2.2 ?_⟩
        rw [b1.stc.2]; exact e
    · rw [if_neg c2]
      refine ⟨⟨by rw [wk, wb],
          by rw [b1.psv], Or.inr (Or.inl ⟨_, we⟩)⟩, by rw [wk, wb], ?_, b1.ce, b1.cau, b1.flash, by rw [we, hpm], ?_, fun _ _ _ => ⟨we, b1.swc, fun hr => ?_⟩, fun e => by simp at e, fun _ e => absurd e c2⟩
      · rw [wk]; refine ⟨fun e =>
          by rw [hst] at e; simp at e, fun _ e => by omega, fun _ _ _ => rfl, fun _ e e' => absurd ⟨e, e'⟩ c2⟩
      · rintro (e | ⟨_, e⟩ | ⟨e, _⟩)
        · simp at e
        · omega
        · simp at e
      · have ha : appends y.stc.queue ≤ 30 := hr.1
        have h1 := b1.takes hr.2 (by omega)
        rw [yk] at h1
        exact opTaken_entry h1
  | warning =>
    dsimp only
    have hb := warningEnd_run k y hyp
    have hd := declareKind_run k y hyp
    by_cases c1 : c < 96
    · rw [if_pos c1]
      generalize warningEnd k y = w at *
      obtain ⟨b1, b2⟩ := hb
      have wk : w.bat.kinds.get k = { r with counter := c, state := .quiet } := by
        rw [b1.bat]; show (PerKind.set _ k { (y.bat.kinds.get k) with state := .quiet }).get k = _;
            rw [perKind_get_set_same, yk]
      have wb : w.bat = { s.bat with kinds := s.bat.kinds.set k { r with counter := c, state := .quiet } } := by
        rw [b1.bat, hset, yk]
      refine ⟨⟨by rw [wk, wb],
          by rw [b1.psv], Or.inl b2⟩, by rw [wk, wb], ?_, b1.ce, b1.cau, b1.flash, by rw [b2], ?_, fun e => by simp at e, fun _ _ => ⟨b2, b1.swc, fun hr => ?_⟩, fun _ e => by have := e.1; omega⟩
      · rw [wk]; refine ⟨fun e => by rw [hst] at e; simp at e, fun _ _ => rfl, fun _ e => by omega, fun _ e => by omega⟩
      · rintro (e | ⟨e, _⟩ | ⟨_, e, _⟩)
        · simp at e
        · simp at e
        · omega
      · have ha : appends y.stc.queue ≤ 30 := hr.1
        have h1 := b1.takes hr.2 (by omega)
        rw [yk] at h1
        exact opTaken_entry h1
    rw [if_neg c1]
    by_cases c2 : 128 ≤ c ∧ s.psv.inService = true
    · rw [if_pos c2]
      generalize declareKind k y = t at *
      have tk : t.bat.kinds.get k =
          { r with counter := c, state := .declared, count := min 65535 (r.count + 1), last := some now, first := some (r.first.getD now) }
          := by
        rw [hd.bat]; show (PerKind.set _ k _).get k = _; rw [perKind_get_set_same, yk]
      have tb : t.bat = { s.bat with kinds := s.bat.kinds.set k (t.bat.kinds.get k) } := by
        rw [tk, hd.bat, hset, yk]
      have te : t.exc = s.exc.post now (.tamperDeclared k false c (min 65535 (r.count + 1)) now) := by
        rw [hd.exc, yk]
      refine ⟨⟨tb, hd.psv, Or.inr (Or.inl ⟨_, te⟩)⟩, congrArg Bat.kinds tb, ?_, hd.ce, hd.cau, hd.flash,
          by rw [te, hpm], ?_, fun e => by simp at e, fun _ e => absurd e c1, fun _ _ => ⟨by rw [te]; rfl, ?_, fun hr => ?_⟩⟩
      · rw [tk]; refine ⟨fun e => by rw [hst] at e; simp at e, fun _ e => by omega, fun _ _ e => ?_, fun _ _ _ => rfl⟩
        rcases e with e | e
        · omega
        · rw [c2.2] at e; simp at e
      · rintro (e | ⟨e, _⟩ | ⟨_, _, e⟩)
        · simp at e
        · simp at e
        · exact absurd c2 e
      · rw [hd.set]
      · have ha : appends y.stc.queue ≤ 30 := hr.1
        have h2 := hd.takes hr.2 (by omega)
        rw [yk] at h2
        exact ⟨fun e => by simp at e, h2.1, h2.2.1, h2.2.2⟩
    · rw [if_neg c2]
      refine ⟨⟨by rw [yk], rfl, Or.inl rfl⟩,
          by rw [yk], ?_, rfl, rfl, rfl, rfl, fun _ => ⟨rfl, rfl, rfl, rfl⟩, fun e => by simp at e, fun _ e => absurd e c1, fun _ e => absurd e c2⟩
      rw [yk]; refine ⟨fun e => absurd (hst.symm.trans e) (by decide),
          fun _ e => by omega, fun _ _ _ => ?_, fun _ e e' => absurd ⟨e, e'⟩ c2⟩
      rw [← hst]

/-- A switch that leaves CLOSED; trip memory and recovery stay. -/
structure SwitchLeft (x t : State) : Prop where
  swc : ∃ w d n m, t.swc = { x.swc with sw := w, drive := d, overLimit := n, mark := m } ∧ (w = .closed →
      x.swc.sw = .closed ∧ n = x.swc.overLimit)
  exc : t.exc = x.exc
  ce : t.ce = x.ce

theorem switchLeft_set (w) (x : State) (h : w ≠ .closed) : SwitchLeft x (setSwitch w x) := by
  refine ⟨⟨w, x.swc.drive, 0, x.swc.mark && heldOpen x.psv.inService { x.swc with sw := w, overLimit := 0 }, ?_,
      fun e => absurd e h⟩, (setSwitch_swc w x).2.2.2.2.2.2.1, (setSwitch_swc w x).2.1⟩
  rw [(setSwitch_swc w x).1, if_neg h]

theorem switchLeft_begin (d) (x : State) : SwitchLeft x (beginDrive d x) := by
  have key : ∀ y : State, SwitchLeft x y → SwitchLeft x
      { y with swc := { y.swc with drive := some ⟨d, 1, false, false, none⟩, mark := false } } := by
    rintro y ⟨⟨w, d', n, m, h, h'⟩, h2, h3⟩
    refine ⟨⟨w, some ⟨d, 1, false, false, none⟩, n, false, ?_, h'⟩, h2, h3⟩
    dsimp only
    rw [h]
  unfold beginDrive
  exact key _ (switchLeft_set _ x (by cases d <;> decide))

theorem switchLeft_respond (b) (x : State) : SwitchLeft x (respond b x) := by
  have h0 : SwitchLeft x x := ⟨⟨x.swc.sw, x.swc.drive, x.swc.overLimit, x.swc.mark, rfl, fun h => ⟨h, rfl⟩⟩, rfl, rfl⟩
  unfold respond
  repeat' split
  all_goals first
    | exact h0
    | exact switchLeft_set _ _ (by decide)
    | exact switchLeft_begin _ _

theorem putReason_self {x : Reasons} {r : Reason} {b : Bool} (h : hasReason x r = b) : putReason x r b = x := by
  subst h; cases r <;> rfl

/-- What adding a reason does. -/
structure ReasonAdded (r : Reason) (s t : State) : Prop where
  swc : ∃ w d n m c, t.swc =
      { s.swc with set := putReason s.swc.set r true, consent := c, sw := w, drive := d, overLimit := n, mark := m } ∧
      (w = .closed → s.swc.sw = .closed ∧ n = s.swc.overLimit)
  exc : t.exc = s.exc
  ce : t.ce = s.ce
  bat : t.bat = s.bat
  cau : t.cau = s.cau
  psv : t.psv = s.psv
  stc : t.stc = s.stc

theorem addReason_added (r) (s : State) : ReasonAdded r s (addReason r s) := by
  have e := evalFrame_add r s
  refine ⟨?_, ?_, ?_, e.2, e.6, e.7, e.8⟩
  · unfold addReason
    split
    · rename_i h
      exact ⟨s.swc.sw, s.swc.drive, s.swc.overLimit, s.swc.mark, s.swc.consent,
          by rw [putReason_self h], fun h => ⟨h, rfl⟩⟩
    · obtain ⟨⟨w, d, n, m, h, h'⟩, _, _⟩ := switchLeft_respond (wantsClosed s.swc)
        { s with swc := { s.swc with set := putReason s.swc.set r true, consent := false } }
      exact ⟨w, d, n, m, false, h, h'⟩
  · unfold addReason; split; rfl; rw [(switchLeft_respond _ _).2]
  · unfold addReason; split; rfl; rw [(switchLeft_respond _ _).3]

/-- the over-limit count's part of a hand-off, and what else the trip leaves -/
theorem trip_parts (w : Nat) (s : State) : let t := trip w s
    t.swc.set = { s.swc.set with loadLimit := true, lockout := s.swc.set.lockout || decide (2 ≤ s.swc.tripMem) } ∧
    t.swc.overLimit = 0 ∧ t.swc.quiet = 0 ∧ t.swc.recovery = ⟨60, false⟩ ∧
    t.swc.tripMem = (if 2 ≤ s.swc.tripMem then 0 else s.swc.tripMem + 1) ∧ t.ce = s.ce ∧ t.bat = s.bat ∧ t.stc = s.stc ∧
    t.exc = (postAll (.loadTrip (s.swc.tripMem + 1) w s.cau.settings.pMax :: if 2 ≤ s.swc.tripMem then [.lockout] else
        []) s).exc ∧
    t.psv = s.psv ∧ t.cau = s.cau := by
  dsimp only
  unfold trip
  dsimp only
  obtain ⟨⟨a, b, c, d, e, h1, _⟩, h2, h3, h4, h5, h6, h7⟩ := addReason_added .loadLimit s
  generalize addReason .loadLimit s = x at *
  have hm : x.swc.tripMem = s.swc.tripMem := by rw [h1]
  have hp : x.cau.settings.pMax = s.cau.settings.pMax := by rw [h5]
  rw [hm, hp]
  by_cases h : 2 ≤ s.swc.tripMem
  · rw [if_pos (show 3 ≤ s.swc.tripMem + 1 by omega), if_pos (show 3 ≤ s.swc.tripMem + 1 by omega), if_pos h, if_pos h]
    generalize hy : post (.loadTrip (s.swc.tripMem + 1) w s.cau.settings.pMax)
        { x with swc := { x.swc with recovery := startTimer 60, tripMem := 0, quiet := 0, overLimit := 0 } } = y
    have y1 : y.swc = { x.swc with recovery := startTimer 60, tripMem := 0, quiet := 0, overLimit := 0 } :=
        by rw [← hy]; rfl
    have y2 : y.exc = (post (.loadTrip (s.swc.tripMem + 1) w s.cau.settings.pMax) s).exc :=
        by rw [← hy]; show x.exc.post x.bat.clock _ = _; rw [h2, h4]; rfl
    have y3 : y.ce = s.ce := by rw [← hy]; exact h3
    have y4 : y.bat = s.bat := by rw [← hy]; exact h4
    have y5 : y.cau = s.cau := by rw [← hy]; exact h5
    have y6 : y.psv = s.psv := by rw [← hy]; exact h6
    have y7 : y.stc = s.stc := by rw [← hy]; exact h7
    obtain ⟨⟨a', b', c', d', e', k1, k0⟩, k2, k3, k4, k5, k6, k7⟩ := addReason_added .lockout y
    have ko : (addReason .lockout y).swc.overLimit = 0 := by
      unfold addReason
      split
      · rw [y1]
      · have hr : ∀ b (z : State), z.swc.overLimit = 0 → (respond b z).swc.overLimit = 0 := by
          intro b z hz
          have hs : ∀ w (q : State), q.swc.overLimit = 0 → (setSwitch w q).swc.overLimit = 0 := by
            intro w q hq; rw [(setSwitch_swc w q).1]; dsimp only; split
            · exact hq
            · rfl
          have hb : ∀ w (q : State), q.swc.overLimit = 0 → (beginDrive w q).swc.overLimit = 0 := by
            intro w q hq; unfold beginDrive; exact hs _ _ hq
          unfold respond
          repeat' split
          all_goals first
            | exact hz
            | exact hs _ _ hz
            | exact hb _ _ hz
        apply hr; show y.swc.overLimit = 0; rw [y1]
    generalize addReason .lockout y = z at *
    refine ⟨?_, ko, ?_, ?_, ?_, k3.trans y3, k4.trans y4, k7.trans y7, ?_, k6.trans y6, k5.trans y5⟩
    · show z.swc.set = _
      rw [k1, y1, h1]; simp [putReason, h]
    · show z.swc.quiet = _; rw [k1, y1]
    · show z.swc.recovery = _; rw [k1, y1]; rfl
    · show z.swc.tripMem = _; rw [k1, y1]
    · show z.exc.post z.bat.clock _ = _
      rw [k2, k4, y2, y4]; rfl
  · rw [if_neg (show ¬3 ≤ s.swc.tripMem + 1 by omega), if_neg (show ¬3 ≤ s.swc.tripMem + 1 by omega), if_neg h, if_neg h]
    refine ⟨?_, rfl, rfl, rfl, rfl, h3, h4, h7, ?_, h6, h5⟩
    · show x.swc.set = _
      rw [h1]; simp [putReason, h]
    · show x.exc.post x.bat.clock _ = _
      rw [h2, h4]; rfl

/-- What the operations of switch and tamper leave of the limiter. -/
structure LimiterFrame (s t : State) : Prop where
  tripMem : t.swc.tripMem = s.swc.tripMem
  quiet : t.swc.quiet = s.swc.quiet
  recovery : t.swc.recovery = s.swc.recovery
  closed : t.swc.sw = .closed → s.swc.sw = .closed ∧ t.swc.overLimit = s.swc.overLimit

theorem limiter_refl (s : State) : LimiterFrame s s := ⟨rfl, rfl, rfl, fun h => ⟨h, rfl⟩⟩

theorem limiter_of {s t : State}
    (a : t.swc = s.swc := by rfl) :
    LimiterFrame s t := ⟨by rw [a], by rw [a], by rw [a], fun h => ⟨by rw [← a]; exact h, by rw [a]⟩⟩

theorem limiter_trans {s t u : State} (h : LimiterFrame s t) (k : LimiterFrame t u) : LimiterFrame s u :=
    ⟨k.1.trans h.1, k.2.trans h.2, k.3.trans h.3, fun e => ⟨(h.4 (k.4 e).1).1, (k.4 e).2.trans (h.4 (k.4 e).1).2⟩⟩

theorem limiter_ite {s a b : State} {p : Prop} [Decidable p] (ha : LimiterFrame s a) (hb : LimiterFrame s b) :
    LimiterFrame s (if p then a else b) := by
  split
  · exact ha
  · exact hb

theorem limiter_left {s t : State} (h : SwitchLeft s t) : LimiterFrame s t := by
  obtain ⟨⟨w, d, n, m, h, h'⟩, _, _⟩ := h
  refine ⟨by rw [h], by rw [h], by rw [h], fun e => ?_⟩
  rw [h] at e ⊢
  exact h' e

theorem limiter_add (r) (s : State) : LimiterFrame s (addReason r s) := by
  obtain ⟨⟨w, d, n, m, c, h, h'⟩, _⟩ := addReason_added r s
  refine ⟨by rw [h], by rw [h], by rw [h], fun e => ?_⟩
  rw [h] at e ⊢
  exact h' e

theorem limiter_remove (r) (s : State) : LimiterFrame s (removeReason r s) := by
  unfold removeReason
  refine limiter_ite (limiter_trans ?_ (limiter_left (switchLeft_respond _ _))) (limiter_refl s)
  exact ⟨rfl, rfl, rfl, fun h => ⟨h, rfl⟩⟩

theorem limiter_arrive (o) (s : State) : LimiterFrame s (arrive o s) := limiter_of (arrive_parts_more o s).2.2.1

theorem limiter_agree (s : State) : LimiterFrame s (tamperAgree s) := limiter_ite (limiter_add _ s) (limiter_remove _ s)

theorem limiter_ever (k) (s : State) : LimiterFrame s (programEver k s) :=
    limiter_ite (limiter_refl s) (limiter_arrive _ s)

theorem limiter_mapKind (k f) (s : State) : LimiterFrame s (mapKind k f s) := limiter_of

theorem limiter_declareKind (k) (s : State) : LimiterFrame s (declareKind k s) := by
  refine limiter_ite ?_ ?_
  · have h := limiter_trans (limiter_mapKind k (fun r =>
      { r with state := .declared, count := min 65535 (r.count + 1), last := some s.bat.clock, first := match r.first with | some t => some t | none => some s.bat.clock })
      s) (limiter_agree _)
    unfold declareInOutage
    dsimp only
    split
    · exact h
    · exact limiter_trans h limiter_of
  · unfold declareWith
    refine limiter_trans (limiter_trans (limiter_trans (limiter_trans (limiter_trans ?_ (limiter_agree _)) (limiter_ever
        _ _)) (limiter_arrive _ _)) (limiter_arrive _ _)) (limiter_ite limiter_of limiter_of)
    exact limiter_of

theorem limiter_warningBegin (k) (s : State) : LimiterFrame s (warningBegin k s) := by
  unfold warningBegin
  exact limiter_ite (limiter_trans (limiter_trans (limiter_mapKind _ _ s) (limiter_arrive _ _)) limiter_of)
      (limiter_mapKind _ _ s)

theorem limiter_warningEnd (k) (s : State) : LimiterFrame s (warningEnd k s) := by
  unfold warningEnd
  exact limiter_ite (limiter_trans (limiter_mapKind _ _ s) (limiter_arrive _ _)) (limiter_mapKind _ _ s)

theorem limiter_indicator (k p) (s : State) : LimiterFrame s (indicator k p s) := by
  unfold indicator
  generalize hu : mapKind k _ s = u
  refine limiter_trans (?_ : LimiterFrame s u) ?_
  · rw [← hu]; exact limiter_mapKind _ _ s
  have hw := limiter_warningBegin k u
  have hd := limiter_trans hw (limiter_declareKind k _)
  unfold moveKind
  dsimp only
  split
  · exact limiter_ite (limiter_refl u) (limiter_ite hd hw)
  · exact limiter_ite (limiter_warningEnd k u) (limiter_ite (limiter_declareKind k u) (limiter_refl u))
  · exact limiter_refl u

theorem limiter_evaluate (s : State) : LimiterFrame s (evaluate s) := by
  unfold evaluate
  exact limiter_ite (limiter_trans (limiter_remove _ s) limiter_of) (limiter_ite (limiter_refl s) (limiter_ite
      (limiter_ite limiter_of limiter_of) (limiter_trans (limiter_add _ s) limiter_of)))

/-- What a deduction leaves. -/
structure CostFrame (s t : State) : Prop where
  swc : t.swc = s.swc
  exc : t.exc = s.exc
  bat : t.bat = s.bat
  stc : t.stc = s.stc
  cau : t.cau = s.cau
  psv : t.psv = s.psv
  ce : ∃ m, t.ce = { s.ce with money := m }

theorem costFrame_deduct (k) (s : State) : CostFrame s (deduct k s) := by
  unfold deduct; dsimp only; split <;> exact ⟨rfl, rfl, rfl, rfl, rfl, rfl, ⟨_, rfl⟩⟩

theorem costFrame_trans {s t u : State} (h : CostFrame s t) (k : CostFrame t u) : CostFrame s u := by
  obtain ⟨m, hm⟩ := h.7
  obtain ⟨n, hn⟩ := k.7
  exact ⟨k.1.trans h.1, k.2.trans h.2, k.3.trans h.3, k.4.trans h.4, k.5.trans h.5, k.6.trans h.6, ⟨n, by rw [hn, hm]⟩⟩

theorem costFrame_refl (s : State) : CostFrame s s := ⟨rfl, rfl, rfl, rfl, rfl, rfl, ⟨s.ce.money, rfl⟩⟩

theorem costFrame_charge : ∀ n (s : State), CostFrame s (chargeDays n s)
  | 0, s => costFrame_refl s
  | n + 1, s => costFrame_trans (costFrame_deduct _ s) (costFrame_charge n _)

theorem costFrame_stages (n e) (s : State) : CostFrame s (costStage n e (fixedCharge (dayOf e) s)) := by
  refine costFrame_trans (t := fixedCharge (dayOf e) s) ?_ ?_
  · unfold fixedCharge; split
    · exact costFrame_trans (costFrame_charge _ s) ⟨rfl, rfl, rfl, rfl, rfl, rfl, ⟨_, rfl⟩⟩
    · exact costFrame_refl s
  · unfold costStage; dsimp only
    refine costFrame_trans ?_ (costFrame_deduct _ _)
    exact ⟨rfl, rfl, rfl, rfl, rfl, rfl, ⟨_, rfl⟩⟩

theorem emergency_deduct (k) (s : State) : (deduct k s).ce.money.emergency = s.ce.money.emergency := by
  rw [deduct_money]; rfl

theorem emergency_charge : ∀ n (s : State), (chargeDays n s).ce.money.emergency = s.ce.money.emergency
  | 0, _ => rfl
  | n + 1, s => (emergency_charge n _).trans (emergency_deduct _ s)

theorem emergency_stages (n e) (s : State) : (costStage n e (fixedCharge (dayOf e) s)).ce.money.emergency =
    s.ce.money.emergency := by
  unfold costStage; dsimp only
  rw [emergency_deduct]
  show (fixedCharge (dayOf e) s).ce.money.emergency = _
  unfold fixedCharge; split
  · exact emergency_charge _ s
  · rfl

theorem lowCredit_congr {s t : State} (h1 : t.ce = s.ce) (h2 : t.cau = s.cau) (h3 : t.exc = s.exc) (h4 : t.bat = s.bat)
    :
    (lowCredit t).ce = (lowCredit s).ce ∧ (lowCredit t).exc = (lowCredit s).exc := by
  unfold lowCredit
  dsimp only
  rw [h1, h2]
  refine ⟨?_, ?_⟩
  · repeat' split
    all_goals rfl
  · repeat' split
    all_goals first
      | exact h3
      | (simp only [post, h3, h4])

/-- t has posted notices, and has the credit state, the power state and the clock of s. -/
structure PostsOnly (s t : State) : Prop where
  psv : t.psv = s.psv
  cau : t.cau = s.cau
  clock : t.bat.clock = s.bat.clock
  ce : t.ce = s.ce
  credit : t.swc.set.credit = s.swc.set.credit
  posts : ∃ l, t.exc = (postAll l s).exc

theorem postAll_congr : ∀ (l : List NoticeBody) (x y : State), x.exc = y.exc → x.bat.clock = y.bat.clock →
    (postAll l x).exc = (postAll l y).exc
  | [], _, _, h, _ => h
  | b :: l, x, y, h, h' => postAll_congr l (post b x) (post b y)
      (by show x.exc.post x.bat.clock b = y.exc.post y.bat.clock b; rw [h, h']) h'

theorem postAll_append (l m : List NoticeBody) (s : State) : postAll (l ++ m) s = postAll m (postAll l s) := by
  unfold postAll; rw [List.foldl_append]

theorem postAll_clock : ∀ (l : List NoticeBody) (s : State), (postAll l s).bat = s.bat
  | [], _ => rfl
  | b :: l, s => postAll_clock l (post b s)

theorem posts_refl (s : State) : PostsOnly s s := ⟨rfl, rfl, rfl, rfl, rfl, [], rfl⟩

theorem posts_trans {s t u : State} (h : PostsOnly s t) (k : PostsOnly t u) : PostsOnly s u := by
  obtain ⟨l, hl⟩ := h.6
  obtain ⟨m, hm⟩ := k.6
  refine ⟨k.1.trans h.1, k.2.trans h.2, k.3.trans h.3, k.4.trans h.4, k.5.trans h.5, l ++ m, ?_⟩
  rw [hm, postAll_append]
  exact postAll_congr m t (postAll l s) hl (by rw [postAll_clock]; exact h.3)

theorem posts_indicator (k p) (s : State) (h : s.psv.power = .run) : PostsOnly s (indicator k p s) := by
  obtain ⟨⟨h1, h2, h3⟩, _, _, h5, h6, _, _, a, b, c, d⟩ := indicator_moved k p s h
  have hcr : (indicator k p s).swc.set.credit = s.swc.set.credit := by
    by_cases hd : (s.bat.kinds.get k).state ≠ .declared ∧ 128 ≤ (if p = true then min 255 ((s.bat.kinds.get k).counter +
        8) else (s.bat.kinds.get k).counter - 1) ∧ s.psv.inService = true
    · rw [(d hd.1 hd.2).2.1]
    · have : (indicator k p s).swc = s.swc := by
        cases hs : (s.bat.kinds.get k).state with
        | declared => exact (a (Or.inl hs)).2.2.1
        | quiet =>
          by_cases h96 : (if p = true then min 255 ((s.bat.kinds.get k).counter + 8) else (s.bat.kinds.get k).counter -
              1) < 96
          · exact (a (Or.inr (Or.inl ⟨hs, h96⟩))).2.2.1
          · exact (b hs (by omega) (fun e => hd ⟨by rw [hs]; decide, e⟩)).2.1
        | warning =>
          by_cases h96 : (if p = true then min 255 ((s.bat.kinds.get k).counter + 8) else (s.bat.kinds.get k).counter -
              1) < 96
          · exact (c hs h96).2.1
          · exact (a (Or.inr (Or.inr ⟨hs, by omega, fun e => hd ⟨by rw [hs]; decide, e⟩⟩))).2.2.1
      rw [this]
  refine ⟨h2, h6, by rw [h1], h5, hcr, ?_⟩
  rcases h3 with e | ⟨b, e⟩ | ⟨b, b', e⟩
  · exact ⟨[], e⟩
  · exact ⟨[b], e⟩
  · exact ⟨[b, b'], e⟩

theorem posts_limiter (w) (s : State) : PostsOnly s (limiterHandOff w s) := by
  unfold limiterHandOff
  split
  · obtain ⟨q, m, hq⟩ : ∃ q m, quietStep s = { s with swc := { s.swc with tripMem := m, quiet := q } } := by
      unfold quietStep; split
      · exact ⟨s.swc.quiet, s.swc.tripMem, rfl⟩
      split
      · exact ⟨_, _, rfl⟩
      · exact ⟨_, s.swc.tripMem, rfl⟩
    unfold limitStep
    dsimp only
    rw [hq]
    split
    · have h := trip_parts (w / 1000)
        { s with swc := { s.swc with tripMem := m, quiet := q, overLimit := overLimitAfter (w / 1000) { s with swc := { s.swc with tripMem := m, quiet := q } } } }
      obtain ⟨h1, _, _, _, _, h6, h7, _, h9, h10, h11⟩ := h
      exact ⟨h10, h11, by rw [h7], h6, by rw [h1], _, h9.trans (postAll_congr _ _ _ rfl rfl)⟩
    · exact ⟨rfl, rfl, rfl, rfl, rfl, [], rfl⟩
  · exact posts_refl s

theorem handOff_posts (o) (s : State) (h : s.psv.power = .run) (a) (ha : a ≠ .billing) : PostsOnly s (handOff o s a) :=
    by
  cases a
  · exact absurd rfl ha
  · exact posts_limiter _ _
  all_goals exact posts_indicator _ _ _ h

theorem handOffs_posts (o) : ∀ (l : List Arrival) (s : State), s.psv.power = .run → Arrival.billing ∉ l →
    PostsOnly s (l.foldl (handOff o) s)
  | [], s, _, _ => posts_refl s
  | a :: l, s, hr, h => by
    simp only [List.mem_cons, not_or] at h
    have h1 := handOff_posts o s hr a (fun e => h.1 e.symm)
    exact posts_trans h1 (handOffs_posts o l _ (by rw [h1.1]; exact hr) h.2)

/-- What a hand-off leaves of the power state, the settings and the clock. -/
structure PeriodKept (s t : State) : Prop where
  psv : t.psv = s.psv
  cau : t.cau = s.cau
  clock : t.bat.clock = s.bat.clock

theorem billPeriod_kept (n e) (s : State) : let t := billPeriod n e s
    t.psv = s.psv ∧ t.cau = s.cau ∧ t.bat = s.bat := by
  have hc := costFrame_stages n e s
  have hl := evalFrame_low (costStage n e (fixedCharge (dayOf e) s))
  have he := evalFrame_eval (lowCredit (costStage n e (fixedCharge (dayOf e) s)))
  unfold billPeriod
  dsimp only
  split
  · exact ⟨hl.7.trans hc.6, hl.6.trans hc.5, hl.2.trans hc.3⟩
  · exact ⟨(he.7.trans hl.7).trans hc.6, (he.6.trans hl.6).trans hc.5, (he.2.trans hl.2).trans hc.3⟩

theorem testBoundary_parts (e) (s : State) : (testBoundary e s).ce = s.ce ∧ (testBoundary e s).exc = s.exc ∧
    (testBoundary e s).swc = s.swc ∧ (testBoundary e s).bat = s.bat ∧ (testBoundary e s).cau = s.cau ∧
    (testBoundary e s).psv = s.psv := by
  unfold testBoundary
  split
  · split
    · have h := rollInterval_parts ‹Interval›.nominalEnd (lenOf s) id ‹Interval›.nominalEnd s
      exact ⟨h.1, h.2.1, h.2.2.1, h.2.2.2.1, h.2.2.2.2.1, h.2.2.2.2.2.2⟩
    · exact ⟨rfl, rfl, rfl, rfl, rfl, rfl⟩
  · exact ⟨rfl, rfl, rfl, rfl, rfl, rfl⟩

theorem handOff_billing (o) (s : State) : let v := billPeriod o.n o.live.endTime s
    let t := handOff o s .billing
    t.ce = v.ce ∧ t.exc = v.exc ∧ t.swc = v.swc ∧ t.bat = v.bat ∧ t.cau = v.cau ∧ t.psv = v.psv :=
        testBoundary_parts _ _

theorem handOff_kept (o) (s : State) (h : s.psv.power = .run) (a) : PeriodKept s (handOff o s a) := by
  by_cases ha : a = .billing
  · subst ha
    have h1 := handOff_billing o s
    have h2 := billPeriod_kept o.n o.live.endTime s
    exact ⟨h1.2.2.2.2.2.trans h2.1, h1.2.2.2.2.1.trans h2.2.1, by rw [h1.2.2.2.1, h2.2.2]⟩
  · have := handOff_posts o s h a ha
    exact ⟨this.1, this.2, this.3⟩

theorem handOffs_kept (o) : ∀ (l : List Arrival) (s : State), s.psv.power = .run → PeriodKept s (l.foldl (handOff o) s)
  | [], s, _ => ⟨rfl, rfl, rfl⟩
  | a :: l, s, h => by
    have h1 := handOff_kept o s h a
    have h2 := handOffs_kept o l (handOff o s a) (by rw [h1.1]; exact h)
    exact ⟨h2.1.trans h1.1, h2.2.trans h1.2, h2.3.trans h1.3⟩

theorem handOff_limiter (o) (s : State) (a) (ha : a ≠ .limiter) : LimiterFrame s (handOff o s a) := by
  cases a
  · have h1 := handOff_billing o s
    refine limiter_trans ?_ (limiter_of h1.2.2.1)
    have hc := costFrame_stages o.n o.live.endTime s
    have hl := (lowCredit_arm (costStage o.n o.live.endTime (fixedCharge (dayOf o.live.endTime) s))).2.2.1
    unfold billPeriod
    dsimp only
    exact limiter_ite (limiter_of (hl.trans hc.1)) (limiter_trans (limiter_of (hl.trans hc.1)) (limiter_evaluate _))
  · exact absurd rfl ha
  all_goals exact limiter_indicator _ _ _

theorem handOffs_limiter (o) : ∀ (l : List Arrival) (s : State), Arrival.limiter ∉ l →
    LimiterFrame s (l.foldl (handOff o) s)
  | [], s, _ => limiter_refl s
  | a :: l, s, h => by
    simp only [List.mem_cons, not_or] at h
    exact limiter_trans (handOff_limiter o s a (fun e => h.1 e.symm)) (handOffs_limiter o l _ h.2)

theorem eachOnce_split (l : List Arrival) (a : Arrival) : ∃ l1 l2, eachOnce l = l1 ++ a :: l2 ∧ a ∉ l1 ∧ a ∉ l2 := by
  obtain ⟨l1, l2, hl⟩ := List.append_of_mem (eachOnce_mem l a)
  have hn := eachOnce_nodup l
  rw [hl] at hn
  refine ⟨l1, l2, hl, ?_, ?_⟩
  · intro h
    rw [List.nodup_append] at hn
    exact hn.2.2 _ h _ (by simp) rfl
  · rw [List.nodup_append] at hn
    simpa using (List.nodup_cons.mp hn.2.1).1

theorem standingPeriod_notices (s : State) : (standingPeriod s).exc.notices = s.exc.notices := by
  have h : ∀ v q (x : Exc), (standStep v x q).notices = x.notices := by
    intro v q x; unfold standStep; split
    · unfold rewriteStanding; dsimp only; split <;> rfl
    · rfl
  have hf : ∀ v (l : List Standing) (x : Exc), (l.foldl (standStep v) x).notices = x.notices := by
    intro v l
    induction l with
    | nil => exact fun x => rfl
    | cons q l ih => exact fun x => (ih _).trans (h _ _ _)
  unfold standingPeriod
  dsimp only
  exact hf _ _ _

theorem exec_periodEnd_noPackage (p) (s : State) (hr : s.psv.power = .run) (hpk : s.cau.pendingPkg = none) :
    periodEnd p s = standingPeriod (handOffs (periodOut p s) p.order (markPeriod (takeResults (periodOut p s) s))) := by
  rw [period_eq p s hr]
  unfold activatePending pendingDue
  have hc : (standingPeriod (handOffs (periodOut p s) p.order (markPeriod (takeResults (periodOut p s)
      s)))).cau.pendingPkg = none := by
    have := (handoff_skip (periodOut p s) (eachOnce p.order) (markPeriod (takeResults (periodOut p s) s))).2.2.2.2.1
    show (handOffs _ _ _).cau.pendingPkg = none
    unfold handOffs
    rw [this]; exact hpk
  rw [hc]

theorem handOff_counts_moved (o l) (s : State) (hr : s.psv.power = .run) (a : Arrival) (j) (h : arrKind a = some j) :
    KindMoved s.psv.inService s.bat.clock ((handOffs o l s).bat.kinds.get j).counter (s.bat.kinds.get j) ((handOffs o l
        s).bat.kinds.get j) := by
  obtain ⟨l1, l2, hl, n1, n2⟩ := eachOnce_split l a
  have h1 : ∀ b ∈ l1, arrKind b ≠ some j := fun b hb e => n1 (by rw [← arrKind_inj e h]; exact hb)
  have h2 : ∀ b ∈ l2, arrKind b ≠ some j := fun b hb e => n2 (by rw [← arrKind_inj e h]; exact hb)
  have k1 := handOffs_kept o l1 s hr
  have e1 := (handoff_skip o l1 s).2.2.2.2.2 j h1
  unfold handOffs
  rw [hl, List.foldl_append, List.foldl_cons, (handoff_skip o l2 _).2.2.2.2.2 j h2]
  generalize l1.foldl (handOff o) s = u at *
  have key : ∀ p, KindMoved s.psv.inService s.bat.clock ((indicator j p u).bat.kinds.get j).counter (s.bat.kinds.get j)
      ((indicator j p u).bat.kinds.get j) := by
    intro p
    have hm := (indicator_moved j p u (by rw [k1.1]; exact hr)).2.2.1
    have hc := (handoff_indicator j p u).2.2.2.2.2.2
    have hcc : ((indicator j p u).bat.kinds.get j).counter = (if p = true then min 255 ((u.bat.kinds.get j).counter + 8)
        else (u.bat.kinds.get j).counter - 1) := hc
    rw [hcc, ← k1.1, ← k1.3, ← e1]
    exact hm
  cases a <;> simp only [arrKind, Option.some.injEq, reduceCtorEq] at h <;> subst h <;> exact key _

theorem le_length : ∀ n v, (le n v).length = n
  | 0, _ => rfl
  | n + 1, v => by rw [le, List.length_cons, le_length n]

theorem leInt_length (n v) : (leInt n v).length = n := le_length _ _

/-- a stretch of a list of chunks -/
theorem flatten_segment (ls : List (List Byte)) (i k n m : Nat) (h1 : ((ls.take i).map List.length).sum = n) (h2 :
    (((ls.drop i).take k).map List.length).sum = m) :
    (ls.flatten.drop n).take m = ((ls.drop i).take k).flatten := by
  have e : ls.flatten = (ls.take i).flatten ++ (((ls.drop i).take k).flatten ++ ((ls.drop i).drop k).flatten) := by
    rw [← List.flatten_append, ← List.flatten_append, List.take_append_drop, List.take_append_drop]
  have h1' : (ls.take i).flatten.length = n := by rw [List.length_flatten]; exact h1
  have h2' : ((ls.drop i).take k).flatten.length = m := by rw [List.length_flatten]; exact h2
  rw [e, ← h1', List.drop_left, ← h2', List.take_left]

/-- The fields of the summary page, in order. -/
def pageChunks (p : Summary) : List (List Byte) :=
  [le 4 p.live.endTime, phaseBlock p.live.phases.a, phaseBlock p.live.phases.b, phaseBlock p.live.phases.c,
   le 4 p.live.iRes, le 4 p.live.tPrime, le 4 p.live.x, le 8 p.live.energy.imp, le 8 p.live.energy.exp,
       le 8 p.live.energy.fb,
   le 2 p.live.energy.rImp, le 2 p.live.energy.rExp, le 2 p.live.energy.rFb, [0, 0],
   leInt 4 p.b, le 4 p.cRes, le 4 p.u, leInt 4 p.d,
   [flagByte p.emergency, byte p.band, flagByte p.window, flagByte p.deferral],
   le 4 p.price, le 4 p.time, [flagByte p.clockValid, byte (clockSourceCode p.clockSource)], le 2 p.allowance,
   [byte p.keys.length], slice (p.keys.map (fun d => byte (48 + d.val))) 0 18, [0],
   [byte (setCode p.set), byte (switchCode p.sw), byte p.attempt, byte p.tripMem],
   p.states.toList.map (fun k => byte (kindStateCode k)), p.counters.toList.map byte,
   [byte (flagNat p.freeze + 2 * flagNat p.tamperRequired + 4 * flagNat p.fallback)],
   [flagByte p.storeFault, byte p.erasedPlaces, flagByte p.inService, byte (startKindCode p.startKind), 0],
   le 2 p.oldest, [byte p.count, byte p.standing], List.replicate 78 0]

theorem phaseBlock_length (p) : (phaseBlock p).length = 16 := by
  unfold phaseBlock; simp [le_length, leInt_length]

theorem slice_length (l : List Byte) (n) : (slice l 0 n).length = n := by
  unfold slice padTo zeros
  simp only [List.length_append, List.length_take, List.length_drop, List.length_replicate]
  omega

theorem perKind_toList_length {α : Type} (p : PerKind α) : p.toList.length = 8 := rfl

theorem pageBytes_chunks (p : Summary) : pageBytes p = (pageChunks p).flatten := by
  have hl : ∀ l : List Byte, l.length = 178 → padTo 256 l = l ++ List.replicate 78 0 := by
    intro l h; unfold padTo zeros; rw [h]
  unfold pageBytes
  rw [hl]
  · simp only
      [pageChunks, List.flatten_cons, List.flatten_nil, List.append_nil, List.append_assoc, List.cons_append, List.nil_append]
  · simp only
      [List.length_append, List.length_cons, List.length_nil, le_length, leInt_length, phaseBlock_length, slice_length, List.length_map, perKind_toList_length]

theorem setBits_five (a b c d e : Bool) : BitVec.ofNat 8 ([a, b, c, d, e].foldr (fun x n => flagNat x + 2 * n) 0) = byte
    (flagNat a + 2 * flagNat b + 4 * flagNat c + 8 * flagNat d + 16 * flagNat e) := by
  unfold byte; congr 1; simp only [List.foldr]; omega

theorem setBits_three (a b c : Bool) : BitVec.ofNat 8 ([a, b, c].foldr (fun x n => flagNat x + 2 * n) 0) = byte (flagNat
    a + 2 * flagNat b + 4 * flagNat c) := by
  unfold byte; congr 1; simp only [List.foldr]; omega

theorem pageBytes_layout (p : Summary) :
    let page := pageBytes p
    let at_ := fun (offset width : Nat) => (page.drop offset).take width
    page.length = 256 ∧ at_ 0x00 4 = le 4 p.live.endTime ∧ at_ 0x04 16 = phaseBlock p.live.phases.a ∧
    at_ 0x14 16 = phaseBlock p.live.phases.b ∧ at_ 0x24 16 = phaseBlock p.live.phases.c ∧
        at_ 0x34 4 = le 4 p.live.iRes ∧
    at_ 0x38 4 = le 4 p.live.tPrime ∧ at_ 0x3C 4 = le 4 p.live.x ∧ at_ 0x40 8 = le 8 p.live.energy.imp ∧
    at_ 0x48 8 = le 8 p.live.energy.exp ∧ at_ 0x50 8 = le 8 p.live.energy.fb ∧
    at_ 0x58 8 = le 2 p.live.energy.rImp ++ le 2 p.live.energy.rExp ++ le 2 p.live.energy.rFb ++ [0, 0] ∧
    at_ 0x60 4 = leInt 4 p.b ∧ at_ 0x64 4 = le 4 p.cRes ∧ at_ 0x68 4 = le 4 p.u ∧ at_ 0x6C 4 = leInt 4 p.d ∧
    at_ 0x70 4 = [flagByte p.emergency, byte p.band, flagByte p.window, flagByte p.deferral] ∧
        at_ 0x74 4 = le 4 p.price ∧
    at_ 0x78 4 = le 4 p.time ∧ at_ 0x7C 4 = [flagByte p.clockValid, byte (clockSourceCode p.clockSource)] ++ le 2
        p.allowance ∧
    at_ 0x80 19 = byte p.keys.length :: slice (p.keys.map (fun d => byte (48 + d.val))) 0 18 ∧
    at_ 0x93 5 = [0, byte (setCode p.set), byte (switchCode p.sw), byte p.attempt, byte p.tripMem] ∧
    at_ 0x98 8 = p.states.toList.map (fun k => byte (kindStateCode k)) ∧ at_ 0xA0 8 = p.counters.toList.map byte ∧
    at_ 0xA8 1 = [byte (flagNat p.freeze + 2 * flagNat p.tamperRequired + 4 * flagNat p.fallback)] ∧
    at_ 0xA9 5 = [flagByte p.storeFault, byte p.erasedPlaces, flagByte p.inService, byte (startKindCode p.startKind), 0]
        ∧
    at_ 0xAE 4 = le 2 p.oldest ++ [byte p.count, byte p.standing] ∧ at_ 0xB2 78 = List.replicate 78 0 := by
  intro page at_
  have lens : (pageChunks p).map List.length =
      [4, 16, 16, 16, 4, 4, 4, 8, 8, 8, 2, 2, 2, 2, 4, 4, 4, 4, 4, 4, 4, 2, 2, 1, 18, 1, 4, 8, 8, 1, 5, 2, 2, 78] := by
    simp only
        [pageChunks, List.map_cons, List.map_nil, List.length_cons, List.length_nil, le_length, leInt_length, phaseBlock_length, slice_length, List.length_map, perKind_toList_length, List.length_replicate]
  have hp : page = (pageChunks p).flatten := pageBytes_chunks p
  have key : ∀ i k n m,
      (([4, 16, 16, 16, 4, 4, 4, 8, 8, 8, 2, 2, 2, 2, 4, 4, 4, 4, 4, 4, 4, 2, 2, 1, 18, 1, 4, 8, 8, 1, 5, 2, 2, 78] :
      List Nat).take i).sum = n →
      ((([4, 16, 16, 16, 4, 4, 4, 8, 8, 8, 2, 2, 2, 2, 4, 4, 4, 4, 4, 4, 4, 2, 2, 1, 18, 1, 4, 8, 8, 1, 5, 2, 2, 78] :
          List Nat).drop i).take k).sum = m →
      at_ n m = (((pageChunks p).drop i).take k).flatten := by
    intro i k n m h1 h2
    show (page.drop n).take m = _
    rw [hp]
    exact flatten_segment _ i k n m (by rw [List.map_take, lens]; exact h1)
        (by rw [List.map_take, List.map_drop, lens]; exact h2)
  have one : ∀ (l : List Byte), [l].flatten = l := fun l => by simp
  refine ⟨?_, ?_, ?_, ?_, ?_, ?_, ?_, ?_, ?_, ?_, ?_, ?_, ?_, ?_, ?_, ?_, ?_, ?_, ?_, ?_, ?_, ?_, ?_, ?_, ?_, ?_, ?_,
      ?_⟩
  · rw [hp, List.length_flatten, lens]; rfl
  · exact (key 0 1 _ _ rfl rfl).trans (one _)
  · exact (key 1 1 _ _ rfl rfl).trans (one _)
  · exact (key 2 1 _ _ rfl rfl).trans (one _)
  · exact (key 3 1 _ _ rfl rfl).trans (one _)
  · exact (key 4 1 _ _ rfl rfl).trans (one _)
  · exact (key 5 1 _ _ rfl rfl).trans (one _)
  · exact (key 6 1 _ _ rfl rfl).trans (one _)
  · exact (key 7 1 _ _ rfl rfl).trans (one _)
  · exact (key 8 1 _ _ rfl rfl).trans (one _)
  · exact (key 9 1 _ _ rfl rfl).trans (one _)
  · refine (key 10 4 _ _ rfl rfl).trans ?_
    simp only
        [pageChunks, List.drop, List.take, List.flatten_cons, List.flatten_nil, List.append_nil, List.append_assoc]
  · exact (key 14 1 _ _ rfl rfl).trans (one _)
  · exact (key 15 1 _ _ rfl rfl).trans (one _)
  · exact (key 16 1 _ _ rfl rfl).trans (one _)
  · exact (key 17 1 _ _ rfl rfl).trans (one _)
  · exact (key 18 1 _ _ rfl rfl).trans (one _)
  · exact (key 19 1 _ _ rfl rfl).trans (one _)
  · exact (key 20 1 _ _ rfl rfl).trans (one _)
  · refine (key 21 2 _ _ rfl rfl).trans ?_
    simp only [pageChunks, List.drop, List.take, List.flatten_cons, List.flatten_nil, List.append_nil]
  · refine (key 23 2 _ _ rfl rfl).trans ?_
    simp only [pageChunks, List.drop, List.take, List.flatten_cons, List.flatten_nil, List.append_nil]
    rfl
  · refine (key 25 2 _ _ rfl rfl).trans ?_
    simp only [pageChunks, List.drop, List.take, List.flatten_cons, List.flatten_nil, List.append_nil]
    rfl
  · exact (key 27 1 _ _ rfl rfl).trans (one _)
  · exact (key 28 1 _ _ rfl rfl).trans (one _)
  · exact (key 29 1 _ _ rfl rfl).trans (one _)
  · exact (key 30 1 _ _ rfl rfl).trans (one _)
  · refine (key 31 2 _ _ rfl rfl).trans ?_
    simp only [pageChunks, List.drop, List.take, List.flatten_cons, List.flatten_nil, List.append_nil]
  · exact (key 33 1 _ _ rfl rfl).trans (one _)

theorem foldl_idle {α : Type} (f : State → α → State) (s : State) : ∀ l : List α, (∀ j ∈ l, f s j = s) → l.foldl f s = s
  | [], _ => rfl
  | j :: l, h => by
    rw [List.foldl_cons, h j (by simp)]
    exact foldl_idle f s l (fun i hi => h i (by simp [hi]))

theorem foldl_once {α : Type} (f : State → α → State) (s s' : State) : ∀ l : List α, (∀ j ∈ l, f s j = s ∨ f s j = s') →
    (∀ j ∈ l, f s' j = s') →
    (∃ j ∈ l, f s j = s') → l.foldl f s = s'
  | [], _, _, h => by obtain ⟨_, h, _⟩ := h; simp at h
  | j :: l, h1, h2, h3 => by
    rw [List.foldl_cons]
    by_cases hj : f s j = s'
    · rw [hj]; exact foldl_idle f s' l (fun i hi => h2 i (by simp [hi]))
    · rcases h1 j (by simp) with h | h
      · rw [h]
        refine foldl_once f s s' l (fun i hi => h1 i (by simp [hi])) (fun i hi => h2 i (by simp [hi])) ?_
        obtain ⟨i, hi, he⟩ := h3
        rcases List.mem_cons.mp hi with e | e
        · subst e; exact absurd he hj
        · exact ⟨i, e, he⟩
      · exact absurd h hj

theorem tellSave_code (ok) (s : State) (h : (s.psv.power == .hold) = false) : tellSave ok s .code = codeCommitted ok s
    := by
  unfold tellSave; rw [h]; rfl

theorem tellSave_package (ok) (s : State) (h : (s.psv.power == .hold) = false) : tellSave ok s .package =
    packageCommitted ok s := by
  unfold tellSave; rw [h]; rfl

theorem tellSave_lifecycle (ok) (s : State) (h : (s.psv.power == .hold) = false) : tellSave ok s .lifecycle =
    lifecycleSaved ok s := by
  unfold tellSave; rw [h]; rfl

theorem tellSave_nobody (ok) (s : State) (k : SaveKind) (h1 : k = .code → s.cau.applied = none) (h2 : k = .package →
    s.cau.pkg = none) (h3 : k = .lifecycle → s.psv.req = none) : tellSave ok s k = s := by
  unfold tellSave
  split
  · rfl
  · cases k
    case code =>
      show codeCommitted ok s = s
      unfold codeCommitted; rw [h1 rfl]; split
      · rename_i h; simp at h
      · rfl
    case package => show packageCommitted ok s = s; unfold packageCommitted; rw [h2 rfl]
    case lifecycle => show lifecycleSaved ok s = s; unfold lifecycleSaved; rw [h3 rfl]
    all_goals rfl

/-- What an owner that is told leaves of supply, store and the rest of the power state. -/
structure ToldFrame (s t : State) : Prop where
  power : t.psv.power = s.psv.power
  clock : t.bat.clock = s.bat.clock
  live : t.exc.live = s.exc.live
  oldest : t.exc.oldest = s.exc.oldest

theorem codeCommitted_given (ok) (s : State) (e rest a) (h1 : s.cau.queue = e :: rest) (h2 : s.cau.applied = some a) :
    let t := codeCommitted ok s
    let r := if ok = true then a.result else .storeFault
    t.cau = { s.cau with queue := rest, applied := none } ∧ t.psv = s.psv ∧
    (∀ i, e.slot = some i → ToldFrame s t ∧ t.exc.notices = s.exc.notices ∧
        t.exc.mem = doneMem i r 0 0 (codeResults a.kind a.issue a.amount s.ce.money.b) s.exc.mem ∧
        t.exc.code = ⟨s.exc.code.queue.tail, false⟩) ∧
    (e.slot = none → t.exc.mem = s.exc.mem ∧ t.exc.notices = (s.exc.post s.bat.clock (.codeResult e.src r a.kind a.issue
        a.amount s.ce.money.b)).notices) := by
  intro t r
  have ht : t = dropHead (giveOutcome e.src e.slot r a.kind a.issue a.amount (mapPenalty e.src (penaltyAfter r) s)) :=
      by
    show codeCommitted ok s = _
    unfold codeCommitted; rw [h1, h2]
  rw [ht]
  unfold giveOutcome
  cases hs : e.slot with
  | some i =>
    dsimp only
    have ht : ({ s.cau with queue := s.cau.queue.tail, applied := none } : Cau) =
        { s.cau with queue := rest, applied := none } := by rw [h1]; rfl
    refine ⟨ht, rfl, fun j hj => ?_, fun h => by simp at h⟩
    simp only [Option.some.injEq] at hj
    subst hj
    exact ⟨⟨rfl, rfl, rfl, rfl⟩, rfl, rfl, rfl⟩
  | none =>
    dsimp only
    have ht : ({ s.cau with queue := s.cau.queue.tail, applied := none } : Cau) =
        { s.cau with queue := rest, applied := none } := by rw [h1]; rfl
    exact ⟨ht, rfl, fun j hj => by simp at hj, fun _ => ⟨(post_exc_parts _ _).1, rfl⟩⟩

theorem popCode_told (i r f n l) (x : State) : ToldFrame x (popCode (complete i r f n l x)) := ⟨rfl, rfl, rfl, rfl⟩

theorem popCode_complete_notices (i r f n l) (x : State) : (popCode (complete i r f n l x)).exc.notices = x.exc.notices := rfl

theorem packageCommitted_given (ok) (s : State) (p r n eff old) (h1 : s.cau.pkg = some p) (h2 : p.stage = .committing r
    n eff old) : let t := packageCommitted ok s
    let x := if ok = true then r else .storeFault
    t.cau = { s.cau with pkg := none, pendingPkg := s.cau.pendingPkg.map (fun q => { q with released := q.released || q.number == n }) }
        ∧ t.psv = s.psv ∧
    (∀ i, p.slot = some i → ToldFrame s t ∧ t.exc.notices = s.exc.notices ∧
        t.exc.mem = doneMem i x 0 0 ([(12, le 4 (headerField p.bytes 0)), (16, le 4 (headerField p.bytes 8)), (20, [0])]
        ++ if ok = true then [(24, le 4 old)] else []) s.exc.mem ∧ t.exc.code = ⟨s.exc.code.queue.tail, false⟩) ∧
    (p.slot = none → t.exc.mem = s.exc.mem ∧ t.exc.notices = (s.exc.post s.bat.clock (.packageResult x (headerField
        p.bytes 0))).notices) := by
  intro t x
  have ht : t = givePackage p x 0 (if ok then some old else none) (mapPenalty .exchange (penaltyAfter x) (releasePending
      n s)) := by
    show packageCommitted ok s = _
    unfold packageCommitted; rw [h1]; dsimp only; rw [h2]
  have hrel : ∀ o : Option PendingPkg, o.map (fun p => if p.number = n then { p with released := true } else p) = o.map
      (fun q => { q with released := q.released || q.number == n }) := by
    intro o
    cases o with
    | none => rfl
    | some q =>
      simp only [Option.map_some]
      congr 1
      by_cases h : q.number = n
      · rw [if_pos h]; simp [h]
      · have hb : (q.number == n) = false := by simpa using h
        rw [if_neg h, hb]; simp only [Bool.or_false]
  have hc : ({ (mapPenalty .exchange (penaltyAfter x) (releasePending n s)).cau with pkg := none } : Cau) =
      { s.cau with pkg := none, pendingPkg := s.cau.pendingPkg.map (fun q => { q with released := q.released || q.number == n }) }
      := by
    exact congrArg (fun o => ({ s.cau with pkg := none, pendingPkg := o } : Cau)) (hrel _)
  rw [ht]
  generalize hz : mapPenalty .exchange (penaltyAfter x) (releasePending n s) = z at hc
  have zp : z.psv = s.psv := by rw [← hz]; rfl
  have zx : z.exc = s.exc := by rw [← hz]; rfl
  have zb : z.bat.clock = s.bat.clock := by rw [← hz]; rfl
  clear hz ht
  have hres : ∀ o : Option Nat, o = (if ok then some old else none) →
      packageResults p 0 o = [(12, le 4 (headerField p.bytes 0)), (16, le 4 (headerField p.bytes 8)), (20, [0])] ++
      if ok = true then [(24, le 4 old)] else [] := by
    intro o ho; subst ho; cases ok <;> rfl
  unfold givePackage
  cases hs : p.slot with
  | some i =>
    dsimp only
    rw [hres _ rfl]
    generalize ([(12, le 4 (headerField p.bytes 0)), (16, le 4 (headerField p.bytes 8)), (20, [0])] ++ if ok = true then
        [(24, le 4 old)] else [] : List (Nat × List Byte)) = l
    have q := popCode_told i x 0 0 l { z with cau := { z.cau with pkg := none } }
    have q2 := popCode_complete_notices i x 0 0 l { z with cau := { z.cau with pkg := none } }
    have q3 := popCode_complete_mem i x 0 0 l { z with cau := { z.cau with pkg := none } }
    have q4 := popCode_complete_code i x 0 0 l { z with cau := { z.cau with pkg := none } }
    have q5 := popCode_complete_modules i x 0 0 l { z with cau := { z.cau with pkg := none } }
    have q6 := popCode_complete_psv i x 0 0 l { z with cau := { z.cau with pkg := none } }
    generalize popCode (complete i x 0 0 l { z with cau := { z.cau with pkg := none } }) = t at *
    dsimp only at *
    refine ⟨(congrArg Modules.cau q5).trans hc, q6.trans zp, fun j hj => ?_, fun h => by simp at h⟩
    simp only [Option.some.injEq] at hj
    subst hj
    exact ⟨⟨q.1.trans (by rw [zp]), q.2.trans zb, q.3.trans (by rw [zx]), q.4.trans (by rw [zx])⟩,
        q2.trans (by rw [zx]), q3.trans (by rw [zx]), q4.trans (by rw [zx])⟩
  | none =>
    dsimp only
    refine ⟨hc, zp, fun j hj => by simp at hj, fun _ => ⟨(post_exc_parts _ _).1.trans (by rw [zx]), ?_⟩⟩
    show (z.exc.post z.bat.clock _).notices = _
    rw [zx, zb]

theorem finishRequest_given (q r l) (s : State) (i) (h : q.slot = some i) : let t := finishRequest q r l s
    t.psv = { s.psv with req := none } ∧ t.cau = s.cau ∧ ToldFrame s t ∧ t.exc.notices = s.exc.notices ∧
        t.exc.mem = doneMem i r 0 0 l s.exc.mem ∧ t.exc.control = ⟨s.exc.control.queue.tail, false⟩ := by
  intro t
  have ht : t = finishControl i r 0 l { s with psv := { s.psv with req := none } } := by
    show finishRequest q r l s = _
    unfold finishRequest; rw [h]
  rw [ht]
  exact ⟨rfl, rfl, ⟨rfl, rfl, rfl, rfl⟩, rfl, rfl, rfl⟩

theorem programOver_end (z : State) : let t := refresh (runArbiter (programOver z))
    t.cau = z.cau ∧ t.psv = z.psv ∧ t.exc.notices = z.exc.notices ∧ t.exc.mem = z.exc.mem ∧ t.exc.code = z.exc.code ∧
        t.exc.control = z.exc.control ∧ t.stc = (runArbiter (programOver z)).stc := by
  intro t
  have m := refresh_frame (runArbiter (programOver z))
  obtain ⟨w1, w2, w3, w4, w5, w6, w7, w8, w9⟩ := runArbiter_parts (programOver z)
  obtain ⟨m1, m2, m3, m4, m5, m6, m7, m8, m9⟩ := m
  refine ⟨(congrArg Modules.cau m1 :).trans w6, m4.trans w4, m6.trans (by rw [w1]; rfl), m5.trans (by rw [w1]; rfl),
      m7.trans (by rw [w1]; rfl), m8.trans (by rw [w1]; rfl), (congrArg Modules.stc m1 :)⟩

/-- the state whose owners are told at a pass -/
def recordPassed (image : SaveRecord) (s : State) : State := recount (countPass (putRecord (.good image) s))

theorem passed_parts (image) (s : State) : let y := recordPassed image s
    y.exc = s.exc ∧ y.bat = s.bat ∧ y.ce = s.ce ∧ y.psv = s.psv ∧ y.ee = s.ee ∧ y.cau = s.cau ∧ y.swc = s.swc ∧
        y.rlr = s.rlr ∧ y.stc.fault = s.stc.fault ∧ y.stc.copy = s.stc.copy := by
  unfold recordPassed recount; dsimp only; split <;> exact ⟨rfl, rfl, rfl, rfl, rfl, rfl, rfl, rfl, rfl, rfl⟩

theorem recordDone_pass (saves image) (s : State) (hr : s.psv.power = .run) (hp : s.stc.prog = some (.record saves
    image)) :
    exec (.programRecordDone .pass) s = .next (refresh (runArbiter (programOver (tellSaves true saves (recordPassed
        image s))))) := by
  have hpass : recordEnds saves image .pass s = programOver (tellSaves true saves (recordPassed image s)) := rfl
  have hz : (programOver (tellSaves true saves (recordPassed image s))).psv.power = .run := by
    show (tellSaves true saves (recordPassed image s)).psv.power = _
    rw [(owners_tells saves _).6, (passed_parts image s).2.2.2.1]; exact hr
  show done (recordDone .pass s) = _
  unfold recordDone
  rw [hp]; dsimp only; rw [hr]
  show done (afterStore (recordEnds saves image .pass s)) = _
  rw [hpass, afterStore_run hz]; rfl

/-- the state whose owners are told at an entry to FAULT -/
def recordFailing (s : State) : State :=
  let x := countFailure (putRecord .damaged s)
  stayRemoved (begunErases s.stc.queue) { x with stc := { x.stc with queue := [], fault := true } }

theorem failing_parts (s : State) : let y := recordFailing s
    y.exc = s.exc ∧ y.bat = s.bat ∧ y.ce = s.ce ∧ y.psv = s.psv ∧ y.ee = s.ee ∧ y.cau = s.cau ∧ y.swc = s.swc := ⟨rfl,
        rfl, rfl, rfl, rfl, rfl, rfl⟩

/-- The state after every waiting owner has been told of the entry to FAULT. -/
def faultTold (saves : List SaveKind) (s : State) : State :=
  (bitsOf s.stc.queue).foldl (fun t b => bitEnded b .byFault t) (tellSaves false (saves ++ savesOf s.stc.queue)
      (recordFailing s))

theorem recordDone_fault (saves image) (s : State) (hr : s.psv.power = .run) (hp : s.stc.prog = some (.record saves
    image)) (hf : 2 ≤ s.stc.failCount) :
    exec (.programRecordDone .bodyFails) s = .next (refresh (programOver (announceFault (.storeFault 1 0 s.stc.curBlock
        s.stc.nextPlace) (faultTold saves s)))) := by
  have hnt : failedThrice (countFailure (putRecord .damaged s)) = true := by
    unfold failedThrice
    show decide (3 ≤ s.stc.failCount + 1) = true
    simp; omega
  have hrec : recordEnds saves image .bodyFails s = programOver (announceFault (.storeFault 1 0 s.stc.curBlock
      s.stc.nextPlace) (faultTold saves s)) := by
    show recordFails saves (countFailure (putRecord .damaged s)) = _
    unfold recordFails
    rw [hnt, if_pos rfl]
    rfl
  have hz : (programOver (announceFault (.storeFault 1 0 s.stc.curBlock s.stc.nextPlace) (faultTold saves s))).psv.power
      = .run ∧ (programOver (announceFault (.storeFault 1 0 s.stc.curBlock s.stc.nextPlace) (faultTold saves
      s))).stc.queue = [] := by
    have o1 := ownersExact_foldl ownersExact_tell (saves ++ savesOf s.stc.queue) (recordFailing s)
    have o2 := ownersExact_foldl (fun t b => ownersExact_bit b t) (bitsOf s.stc.queue) (tellSaves false (saves ++
        savesOf s.stc.queue) (recordFailing s))
    have o3 := ownersExact_ann (.storeFault 1 0 s.stc.curBlock s.stc.nextPlace) (faultTold saves s)
    have o := ownersExact_trans (ownersExact_trans o1 o2) o3
    refine ⟨o.6.trans hr, ?_⟩
    show (announceFault _ _).stc.queue = []
    rw [o.5]; rfl
  show done (recordDone .bodyFails s) = _
  unfold recordDone
  rw [hp]; dsimp only; rw [hr]
  show done (afterStore (recordEnds saves image .bodyFails s)) = _
  rw [hrec, afterStore_run hz.1, runArbiter_empty _ hz.2]; rfl

theorem post_notices_congr {x y : Exc} (h1 : x.live = y.live) (h2 : x.oldest = y.oldest) (h3 : x.notices = y.notices) (n b) :
    (x.post n b).notices = (y.post n b).notices := by
  unfold Exc.post; rw [h1, h2, h3]; split
  · split <;> rfl
  · exact h3

/-- what follows the owners at an entry to FAULT -/
theorem announceFault_end (b : NoticeBody) (s z : State) (hr : s.psv.power = .run) (hp : z.psv.power = s.psv.power) (t :
    ToldFrame s z) (hn : z.exc.notices = s.exc.notices) : let u := refresh (programOver (announceFault b z))
    u.cau = z.cau ∧ u.psv = z.psv ∧ u.exc.notices = (s.exc.post s.bat.clock b).notices ∧ u.exc.mem = z.exc.mem ∧
        u.exc.code = z.exc.code ∧ u.exc.control = z.exc.control := by
  intro u
  have ha : announceFault b z = post b z := by
    unfold announceFault; rw [hp, hr]; rfl
  have m := refresh_frame (programOver (post b z))
  have hu : u = refresh (programOver (post b z)) := by show refresh (programOver (announceFault b z)) = _; rw [ha]
  rw [hu]
  obtain ⟨m1, m2, m3, m4, m5, m6, m7, m8, m9⟩ := m
  have px := post_exc_parts b z
  refine ⟨(congrArg Modules.cau m1 :), m4, m6.trans ?_, m5.trans px.1, m7.trans px.2.2.1, m8.trans px.2.1⟩
  show (z.exc.post z.bat.clock b).notices = _
  rw [t.clock]
  exact post_notices_congr t.live t.oldest hn _ _

theorem bitEnded_nobody (b : BitName) (s : State) (h : s.psv.req = none) : bitEnded b .byFault s = s := by
  unfold bitEnded
  cases b <;> simp [h]

end Sys2Proof.Machine
end

