-- ==== Sys2Proof/Laws/FramesStart.lean ====
section
/-! SUPPORT. Laws/FramesStart.lean:
what the steps of a start sequence do and leave unchanged. -/

set_option Elab.async false

namespace Sys2Proof.Machine

open Sys2Proof

/-- one step of a start, asked for alone -/
theorem exec_start_step (v : PerPhase PhaseVolts) (s : State) (hp : s.psv.power = .battery) (n : Nat) (q : StartSeq) (h1
    : s.psv.seq = some q) (h2 : q.next = n) (h3 : s.stc.erase = none)
    (z : State) (hz : startStep n v { s with psv := { s.psv with seq := some ⟨n, n, v⟩ } } = z) (m : Nat) (hq :
        z.psv.seq = some ⟨m, n, v⟩) (hw : n < m ∨ startWaits z.stc = true) :
    exec (.settleTimerExpiry v n) s = .next (refresh z) := by
  generalize hx : ({ s with psv := { s.psv with seq := some ⟨n, n, v⟩ } } : State) = x at hz
  have hst : settleExpiry v n s = runSteps 9 x := by
    unfold settleExpiry; rw [hp, h1]; dsimp only
    rw [← hx]
    have : ({ q with upTo := n, volts := v } : StartSeq) = ⟨n, n, v⟩ := by cases q; cases h2; rfl
    rw [this]; rfl
  have hx1 : x.psv.seq = some ⟨n, n, v⟩ := by rw [← hx]
  have hx2 : x.stc.erase = none := by rw [← hx]; exact h3
  have hrun : runSteps 9 x = z := by
    unfold runSteps
    rw [hx1]; dsimp only
    have w1 : startWaits x.stc = false := by unfold startWaits; rw [hx2]
    rw [w1]
    simp only [Nat.lt_irrefl, decide_false, Bool.or_self, Bool.false_eq_true, if_false]
    rw [hz]
    unfold runSteps
    rw [hq]; dsimp only
    rw [if_pos]
    rcases hw with h | h
    · simp [h]
    · simp [h]
  show done (settleExpiry v n s) = _
  rw [hst, hrun]; rfl

theorem refresh_seq {n m : Nat} {v} {z : State} (h : z.psv.seq = some ⟨n, m, v⟩) : (refresh z).psv.seq = some ⟨n, m,
    v⟩ := by
  rw [(refresh_frame z).2.2.2.1]; exact h

/-- What the tamper operations of a start leave. -/
structure TamperStartFrame (s t : State) : Prop where
  exc : t.exc = s.exc
  ce : t.ce = s.ce
  flash : t.flash = s.flash
  cau : t.cau = s.cau
  seq : t.psv.seq = s.psv.seq
  power : t.psv.power = s.psv.power
  svc : t.psv.inService = s.psv.inService
  kind : t.psv.startKind = s.psv.startKind
  fault : t.stc.fault = s.stc.fault
  copy : t.stc.copy = s.stc.copy
  erase : t.stc.erase = s.stc.erase ∨ storeRuns s.psv = true

theorem tamperStart_refl (s : State) : TamperStartFrame s s := ⟨rfl, rfl, rfl, rfl, rfl, rfl, rfl, rfl, rfl, rfl,
    Or.inl rfl⟩

theorem runs_congr {p q : Psv} (h1 : p.seq = q.seq) (h2 : p.power = q.power) : storeRuns p = storeRuns q := by
  unfold storeRuns; rw [h1, h2]

theorem takes_congr {p q : Psv} (h1 : p.seq = q.seq) (h2 : p.power = q.power) : storeTakes p = storeTakes q := by
  unfold storeTakes; rw [h1, h2]

theorem tamperStart_trans {s t u : State} (h : TamperStartFrame s t) (k : TamperStartFrame t u) : TamperStartFrame s u
    := ⟨k.1.trans h.1, k.2.trans h.2, k.3.trans h.3, k.4.trans h.4, k.5.trans h.5, k.6.trans h.6, k.7.trans h.7,
    k.8.trans h.8, k.9.trans h.9, k.10.trans h.10, by
  rcases k.11 with a | a
  · rcases h.11 with b | b
    · exact Or.inl (a.trans b)
    · exact Or.inr b
  · exact Or.inr (by rw [← runs_congr h.5 h.6]; exact a)⟩

theorem tamperStart_arrive (o) (s : State) : TamperStartFrame s (arrive o s) := by
  have p := arrive_parts o s
  have g := (outside_arrive o s).3
  refine ⟨p.1, p.2.2.1, p.2.2.2.2.2.2.2.2.2.1, p.2.2.2.2.2.1,
      by rw [p.2.2.2.1], by rw [p.2.2.2.1], by rw [p.2.2.2.1], by rw [p.2.2.2.1], g.fault, g.copy, ?_⟩
  · unfold arrive; split
    · exact Or.inl rfl
    · unfold runArbiter; split
      · rename_i h; exact Or.inr h
      · left; show (enqueue o s.stc).erase = _; unfold enqueue; dsimp only; repeat' split
        all_goals rfl

theorem tamperStart_ite {s a b : State} {p : Prop} [Decidable p] (ha : TamperStartFrame s a) (hb : TamperStartFrame s b)
    : TamperStartFrame s (if p then a else b) := by
  split
  · exact ha
  · exact hb

theorem tamperStart_ever (k) (s : State) : TamperStartFrame s (programEver k s) :=
    tamperStart_ite (tamperStart_refl s) (tamperStart_arrive _ s)

theorem tamperStart_agree (s : State) : TamperStartFrame s (tamperAgree s) := by
  obtain ⟨a1, a2, a3, a4, a5, a6, a7, a8⟩ := agree_all s
  exact ⟨a2, a3, a8, a5, by rw [a6], by rw [a6], by rw [a6], by rw [a6], by rw [a7], by rw [a7], Or.inl (by rw [a7])⟩

theorem clockChecked_parts (s : State) : (clockChecked s).bat = s.bat ∧ (clockChecked s).psv = s.psv ∧
    (clockChecked s).flash = s.flash ∧ (clockChecked s).stc = s.stc ∧ (clockChecked s).swc = s.swc ∧
    (clockChecked s).cau = s.cau ∧ (clockChecked s).exc = s.exc ∧ (clockChecked s).ce.money = s.ce.money ∧
    (s.bat.clockValid = true → (clockChecked s).ce = s.ce ∧ (clockChecked s).ee = s.ee) ∧ (s.bat.clockValid = false →
        (clockChecked s).ce.window = false ∧ ∀ w, (clockChecked s).ee.interval = some w →
        w.flags.clockInvalid = true) := by
  unfold clockChecked
  cases h : s.bat.clockValid
  · simp only [Bool.false_eq_true, if_false]
    refine ⟨rfl, rfl, rfl, rfl, rfl, rfl, rfl, rfl, fun h => by simp at h, fun _ => ⟨rfl, ?_⟩⟩
    intro w hw
    change s.ee.interval.map _ = some w at hw
    cases hi : s.ee.interval with
    | none => rw [hi] at hw; cases hw
    | some x => rw [hi] at hw; cases hw; rfl
  · exact ⟨rfl, rfl, rfl, rfl, rfl, rfl, rfl, rfl, fun _ => ⟨rfl, rfl⟩, fun h => by simp at h⟩

/-- An open interval flagged CLOCK_INVALID stays flagged. -/
def FlagKept (s t : State) : Prop := (∀ w, s.ee.interval = some w → w.flags.clockInvalid = true) → ∀ w,
    t.ee.interval = some w → w.flags.clockInvalid = true

theorem flagKept_of {s t : State} (h : t.ee.interval = s.ee.interval) : FlagKept s t :=
    fun k w hw => k w (by rw [← h]; exact hw)

theorem flagKept_trans {s t u : State} (h : FlagKept s t) (k : FlagKept t u) : FlagKept s u := fun a => k (h a)

theorem flagKept_flag (f : ProfileFlags → ProfileFlags) (hf : ∀ g,
    (f g).clockInvalid = g.clockInvalid) (s : State) : FlagKept s (flagInterval f s) := by
  intro k w hw
  change s.ee.interval.map _ = some w at hw
  cases hi : s.ee.interval with
  | none => rw [hi] at hw; cases hw
  | some x => rw [hi] at hw; cases hw; rw [show _ = _ from hf x.flags]; exact k x hi

theorem flagKept_ite {s a b : State} {p : Prop} [Decidable p] (ha : FlagKept s a) (hb : FlagKept s b) : FlagKept s (if p
    then a else b) := by
  split
  · exact ha
  · exact hb

theorem flagKept_setSwitch (w) (s : State) : FlagKept s (setSwitch w s) := by
  unfold setSwitch; dsimp only
  refine flagKept_ite (flagKept_of rfl) (flagKept_trans ?_ (flagKept_flag (fun g => { g with supplyOpen := true }) (fun
      _ => rfl) _))
  exact flagKept_of rfl

theorem flagKept_beginDrive (d) (s : State) : FlagKept s (beginDrive d s) :=
    flagKept_trans (flagKept_setSwitch _ s) (flagKept_of rfl)

theorem flagKept_respond (b) (s : State) : FlagKept s (respond b s) := by
  unfold respond
  repeat' split
  all_goals first
    | exact flagKept_of rfl
    | exact flagKept_setSwitch _ _
    | exact flagKept_beginDrive _ _

theorem flagKept_agree (s : State) : FlagKept s (tamperAgree s) := by
  unfold tamperAgree addReason removeReason
  refine flagKept_ite (flagKept_ite (flagKept_of rfl) (flagKept_trans ?_ (flagKept_respond _ _))) (flagKept_ite
      (flagKept_trans ?_ (flagKept_respond _ _)) (flagKept_of rfl))
  · exact flagKept_of rfl
  · exact flagKept_of rfl

theorem flagKept_arrive (o) (s : State) : FlagKept s (arrive o s) := flagKept_of (by rw [(arrive_parts o s).2.2.2.2.1])

/-- WATCH_LOST at a cold start -/
theorem declareWatchLost_parts (s : State) (hp : s.psv.power = .battery) (hq : s.psv.seq ≠ none) :
    let r := s.bat.kinds.get .watchLost
    let t := declareWatchLost s
    TamperStartFrame s t ∧ FlagKept s t ∧ t.bat = { s.bat with kinds := s.bat.kinds.set .watchLost { r with
      state := .declared, count := min 65535 (r.count + 1), last := some s.bat.clock, first :=
          match r.first with | some t => some t | none => some s.bat.clock } } ∧
    t.psv = { s.psv with startNotices := s.psv.startNotices ++ [.tamperDeclared .watchLost false r.counter (min 65535 (r.count + 1)) s.bat.clock] }
        ∧ (s.stc.fault = false → OpTaken (.save .tamper) t.stc) := by
  dsimp only
  unfold declareWatchLost declareWith
  dsimp only
  generalize hm : countDeclaration .watchLost s = m
  have m0 : TamperStartFrame s m ∧ m.psv = s.psv ∧ m.stc = s.stc ∧ FlagKept s m :=
      by rw [← hm]; exact ⟨⟨rfl, rfl, rfl, rfl, rfl, rfl, rfl, rfl, rfl, rfl, Or.inl rfl⟩, rfl, rfl, flagKept_of rfl⟩
  have m1 : m.bat = { s.bat with kinds := s.bat.kinds.set .watchLost { s.bat.kinds.get .watchLost with
      state := .declared, count := min 65535 ((s.bat.kinds.get .watchLost).count + 1), last := some s.bat.clock,
          first := match (s.bat.kinds.get .watchLost).first with | some t => some t | none => some s.bat.clock
          } } := by rw [← hm]; rfl
  generalize hf : flagInterval (fun g => { g with tamper := true }) m = f
  have f0 : TamperStartFrame m f ∧ f.psv = m.psv ∧ f.bat = m.bat ∧ f.stc = m.stc ∧ FlagKept m f :=
      by rw [← hf]; exact ⟨⟨rfl, rfl, rfl, rfl, rfl, rfl, rfl, rfl, rfl, rfl, Or.inl rfl⟩, rfl, rfl, rfl, flagKept_flag (fun g => { g with tamper := true }) (fun _ => rfl) _⟩
  have a := agree_all f
  have ta := tamperStart_agree f
  have fa := flagKept_agree f
  generalize tamperAgree f = a1 at *
  have te := tamperStart_ever .watchLost a1
  have pe : (programEver .watchLost a1).bat = a1.bat ∧ (programEver .watchLost a1).psv = a1.psv ∧
      FlagKept a1 (programEver .watchLost a1) := by
    unfold programEver
    split
    · exact ⟨rfl, rfl, flagKept_of rfl⟩
    · exact ⟨(arrive_parts _ _).2.1, (arrive_parts _ _).2.2.2.1, flagKept_arrive _ _⟩
  generalize programEver .watchLost a1 = e at *
  generalize (⟨e.bat.clock, .watchLost, .declared, .off, .unknown, e.ce.money.b, 0⟩ : TamperEntry) = en
  have tb := tamperStart_arrive (.append (.log en)) e
  have pb := arrive_parts (.append (.log en)) e
  have fb := flagKept_arrive (.append (.log en)) e
  generalize arrive (.append (.log en)) e = b at *
  have tc := tamperStart_arrive (.save .tamper) b
  have pc := arrive_parts (.save .tamper) b
  have fc := flagKept_arrive (.save .tamper) b
  have tall := tamperStart_trans (tamperStart_trans (tamperStart_trans (tamperStart_trans (tamperStart_trans m0.1 f0.1)
      ta) te) tb) tc
  have tbs := tamperStart_trans (tamperStart_trans (tamperStart_trans (tamperStart_trans m0.1 f0.1) ta) te) tb
  have sv : s.stc.fault = false → OpTaken (.save .tamper) (arrive (.save .tamper) b).stc :=
      fun h => opTaken_arrive_new _ _ (fun _ _ _ => by simp) (by rw [tbs.fault]; exact h) (by
    rw [takes_congr (q := s.psv) tbs.seq tbs.power]; unfold storeTakes; rw [hp]; dsimp only; cases hs : s.psv.seq with
    | none => exact absurd hs hq
    | some _ => rfl) (fun _ h => by cases h) (fun ⟨_, h⟩ => by cases h)
  generalize arrive (.save .tamper) b = c at *
  have hpow : (c.psv.power == .run) = false := by rw [tall.power, hp]; rfl
  have hcb : c.bat = m.bat := by rw [pc.2.1, pb.2.1, pe.1, a.2.2.2.1, f0.2.2.1]
  have hcp : c.psv = s.psv := by rw [pc.2.2.2.1, pb.2.2.2.1, pe.2.1, a.2.2.2.2.2.1, f0.2.1, m0.2.1]
  have han : ∀ x, announceDeclared x c = keepNotice x c := by intro x; unfold announceDeclared; rw [hpow]; rfl
  rw [han]
  refine ⟨?_, ?_, ?_, ?_, sv⟩
  · exact tamperStart_trans tall ⟨rfl, rfl, rfl, rfl, rfl, rfl, rfl, rfl, rfl, rfl, Or.inl rfl⟩
  · exact flagKept_trans (flagKept_trans (flagKept_trans (flagKept_trans (flagKept_trans (flagKept_trans m0.2.2.2
      f0.2.2.2.2) fa) pe.2.2) fb) fc) (flagKept_of rfl)
  · show c.bat = _; rw [hcb, m1]
  · have hkn : ∀ x, (keepNotice x c).psv = { c.psv with startNotices := c.psv.startNotices ++ [x] } := fun x => rfl
    rw [hkn, hcp, hcb, m1, perKind_get_set_same]

/-- What waits, or is in progress, goes on so. -/
def TakenKept (s t : State) : Prop := ∀ o, (∀ b c g, o ≠ .erase b c g) → (∀ b, o = .bit b →
    bitOf s.stc.copy b = false) → OpTaken o s.stc → OpTaken o t.stc

theorem takenKept_of {s t : State} (h : t.stc = s.stc) : TakenKept s t := fun _ _ _ k => by rw [h]; exact k

theorem takenKept_arrive (o) (s : State) : TakenKept s (arrive o s) := fun _ hn hb h => opTaken_arrive o s hn hb h

theorem takenKept_trans {s t u : State} (ha : TamperStartFrame s t) (h : TakenKept s t) (k : TakenKept t u) : TakenKept
    s u := fun o hn hb x => k o hn (fun b e => by rw [ha.copy]; exact hb b e) (h o hn hb x)

theorem takenKept_ever (k) (s : State) : TakenKept s (programEver k s) := by
  unfold programEver; split
  · exact takenKept_of rfl
  · exact takenKept_arrive _ _

theorem appends_save (k) (s : State) : appends (arrive (.save k) s).stc.queue ≤ appends s.stc.queue := by
  have he : appends (enqueue (.save k) s.stc).queue ≤ appends s.stc.queue := by
    unfold enqueue; dsimp only
    unfold appends; simp [isAppend]
  unfold arrive; split
  · exact Nat.le_refl _
  · unfold runArbiter; split
    · exact Nat.le_trans (appends_arb _ _ _) he
    · exact he

theorem programEver_parts (k) (s : State) : (programEver k s).bat = s.bat ∧ (programEver k s).psv = s.psv ∧
    (programEver k s).swc = s.swc ∧ appends (programEver k s).stc.queue ≤ appends s.stc.queue ∧
    (s.stc.fault = false → storeTakes s.psv = true → bitOf s.stc.copy (.ever k) = false →
        OpTaken (.bit (.ever k)) (programEver k s).stc) := by
  unfold programEver
  split
  · rename_i h; exact ⟨rfl, rfl, rfl, Nat.le_refl _, fun _ _ h2 => by rw [h] at h2; simp at h2⟩
  · rename_i h
    have p := arrive_parts (.bit (.ever k)) s
    exact ⟨p.2.1, p.2.2.2.1, p.2.2.2.2.2.2.1, appends_bit _ _,
        fun h1 h2 h3 => opTaken_arrive_new _ _ (fun _ _ _ =>
        by simp) h1 h2 (fun b e => by cases e; exact h3) (fun ⟨_, e⟩ => by cases e)⟩

/-- The notice of an outage note. -/
def noteOf (b : Bat) (k : Kind) : Option NoticeBody := (b.notes.get k).map (fun e => .tamperDeclared k true e.counter
    (b.kinds.get k).count e.time)

/-- Outage notes processed for the kinds of a list. -/
structure NotesProcessed (l : List Kind) (s t : State) : Prop where
  ta : TamperStartFrame s t
  tkp : TakenKept s t
  swc : t.swc = s.swc
  bat : ∃ n, t.bat = { s.bat with notes := n } ∧ ∀ j, n.get j = if j ∈ l then none else s.bat.notes.get j
  psv : t.psv = { s.psv with startNotices := s.psv.startNotices ++ l.filterMap (noteOf s.bat) }
  app : appends t.stc.queue ≤ appends s.stc.queue + l.length
  new : s.stc.fault = false → storeTakes s.psv = true → ∀ j ∈ l, ∀ e, s.bat.notes.get j = some e →
    (bitOf s.stc.copy (.ever j) = false → OpTaken (.bit (.ever j)) t.stc) ∧ OpTaken (.save .tamper) t.stc ∧
        (appends s.stc.queue + l.length ≤ 32 → OpTaken (.append (.log e)) t.stc)

theorem processNote_processed (s : State) (k : Kind) : NotesProcessed [k] s (processNote s k) := by
  unfold processNote
  cases hn : s.bat.notes.get k with
  | none =>
    refine ⟨tamperStart_refl s, takenKept_of rfl, rfl, ⟨s.bat.notes, rfl, ?_⟩, ?_, Nat.le_add_right _ _, ?_⟩
    · intro j; simp only [List.mem_singleton]; split
      · rename_i h; rw [h, hn]
      · rfl
    · simp [noteOf, hn]
    · intro _ _ j hj e he; rw [List.mem_singleton] at hj; rw [hj, hn] at he; simp at he
  | some e =>
    dsimp only
    have ta1 := tamperStart_arrive (.append (.log e)) s
    have p1 := arrive_parts (.append (.log e)) s
    have k1 := takenKept_arrive (.append (.log e)) s
    have a1 := appends_append (.log e) s
    have n1 : s.stc.fault = false → storeTakes s.psv = true → appends s.stc.queue < 32 →
        OpTaken (.append (.log e)) (arrive (.append (.log e)) s).stc :=
        fun h1 h2 h3 => opTaken_arrive_new _ _ (fun _ _ _ => by simp) h1 h2 (fun _ e => by cases e) (fun _ => h3)
    generalize arrive (.append (.log e)) s = a at *
    have ta2 := tamperStart_ever k a
    obtain ⟨p2, p2', p2'', a2, n2⟩ := programEver_parts k a
    have k2 := takenKept_ever k a
    generalize programEver k a = b at *
    have ta3 := tamperStart_arrive (.save .tamper) b
    have p3 := arrive_parts (.save .tamper) b
    have k3 := takenKept_arrive (.save .tamper) b
    have a3 := appends_save .tamper b
    have tab := tamperStart_trans ta1 ta2
    have n3 : s.stc.fault = false → storeTakes s.psv = true → OpTaken (.save .tamper) (arrive (.save .tamper) b).stc :=
        fun h1 h2 => opTaken_arrive_new _ _ (fun _ _ _ =>
        by simp) (by rw [tab.fault]; exact h1) (by rw [takes_congr tab.seq tab.power]; exact h2) (fun _ e => by cases e) (fun ⟨_, e⟩ => by cases e)
    generalize arrive (.save .tamper) b = c at *
    have tac := tamperStart_trans tab ta3
    have cb : c.bat = s.bat := by rw [p3.2.1, p2, p1.2.1]
    have cp : c.psv = s.psv := by rw [p3.2.2.2.1, p2', p1.2.2.2.1]
    refine ⟨tamperStart_trans tac ⟨rfl, rfl, rfl, rfl, rfl, rfl, rfl, rfl, rfl, rfl, Or.inl rfl⟩, ?_, ?_,
        ⟨c.bat.notes.set k none, ?_, ?_⟩, ?_, ?_, ?_⟩
    · have := takenKept_trans tab (takenKept_trans ta1 k1 k2) k3; exact this
    · show c.swc = _; rw [p3.2.2.2.2.2.2.1, p2'', p1.2.2.2.2.2.2.1]
    · show { c.bat with notes := c.bat.notes.set k none } = _; rw [cb]
    · intro j; rw [cb]; simp only [List.mem_singleton]
      split
      · rename_i h; rw [h, perKind_get_set_same]
      · rename_i h; revert h; cases k <;> cases j <;> intro h <;> first | rfl | exact absurd rfl h
    · have hk : ∀ x (y : State), (keepNotice x y).psv = { y.psv with startNotices := y.psv.startNotices ++ [x] } :=
        fun _ _ => rfl
      rw [hk]
      dsimp only
      rw [cp, cb]
      simp only [noteOf, List.filterMap_cons, hn, Option.map_some, List.filterMap_nil]
    · show appends c.stc.queue ≤ _; simp only [List.length_singleton]; omega
    · intro h1 h2 j hj e' he
      rw [List.mem_singleton] at hj
      subst hj
      rw [hn] at he; cases he
      refine ⟨?_, n3 h1 h2, ?_⟩
      · intro hb
        refine k3 _ (fun _ _ _ =>
            by simp) (fun b e => by cases e; rw [tab.copy]; exact hb) (n2 (by rw [ta1.fault]; exact h1) (by rw [takes_congr ta1.seq ta1.power]; exact h2) (by rw [ta1.copy]; exact hb))
      · intro hl
        simp only [List.length_singleton] at hl
        exact k3 _ (fun _ _ _ =>
            by simp) (fun _ e => by cases e) (k2 _ (fun _ _ _ => by simp) (fun _ e => by cases e) (n1 h1 h2 (by omega)))

theorem filterMap_congr_on {α β : Type} {f g : α → Option β} : ∀ (l : List α), (∀ x ∈ l, f x = g x) →
    l.filterMap f = l.filterMap g
  | [], _ => rfl
  | x :: l, h => by
    rw [List.filterMap_cons, List.filterMap_cons, h x (by simp), filterMap_congr_on l (fun y hy => h y (by simp [hy]))]

theorem processNotes_processed : ∀ (l : List Kind) (s : State), l.Nodup → NotesProcessed l s (l.foldl processNote s)
  | [], s, _ => ⟨tamperStart_refl s, takenKept_of rfl, rfl, ⟨s.bat.notes, rfl,
      fun j => by simp⟩, by simp, Nat.le_refl _, fun _ _ j hj => by simp at hj⟩
  | k :: l, s, hd => by
    rw [List.nodup_cons] at hd
    have a := processNote_processed s k
    have b := processNotes_processed l (processNote s k) hd.2
    show NotesProcessed (k :: l) s (l.foldl processNote (processNote s k))
    generalize processNote s k = m at *
    generalize l.foldl processNote m = t at *
    obtain ⟨n1, hn1, hg1⟩ := a.bat
    obtain ⟨n2, hn2, hg2⟩ := b.bat
    have hmn : ∀ j, j ∈ l → m.bat.notes.get j = s.bat.notes.get j := by
      intro j hj
      rw [hn1]; show n1.get j = _; rw [hg1, if_neg]
      simp only [List.mem_singleton]; intro e; exact hd.1 (e ▸ hj)
    refine ⟨tamperStart_trans a.ta b.ta, takenKept_trans a.ta a.tkp b.tkp, b.swc.trans a.swc, ⟨n2, ?_, ?_⟩, ?_, ?_, ?_⟩
    · rw [hn2, hn1]
    · intro j; rw [hg2, hn1]; show (if j ∈ l then none else n1.get j) = _; rw [hg1]
      by_cases h1 : j ∈ l <;> by_cases h2 : j = k <;> simp [h1, h2]
    · rw [b.psv, a.psv]
      have hf : ∀ j ∈ l, noteOf m.bat j = noteOf s.bat j := by
        intro j hj; unfold noteOf; rw [hmn j hj, hn1]
      have : l.filterMap (noteOf m.bat) = l.filterMap (noteOf s.bat) := by
        exact filterMap_congr_on l hf
      rw [this]
      have h2 : (k :: l).filterMap (noteOf s.bat) = [k].filterMap (noteOf s.bat) ++ l.filterMap (noteOf s.bat) := by
        rw [← List.filterMap_append]; rfl
      rw [h2, ← List.append_assoc]
    · have := a.app; have := b.app; simp only [List.length_cons, List.length_nil] at *; omega
    · intro h1 h2 j hj e he
      have mf : m.stc.fault = false := by rw [a.ta.fault]; exact h1
      have mt : storeTakes m.psv = true := by rw [takes_congr a.ta.seq a.ta.power]; exact h2
      by_cases hl : j ∈ l
      · obtain ⟨x1, x2, x3⟩ := b.new mf mt j hl e (by rw [hmn j hl]; exact he)
        refine ⟨fun h => x1 (by rw [a.ta.copy]; exact h), x2, fun h => x3 ?_⟩
        have := a.app; simp only [List.length_cons, List.length_nil] at *; omega
      · have hk : j = k := by simp only [List.mem_cons] at hj; exact hj.resolve_right hl
        obtain ⟨x1, x2, x3⟩ := a.new h1 h2 j (by simp [hk]) e he
        refine ⟨fun h => b.tkp _ (fun _ _ _ =>
            by simp) (fun b' e' => by cases e'; rw [a.ta.copy]; exact h) (x1 h), b.tkp _ (fun _ _ _ => by simp) (fun _ e' => by cases e') x2, fun h => b.tkp _ (fun _ _ _ => by simp) (fun _ e' => by cases e') (x3 ?_)⟩
        simp only [List.length_cons, List.length_nil] at *; omega

/-- The ever bits checked for the kinds of a list. -/
structure EverChecked (l : List Kind) (s t : State) : Prop where
  ta : TamperStartFrame s t
  tkp : TakenKept s t
  swc : t.swc = s.swc
  bat : t.bat = s.bat
  psv : t.psv = s.psv
  new : s.stc.fault = false → storeTakes s.psv = true → ∀ j ∈ l, 0 < (s.bat.kinds.get j).count →
      bitOf s.stc.copy (.ever j) = false → OpTaken (.bit (.ever j)) t.stc

theorem everChecks_checked : ∀ (l : List Kind) (s : State), EverChecked l s (l.foldl everCheck s)
  | [], s => ⟨tamperStart_refl s, takenKept_of rfl, rfl, rfl, rfl, fun _ _ j hj => by simp at hj⟩
  | k :: l, s => by
    have a : EverChecked [k] s (everCheck s k) := by
      unfold everCheck
      split
      · obtain ⟨e1, e2, e3, e4, e5⟩ := programEver_parts k s
        exact ⟨tamperStart_ever k s, takenKept_ever k s, e3, e1, e2,
            fun h1 h2 j hj _ h4 => by rw [List.mem_singleton] at hj; subst hj; exact e5 h1 h2 h4⟩
      · rename_i h
        exact ⟨tamperStart_refl s, takenKept_of rfl, rfl, rfl, rfl,
            fun _ _ j hj h3 _ => by rw [List.mem_singleton] at hj; subst hj; exact absurd h3 h⟩
    have b := everChecks_checked l (everCheck s k)
    show EverChecked (k :: l) s (l.foldl everCheck (everCheck s k))
    generalize everCheck s k = m at *
    generalize l.foldl everCheck m = t at *
    refine ⟨tamperStart_trans a.ta b.ta, takenKept_trans a.ta a.tkp b.tkp, b.swc.trans a.swc, b.bat.trans a.bat,
        b.psv.trans a.psv, ?_⟩
    intro h1 h2 j hj h3 h4
    simp only [List.mem_cons] at hj
    rcases hj with hj | hj
    · exact b.tkp _ (fun _ _ _ =>
        by simp) (fun _ e => by cases e; rw [a.ta.copy]; exact h4) (a.new h1 h2 j (by simp [hj]) h3 h4)
    · exact b.new (by rw [a.ta.fault]; exact h1) (by rw [takes_congr a.ta.seq a.ta.power]; exact h2) j hj
        (by rw [a.bat]; exact h3) (by rw [a.ta.copy]; exact h4)

theorem mem_kinds (k : Kind) : k ∈ kinds := by cases k <;> decide

theorem mem_entryBlocks (b) : b ∈ entryBlocks ↔ 2 ≤ b ∧ b < 36 := by
  unfold entryBlocks areaBlocks
  simp only [List.mem_append, List.mem_cons, List.not_mem_nil, or_false, List.mem_map, List.mem_range]
  constructor
  · rintro ((h | h) | ⟨n, h1, h2⟩) <;> omega
  · rintro ⟨h1, h2⟩
    by_cases h : b < 4
    · left; omega
    · right; exact ⟨b - 4, by omega, by omega⟩

theorem mem_entryErases (f : Flash) (l : List Nat) (b : Nat) : b ∈ entryErases f l ↔ (2 ≤ b ∧ b < 36) ∧
    (b ∈ l ∨ gapIn f b = true ∨ ∃ g, (b, g) ∈ f.removed) := by
  have hr : f.removed.any (fun x => x.1 == b) = true ↔ ∃ g, (b, g) ∈ f.removed := by
    rw [List.any_eq_true]
    constructor
    · rintro ⟨⟨a, g⟩, h1, h2⟩
      have : a = b := by simpa using h2
      exact ⟨g, this ▸ h1⟩
    · rintro ⟨g, h⟩; exact ⟨(b, g), h, by simp⟩
  unfold entryErases
  simp only
      [List.mem_append, List.mem_filter, mem_entryBlocks, List.contains_iff_mem, Bool.and_eq_true, Bool.not_eq_true']
  rw [hr]
  by_cases h1 : b ∈ l <;> cases h2 : gapIn f b <;> simp [h1, List.contains_iff_mem]

/-- An entry area as the start rebuilds it. -/
def Rebuilt (f : Flash) (a : Area) (t : State) : Prop :=
  (goodEntries f a = [] → headOfArea t a = Head.empty ∧ posOf t.stc a = ⟨0, 0⟩) ∧
        ∀ n x, newestEntry (goodEntries f a) = some (n, x) → headOfArea t a = ⟨(goodEntries f a).length, n, x⟩ ∧
          (posOf t.stc a).nextSeq = (x + 1) % 65536 ∧
          (judge (placeAt (placesOf f a) ((n + 1) % areaSize a)) = .erased →
            (posOf t.stc a).place = (n + 1) % areaSize a)

theorem posOf_putPos_same (t a p) : posOf (putPos t a p) a = p := by cases a <;> rfl

theorem rebuildArea_rebuilt (a) (s : State) : Rebuilt s.flash a (rebuildArea a s) := by
  unfold rebuildArea
  dsimp only
  refine ⟨?_, ?_⟩
  · intro h; rw [h]
    have hn : newestEntry ([] : List (Nat × Nat)) = none := rfl
    rw [hn]; dsimp only
    refine ⟨headOfArea_putHead _ _ _, ?_⟩
    rw [(putHead_parts _ _ _).2.2.2.2.2.1]; exact posOf_putPos_same _ _ _
  · intro n x h; rw [h]
    refine ⟨headOfArea_putHead _ _ _, ?_, ?_⟩
    · rw [(putHead_parts _ _ _).2.2.2.2.2.1]; show (posOf (putPos _ _ _) a).nextSeq = _; rw [posOf_putPos_same]
    · intro he
      rw [(putHead_parts _ _ _).2.2.2.2.2.1]; show (posOf (putPos _ _ _) a).place = _; rw [posOf_putPos_same]
      have : ∃ k, areaSize a = k + 1 := by cases a <;> exact ⟨_, rfl⟩
      obtain ⟨k, hk⟩ := this
      show erasedFrom a _ _ (areaSize a) (nextPlaceIn a n) = _
      rw [hk]; unfold erasedFrom
      have he' : judge (placeAt (placesOf s.flash a) (nextPlaceIn a n)) = .erased := he
      rw [if_pos he', ← hk]; rfl

theorem rebuildArea_frame (a) (s : State) : (rebuildArea a s).flash = s.flash ∧ (rebuildArea a s).ce = s.ce ∧
    (rebuildArea a s).swc = s.swc ∧ (rebuildArea a s).bat = s.bat ∧ (rebuildArea a s).psv = s.psv ∧
    (rebuildArea a s).stc.fault = s.stc.fault ∧ (rebuildArea a s).stc.startErases = s.stc.startErases ∧
    (∀ b, b ≠ a → headOfArea (rebuildArea a s) b = headOfArea s b ∧ posOf (rebuildArea a s).stc b = posOf s.stc b) := by
  unfold rebuildArea
  dsimp only
  split
  · rename_i h
    rw [(putHead_parts _ _ _).2.2.2.2.2.1, (putHead_parts _ _ _).2.1, (putHead_parts _ _ _).2.2.1, (putHead_parts _ _ _).2.2.2.1, (putHead_parts _ _ _).2.2.2.2.2.2.1, (putHead_parts _ _ _).2.2.2.2.2.2.2.1]
    refine ⟨rfl, rfl, rfl, rfl, rfl, by cases a <;> rfl, by cases a <;> rfl, ?_⟩
    intro b hb
    cases a <;> cases b <;> first | exact absurd rfl hb | exact ⟨rfl, rfl⟩
  · rw [(putHead_parts _ _ _).2.2.2.2.2.1, (putHead_parts _ _ _).2.1, (putHead_parts _ _ _).2.2.1, (putHead_parts _ _ _).2.2.2.1, (putHead_parts _ _ _).2.2.2.2.2.2.1, (putHead_parts _ _ _).2.2.2.2.2.2.2.1]
    refine ⟨rfl, rfl, rfl, rfl, rfl, by cases a <;> rfl, by cases a <;> rfl, ?_⟩
    intro b hb
    cases a <;> cases b <;> first | exact absurd rfl hb | exact ⟨rfl, rfl⟩

theorem rebuilt_congr {f a} {s t : State} (h1 : headOfArea t a = headOfArea s a) (h2 : posOf t.stc a = posOf s.stc a) (h
    : Rebuilt f a s) : Rebuilt f a t := by
  unfold Rebuilt at *; rw [h1, h2]; exact h

theorem storeRebuilt_parts (s : State) : Rebuilt s.flash .log (storeRebuilt s) ∧
    Rebuilt s.flash .profile (storeRebuilt s) ∧ (storeRebuilt s).flash =
    { s.flash with removed := s.flash.removed.map (fun x => (x.1, 0)) } ∧
    (storeRebuilt s).ce = s.ce ∧ (storeRebuilt s).swc = s.swc ∧ (storeRebuilt s).bat = s.bat ∧
        (storeRebuilt s).psv = (nextStep 5 s).psv ∧ (storeRebuilt s).stc.fault = s.stc.fault := by
  have a1 := rebuildArea_rebuilt .log s
  obtain ⟨f1, f2, f3, f4, f5, f6, f7, f8⟩ := rebuildArea_frame .log s
  generalize hs : rebuildArea .log s = x at *
  have a2 := rebuildArea_rebuilt .profile x
  obtain ⟨g1, g2, g3, g4, g5, g6, g7, g8⟩ := rebuildArea_frame .profile x
  generalize hx : rebuildArea .profile x = y at *
  have hst : storeRebuilt s = runArbiter (nextStep 5
      { y with flash := { y.flash with removed := y.flash.removed.map (fun x => (x.1, 0)) } }) := by
    unfold storeRebuilt; rw [hs, hx]
  obtain ⟨h1, h2⟩ := g8 .log (by simp)
  have b1 : Rebuilt s.flash .log y := rebuilt_congr h1 h2 a1
  have b2 : Rebuilt s.flash .profile y := by rw [f1] at a2; exact a2
  generalize hz : nextStep 5 { y with flash := { y.flash with removed := y.flash.removed.map (fun x => (x.1, 0)) } } = z
      at hst
  have zc : z.toModules = y.toModules ∧ z.bat = y.bat ∧ z.flash =
      { y.flash with removed := y.flash.removed.map (fun x => (x.1, 0)) } ∧ z.psv = (nextStep 5 y).psv :=
      by rw [← hz]; exact ⟨rfl, rfl, rfl, rfl⟩
  obtain ⟨z1, z2, z3, z4⟩ := zc
  have w := runArbiter_parts z
  have wg := (outside_arb z).3
  have wm : (runArbiter z).tmoHead = z.tmoHead ∧ (runArbiter z).ee = z.ee :=
      by unfold runArbiter; split <;> exact ⟨rfl, rfl⟩
  rw [hst]
  generalize runArbiter z = u at *
  obtain ⟨w1, w2, w3, w4, w5, w6, w7, w8, w9⟩ := w
  have hh : ∀ a, headOfArea u a = headOfArea y a := fun a => (headOfArea_congr a wm.1 wm.2).trans (headOfArea_congr a
      (congrArg Modules.tmoHead z1) (congrArg Modules.ee z1))
  have hpos : ∀ a, posOf u.stc a = posOf y.stc a := by
    intro a
    rw [← show z.stc = y.stc from congrArg Modules.stc z1]
    cases a
    · exact wg.logPos
    · exact wg.profPos
  refine ⟨rebuilt_congr (hh _) (hpos _) b1, rebuilt_congr (hh _) (hpos _) b2, ?_, ?_, ?_, ?_, ?_, ?_⟩
  · rw [w8, z3, g1, f1]
  · rw [w3, show z.ce = y.ce from congrArg Modules.ce z1, g2, f2]
  · rw [w7, show z.swc = y.swc from congrArg Modules.swc z1, g3, f3]
  · rw [w2, z2, g4, f4]
  · have hn : ∀ a : State, (nextStep 5 a).psv = { a.psv with seq := a.psv.seq.map (fun q => { q with next := 5 }) } :=
      fun _ => rfl
    rw [w4, z4, hn, hn, g5, f5]
  · rw [wg.fault, show z.stc = y.stc from congrArg Modules.stc z1, g6, f6]

end Sys2Proof.Machine
end

