-- ==== Sys2Proof/Laws/PerInstr.lean ====
section
/-! SUPPORT. Laws/PerInstr.lean: the family Command: for each command, its check says exactly that its data are in the
ranges the spec gives. -/

namespace Sys2Proof.Laws.Command

open Sys2Proof

/-- P_raw, iRes, the magnetic samples and the order of hand-offs in their ranges (section 1.1, R107; log 6). -/
def PeriodRanges (p : PeriodInput) : Prop :=
  (∀ r ∈ [p.phases.a, p.phases.b, p.phases.c], -67108863 ≤ r.pRaw ∧ r.pRaw ≤ 67108863) ∧ p.iRes ≤ 160000 ∧
    p.magnetHits ≤ 3200 ∧ p.order.length = 7 ∧ ∀ a ∈ Arrival.all, a ∈ p.order

/-- The ranges of a command's data; the types of the other operands hold theirs. -/
def InRange : Instr → Prop
  | .periodEnd p => PeriodRanges p
  | .loadTrip t => t ≤ 132000000
  | .magnetSamplerSecond n => n ≤ 32
  | .settleTimerExpiry _ n => 1 ≤ n ∧ n ≤ 9
  | .voidCommand c _ => c ≠ 0xA1 ∧ c ≠ 0xA2 ∧ c ≠ 0xA4
  | _ => True

/-- The check of a command says that its data are in range. -/
def Statement (c : Instr) : Prop := c.wf = true ↔ InRange c

theorem of_true {c : Instr} (h : c.wf = true) (k : InRange c) : Statement c := ⟨fun _ => k, fun _ => h⟩

theorem periodEnd (p : PeriodInput) : Statement (.periodEnd p) :=
    by
  unfold Statement InRange PeriodRanges Instr.wf PeriodInput.wf PhaseResult.wf
  simp only [Bool.and_eq_true, decide_eq_true_eq, List.all_eq_true, List.contains_iff_mem, List.forall_mem_cons,
    List.not_mem_nil, false_implies, implies_true, and_true, and_assoc]

theorem loadTrip (tPrime : Nat) : Statement (.loadTrip tPrime) := by simp [Statement, InRange, Instr.wf]

theorem tripMemoryQuiet : Statement .tripMemoryQuiet := of_true rfl trivial

theorem minuteTimerExpiry : Statement .minuteTimerExpiry := of_true rfl trivial

theorem blockTimerExpiry (src : Source) : Statement (.blockTimerExpiry src) := of_true rfl trivial

theorem keyPress (k : Key) : Statement (.keyPress k) := of_true rfl trivial

theorem keypadIdleTimerExpiry : Statement .keypadIdleTimerExpiry := of_true rfl trivial

theorem codeDecision : Statement .codeDecision := of_true rfl trivial

theorem packageDecision : Statement .packageDecision := of_true rfl trivial

theorem radioCall (bytes : List Byte) : Statement (.radioCall bytes) := of_true rfl trivial

theorem radioGapTimerExpiry : Statement .radioGapTimerExpiry := of_true rfl trivial

theorem buttonPress : Statement .buttonPress := of_true rfl trivial

theorem coilPulseEnd : Statement .coilPulseEnd := of_true rfl trivial

theorem driveConfirm (v : PerPhase PhaseVolts) : Statement (.driveConfirm v) := of_true rfl trivial

theorem recoveryTimerExpiry : Statement .recoveryTimerExpiry := of_true rfl trivial

theorem coverChange (cover : Cover) (toOpen : Bool) : Statement (.coverChange cover toOpen) := of_true rfl trivial

theorem magnetSamplerSecond (hits : Nat) : Statement (.magnetSamplerSecond hits) :=
    by simp [Statement, InRange, Instr.wf]

theorem programRecordDone (verify : RecordVerify) : Statement (.programRecordDone verify) := of_true rfl trivial

theorem programEntryDone (pass : Bool) : Statement (.programEntryDone pass) := of_true rfl trivial

theorem programBitDone (pass : Bool) : Statement (.programBitDone pass) := of_true rfl trivial

theorem eraseBlockDone (pass : Bool) : Statement (.eraseBlockDone pass) := of_true rfl trivial

theorem eraseSuspended : Statement .eraseSuspended := of_true rfl trivial

theorem suspendGuardExpiry : Statement .suspendGuardExpiry := of_true rfl trivial

theorem periodicTimerExpiry : Statement .periodicTimerExpiry := of_true rfl trivial

theorem mainsFailingAssert : Statement .mainsFailingAssert := of_true rfl trivial

theorem mainsAppears (v : PerPhase Nat) : Statement (.mainsAppears v) := of_true rfl trivial

theorem mainsPresenceEnds (v : PerPhase Nat) : Statement (.mainsPresenceEnds v) := of_true rfl trivial

theorem mainsFailingDeassert : Statement .mainsFailingDeassert := of_true rfl trivial

theorem batteryExhausted : Statement .batteryExhausted := of_true rfl trivial

theorem settleTimerExpiry (v : PerPhase PhaseVolts) (upTo : Nat) : Statement (.settleTimerExpiry v upTo) :=
    by simp [Statement, InRange, Instr.wf]

theorem read (addr : Option (BitVec 16)) (n : Nat) (rise : Bool) : Statement (.read addr n rise) := of_true rfl trivial

theorem write (addr : Option (BitVec 16)) (data : List Byte) (rise : Bool) : Statement (.write addr data rise) :=
    of_true rfl trivial

theorem status (n : Nat) : Statement (.status n) := of_true rfl trivial

theorem voidCommand (cmd : Byte) (n : Nat) : Statement (.voidCommand cmd n) :=
    by
  simp [Statement, InRange, Instr.wf, and_assoc]

theorem slotTake (i : Fin 16) : Statement (.slotTake i) := of_true rfl trivial

theorem slotContinue (i : Fin 16) : Statement (.slotContinue i) := of_true rfl trivial

theorem slotCancel (i : Fin 16) : Statement (.slotCancel i) := of_true rfl trivial

theorem slotFree (i : Fin 16) : Statement (.slotFree i) := of_true rfl trivial

theorem exchangeFault (i : Fin 16) (v : Byte) : Statement (.exchangeFault i v) := of_true rfl trivial

theorem noticeRelease : Statement .noticeRelease := of_true rfl trivial

theorem captureRelease : Statement .captureRelease := of_true rfl trivial

theorem pauseTimerExpiry : Statement .pauseTimerExpiry := of_true rfl trivial

theorem bulkChunk (reads : Nat) : Statement (.bulkChunk reads) := of_true rfl trivial

theorem xrstAssert : Statement .xrstAssert := of_true rfl trivial

theorem xrstDeassert : Statement .xrstDeassert := of_true rfl trivial

theorem applyCode : Statement .applyCode := of_true rfl trivial

theorem applyPackage : Statement .applyPackage := of_true rfl trivial

theorem takeEmergency : Statement .takeEmergency := of_true rfl trivial

theorem setTime : Statement .setTime := of_true rfl trivial

theorem switchOpen : Statement .switchOpen := of_true rfl trivial

theorem switchRelease : Statement .switchRelease := of_true rfl trivial

theorem testSwitch : Statement .testSwitch := of_true rfl trivial

theorem calibrate : Statement .calibrate := of_true rfl trivial

theorem identify : Statement .identify := of_true rfl trivial

theorem installKey : Statement .installKey := of_true rfl trivial

theorem commission : Statement .commission := of_true rfl trivial

theorem readLive : Statement .readLive := of_true rfl trivial

theorem readProfile : Statement .readProfile := of_true rfl trivial

theorem readTamperLog : Statement .readTamperLog := of_true rfl trivial

theorem readEvidence : Statement .readEvidence := of_true rfl trivial

theorem readCodes : Statement .readCodes := of_true rfl trivial

theorem readSettings : Statement .readSettings := of_true rfl trivial

theorem radioLineByte (b : Byte) (framed : Bool) : Statement (.radioLineByte b framed) := of_true rfl trivial

theorem supplyCollapse : Statement .supplyCollapse := of_true rfl trivial

end Sys2Proof.Laws.Command
end

