-- ==== Sys2Proof/Laws/State.lean ====
section
/-! SUPPORT. Laws/State.lean: for each named whole-state update, one lemma per field of State: the fields it leaves, and
the value of the ones it writes. -/

set_option Elab.async false

namespace Sys2Proof.Laws

open Sys2Proof Sys2Proof.Machine

/-! ### complete -/

@[simp] theorem complete_ee (i r flags count results) (s : State) :
    (complete i r flags count results s).ee = s.ee := rfl
@[simp] theorem complete_ce (i r flags count results) (s : State) :
    (complete i r flags count results s).ce = s.ce := rfl
@[simp] theorem complete_cau (i r flags count results) (s : State) :
    (complete i r flags count results s).cau = s.cau := rfl
@[simp] theorem complete_kps (i r flags count results) (s : State) :
    (complete i r flags count results s).kps = s.kps := rfl
@[simp] theorem complete_rlr (i r flags count results) (s : State) :
    (complete i r flags count results s).rlr = s.rlr := rfl
@[simp] theorem complete_swc (i r flags count results) (s : State) :
    (complete i r flags count results s).swc = s.swc := rfl
@[simp] theorem complete_tmoHead (i r flags count results) (s : State) :
    (complete i r flags count results s).tmoHead = s.tmoHead := rfl
@[simp] theorem complete_stc (i r flags count results) (s : State) :
    (complete i r flags count results s).stc = s.stc := rfl
@[simp] theorem complete_bat (i r flags count results) (s : State) :
    (complete i r flags count results s).bat = s.bat := rfl
@[simp] theorem complete_flash (i r flags count results) (s : State) :
    (complete i r flags count results s).flash = s.flash := rfl
@[simp] theorem complete_psv (i r flags count results) (s : State) :
    (complete i r flags count results s).psv = s.psv := rfl
@[simp] theorem complete_exc (i r flags count results) (s : State) :
    (complete i r flags count results s).exc = s.exc.complete i r flags count results := rfl
@[simp] theorem complete_pending (i r flags count results) (s : State) :
    (complete i r flags count results s).pending = s.pending := rfl
@[simp] theorem complete_free (i r flags count results) (s : State) :
    (complete i r flags count results s).free = s.free := rfl

/-! ### popCode -/

@[simp] theorem popCode_ee (s : State) : (popCode s).ee = s.ee := rfl
@[simp] theorem popCode_ce (s : State) : (popCode s).ce = s.ce := rfl
@[simp] theorem popCode_cau (s : State) : (popCode s).cau = s.cau := rfl
@[simp] theorem popCode_kps (s : State) : (popCode s).kps = s.kps := rfl
@[simp] theorem popCode_rlr (s : State) : (popCode s).rlr = s.rlr := rfl
@[simp] theorem popCode_swc (s : State) : (popCode s).swc = s.swc := rfl
@[simp] theorem popCode_tmoHead (s : State) : (popCode s).tmoHead = s.tmoHead := rfl
@[simp] theorem popCode_stc (s : State) : (popCode s).stc = s.stc := rfl
@[simp] theorem popCode_bat (s : State) : (popCode s).bat = s.bat := rfl
@[simp] theorem popCode_flash (s : State) : (popCode s).flash = s.flash := rfl
@[simp] theorem popCode_psv (s : State) : (popCode s).psv = s.psv := rfl
@[simp] theorem popCode_exc (s : State) : (popCode s).exc = { s.exc with code := s.exc.code.pop } := rfl
@[simp] theorem popCode_pending (s : State) : (popCode s).pending = s.pending := rfl
@[simp] theorem popCode_free (s : State) : (popCode s).free = s.free := rfl

/-! ### popControl -/

@[simp] theorem popControl_ee (s : State) : (popControl s).ee = s.ee := rfl
@[simp] theorem popControl_ce (s : State) : (popControl s).ce = s.ce := rfl
@[simp] theorem popControl_cau (s : State) : (popControl s).cau = s.cau := rfl
@[simp] theorem popControl_kps (s : State) : (popControl s).kps = s.kps := rfl
@[simp] theorem popControl_rlr (s : State) : (popControl s).rlr = s.rlr := rfl
@[simp] theorem popControl_swc (s : State) : (popControl s).swc = s.swc := rfl
@[simp] theorem popControl_tmoHead (s : State) : (popControl s).tmoHead = s.tmoHead := rfl
@[simp] theorem popControl_stc (s : State) : (popControl s).stc = s.stc := rfl
@[simp] theorem popControl_bat (s : State) : (popControl s).bat = s.bat := rfl
@[simp] theorem popControl_flash (s : State) : (popControl s).flash = s.flash := rfl
@[simp] theorem popControl_psv (s : State) : (popControl s).psv = s.psv := rfl
@[simp] theorem popControl_exc (s : State) : (popControl s).exc = { s.exc with control := s.exc.control.pop } := rfl
@[simp] theorem popControl_pending (s : State) : (popControl s).pending = s.pending := rfl
@[simp] theorem popControl_free (s : State) : (popControl s).free = s.free := rfl

/-! ### popQuery -/

@[simp] theorem popQuery_ee (s : State) : (popQuery s).ee = s.ee := rfl
@[simp] theorem popQuery_ce (s : State) : (popQuery s).ce = s.ce := rfl
@[simp] theorem popQuery_cau (s : State) : (popQuery s).cau = s.cau := rfl
@[simp] theorem popQuery_kps (s : State) : (popQuery s).kps = s.kps := rfl
@[simp] theorem popQuery_rlr (s : State) : (popQuery s).rlr = s.rlr := rfl
@[simp] theorem popQuery_swc (s : State) : (popQuery s).swc = s.swc := rfl
@[simp] theorem popQuery_tmoHead (s : State) : (popQuery s).tmoHead = s.tmoHead := rfl
@[simp] theorem popQuery_stc (s : State) : (popQuery s).stc = s.stc := rfl
@[simp] theorem popQuery_bat (s : State) : (popQuery s).bat = s.bat := rfl
@[simp] theorem popQuery_flash (s : State) : (popQuery s).flash = s.flash := rfl
@[simp] theorem popQuery_psv (s : State) : (popQuery s).psv = s.psv := rfl
@[simp] theorem popQuery_exc (s : State) :
    (popQuery s).exc = { s.exc with query := s.exc.query.pop, bulk := none } := rfl
@[simp] theorem popQuery_pending (s : State) : (popQuery s).pending = s.pending := rfl
@[simp] theorem popQuery_free (s : State) : (popQuery s).free = s.free := rfl

/-! ### post -/

@[simp] theorem post_ee (body) (s : State) : (post body s).ee = s.ee := rfl
@[simp] theorem post_ce (body) (s : State) : (post body s).ce = s.ce := rfl
@[simp] theorem post_cau (body) (s : State) : (post body s).cau = s.cau := rfl
@[simp] theorem post_kps (body) (s : State) : (post body s).kps = s.kps := rfl
@[simp] theorem post_rlr (body) (s : State) : (post body s).rlr = s.rlr := rfl
@[simp] theorem post_swc (body) (s : State) : (post body s).swc = s.swc := rfl
@[simp] theorem post_tmoHead (body) (s : State) : (post body s).tmoHead = s.tmoHead := rfl
@[simp] theorem post_stc (body) (s : State) : (post body s).stc = s.stc := rfl
@[simp] theorem post_bat (body) (s : State) : (post body s).bat = s.bat := rfl
@[simp] theorem post_flash (body) (s : State) : (post body s).flash = s.flash := rfl
@[simp] theorem post_psv (body) (s : State) : (post body s).psv = s.psv := rfl
@[simp] theorem post_exc (body) (s : State) : (post body s).exc = s.exc.post s.bat.clock body := rfl
@[simp] theorem post_pending (body) (s : State) : (post body s).pending = s.pending := rfl
@[simp] theorem post_free (body) (s : State) : (post body s).free = s.free := rfl

/-! ### keepNotice -/

@[simp] theorem keepNotice_ee (body) (s : State) : (keepNotice body s).ee = s.ee := rfl
@[simp] theorem keepNotice_ce (body) (s : State) : (keepNotice body s).ce = s.ce := rfl
@[simp] theorem keepNotice_cau (body) (s : State) : (keepNotice body s).cau = s.cau := rfl
@[simp] theorem keepNotice_kps (body) (s : State) : (keepNotice body s).kps = s.kps := rfl
@[simp] theorem keepNotice_rlr (body) (s : State) : (keepNotice body s).rlr = s.rlr := rfl
@[simp] theorem keepNotice_swc (body) (s : State) : (keepNotice body s).swc = s.swc := rfl
@[simp] theorem keepNotice_tmoHead (body) (s : State) : (keepNotice body s).tmoHead = s.tmoHead := rfl
@[simp] theorem keepNotice_stc (body) (s : State) : (keepNotice body s).stc = s.stc := rfl
@[simp] theorem keepNotice_bat (body) (s : State) : (keepNotice body s).bat = s.bat := rfl
@[simp] theorem keepNotice_flash (body) (s : State) : (keepNotice body s).flash = s.flash := rfl
@[simp] theorem keepNotice_psv (body) (s : State) :
    (keepNotice body s).psv = { s.psv with startNotices := s.psv.startNotices ++ [body] } := rfl
@[simp] theorem keepNotice_exc (body) (s : State) : (keepNotice body s).exc = s.exc := rfl
@[simp] theorem keepNotice_pending (body) (s : State) : (keepNotice body s).pending = s.pending := rfl
@[simp] theorem keepNotice_free (body) (s : State) : (keepNotice body s).free = s.free := rfl

/-! ### drawFree -/

@[simp] theorem drawFree_ee (s : State) : (drawFree s).ee = s.ee := rfl
@[simp] theorem drawFree_ce (s : State) : (drawFree s).ce = s.ce := rfl
@[simp] theorem drawFree_cau (s : State) : (drawFree s).cau = s.cau := rfl
@[simp] theorem drawFree_kps (s : State) : (drawFree s).kps = s.kps := rfl
@[simp] theorem drawFree_rlr (s : State) : (drawFree s).rlr = s.rlr := rfl
@[simp] theorem drawFree_swc (s : State) : (drawFree s).swc = s.swc := rfl
@[simp] theorem drawFree_tmoHead (s : State) : (drawFree s).tmoHead = s.tmoHead := rfl
@[simp] theorem drawFree_stc (s : State) : (drawFree s).stc = s.stc := rfl
@[simp] theorem drawFree_bat (s : State) : (drawFree s).bat = s.bat := rfl
@[simp] theorem drawFree_flash (s : State) : (drawFree s).flash = s.flash := rfl
@[simp] theorem drawFree_psv (s : State) : (drawFree s).psv = s.psv := rfl
@[simp] theorem drawFree_exc (s : State) : (drawFree s).exc = s.exc := rfl
@[simp] theorem drawFree_pending (s : State) : (drawFree s).pending = s.pending := rfl
@[simp] theorem drawFree_free (s : State) : (drawFree s).free = s.free + 1 := rfl

/-! ### flagInterval -/

@[simp] theorem flagInterval_ee (f) (s : State) :
    (flagInterval f s).ee =
      { s.ee with interval := s.ee.interval.map (fun v => { v with flags := f v.flags }) } := rfl
@[simp] theorem flagInterval_ce (f) (s : State) : (flagInterval f s).ce = s.ce := rfl
@[simp] theorem flagInterval_cau (f) (s : State) : (flagInterval f s).cau = s.cau := rfl
@[simp] theorem flagInterval_kps (f) (s : State) : (flagInterval f s).kps = s.kps := rfl
@[simp] theorem flagInterval_rlr (f) (s : State) : (flagInterval f s).rlr = s.rlr := rfl
@[simp] theorem flagInterval_swc (f) (s : State) : (flagInterval f s).swc = s.swc := rfl
@[simp] theorem flagInterval_tmoHead (f) (s : State) : (flagInterval f s).tmoHead = s.tmoHead := rfl
@[simp] theorem flagInterval_stc (f) (s : State) : (flagInterval f s).stc = s.stc := rfl
@[simp] theorem flagInterval_bat (f) (s : State) : (flagInterval f s).bat = s.bat := rfl
@[simp] theorem flagInterval_flash (f) (s : State) : (flagInterval f s).flash = s.flash := rfl
@[simp] theorem flagInterval_psv (f) (s : State) : (flagInterval f s).psv = s.psv := rfl
@[simp] theorem flagInterval_exc (f) (s : State) : (flagInterval f s).exc = s.exc := rfl
@[simp] theorem flagInterval_pending (f) (s : State) : (flagInterval f s).pending = s.pending := rfl
@[simp] theorem flagInterval_free (f) (s : State) : (flagInterval f s).free = s.free := rfl

/-! ### openInterval -/

@[simp] theorem openInterval_ee (t) (s : State) :
    (openInterval t s).ee = { s.ee with interval := some (newInterval t s) } := rfl
@[simp] theorem openInterval_ce (t) (s : State) : (openInterval t s).ce = s.ce := rfl
@[simp] theorem openInterval_cau (t) (s : State) : (openInterval t s).cau = s.cau := rfl
@[simp] theorem openInterval_kps (t) (s : State) : (openInterval t s).kps = s.kps := rfl
@[simp] theorem openInterval_rlr (t) (s : State) : (openInterval t s).rlr = s.rlr := rfl
@[simp] theorem openInterval_swc (t) (s : State) : (openInterval t s).swc = s.swc := rfl
@[simp] theorem openInterval_tmoHead (t) (s : State) : (openInterval t s).tmoHead = s.tmoHead := rfl
@[simp] theorem openInterval_stc (t) (s : State) : (openInterval t s).stc = s.stc := rfl
@[simp] theorem openInterval_bat (t) (s : State) : (openInterval t s).bat = s.bat := rfl
@[simp] theorem openInterval_flash (t) (s : State) : (openInterval t s).flash = s.flash := rfl
@[simp] theorem openInterval_psv (t) (s : State) : (openInterval t s).psv = s.psv := rfl
@[simp] theorem openInterval_exc (t) (s : State) : (openInterval t s).exc = s.exc := rfl
@[simp] theorem openInterval_pending (t) (s : State) : (openInterval t s).pending = s.pending := rfl
@[simp] theorem openInterval_free (t) (s : State) : (openInterval t s).free = s.free := rfl

/-! ### billInterval -/

@[simp] theorem billInterval_ee (n m f tPrime endTime overrange) (s : State) :
    (billInterval n m f tPrime endTime overrange s).ee =
      { s.ee with interval := s.ee.interval.map (fun v => { v with imp := v.imp + n, exp := v.exp + m, fb := v.fb + f, maxW := max v.maxW (tPrime / 1000), lastBilled := endTime, flags := { v.flags with overrange := v.flags.overrange || overrange, clockInvalid := v.flags.clockInvalid || !s.bat.clockValid } }) } := rfl
@[simp] theorem billInterval_ce (n m f tPrime endTime overrange) (s : State) :
    (billInterval n m f tPrime endTime overrange s).ce = s.ce := rfl
@[simp] theorem billInterval_cau (n m f tPrime endTime overrange) (s : State) :
    (billInterval n m f tPrime endTime overrange s).cau = s.cau := rfl
@[simp] theorem billInterval_kps (n m f tPrime endTime overrange) (s : State) :
    (billInterval n m f tPrime endTime overrange s).kps = s.kps := rfl
@[simp] theorem billInterval_rlr (n m f tPrime endTime overrange) (s : State) :
    (billInterval n m f tPrime endTime overrange s).rlr = s.rlr := rfl
@[simp] theorem billInterval_swc (n m f tPrime endTime overrange) (s : State) :
    (billInterval n m f tPrime endTime overrange s).swc = s.swc := rfl
@[simp] theorem billInterval_tmoHead (n m f tPrime endTime overrange) (s : State) :
    (billInterval n m f tPrime endTime overrange s).tmoHead = s.tmoHead := rfl
@[simp] theorem billInterval_stc (n m f tPrime endTime overrange) (s : State) :
    (billInterval n m f tPrime endTime overrange s).stc = s.stc := rfl
@[simp] theorem billInterval_bat (n m f tPrime endTime overrange) (s : State) :
    (billInterval n m f tPrime endTime overrange s).bat = s.bat := rfl
@[simp] theorem billInterval_flash (n m f tPrime endTime overrange) (s : State) :
    (billInterval n m f tPrime endTime overrange s).flash = s.flash := rfl
@[simp] theorem billInterval_psv (n m f tPrime endTime overrange) (s : State) :
    (billInterval n m f tPrime endTime overrange s).psv = s.psv := rfl
@[simp] theorem billInterval_exc (n m f tPrime endTime overrange) (s : State) :
    (billInterval n m f tPrime endTime overrange s).exc = s.exc := rfl
@[simp] theorem billInterval_pending (n m f tPrime endTime overrange) (s : State) :
    (billInterval n m f tPrime endTime overrange s).pending = s.pending := rfl
@[simp] theorem billInterval_free (n m f tPrime endTime overrange) (s : State) :
    (billInterval n m f tPrime endTime overrange s).free = s.free := rfl

/-! ### reportDeduction -/

@[simp] theorem reportDeduction_ee (k) (s : State) :
    (reportDeduction k s).ee =
      { s.ee with interval := s.ee.interval.map (fun v => { v with credit := v.credit + k }) } := rfl
@[simp] theorem reportDeduction_ce (k) (s : State) : (reportDeduction k s).ce = s.ce := rfl
@[simp] theorem reportDeduction_cau (k) (s : State) : (reportDeduction k s).cau = s.cau := rfl
@[simp] theorem reportDeduction_kps (k) (s : State) : (reportDeduction k s).kps = s.kps := rfl
@[simp] theorem reportDeduction_rlr (k) (s : State) : (reportDeduction k s).rlr = s.rlr := rfl
@[simp] theorem reportDeduction_swc (k) (s : State) : (reportDeduction k s).swc = s.swc := rfl
@[simp] theorem reportDeduction_tmoHead (k) (s : State) : (reportDeduction k s).tmoHead = s.tmoHead := rfl
@[simp] theorem reportDeduction_stc (k) (s : State) : (reportDeduction k s).stc = s.stc := rfl
@[simp] theorem reportDeduction_bat (k) (s : State) : (reportDeduction k s).bat = s.bat := rfl
@[simp] theorem reportDeduction_flash (k) (s : State) : (reportDeduction k s).flash = s.flash := rfl
@[simp] theorem reportDeduction_psv (k) (s : State) : (reportDeduction k s).psv = s.psv := rfl
@[simp] theorem reportDeduction_exc (k) (s : State) : (reportDeduction k s).exc = s.exc := rfl
@[simp] theorem reportDeduction_pending (k) (s : State) : (reportDeduction k s).pending = s.pending := rfl
@[simp] theorem reportDeduction_free (k) (s : State) : (reportDeduction k s).free = s.free := rfl

/-! ### waitForRead -/

@[simp] theorem waitForRead_ee (s : State) : (waitForRead s).ee = s.ee := rfl
@[simp] theorem waitForRead_ce (s : State) : (waitForRead s).ce = s.ce := rfl
@[simp] theorem waitForRead_cau (s : State) : (waitForRead s).cau = s.cau := rfl
@[simp] theorem waitForRead_kps (s : State) : (waitForRead s).kps = s.kps := rfl
@[simp] theorem waitForRead_rlr (s : State) : (waitForRead s).rlr = s.rlr := rfl
@[simp] theorem waitForRead_swc (s : State) : (waitForRead s).swc = s.swc := rfl
@[simp] theorem waitForRead_tmoHead (s : State) : (waitForRead s).tmoHead = s.tmoHead := rfl
@[simp] theorem waitForRead_stc (s : State) : (waitForRead s).stc = { s.stc with readWait := true } := rfl
@[simp] theorem waitForRead_bat (s : State) : (waitForRead s).bat = s.bat := rfl
@[simp] theorem waitForRead_flash (s : State) : (waitForRead s).flash = s.flash := rfl
@[simp] theorem waitForRead_psv (s : State) : (waitForRead s).psv = s.psv := rfl
@[simp] theorem waitForRead_exc (s : State) : (waitForRead s).exc = s.exc := rfl
@[simp] theorem waitForRead_pending (s : State) : (waitForRead s).pending = s.pending := rfl
@[simp] theorem waitForRead_free (s : State) : (waitForRead s).free = s.free := rfl

/-! ### countFailure -/

@[simp] theorem countFailure_ee (s : State) : (countFailure s).ee = s.ee := rfl
@[simp] theorem countFailure_ce (s : State) : (countFailure s).ce = s.ce := rfl
@[simp] theorem countFailure_cau (s : State) : (countFailure s).cau = s.cau := rfl
@[simp] theorem countFailure_kps (s : State) : (countFailure s).kps = s.kps := rfl
@[simp] theorem countFailure_rlr (s : State) : (countFailure s).rlr = s.rlr := rfl
@[simp] theorem countFailure_swc (s : State) : (countFailure s).swc = s.swc := rfl
@[simp] theorem countFailure_tmoHead (s : State) : (countFailure s).tmoHead = s.tmoHead := rfl
@[simp] theorem countFailure_stc (s : State) :
    (countFailure s).stc = { s.stc with failCount := s.stc.failCount + 1 } := rfl
@[simp] theorem countFailure_bat (s : State) : (countFailure s).bat = s.bat := rfl
@[simp] theorem countFailure_flash (s : State) : (countFailure s).flash = s.flash := rfl
@[simp] theorem countFailure_psv (s : State) : (countFailure s).psv = s.psv := rfl
@[simp] theorem countFailure_exc (s : State) : (countFailure s).exc = s.exc := rfl
@[simp] theorem countFailure_pending (s : State) : (countFailure s).pending = s.pending := rfl
@[simp] theorem countFailure_free (s : State) : (countFailure s).free = s.free := rfl

/-! ### countPass -/

@[simp] theorem countPass_ee (s : State) : (countPass s).ee = s.ee := rfl
@[simp] theorem countPass_ce (s : State) : (countPass s).ce = s.ce := rfl
@[simp] theorem countPass_cau (s : State) : (countPass s).cau = s.cau := rfl
@[simp] theorem countPass_kps (s : State) : (countPass s).kps = s.kps := rfl
@[simp] theorem countPass_rlr (s : State) : (countPass s).rlr = s.rlr := rfl
@[simp] theorem countPass_swc (s : State) : (countPass s).swc = s.swc := rfl
@[simp] theorem countPass_tmoHead (s : State) : (countPass s).tmoHead = s.tmoHead := rfl
@[simp] theorem countPass_stc (s : State) : (countPass s).stc = { s.stc with failCount := 0 } := rfl
@[simp] theorem countPass_bat (s : State) : (countPass s).bat = s.bat := rfl
@[simp] theorem countPass_flash (s : State) : (countPass s).flash = s.flash := rfl
@[simp] theorem countPass_psv (s : State) : (countPass s).psv = s.psv := rfl
@[simp] theorem countPass_exc (s : State) : (countPass s).exc = s.exc := rfl
@[simp] theorem countPass_pending (s : State) : (countPass s).pending = s.pending := rfl
@[simp] theorem countPass_free (s : State) : (countPass s).free = s.free := rfl

/-! ### programOver -/

@[simp] theorem programOver_ee (s : State) : (programOver s).ee = s.ee := rfl
@[simp] theorem programOver_ce (s : State) : (programOver s).ce = s.ce := rfl
@[simp] theorem programOver_cau (s : State) : (programOver s).cau = s.cau := rfl
@[simp] theorem programOver_kps (s : State) : (programOver s).kps = s.kps := rfl
@[simp] theorem programOver_rlr (s : State) : (programOver s).rlr = s.rlr := rfl
@[simp] theorem programOver_swc (s : State) : (programOver s).swc = s.swc := rfl
@[simp] theorem programOver_tmoHead (s : State) : (programOver s).tmoHead = s.tmoHead := rfl
@[simp] theorem programOver_stc (s : State) : (programOver s).stc = { s.stc with prog := none } := rfl
@[simp] theorem programOver_bat (s : State) : (programOver s).bat = s.bat := rfl
@[simp] theorem programOver_flash (s : State) : (programOver s).flash = s.flash := rfl
@[simp] theorem programOver_psv (s : State) : (programOver s).psv = s.psv := rfl
@[simp] theorem programOver_exc (s : State) : (programOver s).exc = s.exc := rfl
@[simp] theorem programOver_pending (s : State) : (programOver s).pending = s.pending := rfl
@[simp] theorem programOver_free (s : State) : (programOver s).free = s.free := rfl

/-! ### requeue -/

@[simp] theorem requeue_ee (l) (s : State) : (requeue l s).ee = s.ee := rfl
@[simp] theorem requeue_ce (l) (s : State) : (requeue l s).ce = s.ce := rfl
@[simp] theorem requeue_cau (l) (s : State) : (requeue l s).cau = s.cau := rfl
@[simp] theorem requeue_kps (l) (s : State) : (requeue l s).kps = s.kps := rfl
@[simp] theorem requeue_rlr (l) (s : State) : (requeue l s).rlr = s.rlr := rfl
@[simp] theorem requeue_swc (l) (s : State) : (requeue l s).swc = s.swc := rfl
@[simp] theorem requeue_tmoHead (l) (s : State) : (requeue l s).tmoHead = s.tmoHead := rfl
@[simp] theorem requeue_stc (l) (s : State) : (requeue l s).stc = { s.stc with queue := l ++ s.stc.queue } := rfl
@[simp] theorem requeue_bat (l) (s : State) : (requeue l s).bat = s.bat := rfl
@[simp] theorem requeue_flash (l) (s : State) : (requeue l s).flash = s.flash := rfl
@[simp] theorem requeue_psv (l) (s : State) : (requeue l s).psv = s.psv := rfl
@[simp] theorem requeue_exc (l) (s : State) : (requeue l s).exc = s.exc := rfl
@[simp] theorem requeue_pending (l) (s : State) : (requeue l s).pending = s.pending := rfl
@[simp] theorem requeue_free (l) (s : State) : (requeue l s).free = s.free := rfl

/-! ### putRecord -/

@[simp] theorem putRecord_ee (p) (s : State) : (putRecord p s).ee = s.ee := rfl
@[simp] theorem putRecord_ce (p) (s : State) : (putRecord p s).ce = s.ce := rfl
@[simp] theorem putRecord_cau (p) (s : State) : (putRecord p s).cau = s.cau := rfl
@[simp] theorem putRecord_kps (p) (s : State) : (putRecord p s).kps = s.kps := rfl
@[simp] theorem putRecord_rlr (p) (s : State) : (putRecord p s).rlr = s.rlr := rfl
@[simp] theorem putRecord_swc (p) (s : State) : (putRecord p s).swc = s.swc := rfl
@[simp] theorem putRecord_tmoHead (p) (s : State) : (putRecord p s).tmoHead = s.tmoHead := rfl
@[simp] theorem putRecord_stc (p) (s : State) :
    (putRecord p s).stc = { s.stc with nextPlace := s.stc.nextPlace + 1 } := rfl
@[simp] theorem putRecord_bat (p) (s : State) : (putRecord p s).bat = s.bat := rfl
@[simp] theorem putRecord_flash (p) (s : State) :
    (putRecord p s).flash = { s.flash with records := s.flash.records.set (recordIndex s.stc) p } := rfl
@[simp] theorem putRecord_psv (p) (s : State) : (putRecord p s).psv = s.psv := rfl
@[simp] theorem putRecord_exc (p) (s : State) : (putRecord p s).exc = s.exc := rfl
@[simp] theorem putRecord_pending (p) (s : State) : (putRecord p s).pending = s.pending := rfl
@[simp] theorem putRecord_free (p) (s : State) : (putRecord p s).free = s.free := rfl

/-! ### putBit -/

@[simp] theorem putBit_ee (b) (s : State) : (putBit b s).ee = s.ee := rfl
@[simp] theorem putBit_ce (b) (s : State) : (putBit b s).ce = s.ce := rfl
@[simp] theorem putBit_cau (b) (s : State) : (putBit b s).cau = s.cau := rfl
@[simp] theorem putBit_kps (b) (s : State) : (putBit b s).kps = s.kps := rfl
@[simp] theorem putBit_rlr (b) (s : State) : (putBit b s).rlr = s.rlr := rfl
@[simp] theorem putBit_swc (b) (s : State) : (putBit b s).swc = s.swc := rfl
@[simp] theorem putBit_tmoHead (b) (s : State) : (putBit b s).tmoHead = s.tmoHead := rfl
@[simp] theorem putBit_stc (b) (s : State) : (putBit b s).stc = { s.stc with copy := setBit s.stc.copy b } := rfl
@[simp] theorem putBit_bat (b) (s : State) : (putBit b s).bat = s.bat := rfl
@[simp] theorem putBit_flash (b) (s : State) :
    (putBit b s).flash = { s.flash with bits := setBit s.flash.bits b } := rfl
@[simp] theorem putBit_psv (b) (s : State) : (putBit b s).psv = s.psv := rfl
@[simp] theorem putBit_exc (b) (s : State) : (putBit b s).exc = s.exc := rfl
@[simp] theorem putBit_pending (b) (s : State) : (putBit b s).pending = s.pending := rfl
@[simp] theorem putBit_free (b) (s : State) : (putBit b s).free = s.free := rfl

/-! ### eraseOver -/

@[simp] theorem eraseOver_ee (s : State) : (eraseOver s).ee = s.ee := rfl
@[simp] theorem eraseOver_ce (s : State) : (eraseOver s).ce = s.ce := rfl
@[simp] theorem eraseOver_cau (s : State) : (eraseOver s).cau = s.cau := rfl
@[simp] theorem eraseOver_kps (s : State) : (eraseOver s).kps = s.kps := rfl
@[simp] theorem eraseOver_rlr (s : State) : (eraseOver s).rlr = s.rlr := rfl
@[simp] theorem eraseOver_swc (s : State) : (eraseOver s).swc = s.swc := rfl
@[simp] theorem eraseOver_tmoHead (s : State) : (eraseOver s).tmoHead = s.tmoHead := rfl
@[simp] theorem eraseOver_stc (s : State) : (eraseOver s).stc = { s.stc with erase := none } := rfl
@[simp] theorem eraseOver_bat (s : State) : (eraseOver s).bat = s.bat := rfl
@[simp] theorem eraseOver_flash (s : State) : (eraseOver s).flash = s.flash := rfl
@[simp] theorem eraseOver_psv (s : State) : (eraseOver s).psv = s.psv := rfl
@[simp] theorem eraseOver_exc (s : State) : (eraseOver s).exc = s.exc := rfl
@[simp] theorem eraseOver_pending (s : State) : (eraseOver s).pending = s.pending := rfl
@[simp] theorem eraseOver_free (s : State) : (eraseOver s).free = s.free := rfl

/-! ### setDrive -/

@[simp] theorem setDrive_ee (d) (s : State) : (setDrive d s).ee = s.ee := rfl
@[simp] theorem setDrive_ce (d) (s : State) : (setDrive d s).ce = s.ce := rfl
@[simp] theorem setDrive_cau (d) (s : State) : (setDrive d s).cau = s.cau := rfl
@[simp] theorem setDrive_kps (d) (s : State) : (setDrive d s).kps = s.kps := rfl
@[simp] theorem setDrive_rlr (d) (s : State) : (setDrive d s).rlr = s.rlr := rfl
@[simp] theorem setDrive_swc (d) (s : State) : (setDrive d s).swc = { s.swc with drive := d } := rfl
@[simp] theorem setDrive_tmoHead (d) (s : State) : (setDrive d s).tmoHead = s.tmoHead := rfl
@[simp] theorem setDrive_stc (d) (s : State) : (setDrive d s).stc = s.stc := rfl
@[simp] theorem setDrive_bat (d) (s : State) : (setDrive d s).bat = s.bat := rfl
@[simp] theorem setDrive_flash (d) (s : State) : (setDrive d s).flash = s.flash := rfl
@[simp] theorem setDrive_psv (d) (s : State) : (setDrive d s).psv = s.psv := rfl
@[simp] theorem setDrive_exc (d) (s : State) : (setDrive d s).exc = s.exc := rfl
@[simp] theorem setDrive_pending (d) (s : State) : (setDrive d s).pending = s.pending := rfl
@[simp] theorem setDrive_free (d) (s : State) : (setDrive d s).free = s.free := rfl

/-! ### markPeriod -/

@[simp] theorem markPeriod_ee (s : State) : (markPeriod s).ee = s.ee := rfl
@[simp] theorem markPeriod_ce (s : State) : (markPeriod s).ce = s.ce := rfl
@[simp] theorem markPeriod_cau (s : State) : (markPeriod s).cau = s.cau := rfl
@[simp] theorem markPeriod_kps (s : State) : (markPeriod s).kps = s.kps := rfl
@[simp] theorem markPeriod_rlr (s : State) : (markPeriod s).rlr = s.rlr := rfl
@[simp] theorem markPeriod_swc (s : State) :
    (markPeriod s).swc = { s.swc with mark := heldOpen s.psv.inService s.swc } := rfl
@[simp] theorem markPeriod_tmoHead (s : State) : (markPeriod s).tmoHead = s.tmoHead := rfl
@[simp] theorem markPeriod_stc (s : State) : (markPeriod s).stc = s.stc := rfl
@[simp] theorem markPeriod_bat (s : State) : (markPeriod s).bat = s.bat := rfl
@[simp] theorem markPeriod_flash (s : State) : (markPeriod s).flash = s.flash := rfl
@[simp] theorem markPeriod_psv (s : State) : (markPeriod s).psv = s.psv := rfl
@[simp] theorem markPeriod_exc (s : State) : (markPeriod s).exc = s.exc := rfl
@[simp] theorem markPeriod_pending (s : State) : (markPeriod s).pending = s.pending := rfl
@[simp] theorem markPeriod_free (s : State) : (markPeriod s).free = s.free := rfl

/-! ### mapKind -/

@[simp] theorem mapKind_ee (k f) (s : State) : (mapKind k f s).ee = s.ee := rfl
@[simp] theorem mapKind_ce (k f) (s : State) : (mapKind k f s).ce = s.ce := rfl
@[simp] theorem mapKind_cau (k f) (s : State) : (mapKind k f s).cau = s.cau := rfl
@[simp] theorem mapKind_kps (k f) (s : State) : (mapKind k f s).kps = s.kps := rfl
@[simp] theorem mapKind_rlr (k f) (s : State) : (mapKind k f s).rlr = s.rlr := rfl
@[simp] theorem mapKind_swc (k f) (s : State) : (mapKind k f s).swc = s.swc := rfl
@[simp] theorem mapKind_tmoHead (k f) (s : State) : (mapKind k f s).tmoHead = s.tmoHead := rfl
@[simp] theorem mapKind_stc (k f) (s : State) : (mapKind k f s).stc = s.stc := rfl
@[simp] theorem mapKind_bat (k f) (s : State) :
    (mapKind k f s).bat = { s.bat with kinds := s.bat.kinds.set k (f (s.bat.kinds.get k)) } := rfl
@[simp] theorem mapKind_flash (k f) (s : State) : (mapKind k f s).flash = s.flash := rfl
@[simp] theorem mapKind_psv (k f) (s : State) : (mapKind k f s).psv = s.psv := rfl
@[simp] theorem mapKind_exc (k f) (s : State) : (mapKind k f s).exc = s.exc := rfl
@[simp] theorem mapKind_pending (k f) (s : State) : (mapKind k f s).pending = s.pending := rfl
@[simp] theorem mapKind_free (k f) (s : State) : (mapKind k f s).free = s.free := rfl

/-! ### setLastDay -/

@[simp] theorem setLastDay_ee (d) (s : State) : (setLastDay d s).ee = s.ee := rfl
@[simp] theorem setLastDay_ce (d) (s : State) :
    (setLastDay d s).ce = { s.ce with money := { s.ce.money with lastDay := d } } := rfl
@[simp] theorem setLastDay_cau (d) (s : State) : (setLastDay d s).cau = s.cau := rfl
@[simp] theorem setLastDay_kps (d) (s : State) : (setLastDay d s).kps = s.kps := rfl
@[simp] theorem setLastDay_rlr (d) (s : State) : (setLastDay d s).rlr = s.rlr := rfl
@[simp] theorem setLastDay_swc (d) (s : State) : (setLastDay d s).swc = s.swc := rfl
@[simp] theorem setLastDay_tmoHead (d) (s : State) : (setLastDay d s).tmoHead = s.tmoHead := rfl
@[simp] theorem setLastDay_stc (d) (s : State) : (setLastDay d s).stc = s.stc := rfl
@[simp] theorem setLastDay_bat (d) (s : State) : (setLastDay d s).bat = s.bat := rfl
@[simp] theorem setLastDay_flash (d) (s : State) : (setLastDay d s).flash = s.flash := rfl
@[simp] theorem setLastDay_psv (d) (s : State) : (setLastDay d s).psv = s.psv := rfl
@[simp] theorem setLastDay_exc (d) (s : State) : (setLastDay d s).exc = s.exc := rfl
@[simp] theorem setLastDay_pending (d) (s : State) : (setLastDay d s).pending = s.pending := rfl
@[simp] theorem setLastDay_free (d) (s : State) : (setLastDay d s).free = s.free := rfl

/-! ### rearm -/

@[simp] theorem rearm_ee (s : State) : (rearm s).ee = s.ee := rfl
@[simp] theorem rearm_ce (s : State) :
    (rearm s).ce =
      { s.ce with arm1 := decide ((s.cau.settings.l1 : Int) ≤ s.ce.money.b), arm2 := decide ((s.cau.settings.l2 : Int) ≤ s.ce.money.b) } := rfl
@[simp] theorem rearm_cau (s : State) : (rearm s).cau = s.cau := rfl
@[simp] theorem rearm_kps (s : State) : (rearm s).kps = s.kps := rfl
@[simp] theorem rearm_rlr (s : State) : (rearm s).rlr = s.rlr := rfl
@[simp] theorem rearm_swc (s : State) : (rearm s).swc = s.swc := rfl
@[simp] theorem rearm_tmoHead (s : State) : (rearm s).tmoHead = s.tmoHead := rfl
@[simp] theorem rearm_stc (s : State) : (rearm s).stc = s.stc := rfl
@[simp] theorem rearm_bat (s : State) : (rearm s).bat = s.bat := rfl
@[simp] theorem rearm_flash (s : State) : (rearm s).flash = s.flash := rfl
@[simp] theorem rearm_psv (s : State) : (rearm s).psv = s.psv := rfl
@[simp] theorem rearm_exc (s : State) : (rearm s).exc = s.exc := rfl
@[simp] theorem rearm_pending (s : State) : (rearm s).pending = s.pending := rfl
@[simp] theorem rearm_free (s : State) : (rearm s).free = s.free := rfl

/-! ### setDeferral -/

@[simp] theorem setDeferral_ee (x) (s : State) : (setDeferral x s).ee = s.ee := rfl
@[simp] theorem setDeferral_ce (x) (s : State) : (setDeferral x s).ce = { s.ce with deferral := x } := rfl
@[simp] theorem setDeferral_cau (x) (s : State) : (setDeferral x s).cau = s.cau := rfl
@[simp] theorem setDeferral_kps (x) (s : State) : (setDeferral x s).kps = s.kps := rfl
@[simp] theorem setDeferral_rlr (x) (s : State) : (setDeferral x s).rlr = s.rlr := rfl
@[simp] theorem setDeferral_swc (x) (s : State) : (setDeferral x s).swc = s.swc := rfl
@[simp] theorem setDeferral_tmoHead (x) (s : State) : (setDeferral x s).tmoHead = s.tmoHead := rfl
@[simp] theorem setDeferral_stc (x) (s : State) : (setDeferral x s).stc = s.stc := rfl
@[simp] theorem setDeferral_bat (x) (s : State) : (setDeferral x s).bat = s.bat := rfl
@[simp] theorem setDeferral_flash (x) (s : State) : (setDeferral x s).flash = s.flash := rfl
@[simp] theorem setDeferral_psv (x) (s : State) : (setDeferral x s).psv = s.psv := rfl
@[simp] theorem setDeferral_exc (x) (s : State) : (setDeferral x s).exc = s.exc := rfl
@[simp] theorem setDeferral_pending (x) (s : State) : (setDeferral x s).pending = s.pending := rfl
@[simp] theorem setDeferral_free (x) (s : State) : (setDeferral x s).free = s.free := rfl

/-! ### recomputeBand -/

@[simp] theorem recomputeBand_ee (s : State) : (recomputeBand s).ee = s.ee := rfl
@[simp] theorem recomputeBand_ce (s : State) : (recomputeBand s).ce = { s.ce with band := bandAt s s.bat.clock } := rfl
@[simp] theorem recomputeBand_cau (s : State) : (recomputeBand s).cau = s.cau := rfl
@[simp] theorem recomputeBand_kps (s : State) : (recomputeBand s).kps = s.kps := rfl
@[simp] theorem recomputeBand_rlr (s : State) : (recomputeBand s).rlr = s.rlr := rfl
@[simp] theorem recomputeBand_swc (s : State) : (recomputeBand s).swc = s.swc := rfl
@[simp] theorem recomputeBand_tmoHead (s : State) : (recomputeBand s).tmoHead = s.tmoHead := rfl
@[simp] theorem recomputeBand_stc (s : State) : (recomputeBand s).stc = s.stc := rfl
@[simp] theorem recomputeBand_bat (s : State) : (recomputeBand s).bat = s.bat := rfl
@[simp] theorem recomputeBand_flash (s : State) : (recomputeBand s).flash = s.flash := rfl
@[simp] theorem recomputeBand_psv (s : State) : (recomputeBand s).psv = s.psv := rfl
@[simp] theorem recomputeBand_exc (s : State) : (recomputeBand s).exc = s.exc := rfl
@[simp] theorem recomputeBand_pending (s : State) : (recomputeBand s).pending = s.pending := rfl
@[simp] theorem recomputeBand_free (s : State) : (recomputeBand s).free = s.free := rfl

/-! ### takeResults -/

@[simp] theorem takeResults_ee (o) (s : State) :
    (takeResults o s).ee = { s.ee with energy := o.energy, live := o.live } := rfl
@[simp] theorem takeResults_ce (o) (s : State) : (takeResults o s).ce = s.ce := rfl
@[simp] theorem takeResults_cau (o) (s : State) : (takeResults o s).cau = s.cau := rfl
@[simp] theorem takeResults_kps (o) (s : State) : (takeResults o s).kps = s.kps := rfl
@[simp] theorem takeResults_rlr (o) (s : State) : (takeResults o s).rlr = s.rlr := rfl
@[simp] theorem takeResults_swc (o) (s : State) : (takeResults o s).swc = s.swc := rfl
@[simp] theorem takeResults_tmoHead (o) (s : State) : (takeResults o s).tmoHead = s.tmoHead := rfl
@[simp] theorem takeResults_stc (o) (s : State) : (takeResults o s).stc = s.stc := rfl
@[simp] theorem takeResults_bat (o) (s : State) : (takeResults o s).bat = s.bat := rfl
@[simp] theorem takeResults_flash (o) (s : State) : (takeResults o s).flash = s.flash := rfl
@[simp] theorem takeResults_psv (o) (s : State) : (takeResults o s).psv = s.psv := rfl
@[simp] theorem takeResults_exc (o) (s : State) : (takeResults o s).exc = s.exc := rfl
@[simp] theorem takeResults_pending (o) (s : State) : (takeResults o s).pending = s.pending := rfl
@[simp] theorem takeResults_free (o) (s : State) : (takeResults o s).free = s.free := rfl

/-! ### standingPeriod -/

@[simp] theorem standingPeriod_ee (s : State) : (standingPeriod s).ee = s.ee := rfl
@[simp] theorem standingPeriod_ce (s : State) : (standingPeriod s).ce = s.ce := rfl
@[simp] theorem standingPeriod_cau (s : State) : (standingPeriod s).cau = s.cau := rfl
@[simp] theorem standingPeriod_kps (s : State) : (standingPeriod s).kps = s.kps := rfl
@[simp] theorem standingPeriod_rlr (s : State) : (standingPeriod s).rlr = s.rlr := rfl
@[simp] theorem standingPeriod_swc (s : State) : (standingPeriod s).swc = s.swc := rfl
@[simp] theorem standingPeriod_tmoHead (s : State) : (standingPeriod s).tmoHead = s.tmoHead := rfl
@[simp] theorem standingPeriod_stc (s : State) : (standingPeriod s).stc = s.stc := rfl
@[simp] theorem standingPeriod_bat (s : State) : (standingPeriod s).bat = s.bat := rfl
@[simp] theorem standingPeriod_flash (s : State) : (standingPeriod s).flash = s.flash := rfl
@[simp] theorem standingPeriod_psv (s : State) : (standingPeriod s).psv = s.psv := rfl
@[simp] theorem standingPeriod_exc (s : State) :
    (standingPeriod s).exc = s.exc.standing.foldl (standStep s.ee.live) { s.exc with standing := [] } := rfl
@[simp] theorem standingPeriod_pending (s : State) : (standingPeriod s).pending = s.pending := rfl
@[simp] theorem standingPeriod_free (s : State) : (standingPeriod s).free = s.free := rfl

/-! ### beginCode -/

@[simp] theorem beginCode_ee (s : State) : (beginCode s).ee = s.ee := rfl
@[simp] theorem beginCode_ce (s : State) : (beginCode s).ce = s.ce := rfl
@[simp] theorem beginCode_cau (s : State) : (beginCode s).cau = s.cau := rfl
@[simp] theorem beginCode_kps (s : State) : (beginCode s).kps = s.kps := rfl
@[simp] theorem beginCode_rlr (s : State) : (beginCode s).rlr = s.rlr := rfl
@[simp] theorem beginCode_swc (s : State) : (beginCode s).swc = s.swc := rfl
@[simp] theorem beginCode_tmoHead (s : State) : (beginCode s).tmoHead = s.tmoHead := rfl
@[simp] theorem beginCode_stc (s : State) : (beginCode s).stc = s.stc := rfl
@[simp] theorem beginCode_bat (s : State) : (beginCode s).bat = s.bat := rfl
@[simp] theorem beginCode_flash (s : State) : (beginCode s).flash = s.flash := rfl
@[simp] theorem beginCode_psv (s : State) : (beginCode s).psv = s.psv := rfl
@[simp] theorem beginCode_exc (s : State) :
    (beginCode s).exc = { s.exc with code := { s.exc.code with begun := true } } := rfl
@[simp] theorem beginCode_pending (s : State) : (beginCode s).pending = s.pending := rfl
@[simp] theorem beginCode_free (s : State) : (beginCode s).free = s.free := rfl

/-! ### beginControl -/

@[simp] theorem beginControl_ee (s : State) : (beginControl s).ee = s.ee := rfl
@[simp] theorem beginControl_ce (s : State) : (beginControl s).ce = s.ce := rfl
@[simp] theorem beginControl_cau (s : State) : (beginControl s).cau = s.cau := rfl
@[simp] theorem beginControl_kps (s : State) : (beginControl s).kps = s.kps := rfl
@[simp] theorem beginControl_rlr (s : State) : (beginControl s).rlr = s.rlr := rfl
@[simp] theorem beginControl_swc (s : State) : (beginControl s).swc = s.swc := rfl
@[simp] theorem beginControl_tmoHead (s : State) : (beginControl s).tmoHead = s.tmoHead := rfl
@[simp] theorem beginControl_stc (s : State) : (beginControl s).stc = s.stc := rfl
@[simp] theorem beginControl_bat (s : State) : (beginControl s).bat = s.bat := rfl
@[simp] theorem beginControl_flash (s : State) : (beginControl s).flash = s.flash := rfl
@[simp] theorem beginControl_psv (s : State) : (beginControl s).psv = s.psv := rfl
@[simp] theorem beginControl_exc (s : State) :
    (beginControl s).exc = { s.exc with control := { s.exc.control with begun := true } } := rfl
@[simp] theorem beginControl_pending (s : State) : (beginControl s).pending = s.pending := rfl
@[simp] theorem beginControl_free (s : State) : (beginControl s).free = s.free := rfl

/-! ### mapPenalty -/

@[simp] theorem mapPenalty_ee (src f) (s : State) : (mapPenalty src f s).ee = s.ee := rfl
@[simp] theorem mapPenalty_ce (src f) (s : State) : (mapPenalty src f s).ce = s.ce := rfl
@[simp] theorem mapPenalty_cau (src f) (s : State) : (mapPenalty src f s).cau = s.cau := rfl
@[simp] theorem mapPenalty_kps (src f) (s : State) : (mapPenalty src f s).kps = s.kps := rfl
@[simp] theorem mapPenalty_rlr (src f) (s : State) : (mapPenalty src f s).rlr = s.rlr := rfl
@[simp] theorem mapPenalty_swc (src f) (s : State) : (mapPenalty src f s).swc = s.swc := rfl
@[simp] theorem mapPenalty_tmoHead (src f) (s : State) : (mapPenalty src f s).tmoHead = s.tmoHead := rfl
@[simp] theorem mapPenalty_stc (src f) (s : State) : (mapPenalty src f s).stc = s.stc := rfl
@[simp] theorem mapPenalty_bat (src f) (s : State) :
    (mapPenalty src f s).bat =
      { s.bat with penalties := s.bat.penalties.set src (f (s.bat.penalties.get src)) } := rfl
@[simp] theorem mapPenalty_flash (src f) (s : State) : (mapPenalty src f s).flash = s.flash := rfl
@[simp] theorem mapPenalty_psv (src f) (s : State) : (mapPenalty src f s).psv = s.psv := rfl
@[simp] theorem mapPenalty_exc (src f) (s : State) : (mapPenalty src f s).exc = s.exc := rfl
@[simp] theorem mapPenalty_pending (src f) (s : State) : (mapPenalty src f s).pending = s.pending := rfl
@[simp] theorem mapPenalty_free (src f) (s : State) : (mapPenalty src f s).free = s.free := rfl

/-! ### enqueueCode -/

@[simp] theorem enqueueCode_ee (e) (s : State) : (enqueueCode e s).ee = s.ee := rfl
@[simp] theorem enqueueCode_ce (e) (s : State) : (enqueueCode e s).ce = s.ce := rfl
@[simp] theorem enqueueCode_cau (e) (s : State) :
    (enqueueCode e s).cau = { s.cau with queue := s.cau.queue ++ [e] } := rfl
@[simp] theorem enqueueCode_kps (e) (s : State) : (enqueueCode e s).kps = s.kps := rfl
@[simp] theorem enqueueCode_rlr (e) (s : State) : (enqueueCode e s).rlr = s.rlr := rfl
@[simp] theorem enqueueCode_swc (e) (s : State) : (enqueueCode e s).swc = s.swc := rfl
@[simp] theorem enqueueCode_tmoHead (e) (s : State) : (enqueueCode e s).tmoHead = s.tmoHead := rfl
@[simp] theorem enqueueCode_stc (e) (s : State) : (enqueueCode e s).stc = s.stc := rfl
@[simp] theorem enqueueCode_bat (e) (s : State) : (enqueueCode e s).bat = s.bat := rfl
@[simp] theorem enqueueCode_flash (e) (s : State) : (enqueueCode e s).flash = s.flash := rfl
@[simp] theorem enqueueCode_psv (e) (s : State) : (enqueueCode e s).psv = s.psv := rfl
@[simp] theorem enqueueCode_exc (e) (s : State) : (enqueueCode e s).exc = s.exc := rfl
@[simp] theorem enqueueCode_pending (e) (s : State) : (enqueueCode e s).pending = s.pending := rfl
@[simp] theorem enqueueCode_free (e) (s : State) : (enqueueCode e s).free = s.free := rfl

/-! ### dropHead -/

@[simp] theorem dropHead_ee (s : State) : (dropHead s).ee = s.ee := rfl
@[simp] theorem dropHead_ce (s : State) : (dropHead s).ce = s.ce := rfl
@[simp] theorem dropHead_cau (s : State) :
    (dropHead s).cau = { s.cau with queue := s.cau.queue.tail, applied := none } := rfl
@[simp] theorem dropHead_kps (s : State) : (dropHead s).kps = s.kps := rfl
@[simp] theorem dropHead_rlr (s : State) : (dropHead s).rlr = s.rlr := rfl
@[simp] theorem dropHead_swc (s : State) : (dropHead s).swc = s.swc := rfl
@[simp] theorem dropHead_tmoHead (s : State) : (dropHead s).tmoHead = s.tmoHead := rfl
@[simp] theorem dropHead_stc (s : State) : (dropHead s).stc = s.stc := rfl
@[simp] theorem dropHead_bat (s : State) : (dropHead s).bat = s.bat := rfl
@[simp] theorem dropHead_flash (s : State) : (dropHead s).flash = s.flash := rfl
@[simp] theorem dropHead_psv (s : State) : (dropHead s).psv = s.psv := rfl
@[simp] theorem dropHead_exc (s : State) : (dropHead s).exc = s.exc := rfl
@[simp] theorem dropHead_pending (s : State) : (dropHead s).pending = s.pending := rfl
@[simp] theorem dropHead_free (s : State) : (dropHead s).free = s.free := rfl

/-! ### setKeys -/

@[simp] theorem setKeys_ee (l) (s : State) : (setKeys l s).ee = s.ee := rfl
@[simp] theorem setKeys_ce (l) (s : State) : (setKeys l s).ce = s.ce := rfl
@[simp] theorem setKeys_cau (l) (s : State) : (setKeys l s).cau = s.cau := rfl
@[simp] theorem setKeys_kps (l) (s : State) :
    (setKeys l s).kps = ⟨l, if l.isEmpty then Timer.stopped else startTimer 30⟩ := rfl
@[simp] theorem setKeys_rlr (l) (s : State) : (setKeys l s).rlr = s.rlr := rfl
@[simp] theorem setKeys_swc (l) (s : State) : (setKeys l s).swc = s.swc := rfl
@[simp] theorem setKeys_tmoHead (l) (s : State) : (setKeys l s).tmoHead = s.tmoHead := rfl
@[simp] theorem setKeys_stc (l) (s : State) : (setKeys l s).stc = s.stc := rfl
@[simp] theorem setKeys_bat (l) (s : State) : (setKeys l s).bat = s.bat := rfl
@[simp] theorem setKeys_flash (l) (s : State) : (setKeys l s).flash = s.flash := rfl
@[simp] theorem setKeys_psv (l) (s : State) : (setKeys l s).psv = s.psv := rfl
@[simp] theorem setKeys_exc (l) (s : State) : (setKeys l s).exc = s.exc := rfl
@[simp] theorem setKeys_pending (l) (s : State) : (setKeys l s).pending = s.pending := rfl
@[simp] theorem setKeys_free (l) (s : State) : (setKeys l s).free = s.free := rfl

/-! ### releasePending -/

@[simp] theorem releasePending_ee (n) (s : State) : (releasePending n s).ee = s.ee := rfl
@[simp] theorem releasePending_ce (n) (s : State) : (releasePending n s).ce = s.ce := rfl
@[simp] theorem releasePending_cau (n) (s : State) :
    (releasePending n s).cau =
      { s.cau with pendingPkg := s.cau.pendingPkg.map (fun p => if p.number = n then { p with released := true } else p) } := rfl
@[simp] theorem releasePending_kps (n) (s : State) : (releasePending n s).kps = s.kps := rfl
@[simp] theorem releasePending_rlr (n) (s : State) : (releasePending n s).rlr = s.rlr := rfl
@[simp] theorem releasePending_swc (n) (s : State) : (releasePending n s).swc = s.swc := rfl
@[simp] theorem releasePending_tmoHead (n) (s : State) : (releasePending n s).tmoHead = s.tmoHead := rfl
@[simp] theorem releasePending_stc (n) (s : State) : (releasePending n s).stc = s.stc := rfl
@[simp] theorem releasePending_bat (n) (s : State) : (releasePending n s).bat = s.bat := rfl
@[simp] theorem releasePending_flash (n) (s : State) : (releasePending n s).flash = s.flash := rfl
@[simp] theorem releasePending_psv (n) (s : State) : (releasePending n s).psv = s.psv := rfl
@[simp] theorem releasePending_exc (n) (s : State) : (releasePending n s).exc = s.exc := rfl
@[simp] theorem releasePending_pending (n) (s : State) : (releasePending n s).pending = s.pending := rfl
@[simp] theorem releasePending_free (n) (s : State) : (releasePending n s).free = s.free := rfl

/-! ### setRx -/

@[simp] theorem setRx_ee (x) (s : State) : (setRx x s).ee = s.ee := rfl
@[simp] theorem setRx_ce (x) (s : State) : (setRx x s).ce = s.ce := rfl
@[simp] theorem setRx_cau (x) (s : State) : (setRx x s).cau = s.cau := rfl
@[simp] theorem setRx_kps (x) (s : State) : (setRx x s).kps = s.kps := rfl
@[simp] theorem setRx_rlr (x) (s : State) : (setRx x s).rlr = { s.rlr with rx := x } := rfl
@[simp] theorem setRx_swc (x) (s : State) : (setRx x s).swc = s.swc := rfl
@[simp] theorem setRx_tmoHead (x) (s : State) : (setRx x s).tmoHead = s.tmoHead := rfl
@[simp] theorem setRx_stc (x) (s : State) : (setRx x s).stc = s.stc := rfl
@[simp] theorem setRx_bat (x) (s : State) : (setRx x s).bat = s.bat := rfl
@[simp] theorem setRx_flash (x) (s : State) : (setRx x s).flash = s.flash := rfl
@[simp] theorem setRx_psv (x) (s : State) : (setRx x s).psv = s.psv := rfl
@[simp] theorem setRx_exc (x) (s : State) : (setRx x s).exc = s.exc := rfl
@[simp] theorem setRx_pending (x) (s : State) : (setRx x s).pending = s.pending := rfl
@[simp] theorem setRx_free (x) (s : State) : (setRx x s).free = s.free := rfl

/-! ### clearCapture -/

@[simp] theorem clearCapture_ee (s : State) : (clearCapture s).ee = s.ee := rfl
@[simp] theorem clearCapture_ce (s : State) : (clearCapture s).ce = s.ce := rfl
@[simp] theorem clearCapture_cau (s : State) : (clearCapture s).cau = s.cau := rfl
@[simp] theorem clearCapture_kps (s : State) : (clearCapture s).kps = s.kps := rfl
@[simp] theorem clearCapture_rlr (s : State) :
    (clearCapture s).rlr = { s.rlr with captureHeld := false, capture := [] } := rfl
@[simp] theorem clearCapture_swc (s : State) : (clearCapture s).swc = s.swc := rfl
@[simp] theorem clearCapture_tmoHead (s : State) : (clearCapture s).tmoHead = s.tmoHead := rfl
@[simp] theorem clearCapture_stc (s : State) : (clearCapture s).stc = s.stc := rfl
@[simp] theorem clearCapture_bat (s : State) : (clearCapture s).bat = s.bat := rfl
@[simp] theorem clearCapture_flash (s : State) : (clearCapture s).flash = s.flash := rfl
@[simp] theorem clearCapture_psv (s : State) : (clearCapture s).psv = s.psv := rfl
@[simp] theorem clearCapture_exc (s : State) : (clearCapture s).exc = { s.exc with wake := false } := rfl
@[simp] theorem clearCapture_pending (s : State) : (clearCapture s).pending = s.pending := rfl
@[simp] theorem clearCapture_free (s : State) : (clearCapture s).free = s.free := rfl

/-! ### setPower -/

@[simp] theorem setPower_ee (p) (s : State) : (setPower p s).ee = s.ee := rfl
@[simp] theorem setPower_ce (p) (s : State) : (setPower p s).ce = s.ce := rfl
@[simp] theorem setPower_cau (p) (s : State) : (setPower p s).cau = s.cau := rfl
@[simp] theorem setPower_kps (p) (s : State) : (setPower p s).kps = s.kps := rfl
@[simp] theorem setPower_rlr (p) (s : State) : (setPower p s).rlr = s.rlr := rfl
@[simp] theorem setPower_swc (p) (s : State) : (setPower p s).swc = s.swc := rfl
@[simp] theorem setPower_tmoHead (p) (s : State) : (setPower p s).tmoHead = s.tmoHead := rfl
@[simp] theorem setPower_stc (p) (s : State) : (setPower p s).stc = s.stc := rfl
@[simp] theorem setPower_bat (p) (s : State) : (setPower p s).bat = s.bat := rfl
@[simp] theorem setPower_flash (p) (s : State) : (setPower p s).flash = s.flash := rfl
@[simp] theorem setPower_psv (p) (s : State) : (setPower p s).psv = { s.psv with power := p } := rfl
@[simp] theorem setPower_exc (p) (s : State) : (setPower p s).exc = s.exc := rfl
@[simp] theorem setPower_pending (p) (s : State) : (setPower p s).pending = s.pending := rfl
@[simp] theorem setPower_free (p) (s : State) : (setPower p s).free = s.free := rfl

/-! ### setSettle -/

@[simp] theorem setSettle_ee (t) (s : State) : (setSettle t s).ee = s.ee := rfl
@[simp] theorem setSettle_ce (t) (s : State) : (setSettle t s).ce = s.ce := rfl
@[simp] theorem setSettle_cau (t) (s : State) : (setSettle t s).cau = s.cau := rfl
@[simp] theorem setSettle_kps (t) (s : State) : (setSettle t s).kps = s.kps := rfl
@[simp] theorem setSettle_rlr (t) (s : State) : (setSettle t s).rlr = s.rlr := rfl
@[simp] theorem setSettle_swc (t) (s : State) : (setSettle t s).swc = s.swc := rfl
@[simp] theorem setSettle_tmoHead (t) (s : State) : (setSettle t s).tmoHead = s.tmoHead := rfl
@[simp] theorem setSettle_stc (t) (s : State) : (setSettle t s).stc = s.stc := rfl
@[simp] theorem setSettle_bat (t) (s : State) : (setSettle t s).bat = s.bat := rfl
@[simp] theorem setSettle_flash (t) (s : State) : (setSettle t s).flash = s.flash := rfl
@[simp] theorem setSettle_psv (t) (s : State) : (setSettle t s).psv = { s.psv with settle := t } := rfl
@[simp] theorem setSettle_exc (t) (s : State) : (setSettle t s).exc = s.exc := rfl
@[simp] theorem setSettle_pending (t) (s : State) : (setSettle t s).pending = s.pending := rfl
@[simp] theorem setSettle_free (t) (s : State) : (setSettle t s).free = s.free := rfl

/-! ### beginPowerFail -/

@[simp] theorem beginPowerFail_ee (s : State) : (beginPowerFail s).ee = s.ee := rfl
@[simp] theorem beginPowerFail_ce (s : State) : (beginPowerFail s).ce = s.ce := rfl
@[simp] theorem beginPowerFail_cau (s : State) : (beginPowerFail s).cau = s.cau := rfl
@[simp] theorem beginPowerFail_kps (s : State) : (beginPowerFail s).kps = s.kps := rfl
@[simp] theorem beginPowerFail_rlr (s : State) : (beginPowerFail s).rlr = s.rlr := rfl
@[simp] theorem beginPowerFail_swc (s : State) : (beginPowerFail s).swc = s.swc := rfl
@[simp] theorem beginPowerFail_tmoHead (s : State) : (beginPowerFail s).tmoHead = s.tmoHead := rfl
@[simp] theorem beginPowerFail_stc (s : State) :
    (beginPowerFail s).stc = beginRecord (imageOf s) [.powerFail] s.stc := rfl
@[simp] theorem beginPowerFail_bat (s : State) : (beginPowerFail s).bat = s.bat := rfl
@[simp] theorem beginPowerFail_flash (s : State) : (beginPowerFail s).flash = s.flash := rfl
@[simp] theorem beginPowerFail_psv (s : State) : (beginPowerFail s).psv = s.psv := rfl
@[simp] theorem beginPowerFail_exc (s : State) : (beginPowerFail s).exc = s.exc := rfl
@[simp] theorem beginPowerFail_pending (s : State) : (beginPowerFail s).pending = s.pending := rfl
@[simp] theorem beginPowerFail_free (s : State) : (beginPowerFail s).free = s.free := rfl

/-! ### nextStep -/

@[simp] theorem nextStep_ee (n) (s : State) : (nextStep n s).ee = s.ee := rfl
@[simp] theorem nextStep_ce (n) (s : State) : (nextStep n s).ce = s.ce := rfl
@[simp] theorem nextStep_cau (n) (s : State) : (nextStep n s).cau = s.cau := rfl
@[simp] theorem nextStep_kps (n) (s : State) : (nextStep n s).kps = s.kps := rfl
@[simp] theorem nextStep_rlr (n) (s : State) : (nextStep n s).rlr = s.rlr := rfl
@[simp] theorem nextStep_swc (n) (s : State) : (nextStep n s).swc = s.swc := rfl
@[simp] theorem nextStep_tmoHead (n) (s : State) : (nextStep n s).tmoHead = s.tmoHead := rfl
@[simp] theorem nextStep_stc (n) (s : State) : (nextStep n s).stc = s.stc := rfl
@[simp] theorem nextStep_bat (n) (s : State) : (nextStep n s).bat = s.bat := rfl
@[simp] theorem nextStep_flash (n) (s : State) : (nextStep n s).flash = s.flash := rfl
@[simp] theorem nextStep_psv (n) (s : State) :
    (nextStep n s).psv = { s.psv with seq := s.psv.seq.map (fun q => { q with next := n }) } := rfl
@[simp] theorem nextStep_exc (n) (s : State) : (nextStep n s).exc = s.exc := rfl
@[simp] theorem nextStep_pending (n) (s : State) : (nextStep n s).pending = s.pending := rfl
@[simp] theorem nextStep_free (n) (s : State) : (nextStep n s).free = s.free := rfl

/-! ### beginBulk -/

@[simp] theorem beginBulk_ee (r room src gaps) (s : State) : (beginBulk r room src gaps s).ee = s.ee := rfl
@[simp] theorem beginBulk_ce (r room src gaps) (s : State) : (beginBulk r room src gaps s).ce = s.ce := rfl
@[simp] theorem beginBulk_cau (r room src gaps) (s : State) : (beginBulk r room src gaps s).cau = s.cau := rfl
@[simp] theorem beginBulk_kps (r room src gaps) (s : State) : (beginBulk r room src gaps s).kps = s.kps := rfl
@[simp] theorem beginBulk_rlr (r room src gaps) (s : State) : (beginBulk r room src gaps s).rlr = s.rlr := rfl
@[simp] theorem beginBulk_swc (r room src gaps) (s : State) : (beginBulk r room src gaps s).swc = s.swc := rfl
@[simp] theorem beginBulk_tmoHead (r room src gaps) (s : State) :
    (beginBulk r room src gaps s).tmoHead = s.tmoHead := rfl
@[simp] theorem beginBulk_stc (r room src gaps) (s : State) : (beginBulk r room src gaps s).stc = s.stc := rfl
@[simp] theorem beginBulk_bat (r room src gaps) (s : State) : (beginBulk r room src gaps s).bat = s.bat := rfl
@[simp] theorem beginBulk_flash (r room src gaps) (s : State) : (beginBulk r room src gaps s).flash = s.flash := rfl
@[simp] theorem beginBulk_psv (r room src gaps) (s : State) : (beginBulk r room src gaps s).psv = s.psv := rfl
@[simp] theorem beginBulk_exc (r room src gaps) (s : State) :
    (beginBulk r room src gaps s).exc =
      { s.exc with query := { s.exc.query with begun := true }, bulk := some ⟨r.slot, r.par 16 2, room, src, 0, 0, 0, gaps, false, Timer.stopped⟩ } := rfl
@[simp] theorem beginBulk_pending (r room src gaps) (s : State) :
    (beginBulk r room src gaps s).pending = s.pending := rfl
@[simp] theorem beginBulk_free (r room src gaps) (s : State) : (beginBulk r room src gaps s).free = s.free := rfl

/-! ### setBulk -/

@[simp] theorem setBulk_ee (b) (s : State) : (setBulk b s).ee = s.ee := rfl
@[simp] theorem setBulk_ce (b) (s : State) : (setBulk b s).ce = s.ce := rfl
@[simp] theorem setBulk_cau (b) (s : State) : (setBulk b s).cau = s.cau := rfl
@[simp] theorem setBulk_kps (b) (s : State) : (setBulk b s).kps = s.kps := rfl
@[simp] theorem setBulk_rlr (b) (s : State) : (setBulk b s).rlr = s.rlr := rfl
@[simp] theorem setBulk_swc (b) (s : State) : (setBulk b s).swc = s.swc := rfl
@[simp] theorem setBulk_tmoHead (b) (s : State) : (setBulk b s).tmoHead = s.tmoHead := rfl
@[simp] theorem setBulk_stc (b) (s : State) : (setBulk b s).stc = s.stc := rfl
@[simp] theorem setBulk_bat (b) (s : State) : (setBulk b s).bat = s.bat := rfl
@[simp] theorem setBulk_flash (b) (s : State) : (setBulk b s).flash = s.flash := rfl
@[simp] theorem setBulk_psv (b) (s : State) : (setBulk b s).psv = s.psv := rfl
@[simp] theorem setBulk_exc (b) (s : State) : (setBulk b s).exc = { s.exc with bulk := some b } := rfl
@[simp] theorem setBulk_pending (b) (s : State) : (setBulk b s).pending = s.pending := rfl
@[simp] theorem setBulk_free (b) (s : State) : (setBulk b s).free = s.free := rfl

/-! ### ignoreCancel -/

@[simp] theorem ignoreCancel_ee (i) (s : State) : (ignoreCancel i s).ee = s.ee := rfl
@[simp] theorem ignoreCancel_ce (i) (s : State) : (ignoreCancel i s).ce = s.ce := rfl
@[simp] theorem ignoreCancel_cau (i) (s : State) : (ignoreCancel i s).cau = s.cau := rfl
@[simp] theorem ignoreCancel_kps (i) (s : State) : (ignoreCancel i s).kps = s.kps := rfl
@[simp] theorem ignoreCancel_rlr (i) (s : State) : (ignoreCancel i s).rlr = s.rlr := rfl
@[simp] theorem ignoreCancel_swc (i) (s : State) : (ignoreCancel i s).swc = s.swc := rfl
@[simp] theorem ignoreCancel_tmoHead (i) (s : State) : (ignoreCancel i s).tmoHead = s.tmoHead := rfl
@[simp] theorem ignoreCancel_stc (i) (s : State) : (ignoreCancel i s).stc = s.stc := rfl
@[simp] theorem ignoreCancel_bat (i) (s : State) : (ignoreCancel i s).bat = s.bat := rfl
@[simp] theorem ignoreCancel_flash (i) (s : State) : (ignoreCancel i s).flash = s.flash := rfl
@[simp] theorem ignoreCancel_psv (i) (s : State) : (ignoreCancel i s).psv = s.psv := rfl
@[simp] theorem ignoreCancel_exc (i) (s : State) :
    (ignoreCancel i s).exc = { s.exc with mem := putState s.exc.mem i TAKEN } := rfl
@[simp] theorem ignoreCancel_pending (i) (s : State) : (ignoreCancel i s).pending = s.pending := rfl
@[simp] theorem ignoreCancel_free (i) (s : State) : (ignoreCancel i s).free = s.free := rfl

/-! ### endWrite -/

@[simp] theorem endWrite_ee (s : State) : (endWrite s).ee = s.ee := rfl
@[simp] theorem endWrite_ce (s : State) : (endWrite s).ce = s.ce := rfl
@[simp] theorem endWrite_cau (s : State) : (endWrite s).cau = s.cau := rfl
@[simp] theorem endWrite_kps (s : State) : (endWrite s).kps = s.kps := rfl
@[simp] theorem endWrite_rlr (s : State) : (endWrite s).rlr = s.rlr := rfl
@[simp] theorem endWrite_swc (s : State) : (endWrite s).swc = s.swc := rfl
@[simp] theorem endWrite_tmoHead (s : State) : (endWrite s).tmoHead = s.tmoHead := rfl
@[simp] theorem endWrite_stc (s : State) : (endWrite s).stc = s.stc := rfl
@[simp] theorem endWrite_bat (s : State) : (endWrite s).bat = s.bat := rfl
@[simp] theorem endWrite_flash (s : State) : (endWrite s).flash = s.flash := rfl
@[simp] theorem endWrite_psv (s : State) : (endWrite s).psv = s.psv := rfl
@[simp] theorem endWrite_exc (s : State) : (endWrite s).exc = Exc.recomputeAttn { s.exc with bus := .idle } := rfl
@[simp] theorem endWrite_pending (s : State) : (endWrite s).pending = s.pending := rfl
@[simp] theorem endWrite_free (s : State) : (endWrite s).free = s.free := rfl

/-! ### endRead -/

@[simp] theorem endRead_ee (s : State) : (endRead s).ee = s.ee := rfl
@[simp] theorem endRead_ce (s : State) : (endRead s).ce = s.ce := rfl
@[simp] theorem endRead_cau (s : State) : (endRead s).cau = s.cau := rfl
@[simp] theorem endRead_kps (s : State) : (endRead s).kps = s.kps := rfl
@[simp] theorem endRead_rlr (s : State) : (endRead s).rlr = s.rlr := rfl
@[simp] theorem endRead_swc (s : State) : (endRead s).swc = s.swc := rfl
@[simp] theorem endRead_tmoHead (s : State) : (endRead s).tmoHead = s.tmoHead := rfl
@[simp] theorem endRead_stc (s : State) : (endRead s).stc = s.stc := rfl
@[simp] theorem endRead_bat (s : State) : (endRead s).bat = s.bat := rfl
@[simp] theorem endRead_flash (s : State) : (endRead s).flash = s.flash := rfl
@[simp] theorem endRead_psv (s : State) : (endRead s).psv = s.psv := rfl
@[simp] theorem endRead_exc (s : State) :
    (endRead s).exc =
      { s.exc with bus := .idle, mem := applyDeferred s.exc.mem s.exc.deferred, deferred := [] } := rfl
@[simp] theorem endRead_pending (s : State) : (endRead s).pending = s.pending := rfl
@[simp] theorem endRead_free (s : State) : (endRead s).free = s.free := rfl

/-! ### sendOut -/

@[simp] theorem sendOut_ee (bs) (s : State) : (sendOut bs s).ee = s.ee := rfl
@[simp] theorem sendOut_ce (bs) (s : State) : (sendOut bs s).ce = s.ce := rfl
@[simp] theorem sendOut_cau (bs) (s : State) : (sendOut bs s).cau = s.cau := rfl
@[simp] theorem sendOut_kps (bs) (s : State) : (sendOut bs s).kps = s.kps := rfl
@[simp] theorem sendOut_rlr (bs) (s : State) : (sendOut bs s).rlr = s.rlr := rfl
@[simp] theorem sendOut_swc (bs) (s : State) : (sendOut bs s).swc = s.swc := rfl
@[simp] theorem sendOut_tmoHead (bs) (s : State) : (sendOut bs s).tmoHead = s.tmoHead := rfl
@[simp] theorem sendOut_stc (bs) (s : State) : (sendOut bs s).stc = s.stc := rfl
@[simp] theorem sendOut_bat (bs) (s : State) : (sendOut bs s).bat = s.bat := rfl
@[simp] theorem sendOut_flash (bs) (s : State) : (sendOut bs s).flash = s.flash := rfl
@[simp] theorem sendOut_psv (bs) (s : State) : (sendOut bs s).psv = s.psv := rfl
@[simp] theorem sendOut_exc (bs) (s : State) : (sendOut bs s).exc = { s.exc with dataOut := bs } := rfl
@[simp] theorem sendOut_pending (bs) (s : State) : (sendOut bs s).pending = s.pending := rfl
@[simp] theorem sendOut_free (bs) (s : State) : (sendOut bs s).free = s.free := rfl

/-! ### loseSlots -/

@[simp] theorem loseSlots_ee (s : State) : (loseSlots s).ee = s.ee := rfl
@[simp] theorem loseSlots_ce (s : State) : (loseSlots s).ce = s.ce := rfl
@[simp] theorem loseSlots_cau (s : State) :
    (loseSlots s).cau =
      { s.cau with queue := s.cau.queue.map (fun e => { e with slot := none }), pkg := s.cau.pkg.map (fun p => { p with slot := none }) } := rfl
@[simp] theorem loseSlots_kps (s : State) : (loseSlots s).kps = s.kps := rfl
@[simp] theorem loseSlots_rlr (s : State) : (loseSlots s).rlr = s.rlr := rfl
@[simp] theorem loseSlots_swc (s : State) :
    (loseSlots s).swc = { s.swc with drive := s.swc.drive.map (fun d => { d with slot := none }) } := rfl
@[simp] theorem loseSlots_tmoHead (s : State) : (loseSlots s).tmoHead = s.tmoHead := rfl
@[simp] theorem loseSlots_stc (s : State) : (loseSlots s).stc = s.stc := rfl
@[simp] theorem loseSlots_bat (s : State) : (loseSlots s).bat = s.bat := rfl
@[simp] theorem loseSlots_flash (s : State) : (loseSlots s).flash = s.flash := rfl
@[simp] theorem loseSlots_psv (s : State) :
    (loseSlots s).psv = { s.psv with req := s.psv.req.map (fun q => { q with slot := none }) } := rfl
@[simp] theorem loseSlots_exc (s : State) : (loseSlots s).exc = s.exc := rfl
@[simp] theorem loseSlots_pending (s : State) : (loseSlots s).pending = s.pending := rfl
@[simp] theorem loseSlots_free (s : State) : (loseSlots s).free = s.free := rfl

end Sys2Proof.Laws
end

