-- ==== Sys2Proof/Tests/Slice0.lean ====
section
/-! SUPPORT. Tests/Slice0.lean: the smoke test of WellFormed; for each statement with hypotheses a concrete state and
operands that meet them, clause by clause; and small tests of single commands. -/

set_option Elab.async false
set_option maxRecDepth 20000

namespace Sys2Proof.Tests

open Sys2Proof Sys2Proof.Machine

/-! ### States and operands of the tests -/

/-- The state after a command. -/
def after (c : Instr) (s : State) : State :=
  match exec c s with
  | .next t => t
  | .fault _ => s
  | .refused _ => s

/-- The parameter bytes of a slot, with the given bytes at their slot offsets. -/
def params (l : List (Nat × Byte)) : List Byte := l.foldl (fun bs p => bs.set (p.1 - 8) p.2) (zeros 56)

/-- A request in slot 0. -/
def req (k : ReqKind) (l : List (Nat × Byte)) : Request := ⟨0, k, params l, .none⟩

/-- A part in service, in RUN. -/
def service : State := { State.reset with psv := { State.reset.psv with inService := true } }

/-- s with a request at the head of the CODE lane. -/
def codeLane (r : Request) (s : State) : State := { s with exc := { s.exc with code := ⟨[r], false⟩ } }

/-- s with a request at the head of the CONTROL lane. -/
def controlLane (r : Request) (s : State) : State := { s with exc := { s.exc with control := ⟨[r], false⟩ } }

/-- s with a request at the head of the QUERY lane. -/
def queryLane (r : Request) (s : State) : State := { s with exc := { s.exc with query := ⟨[r], false⟩ } }

/-- s with a valid clock. -/
def validClock (s : State) : State := { s with bat := { s.bat with clockValid := true } }

/-- s with the store in FAULT. -/
def storeFaulty (s : State) : State := { s with stc := { s.stc with fault := true } }

/-- s in a power state. -/
def inPower (p : Power) (s : State) : State := { s with psv := { s.psv with power := p } }

/-- s in a switch state with an open-reason set. -/
def switched (w : SwitchState) (p : Reasons) (s : State) : State := { s with swc := { s.swc with sw := w, set := p } }

/-- s with a drive. -/
def driving (d : Drive) (s : State) : State := { s with swc := { s.swc with drive := some d } }

/-- s with a program in progress. -/
def programming (p : Prog) (s : State) : State := { s with stc := { s.stc with prog := some p } }

/-- s with an erase in progress. -/
def erasing (e : EraseRun) (s : State) : State := { s with stc := { s.stc with erase := some e } }

/-- s with the failure count n. -/
def failing (n : Nat) (s : State) : State := { s with stc := { s.stc with failCount := n } }

/-- s with a balance. -/
def balance (b : Int) (s : State) : State := { s with ce := { s.ce with money := { s.ce.money with b := b } } }

/-- s with emergency credit of 500 CU offered below 100 CU. -/
def offering (s : State) : State :=
  { s with cau := { s.cau with settings := { s.cau.settings with e := 500, o := 100 } } }

/-- s with a penalty timer of n seconds for each source. -/
def penalized (n : Nat) (s : State) : State :=
  { s with bat := { s.bat with penalties := ⟨⟨1, startTimer n⟩, ⟨1, startTimer n⟩, ⟨1, startTimer n⟩⟩ } }

/-- s with code strings in the code queue. -/
def queued (l : List CodeEntry) (s : State) : State := { s with cau := { s.cau with queue := l } }

/-- A code string of n characters '1' in slot 0. -/
def codeOf (n : Nat) : CodeEntry := ⟨.exchange, List.replicate n 49, some 0⟩

/-- s with keys in the keypad buffer. -/
def keyed (l : List (Fin 10)) (s : State) : State := { s with kps := ⟨l, startTimer 30⟩ }

/-- s with the state bytes of slot 0 put to v. -/
def slotAt (v : Nat) (s : State) : State := { s with exc := { s.exc with mem := putState s.exc.mem 0 v } }

/-- A WRITE of slot 0's state byte, which was v before it. -/
def writeTxnOf (v : Nat) : WriteTxn := ⟨513, v :: List.replicate 15 0, false, false, true⟩

/-- s with an open WRITE. -/
def writing (t : WriteTxn) (s : State) : State := { s with exc := { s.exc with bus := .writing t } }

/-- A paused bulk request in slot 0. -/
def bulkOf (src : BulkSource) (filled : Nat) (paused : Bool) : BulkRun :=
  ⟨0, 0, 2, src, filled, 0, 0, false, paused, ⟨if paused then 1 else 0, paused⟩⟩

/-- s with a bulk request in execution. -/
def bulking (b : BulkRun) (s : State) : State :=
  { s with exc := { s.exc with bulk := some b, query := ⟨[req .readProfile []], true⟩ } }

/-- s with a kind in a state. -/
def kindIn (k : Kind) (x : KindState) (s : State) : State :=
  { s with bat := { s.bat with kinds := s.bat.kinds.set k { s.bat.kinds.get k with state := x } } }

/-- s with a lifecycle request in progress from slot 0. -/
def asked (q : Lifecycle) (s : State) : State := { s with psv := { s.psv with req := some ⟨q, some 0⟩ } }

/-- A period without current or power. -/
def idlePeriod : PeriodInput :=
  ⟨⟨⟨0, 0, 0⟩, ⟨0, 0, 0⟩, ⟨0, 0, 0⟩⟩, 0, 0, ⟨0, 0, 0⟩, Arrival.all⟩

/-- A period with 230 V, 5 A and 1,150 W on phase a. -/
def loadedPeriod : PeriodInput :=
  ⟨⟨⟨1150000, 23000, 5000⟩, ⟨0, 0, 0⟩, ⟨0, 0, 0⟩⟩, 0, 0, ⟨0, 0, 0⟩, Arrival.all⟩

/-- Line voltage present, and the load side at the given voltage on every phase. -/
def volts (load : Nat) : PerPhase PhaseVolts := ⟨⟨23000, load⟩, ⟨23000, load⟩, ⟨23000, load⟩⟩

/-- Line-side voltage on one phase, and none on the others. -/
def line (v : Nat) : PerPhase Nat := ⟨0, v, 0⟩

/-- s with an interval open from 0 that ends at n. -/
def intervalTo (n : Nat) (s : State) : State :=
  { s with ee := { s.ee with interval := some ⟨0, n, 0, 0, 0, 0, 0, 0, ProfileFlags.clear⟩ } }

/-- An entry of the tamper log. -/
def entry0 : TamperEntry := ⟨0, .coverMain, .warningBegin, .run, .opened, 0, 0⟩

/-- s with n entries waiting for their append. -/
def appending (n : Nat) (s : State) : State :=
  { s with stc := { s.stc with queue := List.replicate n ⟨.append (.log entry0), false⟩ } }

/-- The image of a save. -/
def image0 : SaveRecord := imageOf State.reset

/-! ### WellFormed: one ill-formed term for each check -/

theorem test_wf_period : (Instr.periodEnd idlePeriod).wf = true := by decide
theorem test_ill_pRaw :
    (Instr.periodEnd { idlePeriod with phases := ⟨⟨67108864, 0, 0⟩, ⟨0, 0, 0⟩, ⟨0, 0, 0⟩⟩ }).wf = false ∧
    (Instr.periodEnd { idlePeriod with phases := ⟨⟨0, 0, 0⟩, ⟨-67108864, 0, 0⟩, ⟨0, 0, 0⟩⟩ }).wf = false ∧
    (Instr.periodEnd { idlePeriod with phases := ⟨⟨0, 0, 0⟩, ⟨0, 0, 0⟩, ⟨67108864, 0, 0⟩⟩ }).wf = false := by decide
theorem test_ill_iRes : (Instr.periodEnd { idlePeriod with iRes := 160001 }).wf = false := by decide
theorem test_ill_magnetHits : (Instr.periodEnd { idlePeriod with magnetHits := 3201 }).wf = false := by decide
theorem test_ill_order_length :
    (Instr.periodEnd { idlePeriod with order := Arrival.all ++ [.billing] }).wf = false := by decide
theorem test_ill_order_repeat : (Instr.periodEnd { idlePeriod with
    order := [.billing, .billing, .reverse, .imbalance, .bypass, .noVoltage, .magnet] }).wf = false := by decide
theorem test_ill_loadTrip : (Instr.loadTrip 132000001).wf = false := by decide
theorem test_ill_magnetSecond : (Instr.magnetSamplerSecond 33).wf = false := by decide
theorem test_ill_startStep :
    (Instr.settleTimerExpiry (volts 0) 0).wf = false ∧ (Instr.settleTimerExpiry (volts 0) 10).wf = false := by decide
theorem test_ill_voidCommand : (Instr.voidCommand 0xA1 0).wf = false ∧ (Instr.voidCommand 0xA2 0).wf = false ∧
    (Instr.voidCommand 0xA4 0).wf = false := by decide

/-! ### Witnesses: the step, the queue, the invariants -/

theorem witness_IdleSecondInRun :
    State.reset.pending = [] ∧ State.reset.psv.power = .run ∧ dueCommand State.reset = none := by decide

/-- The factory part a second later. -/
def later : State := { State.reset with bat := { State.reset.bat with clock := 1 } }

theorem steps_later : ∃ t, step later = .next t := ⟨_, rfl⟩

theorem witness_EveryStepKeepsThePageFresh :
    PageFresh (refresh later) ∧ ∃ t, step (refresh later) = .next t := ⟨fun _ _ => ⟨rfl, rfl⟩, _, rfl⟩

theorem witness_EveryStepKeepsTheMemoryCanonical :
    Memory.wf (slotAt DONE later).exc.mem = true ∧ ∃ t, step (slotAt DONE later) = .next t := ⟨by decide, _, rfl⟩

theorem witness_EveryStepKeepsTheNoticeList : NoticesOk later.exc ∧ ∃ t, step later = .next t :=
  ⟨by unfold NoticesOk; decide, _, rfl⟩

theorem witness_EveryStepKeepsTheSavedRanges : RangesOk later ∧ ∃ t, step later = .next t := by
  refine ⟨⟨⟨by unfold EnergyOk; decide, by unfold MoneyOk; decide, ⟨by decide, trivial⟩, ?_, by decide⟩, ?_, ?_, ?_⟩,
    _, rfl⟩
  · intro k
    cases k <;> decide
  · intro r h
    exact absurd h (by simp [later, State.reset, Flash.factory])
  · intro l i h
    exact absurd h (by simp [later, State.reset])
  · intro m h
    exact absurd h (by simp [later, State.reset])

/-! ### Witnesses: energy -/

theorem witness_EffectivePowerTakesTheFirstCase :
    let x := fun (p : Int) (v i : BitVec 16) => scale ⟨p, v, i⟩ 32768 40960 16384
    let m := Settings.initial.metering
    let ends := fun (x : Scaled) => x.v < 4000 ∧ m.iMin ≤ x.i
    ((x 44000000 50000 64000).overrange = false ∧ (x 44000001 0 0).overrange = true ∧
      (x 0 50001 0).overrange = true ∧ (x 0 0 64001).overrange = true ∧ (x (-44000001) 0 0).p = -44000000) ∧
    ends ⟨3999, 100, -5, false⟩ ∧
    (¬ends ⟨4000, 100, 1999, false⟩ ∧ (1999 : Int).natAbs < m.pStart) ∧
    (¬ends ⟨3999, 99, 0, false⟩ ∧ ¬ends ⟨4000, 0, 2000, false⟩ ∧ ¬((2000 : Int).natAbs < m.pStart)) ∧
    (¬ends ⟨4000, 0, -2000, false⟩ ∧ ¬((-2000 : Int).natAbs < m.pStart) ∧ m.separate = false) ∧
    ({ m with separate := true } : Metering).separate = true ∧ { m with vNom := 25000 }.vNom ≤ 25000 ∧
    State.reset.psv.power = .run := by decide

theorem witness_PeriodTotalsTakeTheFallbackFloor :
    let s := kindIn .magnet .warning State.reset
    let t := fun (p : PeriodInput) (s : State) =>
      sumPhase Effective.imp (mapPhase (effective s.cau.settings.metering) (scaleAll p.phases s.ee.gains))
    s.psv.power = .run ∧ s.bat.kinds.magnet.state = .warning ∧ t idlePeriod s < s.cau.settings.metering.pDef ∧
    ¬(State.reset.bat.kinds.magnet.state = .warning ∨ State.reset.bat.kinds.magnet.state = .declared) ∧
    s.cau.settings.metering.vNom ≤ 25000 := by decide

/-- A part in service and in RUN whose MAGNET kind has a counter and a state, with entries waiting. -/
def indicated (n waiting : Nat) (x : KindState) : State :=
  let s := appending waiting service
  { s with bat := { s.bat with kinds := { s.bat.kinds with magnet := { s.bat.kinds.magnet with counter := n, state := x } } } }

theorem witness_PeriodEndBillsTheEnergy :
    let s := State.reset
    let ending := intervalTo 1800 (appending 31 s)
    (s.psv.power = .run ∧ s.cau.pendingPkg = none ∧
      (intervalTo 1 s).ee.interval = some ⟨0, 1, 0, 0, 0, 0, 0, 0, ProfileFlags.clear⟩ ∧ (intervalTo 1 s).bat.clock < 1) ∧
    (isReading s.exc = false ∧ s.exc.deferred = []) ∧
    (ending.ee.interval = some ⟨0, 1800, 0, 0, 0, 0, 0, 0, ProfileFlags.clear⟩ ∧ 1799 < 1800 ∧ 1800 ≤ 1800 ∧ 0 < 1800 ∧
      storeTakes ending.psv = true ∧ ending.stc.fault = false ∧ (ending.stc.queue.filter isAppend).length < 32) := by
  decide

theorem witness_PeriodEndBillsTheEnergy_billing :
    let charged : State := { validClock service with
      bat := { (validClock service).bat with clock := 86400 }
      cau := { service.cau with settings := { service.cau.settings with fixed := 10 } } }
    (billPeriod 0 0 State.reset).ce.money.b = State.reset.ce.money.b ∧
    (billPeriod 0 86400 charged).ce.money.b ≠ charged.ce.money.b := by decide

theorem witness_PeriodEndBillsTheEnergy_indicators :
    let state := fun (s : State) => (s.bat.kinds.get .magnet).state
    let up := fun (s : State) => min 255 ((s.bat.kinds.get .magnet).counter + 8)
    let down := fun (s : State) => (s.bat.kinds.get .magnet).counter - 1
    let room := fun (s : State) => (s.stc.queue.filter isAppend).length ≤ 30 ∧ s.stc.fault = false
    (∀ x ∈ [KindState.quiet, .warning, .declared],
      (indicated 87 30 x).psv.power = .run ∧ room (indicated 87 30 x) ∧ state (indicated 87 30 x) = x) ∧
    up (indicated 87 30 .quiet) = 95 ∧ up (indicated 88 30 .quiet) = 96 ∧ down (indicated 97 30 .warning) = 96 ∧
    down (indicated 96 30 .warning) = 95 ∧ up (indicated 119 30 .warning) = 127 ∧ up (indicated 120 30 .warning) = 128 ∧
    (indicated 120 30 .warning).psv.inService = true ∧ bitOf (indicated 120 30 .quiet).stc.copy (.ever .magnet) = false ∧
    hasCounter .magnet = true := by decide

/-! ### Witnesses: clock and credit -/

/-- s with a tariff of two bands from 06:00 and 22:00 and a window from 06:00 to 08:00, each weekend. -/
def tariffed (s : State) : State :=
  { s with cau := { s.cau with settings := { s.cau.settings with
    weekend := [⟨0, 0⟩, ⟨360, 1⟩, ⟨1320, 2⟩], friendlyWeekend := [⟨360, 480⟩] } } }

/-- s a minute after its clock's minute timer ran out, at the given second. -/
def minuteAt (n : Nat) (s : State) : State :=
  { s with bat := { s.bat with clock := n }, ce := { s.ce with minuteDue := true } }

theorem witness_MinuteTimerRecomputesBandAndWindow :
    let s := minuteAt 0 State.reset
    let points : List SwitchPoint := [⟨0, 0⟩, ⟨360, 1⟩, ⟨1320, 2⟩]
    let inAfter := fun (p : SwitchPoint) (after : List SwitchPoint) (minute : Nat) =>
      p.minute ≤ minute ∧ ∀ q ∈ after.head?, minute < q.minute
    let changes := minuteAt 21600 (tariffed (validClock State.reset))
    (State.reset.bat.clockValid = false ∧ (validClock State.reset).bat.clockValid = true ∧
      (tariffed State.reset).cau.settings.weekend = points ∧ 172799 / 86400 % 7 < 2 ∧ ¬172800 / 86400 % 7 < 2) ∧
    (points = [] ++ ⟨0, 0⟩ :: points.tail ∧ inAfter ⟨0, 0⟩ points.tail 359) ∧
    (points = [⟨0, 0⟩] ++ ⟨360, 1⟩ :: [⟨1320, 2⟩] ∧ (∀ q ∈ [(⟨0, 0⟩ : SwitchPoint)], q.minute ≤ 360) ∧
      inAfter ⟨360, 1⟩ [⟨1320, 2⟩] 360) ∧
    (points = [⟨0, 0⟩, ⟨360, 1⟩] ++ ⟨1320, 2⟩ :: [] ∧ inAfter ⟨1320, 2⟩ [] 1439) ∧
    (s.psv.power = .run ∧ s.ce.minuteDue = true ∧ windowAt s s.bat.clock = s.ce.window) ∧
    (changes.psv.power = .run ∧ changes.ce.minuteDue = true ∧ windowAt changes changes.bat.clock ≠ changes.ce.window) := by
  decide

/-- s with its clock at n. -/
def clockAt (n : Nat) (s : State) : State := { s with bat := { s.bat with clock := n } }

theorem witness_SetTimeDeltaMovesTheClock :
    let r := fun (n : Byte) => req .setTime [(12, n)]
    let s := fun (n : Byte) => controlLane (r n) State.reset
    let v := fun (n : Byte) => controlLane (r n) (validClock State.reset)
    ControlReady .setTime (r 0) (s 0) ∧ (r 0).par 8 1 = 0 ∧ (s 0).bat.clockValid = false ∧
    (∀ n ∈ [(0 : Byte), 60], ControlReady .setTime (r n) (v n) ∧ (r n).par 8 1 = 0 ∧ (v n).bat.clockValid = true ∧
      (v n).bat.clock ≤ 4294967295 ∧ signed32 ((r n).par 12 4) = n.toNat) := by
  unfold ControlReady LaneReady ExchangeRuns
  decide

/-- SET_TIME by a step of 60 s from the given second, with an open interval and a friendly window from 06:00. -/
def stepping (n : Nat) : State :=
  controlLane (req .setTime [(12, 60)]) (appending 31 (intervalTo 1800 (clockAt n (tariffed (validClock State.reset)))))

theorem witness_ClockStepped :
    let stepped := fun (n : Nat) => after .setTime (stepping n)
    (∀ n ∈ [1739, 1740, 21599], (stepped n).bat.clock = n + 60 ∧ (stepping n).ee.interval ≠ none ∧
      storeTakes (stepping n).psv = true ∧ (stepping n).stc.fault = false ∧
      ((stepping n).stc.queue.filter isAppend).length < 32) ∧
    windowAt (stepped 1740) (stepped 1740).bat.clock = (stepping 1740).ce.window ∧
    windowAt (stepped 21599) (stepped 21599).bat.clock ≠ (stepping 21599).ce.window ∧
    (stepping 1740).cau.settings.intervalLen * 60 = 1800 ∧
    (1740 < 1 * 1800 ∧ 1 * 1800 ≤ 1740 + 60) := by decide

theorem witness_ClockStepped_inside :
    ¬∃ n, (1739 < n * 1800 ∧ n * 1800 ≤ 1799) ∨ (1799 < n * 1800 ∧ n * 1800 ≤ 1739) := by
  rintro ⟨n, h⟩
  omega

theorem witness_SetTimeAbsoluteSetsTheClock :
    let r := fun (mode : Byte) => req .setTime [(8, mode), (12, 60)]
    let s := controlLane (r 1) State.reset
    let t := controlLane (r 1) (validClock service)
    let u := fun (n : Nat) => controlLane (r 1) (clockAt n (validClock State.reset))
    (ControlReady .setTime (r 2) (controlLane (r 2) service) ∧ 1 < (r 2).par 8 1) ∧
    (ControlReady .setTime (r 1) t ∧ t.bat.clockValid = true ∧ t.psv.inService = true) ∧
    (ControlReady .setTime (r 1) s ∧ (r 1).par 8 1 = 1 ∧ s.bat.clockValid = false) ∧
    (∀ n ∈ [60, 61], ControlReady .setTime (r 1) (u n) ∧ (u n).bat.clockValid = true ∧ (u n).psv.inService = false) ∧
    (r 1).par 12 4 = 60 := by
  unfold ControlReady LaneReady ExchangeRuns
  decide

theorem witness_TakeEmergencyRefuses :
    let r := req .takeEmergency []
    let s := codeLane r (offering service)
    let active : State := { s with ce := { s.ce with money := { s.ce.money with emergency := true } } }
    let f := kindIn .coverMain .declared s
    CodeReady .takeEmergency r (codeLane r State.reset) ∧ State.reset.psv.inService = false ∧
    (CodeReady .takeEmergency r (codeLane r service) ∧ service.psv.inService = true ∧ service.cau.settings.e = 0) ∧
    (CodeReady .takeEmergency r active ∧ active.cau.settings.e ≠ 0 ∧ active.ce.money.emergency = true) ∧
    (CodeReady .takeEmergency r (balance 100 s) ∧ (balance 100 s).ce.money.emergency = false ∧
      ((balance 100 s).cau.settings.o : Int) ≤ (balance 100 s).ce.money.b) ∧
    (CodeReady .takeEmergency r f ∧ f.ce.money.b < f.cau.settings.o ∧ freezeInForce f = true) := by
  unfold CodeReady LaneReady ExchangeRuns
  decide

theorem witness_TakeEmergencyMakesItActive :
    let r := req .takeEmergency []
    let s := fun (b : Int) (credit window : Bool) =>
      let x := balance b (codeLane r (offering service))
      { x with ce := { x.ce with window := window }, swc := { x.swc with set := { x.swc.set with credit := credit } } }
    (∀ b ∈ [-500, -499, 99], ∀ credit window, CodeReady .takeEmergency r (s b credit window) ∧
      (s b credit window).psv.inService = true ∧ (s b credit window).cau.settings.e = 500 ∧
      (s b credit window).ce.money.emergency = false ∧ (s b credit window).ce.money.b < (s b credit window).cau.settings.o ∧
      freezeInForce (s b credit window) = false ∧ (s b credit window).stc.fault = false ∧
      (s b credit window).ce.money.b = b ∧ (s b credit window).swc.set.credit = credit ∧
      (s b credit window).ce.window = window) := by
  unfold CodeReady LaneReady ExchangeRuns
  decide

/-! ### Witnesses: keypad, codes, radio -/

theorem witness_KeyPressEditsAndSubmits :
    let s := State.reset
    s.psv.power = .run ∧ (keyed (List.replicate 17 1) s).kps.buf.length < 18 ∧
    18 ≤ (keyed (List.replicate 18 1) s).kps.buf.length ∧ (keyed [1] s).kps.buf.length ≤ 1 ∧
    1 < (keyed [1, 2] s).kps.buf.length ∧ s.kps.buf = [] ∧
    ((keyed [1] s).kps.buf ≠ [] ∧ (keyed [1] s).kps.buf ≠ [0, 0, 0] ∧
      (keyed [1] s).bat.penalties.keypad.timer.left = 0 ∧
      (queued (List.replicate 3 (codeOf 1)) (keyed [1] s)).cau.queue.length < 4) ∧
    0 < (penalized 1 (keyed [1] s)).bat.penalties.keypad.timer.left ∧
    ((keyed [0, 0, 0] s).kps.buf = [0, 0, 0] ∧ (keyed [0, 0, 0] s).psv.inService = false) := by decide

theorem witness_IdleBlockAndGapTimersExpire :
    let s := { keyed [1] State.reset with kps := ⟨[1], ⟨1, true⟩⟩ }
    let b : State := { State.reset with bat := { State.reset.bat with
      penalties := State.reset.bat.penalties.set .radio ⟨1, ⟨1, true⟩⟩ } }
    s.psv.power = .run ∧ s.kps.idle.due = true ∧ b.psv.power = .run ∧ (b.bat.penalties.get .radio).timer.due = true := by
  decide

theorem witness_ApplyCodeSubmits :
    let r := req .applyCode [(8, 40)]
    let big := req .applyCode [(8, 41)]
    let s := codeLane r service
    CodeReady .applyCode big (codeLane big service) ∧ 40 < big.par 8 1 ∧
    (CodeReady .applyCode r (penalized 1 s) ∧ r.par 8 1 ≤ 40 ∧
      0 < (penalized 1 s).bat.penalties.exchange.timer.left) ∧
    (CodeReady .applyCode r (queued (List.replicate 4 (codeOf 1)) s) ∧ s.bat.penalties.exchange.timer.left = 0 ∧
      4 ≤ (queued (List.replicate 4 ⟨.keypad, [], none⟩) s).cau.queue.length) ∧
    CodeReady .applyCode r (queued (List.replicate 3 ⟨.keypad, [], none⟩) s) ∧
      (queued (List.replicate 3 ⟨.keypad, [], none⟩) s).cau.queue.length < 4 := by
  unfold CodeReady LaneReady ExchangeRuns
  decide

theorem witness_MalformedCodesAreBadFormat :
    let s := queued [codeOf 17] service
    s.psv.power = .run ∧ s.psv.inService = true ∧ s.cau.applied = none ∧ codeNumber (codeOf 17).chars = none ∧
    codeNumber (codeOf 19).chars = none ∧ codeNumber (List.replicate 17 48 ++ [58]) = none ∧
    codeNumber ("576460752303423488".toList.map (fun c => BitVec.ofNat 8 c.toNat)) = none ∧
    codeNumber ("576460752303423487".toList.map (fun c => BitVec.ofNat 8 c.toNat)) = some (2 ^ 59 - 1) := by decide

/-- A CLEAR_TAMPER block for COVER_MAIN and MAGNET. -/
def clearBlock : ClearBlock := ⟨1, 1, 5, 0⟩

theorem witness_CodeDecisionTakesTheFirstOutcome :
    let s := queued [codeOf 18] service
    let declared := fun (n : Nat) => appending 24 (kindIn .coverMain .declared (kindIn .magnet .declared { service with
      bat := { service.bat with kinds := { service.bat.kinds with magnet := { KindRec.quiet with counter := n } } } }))
    (s.psv.power = .run ∧ s.cau.queue = [codeOf 18] ∧ s.cau.applied = none ∧ s.psv.inService = true ∧
      codeNumber (codeOf 18).chars = some 111111111111111111 ∧ State.reset.psv.inService = false) ∧
    clearBlock.kind = 1 ∧ ∀ n ∈ [95, 96],
      (declared n).psv.power = .run ∧ (declared n).stc.fault = false ∧
      ((declared n).stc.queue.filter isAppend).length ≤ 24 ∧
      (clearBlock.value / 2 ^ kindIndex .magnet % 2 = 1 ∧ ((declared n).bat.kinds.get .magnet).state = .declared) ∧
      decide (96 ≤ ((declared n).bat.kinds.get .magnet).counter) = decide (n = 96) ∧
      (declared n).bat.coverMain = false := by decide

/-- A CREDIT block of 10 CU. -/
def creditBlock : ClearBlock := ⟨0, 1, 1, 0⟩

theorem witness_CreditBlockAddsToTheBalance :
    creditBlock.kind = 0 ∧ creditBlock.value = 1 ∧ { creditBlock with value := 0 }.kind = 0 ∧
    service.psv.power = .run ∧ service.stc.fault = false := by decide

theorem witness_LoadUnlockRemovesLockout :
    let b : ClearBlock := ⟨2, 1, 0, 0⟩
    let s := switched .opened { Reasons.empty with lockout := true } service
    b.kind = 2 ∧ s.psv.inService = true ∧ s.swc.sw = .opened ∧ s.swc.drive = none ∧
      s.swc.set = { Reasons.empty with lockout := true } := by decide

theorem witness_UsedCodeTableKeepsItsOrder :
    let c : Codes := ⟨[2, 3], 1⟩
    let full : Codes := ⟨(List.range 32).map (fun n => n + 2), 1⟩
    (CodesOk c ∧ c.floor < 4 ∧ 4 ∉ c.table ∧ c.table.length < 32) ∧
    (CodesOk full ∧ full.floor < 40 ∧ 40 ∉ full.table ∧ full.table.length = 32) := by
  unfold CodesOk
  refine ⟨⟨⟨by decide, by simp [risesFrom]⟩, by decide, by decide, by decide⟩,
    ⟨⟨by decide, by simp [risesFrom, List.range, List.range.loop]⟩, by decide, by decide, by decide⟩⟩

/-- s with the radio line's recognizer in a state. -/
def receiving (x : Recognizer) (s : State) : State := { s with rlr := { s.rlr with rx := x } }

theorem witness_RadioLineByteMovesTheRecognizer :
    let rx := fun (x : Recognizer) => (receiving x State.reset).rlr.rx = x
    let addr : List Byte := [1, 2, 3, 4, 5, 6]
    let called := addr ++ addr ++ addr
    let own : State := { State.reset with rlr := { State.reset.rlr with radioAddr := addr } }
    let group : State := { State.reset with cau := { State.reset.cau with
      settings := { State.reset.cau.settings with groups := [addr] } } }
    (State.reset.psv.power = .run ∧ rx (.hunt 2) ∧ (0x95 : Byte) ≠ 0x96 ∧ (2 : Nat) ≠ 3 ∧ rx (.hunt 3) ∧ rx .sync) ∧
    (rx (.address (addr ++ addr)) ∧ 6 ≤ (addr ++ addr).length ∧ (addr ++ addr).getD (12 % 6) 0 ≠ 2 ∧
      (addr ++ addr).getD (12 % 6) 0 = 1 ∧ (addr.take 5).length < 6) ∧
    (rx (.address (called.take 17)) ∧ (called.take 17).length = 17 ∧ called.getD (17 % 6) 0 = 6 ∧
      (called.take 17 ++ [6]).take 6 = addr ∧ addr ≠ [0, 0, 0, 0, 0, 0] ∧ addr = own.rlr.radioAddr ∧
      addr ∈ group.cau.settings.groups ∧ addr ≠ State.reset.rlr.radioAddr ∧ addr ∉ State.reset.cau.settings.groups) ∧
    (rx (.kind true called) ∧ rx (.length true (called ++ [67])) ∧ 40 < (41 : Byte).toNat ∧ (40 : Byte).toNat ≤ 40 ∧
      0 < (1 : Byte).toNat) ∧
    (rx (.payload true (called ++ [67, 2]) 2) ∧ rx (.payload true (called ++ [67, 2, 9]) 1)) ∧
    (rx (.check true (called ++ [67, 1] ++ [9])) ∧ rx (.check true (called ++ [67, 1] ++ [9] ++ [0xFF])) ∧
      called.length = 18 ∧ [(9 : Byte)].length = (1 : Byte).toNat ∧
      256 * (0xFF : Byte).toNat + (0xB4 : Byte).toNat ≠
        (65536 - (([67, 1, 9] : List Byte).map BitVec.toNat).sum % 65536) % 65536) := by decide

theorem witness_ValidCallIsCaptured :
    let addr : List Byte := [1, 2, 3, 4, 5, 6]
    let s : State := { State.reset with rlr := { State.reset.rlr with radioAddr := addr } }
    let payload : List Byte := List.replicate 40 1
    let len : Byte := BitVec.ofNat 8 payload.length
    let sums := fun (kind hi lo : Byte) => 256 * hi.toNat + lo.toNat =
      (65536 - ((kind :: len :: payload).map BitVec.toNat).sum % 65536) % 65536
    (s.psv.power = .run ∧ s.rlr.rx = .hunt 0 ∧ addr.length = 6 ∧ addr.head? ≠ some 0x96 ∧
      addressMatches s addr = true ∧ payload.length ≤ 40) ∧
    ((72 : Byte) ≠ 67 ∧ sums 72 0xFF 0x68) ∧ (sums 67 0xFF 0x6D ∧ addr = s.rlr.radioAddr) ∧
    0 < (penalized 1 s).bat.penalties.radio.timer.left ∧
    (s.bat.penalties.radio.timer.left = 0 ∧ 4 ≤ (queued (List.replicate 4 (codeOf 1)) s).cau.queue.length ∧
      (queued (List.replicate 3 (codeOf 1)) s).cau.queue.length < 4) := by decide

/-! ### Witnesses: packages -/

theorem witness_ApplyPackageTakesTheBytes :
    let bad := req .applyPackage [(9, 16), (10, 1)]
    let none' := req .applyPackage []
    let good := req .applyPackage [(8, 0xFF), (9, 0x0F), (10, 1)]
    (CodeReady .applyPackage bad (codeLane bad service) ∧ 4096 < bad.par 8 2 + bad.par 10 2) ∧
    (CodeReady .applyPackage none' (codeLane none' service) ∧ none'.par 10 2 = 0) ∧
    (CodeReady .applyPackage good (penalized 1 (codeLane good service)) ∧
      ¬(good.par 10 2 = 0 ∨ 1024 < good.par 10 2 ∨ 4096 < good.par 8 2 + good.par 10 2) ∧
      0 < (penalized 1 service).bat.penalties.exchange.timer.left) ∧
    CodeReady .applyPackage good (codeLane good service) ∧ service.bat.penalties.exchange.timer.left = 0 := by
  unfold CodeReady LaneReady ExchangeRuns
  decide

/-- A package with a FIXED_CHARGE section in the CAU. -/
def packageRun (bytes : List Byte) : PkgRun := ⟨bytes, some 0, .decoding⟩

/-- s with a package in the CAU. -/
def deciding (p : PkgRun) (s : State) : State := { s with cau := { s.cau with pkg := some p } }

theorem witness_PackageDecisionTakesTheFirstOutcome :
    let p := packageRun (List.replicate 10 0)
    let q := packageRun (zeros 12 ++ [1, 6, 4, 0, 0, 0, 0] ++ zeros 8)
    State.reset.psv.power = .run ∧ (deciding p service).cau.pkg = some p ∧ p.stage = .decoding ∧
    State.reset.psv.inService = false ∧ service.psv.inService = true ∧ parsePackage p.bytes = .error 0 ∧
    parsePackage q.bytes = .ok [.fixedCharge 0] := by
  refine ⟨by decide, by decide, by decide, by decide, by decide, by rfl, by rfl⟩

/-- s with a pending package of number 7 and effective time 100, and the clock at n. -/
def pendingAt (n : Nat) (released : Bool) (s : State) : State :=
  { s with
    cau := { s.cau with pendingPkg := some ⟨7, 100, [.fixedCharge 5], released⟩ }
    bat := { s.bat with clock := n } }

theorem witness_TakenPackageIsAppliedOrHeld :
    let held := pendingAt 99 true (validClock service)
    let due := pendingAt 100 true (validClock service)
    let flips := tariffed (pendingAt 21600 true (validClock service))
    let emergency := { offering service with ce := { service.ce with money := { service.ce.money with emergency := true } } }
    let recording := pendingAt 1 true (intervalTo 1800 (appending 31 service))
    (service.psv.power = .run ∧ service.stc.fault = false ∧ service.cau.pendingPkg = none) ∧
    (held.cau.pendingPkg = some ⟨7, 100, [.fixedCharge 5], true⟩ ∧ held.bat.clock < 100) ∧
    ((pendingAt 100 false service).cau.pendingPkg = some ⟨7, 100, [.fixedCharge 5], false⟩ ∧
      (pendingAt 100 true service).bat.clockValid = false) ∧
    (due.cau.pendingPkg = some ⟨7, 100, [.fixedCharge 5], true⟩ ∧ due.bat.clockValid = true ∧ 100 ≤ due.bat.clock ∧
      due.psv.power = .run ∧ due.stc.fault = false) ∧
    (windowAt flips flips.bat.clock ≠ flips.ce.window ∧ windowAt held held.bat.clock = held.ce.window) ∧
    (service.ce.money.emergency = false ∧ emergency.ce.money.emergency = true ∧ emergency.cau.settings.e ≠ 501) ∧
    (recording.cau.settings.intervalLen ≠ 60 ∧ recording.bat.clock = 1 ∧ storeTakes recording.psv = true ∧
      recording.stc.fault = false ∧ (recording.stc.queue.filter isAppend).length < 32) ∧
    service.cau.settings.pMax = 0 := by decide

/-! ### Witnesses: the supply switch -/

/-- A closing drive at an attempt, in its settle interval. -/
def closingDrive (attempt : Nat) : Drive := ⟨.toClose, attempt, true, false, none⟩

/-- A part in service whose drive closes the supply. -/
def closing (attempt : Nat) : State :=
  let s := driving (closingDrive attempt) (switched .closing Reasons.empty service)
  { s with swc := { s.swc with consent := true } }

theorem witness_ButtonPressClosesOrIsIgnored :
    let ready := switched .ready Reasons.empty service
    let fault := switched .fault Reasons.empty service
    (ready.psv.power = .run ∧ ready.psv.inService = true ∧ ready.swc.drive = none ∧
      noReason ready.swc.set = true ∧ ready.swc.sw = .ready) ∧
    (fault.psv.inService = true ∧ noReason fault.swc.set = true ∧ fault.swc.sw = .fault) ∧
    (inPower .hold ready).psv.power ≠ .run ∧ State.reset.psv.inService = false ∧
    (service.swc.sw ≠ .ready ∧ service.swc.sw ≠ .fault) ∧
    ((switched .fault resetSet service).swc.sw = .fault ∧ noReason (switched .fault resetSet service).swc.set = false) := by
  decide

theorem witness_CoilPulseEndBeginsTheSettle :
    (closing 1).swc.drive = some (closingDrive 1) ∧ State.reset.swc.drive = none := by decide

theorem witness_SenseReadsTheLoadSide :
    let below := fun (v : PerPhase PhaseVolts) => v.a.load < 4000 ∧ v.b.load < 4000 ∧ v.c.load < 4000
    let fed := fun (v : PerPhase PhaseVolts) => (4000 ≤ v.a.line → 4000 < v.a.load) ∧
      (4000 ≤ v.b.line → 4000 < v.b.load) ∧ (4000 ≤ v.c.line → 4000 < v.c.load)
    below (volts 3999) ∧ (¬below (volts 4001) ∧ 4000 ≤ (volts 4001).a.line ∧ fed (volts 4001)) ∧
    ¬below (volts 4000) ∧ ¬fed (volts 4000) := by decide

theorem witness_DriveConfirmEndsOrRepeats :
    let d := fun (n : Nat) => (closing n).swc.drive = some (closingDrive n) ∧ (closingDrive n).settling = true ∧
      (closingDrive n).test = false ∧ wantedDir (closing n).swc = (closingDrive n).dir
    let turned := { closing 1 with swc := { (closing 1).swc with set := resetSet, consent := false } }
    let held := inPower .hold turned
    d 1 ∧ d 2 ∧ senseMatches (senseOf (volts 4001)) .toClose = true ∧
    senseMatches (senseOf (volts 4000)) .toClose = false ∧ mayDrive (closing 1).psv = true ∧
    (turned.swc.drive = some (closingDrive 1) ∧ wantedDir turned.swc = .toOpen ∧ mayDrive turned.psv = true ∧
      mayDrive held.psv = false ∧ wantedDir held.swc ≠ (closingDrive 1).dir) ∧
    senseMatches (senseOf (volts 3999)) .toOpen = true ∧ senseOf (volts 4000) = .sensedMixed := by decide

/-- A closed supply in service under a load limit of 1,000 W, its over-limit count at 29. -/
def overLimit (mem : Nat) : State :=
  let s := switched .closed Reasons.empty service
  { s with
    swc := { s.swc with consent := true, overLimit := 29, tripMem := mem }
    cau := { s.cau with settings := { s.cau.settings with pMax := 1000 } } }

theorem witness_LoadTripOpensTheSwitch :
    let s := overLimit 1
    (s.psv.power = .run ∧ s.psv.inService = true ∧ s.swc.sw = .closed ∧ s.swc.drive = none ∧
      s.swc.set = Reasons.empty ∧ s.swc.consent = true ∧ s.cau.settings.pMax ≠ 0 ∧
      s.cau.settings.pMax < 1001000 / 1000 ∧ s.swc.overLimit = 29 ∧ s.swc.tripMem < 2) ∧
    (overLimit 2).swc.tripMem = 2 := by decide

theorem witness_QuietAndRecoveryLowerTheLimiter :
    let quiet : State := { overLimit 1 with swc := { (overLimit 1).swc with quiet := 599 } }
    let open' := fun (p : Reasons) => ({ switched .opened p service with
      swc := { (switched .opened p service).swc with recovery := ⟨1, true⟩ } } : State)
    let one := open' { Reasons.empty with loadLimit := true }
    let two := open' { Reasons.empty with loadLimit := true, credit := true }
    (quiet.psv.power = .run ∧ quiet.psv.inService = true ∧ quiet.swc.tripMem ≠ 0 ∧ quiet.swc.quiet = 599) ∧
    (one.psv.inService = true ∧ one.swc.recovery.due = true ∧ one.swc.sw = .opened ∧ one.swc.drive = none ∧
      one.swc.set.loadLimit = true ∧ noReason { one.swc.set with loadLimit := false } = true) ∧
    (two.swc.recovery.due = true ∧ two.swc.set.loadLimit = true ∧
      noReason { two.swc.set with loadLimit := false } = false) := by decide

theorem witness_QuietAndRecoveryLowerTheLimiter_handOff :
    let n := fun (tPrime : Nat) (s : State) => if s.cau.settings.pMax ≠ 0 ∧ s.swc.sw = .closed ∧
      s.cau.settings.pMax < tPrime / 1000 then s.swc.overLimit + 1 else 0
    State.reset.psv.inService = false ∧ (overLimit 1).psv.inService = true ∧ (overLimit 1).psv.power = .run ∧
    (overLimit 1).cau.pendingPkg = none ∧ n 1000999 (overLimit 1) = 0 ∧ n 1001000 (overLimit 1) = 30 ∧
    n 1001000 (overLimit 2) = 30 := by decide

theorem witness_SwitchRequestsMoveRemote :
    let ro := req .switchOpen []
    let rr := req .switchRelease []
    let remote : Reasons := { Reasons.empty with remote := true }
    let have' := controlLane ro (switched .opened remote service)
    let closed := controlLane ro { switched .closed Reasons.empty service with
      swc := { (switched .closed Reasons.empty service).swc with consent := true } }
    let opened := controlLane ro (switched .opened resetSet service)
    let release := controlLane rr (switched .opened remote service)
    let idle := controlLane rr (switched .opened resetSet service)
    (have'.psv.inService = true ∧ have'.swc.drive = none ∧ ControlReady .switchOpen ro have' ∧
      have'.swc.set.remote = true) ∧
    (ControlReady .switchOpen ro closed ∧ closed.swc.drive = none ∧ closed.swc.set = Reasons.empty ∧
      closed.swc.consent = true ∧ closed.swc.sw = .closed) ∧
    (ControlReady .switchOpen ro opened ∧ opened.swc.set.remote = false ∧ opened.swc.sw = .opened ∧
      noReason opened.swc.set = false) ∧
    (ControlReady .switchRelease rr idle ∧ idle.swc.set.remote = false) ∧
    (ControlReady .switchRelease rr release ∧ release.swc.set = remote ∧ release.swc.sw = .opened) := by
  unfold ControlReady LaneReady ExchangeRuns
  decide

theorem witness_TestSwitchMakesOneAttempt :
    let r := fun (n : Byte) => req .testSwitch [(8, n)]
    let d : Drive := ⟨.toClose, 1, true, true, some 0⟩
    let s := driving d State.reset
    (ControlReady .testSwitch (r 2) (controlLane (r 2) State.reset) ∧ 1 < (r 2).par 8 1) ∧
    (ControlReady .testSwitch (r 1) (controlLane (r 1) service) ∧ (r 1).par 8 1 ≤ 1 ∧ service.psv.inService = true) ∧
    (ControlReady .testSwitch (r 0) (controlLane (r 0) State.reset) ∧ State.reset.psv.inService = false) ∧
    s.swc.drive = some d ∧ s.exc.live = true := by
  unfold ControlReady LaneReady ExchangeRuns
  decide

/-! ### Witnesses: tamper watch -/

theorem witness_CoverOpeningInServiceDeclares :
    let s := appending 31 service
    let open' := setCover .main true State.reset
    (open'.psv.power ≠ .off ∧ coverOpen open'.bat .main = true ∧ (open'.bat.kinds.get .coverMain).state ≠ .warning) ∧
    ((inPower .hold s).psv.power = .hold ∧ (inPower .battery s).psv.power = .battery ∧
      (inPower .battery s).psv.seq = none ∧ (inPower .battery s).psv.inService = true ∧
      coverOpen (inPower .battery s).bat .main = false ∧
      ((inPower .battery s).bat.kinds.get (coverKind .main)).state ≠ .declared) ∧
    s.psv.power = .run ∧ s.psv.inService = true ∧ s.stc.fault = false ∧ coverOpen s.bat .main = false ∧
    (s.bat.kinds.get (coverKind .main)).state ≠ .declared ∧ (s.stc.queue.filter isAppend).length < 32 ∧
    (s.cau.settings.policies.get .coverMain).opens = true ∧ s.swc.set.tamper = false ∧
    bitOf s.stc.copy (.ever .coverMain) = false := by decide

theorem witness_CoverChangesBeforeCommissioning :
    let s := State.reset
    let warned := setCover .main true (kindIn .coverMain .warning s)
    let declared := kindIn .coverMain .declared s
    (s.psv.power = .run ∧ s.psv.inService = false ∧ coverOpen s.bat .main = false ∧
      (s.bat.kinds.get .coverMain).state = .quiet) ∧
    (warned.psv.power = .run ∧ coverOpen warned.bat .main = true ∧
      (warned.bat.kinds.get .coverMain).state = .warning) ∧
    (coverOpen declared.bat .main = false ∧ (declared.bat.kinds.get .coverMain).state = .declared) ∧
    (∀ w ∈ [Power.hold, .battery], (inPower w s).psv.power = w ∧ (inPower w s).psv.inService = false ∧
      coverOpen (inPower w s).bat .main = false ∧ ((inPower w s).bat.kinds.get .coverMain).state = .quiet ∧
      coverOpen (inPower w warned).bat .main = true ∧
      ((inPower w warned).bat.kinds.get .coverMain).state = .warning) ∧
    (s.stc.fault = false ∧ (appending 31 s).stc.fault = false ∧
      ((appending 31 s).stc.queue.filter isAppend).length < 32) := by decide

/-- A part in HOLD whose MAGNET kind has a counter and a state. -/
def magnetAt (n : Nat) (x : KindState) : State :=
  let s := inPower .hold service
  { s with bat := { s.bat with kinds := { s.bat.kinds with magnet := { s.bat.kinds.magnet with counter := n, state := x } } } }

theorem witness_MagnetSecondMovesTheCounter :
    let c := fun (hits : Nat) (s : State) =>
      if 16 < hits then min 255 (s.bat.kinds.magnet.counter + 8) else s.bat.kinds.magnet.counter - 1
    (magnetAt 87 .quiet).psv.power = .hold ∧ c 17 (magnetAt 87 .quiet) < 96 ∧
    (96 ≤ c 17 (magnetAt 88 .quiet) ∧ c 17 (magnetAt 88 .quiet) < 128) ∧ c 16 (magnetAt 96 .warning) < 96 ∧
    (96 ≤ c 17 (magnetAt 119 .warning) ∧ c 17 (magnetAt 119 .warning) < 128) ∧
    (magnetAt 200 .declared).bat.kinds.magnet.state = .declared ∧
    (128 ≤ c 17 (magnetAt 120 .warning) ∧ (magnetAt 120 .warning).bat.kinds.magnet.state ≠ .declared ∧
      (magnetAt 120 .warning).psv.inService = true ∧ (inPower .battery (magnetAt 120 .quiet)).psv.seq = none) := by decide

/-! ### Witnesses: the store -/

/-- A running erase of block b. -/
def eraseOf (b : Nat) : EraseRun := ⟨b, 8, 0, false, false, false⟩

theorem witness_StoreTimersAct :
    let due := { State.reset with stc := { State.reset.stc with periodic := ⟨1, true⟩ } }
    let waits := { due with stc := { due.stc with queue := [⟨.save .periodic, false⟩] } }
    let waiting := erasing (eraseOf 2) { State.reset with stc := { State.reset.stc with readWait := true } }
    (due.psv.power = .run ∧ due.stc.periodic.due = true ∧ due.stc.fault = false ∧
      due.stc.queue.any (fun q => q.op == .save .periodic) = false) ∧
    waits.stc.queue.any (fun q => q.op == .save .periodic) = true ∧ (storeFaulty due).stc.fault = true ∧
    State.reset.stc.erase = none ∧
    (waiting.stc.erase = some (eraseOf 2) ∧ waiting.psv.holdWait = false ∧ waiting.stc.readWait = true ∧
      (eraseOf 2).suspended = false ∧ (eraseOf 2).guarded = false) := by decide

/-- A part whose record for the given saves is being programmed, with the failure count n. -/
def recording (l : List SaveKind) (n : Nat) (s : State) : State := failing n (programming (.record l image0) s)

theorem witness_RecordVerifyDecidesTheSave :
    let s := fun (n : Nat) => recording [.code] n { queued [codeOf 18] service with
      cau := { (queued [codeOf 18] service).cau with applied := some ⟨.accepted, 0, 1, 1⟩ } }
    let keys : CodeEntry := ⟨.keypad, [], none⟩
    (∀ n ∈ [0, 1, 2], (s n).psv.power = .run ∧ (s n).stc.prog = some (.record [.code] image0) ∧
      (s n).cau.queue = [codeOf 18] ∧ (s n).cau.applied = some ⟨.accepted, 0, 1, 1⟩ ∧ (s n).cau.pkg = none ∧
      (s n).psv.req = none ∧ (s n).stc.failCount = n) ∧
    (codeOf 18).slot = some 0 ∧ (queued [keys] (s 2)).cau.queue = [keys] ∧ keys.slot = none ∧
    SaveKind.code ∈ [SaveKind.code] ++ savesOf (s 2).stc.queue ∧ RecordVerify.bodyFails ≠ .pass ∧
    RecordVerify.markFails ≠ .pass := by decide

theorem witness_RecordVerifyDecidesTheSave_package :
    let run := fun (slot : Option (Fin 16)) => PkgRun.mk (zeros 27) slot (.committing .pending 7 100 0)
    let s := fun (slot : Option (Fin 16)) (n : Nat) => recording [.package] n { service with
      cau := { service.cau with pkg := some (run slot), pendingPkg := some ⟨7, 100, [], false⟩ } }
    (∀ slot ∈ [none, some (0 : Fin 16)], ∀ n ∈ [0, 2], (s slot n).psv.power = .run ∧
      (s slot n).stc.prog = some (.record [.package] image0) ∧ (s slot n).cau.pkg = some (run slot) ∧
      (run slot).stage = .committing .pending 7 100 0 ∧ (run slot).slot = slot ∧ (s slot n).cau.applied = none ∧
      (s slot n).psv.req = none ∧ (s slot n).stc.failCount = n ∧
      SaveKind.package ∈ [SaveKind.package] ++ savesOf (s slot n).stc.queue) := by decide

theorem witness_RecordVerifyDecidesTheSave_lifecycle :
    let s := fun (q : Lifecycle) (n : Nat) => recording [.lifecycle] n (asked q State.reset)
    let bit := fun (b : BitName) => recording [.periodic] 2 { asked (.commission 5) State.reset with
      stc := { State.reset.stc with queue := [⟨.bit b, false⟩] } }
    (∀ q ∈ [Lifecycle.calibrate, .identify, .installKey, .commission 5], ∀ n ∈ [0, 2],
      (s q n).psv.power = .run ∧ (s q n).stc.prog = some (.record [.lifecycle] image0) ∧
      (s q n).psv.req = some ⟨q, some 0⟩ ∧ (s q n).cau.applied = none ∧ (s q n).cau.pkg = none ∧
      (s q n).stc.copy.keyInstalled = false ∧ (s q n).stc.fault = false ∧ (s q n).exc.live = true ∧
      (s q n).stc.failCount = n ∧ SaveKind.lifecycle ∈ [SaveKind.lifecycle] ++ savesOf (s q n).stc.queue) ∧
    BitName.keyInstalled ∈ bitsOf (bit .keyInstalled).stc.queue ∧
    BitName.commissioned ∈ bitsOf (bit .commissioned).stc.queue ∧
    SaveKind.lifecycle ∉ [SaveKind.periodic] ++ savesOf (bit .commissioned).stc.queue := by decide

theorem witness_EntryVerifyDecidesTheAppend :
    let s := failing 1 (programming (.entry (.log entry0)) State.reset)
    s.psv.power = .run ∧ s.stc.prog = some (.entry (.log entry0)) ∧ s.stc.failCount < 2 := by decide

theorem witness_BitVerifySetsTheBit :
    let s := fun (b : BitName) => failing 1 (programming (.bit b) State.reset)
    (∀ b ∈ [BitName.ever .magnet, .commissioned, .keyInstalled],
      (s b).psv.power = .run ∧ (s b).stc.prog = some (.bit b) ∧ (s b).stc.fault = false ∧ (s b).stc.failCount < 2) ∧
    (asked (.commission 0) (s .commissioned)).psv.req = some ⟨.commission 0, some 0⟩ ∧
    (asked .installKey (s .keyInstalled)).psv.req = some ⟨.installKey, some 0⟩ ∧
    (s .keyInstalled).exc.live = true := by decide

theorem witness_EraseVerifyFreesTheBlock :
    let s := fun (b n : Nat) => failing n (erasing (eraseOf b) State.reset)
    (s 1 0).psv.power = .run ∧ (s 1 0).stc.erase = some (eraseOf 1) ∧ (eraseOf 1).suspended = false ∧
    (eraseOf 1).startup = false ∧ (eraseOf 1).block < 2 ∧ 2 ≤ (eraseOf 2).block ∧ 2 ≤ (eraseOf 35).block ∧
    blockArea 2 = .log ∧ blockArea 35 = .profile ∧ (s 2 1).stc.failCount < 2 ∧ 2 ≤ (s 2 2).stc.failCount ∧
    (s 2 2).cau.pkg = none ∧ (s 2 2).cau.applied = none ∧ (s 2 2).psv.req = none := by decide

/-! ### Witnesses: power -/

theorem witness_FailingMainsBeginHold :
    let s := State.reset
    let busy := programming (.entry (.log entry0)) s
    let failed := { s with psv := { s.psv with failing := true } }
    let suspended := erasing { eraseOf 2 with suspended := true } s
    (s.psv.failing = false ∧ s.psv.power = .run ∧ s.stc.prog = none ∧ s.stc.erase = none ∧ s.stc.fault = false ∧
      1 ≤ erasedPlaces s.stc s.flash) ∧
    (suspended.stc.erase = some { eraseOf 2 with suspended := true } ∧ suspended.stc.prog = none ∧
      1 ≤ erasedPlaces suspended.stc suspended.flash) ∧
    ((erasing (eraseOf 2) s).stc.erase = some (eraseOf 2) ∧ (eraseOf 2).suspended = false) ∧
    (busy.psv.failing = false ∧ busy.psv.power = .run ∧ busy.stc.prog = some (.entry (.log entry0))) ∧
    ((storeFaulty s).stc.fault = true ∧ (storeFaulty s).psv.battery = true) ∧ failed.psv.failing = true := by decide

theorem witness_FailingMainsBeginHold_start :
    let s := fun (n : Nat) (battery : Bool) => ({ service with psv := { service.psv with
      power := .battery, battery := battery, seq := some ⟨n, n - 1, volts 0⟩, dropped := some State.reset.toModules } } : State)
    (∀ n ∈ [2, 3], ∀ b, (s n b).psv.failing = false ∧ (s n b).psv.power = .battery ∧
      (s n b).psv.seq = some ⟨n, n - 1, volts 0⟩ ∧ (s n b).psv.battery = b ∧ (s n b).stc.prog = none ∧
      (s n b).stc.erase = none ∧ (s n b).stc.fault = false ∧ 1 ≤ erasedPlaces (s n b).stc (s n b).flash) ∧
    State.reset.toModules.stc.prog = none ∧ State.reset.toModules.stc.erase = none ∧
    (StartSeq.mk 2 1 (volts 0)).next ≤ 2 ∧ 3 ≤ (StartSeq.mk 3 2 (volts 0)).next := by decide

/-- A part in HOLD with its POWER_FAIL record being programmed at place n of block 0. -/
def saving (n : Nat) : State :=
  let s := programming (.record [.powerFail] image0) (inPower .hold service)
  { s with stc := { s.stc with nextPlace := n }, flash := { s.flash with records := s.flash.records.set 8 .damaged } }

theorem witness_PowerFailSaveEndsHold :
    let left := fun (n : Nat) => erasedPlaces { (saving n).stc with nextPlace := n + 1 }
      { (saving n).flash with records := (saving n).flash.records.set n .damaged }
    let suspended := erasing { eraseOf 2 with suspended := true } (saving 6)
    (saving 6).psv.power = .hold ∧ (saving 6).psv.holdWait = false ∧
    (saving 6).stc.prog = some (.record [.powerFail] image0) ∧ (saving 6).stc.erase = none ∧
    (saving 6).psv.battery = true ∧ (saving 6).stc.failCount < 2 ∧
    RecordVerify.markFails ≠ .pass ∧ (saving 6).stc.fault = false ∧ left 6 = 1 ∧
    left 7 = 0 ∧
    (suspended.psv.power = .hold ∧ suspended.stc.prog = some (.record [.powerFail] image0) ∧
      suspended.stc.erase = some { eraseOf 2 with suspended := true } ∧ suspended.psv.battery = true ∧
      2 ≤ (eraseOf 2).block) := by decide

/-- A part in BATTERY. -/
def onBattery (mains failing battery : Bool) : State :=
  { service with psv := { service.psv with
    power := .battery, mainsPresent := mains, failing := failing, battery := battery } }

theorem witness_PowerEdgesMoveTheState :
    let b := onBattery
    let off := inPower .off (b false false true)
    let started := { b true true true with psv := { (b true true true).psv with seq := some ⟨2, 1, volts 0⟩ } }
    let fed := fun (v : PerPhase Nat) => 15000 ≤ v.a ∨ 15000 ≤ v.b ∨ 15000 ≤ v.c
    (fed (line 15000) ∧ ¬fed (line 14999)) ∧
    State.reset.psv.mainsPresent = true ∧ ((b false false true).psv.mainsPresent = false ∧
      (b false false true).psv.power = .battery ∧ (b false false true).psv.seq = none ∧
      (b false false true).psv.failing = false) ∧ off.psv.power = .off ∧
    ((inPower .run (b false true true)).psv.mainsPresent = false ∧ (inPower .run (b false true true)).psv.power = .run) ∧
    ((b true false true).psv.mainsPresent = true ∧ (b true false true).psv.battery = true) ∧
    ((b true false false).psv.battery = false ∧ (b true false false).psv.seq = none ∧
      (b true false false).stc.prog = none ∧ (b true false false).stc.erase = none) ∧
    started.psv.seq ≠ none ∧ started.psv.failing = true ∧
    ((b true true true).psv.failing = true ∧ (b true true true).psv.mainsPresent = true) ∧
    State.reset.psv.failing = false ∧ State.reset.psv.power ≠ .battery ∧ State.reset.psv.power ≠ .hold ∧
    ((saving 0).psv.power = .hold ∧ (saving 0).stc.prog = some (.record [.powerFail] image0) ∧
      (saving 0).stc.erase = none ∧ (saving 0).psv.battery = true) := by decide

/-- A part in BATTERY whose settle timer has run out, with a record in place 0 of the save area or none. -/
def settled (l : List RecordPlace) : State :=
  let s := onBattery true false true
  { s with psv := { s.psv with settle := ⟨1, true⟩ }, flash := { s.flash with records := l } }

/-- A start sequence before its step n. -/
def beforeStep (n : Nat) (k : StartKind) : State :=
  let s := onBattery true false true
  { s with psv := { s.psv with seq := some ⟨n, n - 1, volts 0⟩, startKind := k } }

/-- A start with a record in place 0, before its step n, with the battery domain held or lost. -/
def starting (n : Nat) (held : Bool) : State :=
  let s := beforeStep n .warm
  { s with
    psv := { s.psv with recordFound := true }
    bat := { s.bat with valid := held }
    flash := { s.flash with records := .good image0 :: List.replicate 15 .erased } }

/-- s before commissioning. -/
def unserved (s : State) : State := { s with psv := { s.psv with inService := false } }

/-- A start before its step 3 with an outage note for COVER_MAIN. -/
def noted : State :=
  let s := appending 24 (starting 3 true)
  { s with bat := { s.bat with notes := { s.bat.notes with coverMain := some entry0 } } }

/-- A start before its step 4 after an outage that left block 2 noted. -/
def unfinished : State :=
  let s := starting 4 true
  { s with bat := { s.bat with eraseNote := some 2 } }

/-- A start at day 3 before its step 5, last charged on day 0. -/
def owing : State :=
  let s := validClock (starting 5 true)
  { s with bat := { s.bat with clock := 259200 } }

theorem witness_StartLoadsTheNewestRecord :
    let with' := settled (.good image0 :: List.replicate 15 .erased)
    let without := settled (List.replicate 16 .erased)
    let warm := { beforeStep 8 .warm with bat := { (beforeStep 8 .warm).bat with holdBegin := some 0 } }
    ((onBattery true false true).psv.seq = none ∧ (onBattery true false true).psv.settle.due = false) ∧
    (with'.psv.power = .battery ∧ with'.psv.seq = none ∧ with'.psv.settle.due = true ∧ with'.stc.erase = none ∧
      newestRecord with'.flash.records = some (0, image0)) ∧ newestRecord without.flash.records = none ∧
    (beforeStep 8 .cold).psv.seq = some ⟨8, 7, volts 0⟩ ∧ (beforeStep 8 .cold).psv.startKind = .cold ∧
    (warm.psv.startKind = .warm ∧ warm.bat.holdBegin = some 0) ∧
    (beforeStep 9 .cold).psv.seq = some ⟨9, 8, volts 0⟩ ∧
    ({ beforeStep 9 .cold with swc := { (beforeStep 9 .cold).swc with
      set := { Reasons.empty with loadLimit := true } } } : State).swc.set.loadLimit = true := by decide

theorem witness_StartLoadsTheNewestRecord_domain :
    let s := starting 2
    (∀ held ∈ [true, false], (s held).psv.power = .battery ∧ (s held).psv.seq = some ⟨2, 1, volts 0⟩ ∧
      (s held).stc.erase = none ∧ (s held).bat.valid = held ∧ (s held).psv.inService = true ∧
      (s held).stc.fault = false) ∧
    ((validClock (s true)).bat.clockValid = true ∧ (s true).bat.clockValid = false) ∧
    ((unserved (s false)).psv.seq = some ⟨2, 1, volts 0⟩ ∧ (unserved (s false)).bat.valid = false ∧
      (unserved (s false)).psv.inService = false) ∧
    noted.psv.power = .battery ∧ noted.psv.seq = some ⟨3, 2, volts 0⟩ ∧ noted.stc.erase = none ∧
    noted.stc.fault = false ∧ noted.bat.notes.get .coverMain = some entry0 ∧
    bitOf noted.stc.copy (.ever .coverMain) = false ∧ (noted.stc.queue.filter isAppend).length ≤ 24 := by decide

theorem witness_StartLoadsTheNewestRecord_store :
    let bare := { starting 4 true with psv := { (starting 4 true).psv with recordFound := false } }
    let rest := { starting 4 true with flash := { (starting 4 true).flash with
      log := [(0, .bytes (entryBytes (.log entry0) 1))] } }
    (unserved bare).psv.inService = false ∧
    (bare.psv.seq = some ⟨4, 3, volts 0⟩ ∧ bare.psv.inService = true ∧ bare.psv.recordFound = false) ∧
    (unfinished.psv.power = .battery ∧ unfinished.psv.seq = some ⟨4, 3, volts 0⟩ ∧ unfinished.stc.erase = none ∧
      unfinished.psv.recordFound = true ∧ startupErases unfinished = [2]) ∧
    (rest.psv.recordFound = true ∧ startupErases rest = [] ∧ goodEntries rest.flash .profile = [] ∧
      newestEntry (goodEntries rest.flash .log) = some (0, 1) ∧
      judge (placeAt (placesOf rest.flash .log) 1) = .erased) := by decide

theorem witness_StartLoadsTheNewestRecord_modules :
    let open' := fun (n : Nat) => intervalTo n (appending 31 (starting 6 true))
    let w : Interval := ⟨0, 60, 0, 0, 0, 0, 0, 1, ProfileFlags.clear⟩
    let ended := { open' 60 with ee := { (open' 60).ee with interval := some w }, bat := { (open' 60).bat with clock := 60 } }
    (owing.psv.seq = some ⟨5, 4, volts 0⟩ ∧ owing.stc.erase = none ∧ owing.psv.recordFound = true ∧
      owing.bat.clockValid = true ∧ owing.psv.inService = true ∧ owing.ce.money.lastDay < owing.bat.clock / 86400 ∧
      (starting 5 true).bat.clockValid = false) ∧
    ((open' 1).psv.seq = some ⟨6, 5, volts 0⟩ ∧ (open' 1).bat.clock < 1) ∧
    (ended.psv.seq = some ⟨6, 5, volts 0⟩ ∧ ended.stc.erase = none ∧ ended.ee.interval = some w ∧ 60 ≤ ended.bat.clock ∧
      w.start < w.lastBilled ∧ ended.stc.fault = false ∧ (ended.stc.queue.filter isAppend).length < 32) ∧
    ((unserved (starting 7 true)).psv.seq = some ⟨7, 6, volts 0⟩ ∧ (unserved (starting 7 true)).psv.inService = false) ∧
    ((starting 7 true).psv.seq = some ⟨7, 6, volts 0⟩ ∧ (starting 7 true).psv.inService = true ∧
      wantedDir (starting 7 true).swc = .toOpen ∧ senseMatches (senseOf (volts 3999)) .toOpen = true ∧
      senseMatches (senseOf (volts 4000)) .toOpen = false) := by decide

/-! ### Witnesses: the serial port and the slots -/

theorem witness_ReadSendsTheRegions :
    let dead := { State.reset with exc := { State.reset.exc with live := false } }
    let held := { State.reset with exc := { State.reset.exc with xrst := true } }
    (State.reset.exc.bus = .idle ∧ State.reset.exc.deferred = [] ∧ portActs State.reset = true ∧
      portPowered State.reset.psv = true) ∧ PageFresh State.reset ∧
    (dead.exc.bus = .idle ∧ dead.exc.deferred = [] ∧ portPowered dead.psv = true ∧ dead.exc.live = false) ∧
    (portPowered held.psv = true ∧ held.exc.live = true ∧ held.exc.xrst = true) ∧ PageFresh held ∧
    (keyed (List.replicate 18 9) State.reset).kps.buf.length ≤ 18 :=
  ⟨by decide, fun _ _ => by decide, by decide, by decide, fun _ _ => by decide, by decide⟩

theorem witness_WriteStoresByRegion :
    let legal := fun (old new : Nat) => (old = FREE ∧ new = POSTED) ∨ (old = DONE ∧ new = FREE) ∨
      (old = PAUSED ∧ new = POSTED) ∨ (old = TAKEN ∧ new = CANCEL) ∨ (old = PAUSED ∧ new = CANCEL)
    let s := State.reset
    let region := fun (x : Nat) => x < 256 ∨ 258 ≤ x ∧ x < 512 ∨ 1536 ≤ x ∧ x < 4096
    (portActs s = true ∧ s.exc.bus = .idle) ∧ region 255 ∧ region 258 ∧ region 511 ∧ region 1536 ∧ region 4095 ∧
    ¬region 257 ∧ slotAddr 0 < 513 ∧ 1535 < slotAddr 15 + 64 ∧ slotAddr 15 = 1472 ∧
    legal (slotState s.exc.mem 0) 1 ∧ ¬legal (slotState s.exc.mem 0) 2 ∧ slotState s.exc.mem 0 ≠ 2 ∧
    (portActs (slotAt DONE s) = true ∧ slotState (slotAt DONE s).exc.mem 0 = DONE) := by decide

/-- A part whose slot 0 held v before the open WRITE and holds w now. -/
def rising (v w : Nat) : State := writing (writeTxnOf v) (slotAt w State.reset)

/-- An open WRITE that has posted slots 0 and 1, each of the given request code. -/
def posted2 (code : Byte) : State :=
  let s := rising FREE POSTED
  { s with exc := { s.exc with mem := writeByte (putState (writeByte s.exc.mem 513 code) 1 POSTED) 577 code } }

/-- A TAKEN slot 0 that the open WRITE has put to CANCEL, in the lanes that f gives it. -/
def cancelling (f : Exc → Exc) : State := { rising TAKEN CANCEL with exc := f (rising TAKEN CANCEL).exc }

theorem witness_SlotActs_take :
    let s := posted2
    let due := fun (s : State) (j : Fin 16) => slotState s.exc.mem j = POSTED ∧ stateBefore (writeTxnOf FREE) j = FREE
    let b := bulkOf (.entries []) 2 true
    let resumed := fun (before : Nat) => bulking b (rising before POSTED)
    (WriteOpen (writeTxnOf FREE) (s 0x7F) ∧ due (s 0x7F) 0 ∧ due (s 0x7F) 1 ∧ ¬∃ j, j < 0 ∧ due (s 0x7F) j) ∧
    reqKind (readByte (writeBytes (s 0x7F).exc.mem (slotAddr 0 + 2) (le 2 1)) (slotAddr 0 + 1)).toNat = none ∧
    reqKind (readByte (writeBytes (s 0x10).exc.mem (slotAddr 0 + 2) (le 2 1)) (slotAddr 0 + 1)).toNat = some .setTime ∧
    (∀ before ∈ [PAUSED, TAKEN], WriteOpen (writeTxnOf before) (resumed before) ∧
      slotState (resumed before).exc.mem 0 = POSTED ∧ (resumed before).exc.bulk = some b ∧ b.slot = 0 ∧
      b.paused = true) := by
  unfold WriteOpen
  decide

theorem witness_SlotActs_cancel :
    let live := fun (every : Byte) => req .readLive [(10, every)]
    let inQuery := fun (r : Request) => cancelling (fun x => { x with query := ⟨[r], false⟩ })
    let b := bulkOf (.entries []) 2 true
    let bulk := bulking b (rising PAUSED CANCEL)
    let second := cancelling (fun x => { x with control := ⟨[⟨1, .setTime, params [], .none⟩, req .switchOpen []], false⟩ })
    let code := cancelling (fun x => { x with code := ⟨[req .applyCode []], false⟩ })
    let control := cancelling (fun x => { x with control := ⟨[req .switchOpen []], false⟩ })
    let standing := cancelling (fun x => { x with standing := [⟨0, true, 1, 0⟩] })
    let lost : State := { control with psv := { control.psv with req := some ⟨.calibrate, none⟩ } }
    (∀ s ∈ [second, code, control, standing, lost], WriteOpen (writeTxnOf TAKEN) s ∧ slotState s.exc.mem 0 = CANCEL) ∧
    (atHead 0 code.exc.code = true ∧ codeOccupied code.cau = false ∧
      codeOccupied (queued [⟨.exchange, [], none⟩] code).cau = true) ∧
    (atHead 0 control.exc.code = false ∧ atHead 0 control.exc.control = true ∧ controlOccupied control = false ∧
      controlOccupied lost = true) ∧
    (atHead 0 second.exc.code = false ∧ atHead 0 second.exc.control = false ∧ atHead 0 second.exc.query = false ∧
      inLane 0 second.exc.control = true) ∧
    (∀ r ∈ [live 0, live 1, req .readEvidence [], req .readCodes []], WriteOpen (writeTxnOf TAKEN) (inQuery r) ∧
      (inQuery r).exc.query.queue = [r] ∧ r.slot = 0 ∧ (inQuery r).exc.bulk = none ∧
      atHead 0 (inQuery r).exc.code = false ∧ atHead 0 (inQuery r).exc.control = false) ∧
    ((live 0).par 10 2 = 0 ∧ (live 1).par 10 2 = 1) ∧
    (WriteOpen (writeTxnOf PAUSED) bulk ∧ slotState bulk.exc.mem 0 = CANCEL ∧ atHead 0 bulk.exc.query = true ∧
      bulk.exc.bulk = some b) ∧
    (inLane 0 standing.exc.code = false ∧ inLane 0 standing.exc.control = false ∧
      inLane 0 standing.exc.query = false) := by
  unfold WriteOpen
  decide

theorem witness_ReleasesAndResets :
    let t : WriteTxn := ⟨256, slotStates [], true, true, true⟩
    let s := fun (m : Nat) => { writing t State.reset with exc := { (writing t State.reset).exc with markReg := m } }
    let r := fun (m : Nat) => ((s m).exc.markReg + 65537 - (s m).exc.oldest) % 65536
    let timed := fun (mode : Byte) (s : State) => controlLane (req .setTime [(8, mode), (12, 5)]) s
    (∀ m ∈ [0, 1, 2, 3, 65535], WriteOpen t (s m)) ∧ t.mark = true ∧ t.capture = true ∧ r 0 = 0 ∧ r 1 = 1 ∧
    r 2 = (s 2).exc.notices.length ∧ (s 3).exc.notices.length < r 3 ∧ (s 65535).exc.notices.length < r 65535 ∧
    ({ State.reset with exc := { State.reset.exc with xrst := true } } : State).exc.xrst = true ∧
    (State.reset.exc.xrst = false ∧ State.reset.psv.power = .run ∧ State.reset.exc.control.queue = []) ∧
    ((timed 0 (validClock service)).exc.control.queue = [req .setTime [(8, 0), (12, 5)]] ∧
      (req .setTime [(8, 0), (12, 5)]).par 8 1 = 0 ∧ (timed 0 (validClock service)).bat.clockValid = true ∧
      (timed 0 (validClock service)).bat.clock ≤ 4294967295) ∧
    ((timed 1 service).exc.control.queue = [req .setTime [(8, 1), (12, 5)]] ∧
      (req .setTime [(8, 1), (12, 5)]).par 8 1 = 1 ∧ (timed 1 service).bat.clockValid = false ∧
      (timed 1 (validClock State.reset)).psv.inService = false) ∧
    ((inPower .hold State.reset).psv.power = .hold ∧ (inPower .battery State.reset).psv.power = .battery ∧
      (inPower .off State.reset).psv.power = .off) := by
  unfold WriteOpen
  decide

/-! ### Witnesses: queries and the lifecycle -/

theorem witness_LiveAndEvidenceAnswer :
    let live := fun (part lo hi : Byte) => req .readLive [(8, part), (10, lo), (11, hi)]
    let s := fun (r : Request) => queryLane r State.reset
    let four := { s (live 1 0x10 0x0E) with exc := { (s (live 1 0x10 0x0E)).exc with
      standing := List.replicate 4 ⟨1, true, 1, 0⟩ } }
    let ev := fun (k : Byte) => req .readEvidence [(8, k)]
    (QueryReady .readLive (live 2 0 0) (s (live 2 0 0)) ∧ 1 < (live 2 0 0).par 8 1) ∧
    (QueryReady .readLive (live 1 0x11 0x0E) (s (live 1 0x11 0x0E)) ∧ (live 1 0x11 0x0E).par 10 2 = 3601) ∧
    (QueryReady .readLive (live 1 0 0) (s (live 1 0 0)) ∧ (live 1 0 0).par 10 2 = 0) ∧
    (QueryReady .readLive (live 1 0x10 0x0E) four ∧ 4 ≤ four.exc.standing.length) ∧
    (QueryReady .readLive (live 1 0x10 0x0E) (s (live 1 0x10 0x0E)) ∧ (live 1 0x10 0x0E).par 10 2 = 3600 ∧
      (s (live 1 0x10 0x0E)).exc.standing.length < 4) ∧
    (∀ k ∈ [9, 8, 7], QueryReady .readEvidence (ev k) (s (ev k))) ∧ 8 < (ev 9).par 8 1 ∧ (ev 8).par 8 1 = 8 ∧
    (ev 7).par 8 1 = kindIndex .watchLost := by
  unfold QueryReady LaneReady ExchangeRuns
  decide

/-- A bulk request of a kind: its offset and length, and its parameters at offsets 8 and 12. -/
def bulkReq (k : ReqKind) (a b offHi lenLo : Byte) : Request :=
  { req k [(8, a), (12, b), (17, offHi), (18, lenLo)] with snap := .prepared [] }

theorem witness_BulkRequestsBegin :
    let ready := fun (k : ReqKind) (r : Request) => QueryReady k r (queryLane r State.reset)
    let room := fun (r : Request) => min (r.par 18 2) (4096 - r.par 16 2) / 32
    (∀ k ∈ [ReqKind.readProfile, .readTamperLog, .readCodes, .readSettings],
      (ready k (bulkReq k 1 1 16 32) ∧ 4096 ≤ (bulkReq k 1 1 16 32).par 16 2) ∧
      (ready k (bulkReq k 1 1 0 31) ∧ room (bulkReq k 1 1 0 31) = 0) ∧
      (ready k (bulkReq k 1 1 15 32) ∧ (bulkReq k 1 1 15 32).par 16 2 < 4096 ∧ room (bulkReq k 1 1 15 32) ≠ 0)) ∧
    (bulkReq .readProfile 1 0 0 32).par 12 4 < (bulkReq .readProfile 1 0 0 32).par 8 4 ∧
    ¬(bulkReq .readProfile 1 1 0 32).par 12 4 < (bulkReq .readProfile 1 1 0 32).par 8 4 ∧
    (bulkReq .readTamperLog 0 0 0 32).par 8 1 = 0 ∧ (bulkReq .readTamperLog 1 0 0 32).par 8 1 ≠ 0 := by
  unfold QueryReady LaneReady ExchangeRuns
  decide

/-- A READ_TAMPER_LOG scan that expects sequence x at a place of the log, up to the bound. -/
def scanOf (x place bound : Nat) : BulkSource := .scan .log (.log 255) x place bound

/-- A part whose log holds, in place 0, the entry of sequence 3, and in place 1 a damaged place; the head counts n. -/
def loggedPart (n : Nat) (src : BulkSource) (filled : Nat) : State :=
  let s := bulking (bulkOf src filled false) State.reset
  { s with
    tmoHead := ⟨n, 0, 3⟩
    flash := { Flash.factory with log := [(0, .bytes (entryBytes (.log entry0) 3)), (1, .damaged)] } }

theorem witness_BulkChunksFillTheWindow :
    let e := zeros 32
    let b := fun (src : BulkSource) (n : Nat) => bulkOf src n false
    let s := fun (src : BulkSource) (n : Nat) (p : Bool) => bulking (bulkOf src n p) State.reset
    let busy := erasing (eraseOf 35) (s (scanOf 1 0 1) 0 false)
    (ExchangeRuns State.reset ∧ (s .finished 2 false).exc.bulk = some (b .finished 2) ∧ (b .finished 2).paused = false) ∧
    (b (.entries [e]) 2).filled = (b (.entries [e]) 2).room ∧ (b (.entries [e]) 1).filled ≠ (b (.entries [e]) 1).room ∧
    ((loggedPart 1 (scanOf 3 0 4) 2).exc.bulk = some (b (scanOf 3 0 4) 2) ∧
      (b (scanOf 3 0 4) 2).filled = (b (scanOf 3 0 4) 2).room) ∧
    canRead busy.stc (placeBlock .log 0) = false ∧
    ((bulkOf .finished 0 true).paused = true ∧ (bulkOf .finished 0 true).pause.due = true) := by
  unfold ExchangeRuns
  decide

theorem witness_BulkChunksFillTheWindow_scan :
    let s := fun (n : Nat) (src : BulkSource) => loggedPart n src 0
    let removed := { s 1 (scanOf 3 0 4) with flash := { (s 1 (scanOf 3 0 4)).flash with removed := [(2, 1)] } }
    (∀ p ∈ [0, 1, 2], canRead (s 1 (scanOf 3 p 4)).stc (placeBlock .log p) = true ∧
      (bulkOf (scanOf 3 p 4) 0 false).filled ≠ (bulkOf (scanOf 3 p 4) 0 false).room) ∧
    readPlace (s 1 (scanOf 3 0 4)) .log 0 = .entry 3 (entryBytes (.log entry0) 3) ∧
    readPlace (s 1 (scanOf 3 1 4)) .log 1 = .damaged ∧ readPlace (s 1 (scanOf 3 2 4)) .log 2 = .erased ∧
    readPlace removed .log 0 = .removed ∧ (3 : Nat) ≠ 1 ∧
    (oldestPresent removed .log = none ∧ oldestPresent (s 0 (scanOf 3 2 4)) .log = none) ∧
    oldestPresent (s 1 (scanOf 1 0 3)) .log = some 3 ∧
    (let d := fun (x : Nat) => (3 + 65536 - x) % 65536
     let span := fun (x bound : Nat) => (bound + 65536 - x) % 65536
     d 3 ≤ span 3 4 ∧ d 1 ≤ span 1 3 ∧ span 1 2 < d 1) := by decide

theorem witness_LifecycleRequestsAct :
    let keys := fun (s : State) => ({ s with stc := { s.stc with copy := { s.stc.copy with keyInstalled := true } } } : State)
    let ready := fun (k : ReqKind) (s : State) => ControlReady k (req k []) (controlLane (req k []) s)
    (∀ k ∈ [ReqKind.calibrate, .identify, .installKey, .commission],
      ready k service ∧ ready k (storeFaulty State.reset) ∧ ready k State.reset ∧ ready k (keys State.reset) ∧
      ready k (keys (validClock State.reset)) ∧ ready k (storeFaulty (keys (validClock State.reset)))) ∧
    service.psv.inService = true ∧ State.reset.psv.inService = false ∧ State.reset.stc.fault = false ∧
    (storeFaulty State.reset).stc.fault = true ∧ State.reset.stc.copy.keyInstalled = false ∧
    (keys State.reset).stc.copy.keyInstalled = true ∧ (keys State.reset).bat.clockValid = false ∧
    (keys (validClock State.reset)).bat.clockValid = true ∧ State.reset.stc.copy.commissioned = false := by
  unfold ControlReady LaneReady ExchangeRuns
  decide

/-! ### Single commands -/

/-- The part of the worked example of section 11.1. -/
def workedPart : State :=
  let s := validClock service
  { s with
    ee := { s.ee with
      gains := { s.ee.gains with p := ⟨16384, 16500, 16384⟩ }, energy := { Energy.zero with rImp := 2000 } }
    ce := { s.ce with money := { Money.zero with b := 12345, cRes := 999000 } }
    cau := { s.cau with settings := { s.cau.settings with price0 := 280 } } }

/-- The period of the worked example of section 11.1. -/
def workedPeriod : PeriodInput :=
  { idlePeriod with phases := ⟨⟨1200000, 23000, 5000⟩, ⟨860500, 23000, 4000⟩, ⟨-1500, 23000, 100⟩⟩ }

theorem test_periodEnd_bills_the_worked_example :
    let t := after (.periodEnd workedPeriod) workedPart
    t.ee.energy.imp = 574 ∧ t.ee.energy.rImp = 2192 ∧ t.ce.money.cRes = 159720 ∧ t.ce.money.b = 12344 ∧
      t.ee.live.tPrime = 2066592 := by decide

theorem test_periodEnd_fills_the_interval :
    ((after (.periodEnd workedPeriod) workedPart).ee.interval.map (fun v => (v.imp, v.credit, v.maxW))) =
      some (574, 1, 2066) := by decide

theorem test_loadTrip :
    let t := after (.loadTrip 1001000) (overLimit 2)
    t.swc.sw = .opening ∧ t.swc.set.lockout = true ∧ t.swc.tripMem = 0 ∧ t.swc.recovery = ⟨60, false⟩ := by decide

theorem test_tripMemoryQuiet :
    (after .tripMemoryQuiet { overLimit 1 with swc := { (overLimit 1).swc with quiet := 599 } }).swc.tripMem = 0 := by
  decide

theorem test_minuteTimerExpiry :
    (after .minuteTimerExpiry { State.reset with ce := { State.reset.ce with minuteDue := true } }).ce.minuteDue =
      false := by decide

theorem test_blockTimerExpiry :
    let s := { State.reset with bat := { State.reset.bat with
      penalties := State.reset.bat.penalties.set .radio ⟨3, ⟨1, true⟩⟩ } }
    (after (.blockTimerExpiry .radio) s).bat.penalties.radio = ⟨3, ⟨0, false⟩⟩ := by decide

theorem test_keyPress :
    (after (.keyPress (.digit 7)) (keyed [1] service)).kps = ⟨[1, 7], ⟨30, false⟩⟩ ∧
    (after (.keyPress .hash) (keyed [1, 7] service)).cau.queue = [⟨.keypad, [49, 55], none⟩] := by decide

theorem test_keypadIdleTimerExpiry :
    (after .keypadIdleTimerExpiry { service with kps := ⟨[1], ⟨1, true⟩⟩ }).kps = ⟨[], ⟨0, false⟩⟩ := by decide

theorem test_codeDecision :
    let s := queued [codeOf 17] { service with exc := { service.exc with code := ⟨[req .applyCode [(8, 17)]], true⟩ } }
    let t := after .codeDecision s
    t.cau.queue = [] ∧ slotState t.exc.mem 0 = DONE ∧ readByte t.exc.mem 516 = 12 ∧
      t.bat.penalties.exchange = ⟨1, ⟨1, false⟩⟩ := by decide

/-- R55: a CREDIT code of value 0 adds nothing, and an ACTIVE emergency state ends if B is 0 or above; the evaluation then
sees D = 0 (R34, R35). -/
theorem test_creditOfZero :
    let active : State := { offering service with ce := { service.ce with money :=
      { service.ce.money with emergency := true } } }
    let t := fun b => applyBlock { creditBlock with value := 0 } (balance b (switched .closed Reasons.empty active))
    ((t 0).ce.money.b = 0 ∧ (t 0).ce.money.emergency = false ∧ (t 0).swc.set.credit = true) ∧
    ((t (-1)).ce.money.b = -1 ∧ (t (-1)).ce.money.emergency = true ∧ (t (-1)).swc.set.credit = false) := by decide

theorem test_clearTamper :
    let s := kindIn .coverMain .declared (kindIn .magnet .declared { service with
      bat := { service.bat with kinds := { service.bat.kinds with magnet := { KindRec.quiet with counter := 96 } } } })
    let t := applyBlock clearBlock s
    t.bat.kinds.coverMain.state = .quiet ∧ t.bat.kinds.magnet.state = .declared ∧
      t.cau.applied = some ⟨.partly, 1, 1, 1 + 256 * 4⟩ := by decide

theorem test_serialAgrees :
    serialAgrees 0 service = false ∧
    serialAgrees 0 { service with flash := { service.flash with records := [.good image0] } } = true := by decide

theorem test_packageDecision :
    let s := { deciding (packageRun (zeros 10)) service with exc := { service.exc with
      code := ⟨[req .applyPackage []], true⟩, mem := writeBytes [] 536 [1, 2, 3, 4] } }
    let t := after .packageDecision s
    t.cau.pkg = none ∧ readByte t.exc.mem 516 = 12 ∧ readBytes t.exc.mem 536 4 = [1, 2, 3, 4] := by decide

/-- A call to address 1 to 6, of kind 'H' with one payload byte. -/
def callBytes : List Byte :=
  let addr : List Byte := [1, 2, 3, 4, 5, 6]
  addr ++ addr ++ addr ++ [72, 1, 5, 0xFF, 0xB2]

theorem test_radioCall :
    let s := { State.reset with rlr := { State.reset.rlr with radioAddr := [1, 2, 3, 4, 5, 6] } }
    let t := after (.radioCall ([0x96, 0x96, 0x96, 0x96] ++ callBytes)) s
    t.rlr.captureHeld = true ∧ t.rlr.capture = callBytes ∧ t.exc.wake = true := by decide

theorem test_radioGapTimerExpiry :
    (after .radioGapTimerExpiry (receiving (.address [1]) State.reset)).rlr.rx = .hunt 0 := by decide

theorem test_radioLineByte :
    (after (.radioLineByte 0x96 true) (receiving (.hunt 3) State.reset)).rlr.rx = .sync ∧
    (after (.radioLineByte 0x96 false) (receiving (.hunt 3) State.reset)).rlr.rx = .hunt 0 := by decide

theorem test_buttonPress :
    let t := after .buttonPress (switched .ready Reasons.empty service)
    t.swc.sw = .closing ∧ t.swc.drive = some ⟨.toClose, 1, false, false, none⟩ := by decide

theorem test_coilPulseEnd :
    (after .coilPulseEnd (driving ⟨.toOpen, 1, false, false, none⟩ service)).swc.drive =
      some ⟨.toOpen, 1, true, false, none⟩ := by decide

theorem test_driveConfirm :
    (after (.driveConfirm (volts 4001)) (closing 1)).swc.sw = .closed ∧
    (after (.driveConfirm (volts 4000)) (closing 2)).swc.sw = .fault := by decide

theorem test_recoveryTimerExpiry :
    let s := switched .opened { Reasons.empty with loadLimit := true } service
    (after .recoveryTimerExpiry { s with swc := { s.swc with recovery := ⟨1, true⟩ } }).swc.sw = .ready := by decide

theorem test_coverChange :
    let t := after (.coverChange .main true) service
    t.bat.kinds.coverMain.state = .declared ∧ t.bat.kinds.coverMain.count = 1 ∧ t.swc.set.tamper = true := by decide

theorem test_magnetSamplerSecond :
    (after (.magnetSamplerSecond 17) (magnetAt 88 .quiet)).bat.kinds.magnet.state = .warning ∧
    (after (.magnetSamplerSecond 16) (magnetAt 96 .warning)).bat.kinds.magnet.state = .quiet := by decide

theorem test_programRecordDone :
    let s := programming (.record [.periodic] image0) State.reset
    (after (.programRecordDone .pass) s).flash.records.head? = some (.good image0) ∧
    (after (.programRecordDone .markFails) s).flash.records.head? = some .damaged ∧
    (after (.programRecordDone .markFails) (failing 2 s)).stc.failCount = 1 ∧
    (after (.programRecordDone .markFails) (failing 2 s)).stc.fault = false ∧
    (after (.programRecordDone .bodyFails) (failing 2 s)).stc.fault = true := by decide

theorem test_programEntryDone :
    let t := after (.programEntryDone true) (programming (.entry (.log entry0)) State.reset)
    t.tmoHead = ⟨1, 0, 0⟩ ∧ t.stc.logPos = ⟨1, 1⟩ := by decide

theorem test_programBitDone :
    (after (.programBitDone true) (programming (.bit (.ever .magnet)) State.reset)).flash.bits.ever.magnet = true ∧
    (after (.programBitDone true) (programming (.bit .commissioned) State.reset)).psv.inService = true := by decide

theorem test_eraseBlockDone :
    let s := { erasing (eraseOf 1) State.reset with flash := { State.reset.flash with
      records := List.replicate 16 .damaged } }
    (after (.eraseBlockDone true) s).flash.records = List.replicate 8 .damaged ++ List.replicate 8 .erased := by decide

theorem test_eraseSuspended :
    let s := erasing (eraseOf 2) { State.reset with stc := { State.reset.stc with readWait := true } }
    (after .eraseSuspended s).stc.erase = some { eraseOf 2 with suspended := true } := by decide

theorem test_suspendGuardExpiry :
    (after .suspendGuardExpiry (erasing { eraseOf 2 with guarded := true } State.reset)).stc.erase =
      some (eraseOf 2) := by decide

theorem test_periodicTimerExpiry :
    let s := { State.reset with stc := { State.reset.stc with periodic := ⟨1, true⟩ } }
    (after .periodicTimerExpiry s).stc.prog.isSome = true := by decide

theorem test_mainsFailingAssert :
    let t := after .mainsFailingAssert service
    t.psv.power = .hold ∧ t.exc.live = false ∧ t.bat.holdBegin = some 0 := by decide

theorem test_mainsAppears :
    (after (.mainsAppears (line 23000)) (onBattery false false true)).psv.settle = ⟨2, false⟩ := by decide

theorem test_mainsPresenceEnds :
    (after (.mainsPresenceEnds (line 14999)) (onBattery true false false)).psv.power = .off := by decide

theorem test_mainsFailingDeassert :
    (after .mainsFailingDeassert (onBattery true true true)).psv.settle = ⟨2, false⟩ := by decide

theorem test_batteryExhausted :
    (after .batteryExhausted (onBattery false false true)).psv.power = .off := by decide

theorem test_supplyCollapse :
    let s := saving 3
    let t := after .supplyCollapse { s with stc := { s.stc with queue := [⟨.erase 2 4 (some 5), false⟩] } }
    t.psv.power = .battery ∧ t.flash.records[3]? = some .damaged ∧ t.flash.removed = [(2, 5)] ∧ t.stc.queue = [] := by
  decide

theorem test_entryLength :
    entryLength 0 1800 0 = 30 ∧ entryLength 200 199 0 = 0 ∧ entryLength 200 82 0 = 0 := by decide

theorem test_energyField : energyField 4294967295 = le 4 4294967295 := by decide

/-- A factory part without supply. -/
def factoryOff : State := { onBattery false false true with
  psv := { State.reset.psv with power := .off, mainsPresent := false }, bat := clearedDomain }

/-- The state after k steps on an empty queue. -/
def stepsIdle : Nat → State → State
  | 0, s => s
  | k + 1, s =>
    match step s with
    | .next t => stepsIdle k t
    | .fault _ => s
    | .refused _ => s

theorem test_reset_reached :
    let t := after (.settleTimerExpiry restVolts 9) (stepsIdle 2 (after (.mainsAppears (line 15000)) factoryOff))
    (t.psv, t.ee.energy, t.ce.money, t.swc, t.stc) =
      (State.reset.psv, State.reset.ee.energy, State.reset.ce.money, State.reset.swc, State.reset.stc) ∧
    t.exc.notices.map (fun n => n.body) = State.reset.exc.notices.map (fun n => n.body) := by decide

theorem test_read :
    (after (.read (some 0x0100) 2 true) { State.reset with exc := { State.reset.exc with markReg := 0x1234 } }).exc.dataOut =
      [0x34, 0x12] := by decide

theorem test_write :
    let t := after (.write (some 0x1000) [7, 8] true) State.reset
    t.exc.mem = [(4096, 7), (4097, 8)] ∧ t.exc.bus = .idle := by decide

theorem test_status : (after (.status 1) State.reset).exc.dataOut = [0x43] := by decide

theorem test_voidCommand : (after (.voidCommand 0x00 2) State.reset).exc.dataOut = [0, 0] := by decide

theorem test_slotTake :
    let t := after (.slotTake 0) (rising FREE POSTED)
    readByte t.exc.mem 516 = 4 ∧ slotState t.exc.mem 0 = DONE ∧ t.exc.takeCtr = 2 := by decide

theorem test_write_takes_a_request :
    let t := after (.write (some 0x0200) [1, 0x20] true) State.reset
    slotState t.exc.mem 0 = TAKEN ∧ t.exc.query.queue.map (fun r => r.kind) = [.readLive] := by decide

theorem test_slotContinue :
    let s := fun (before : Nat) => bulking (bulkOf (.entries []) 2 true) (rising before POSTED)
    ∀ before ∈ [PAUSED, TAKEN], slotState (after (.slotContinue 0) (s before)).exc.mem 0 = TAKEN := by decide

theorem test_slotCancel :
    let s := { rising TAKEN CANCEL with exc := { (rising TAKEN CANCEL).exc with
      control := ⟨[⟨1, .setTime, params [], .none⟩, req .switchOpen []], false⟩ } }
    readByte (after (.slotCancel 0) s).exc.mem 516 = 6 := by decide

theorem test_slotFree : slotState (after (.slotFree 0) (slotAt DONE State.reset)).exc.mem 0 = FREE := by decide

theorem test_exchangeFault :
    (after (.exchangeFault 0 4) State.reset).exc.notices.map (fun n => n.body) =
      State.reset.exc.notices.map (fun n => n.body) ++ [.slotFault 0 0 4] := by decide

/-- A part with an open WRITE that covered both control cells, at release mark m. -/
def released (m : Nat) : State :=
  let t : WriteTxn := ⟨256, List.replicate 16 0, true, true, true⟩
  { writing t State.reset with
    exc := { (writing t State.reset).exc with markReg := m }
    rlr := { State.reset.rlr with captureHeld := true, capture := callBytes } }

theorem test_noticeRelease : (after .noticeRelease (released 1)).exc.notices.map (fun n => n.seq) = [2] := by decide

theorem test_captureRelease : (after .captureRelease (released 1)).rlr.captureHeld = false := by decide

theorem test_pauseTimerExpiry :
    readByte (after .pauseTimerExpiry (bulking (bulkOf .finished 0 true) State.reset)).exc.mem 516 = 7 := by decide

theorem test_bulkChunk :
    (after (.bulkChunk 9) (bulking (bulkOf (.entries [5 :: zeros 31]) 0 false) State.reset)).exc.mem =
      [(512, 4), (518, 1), (532, 1), (4096, 5)] := by decide

theorem test_bulkChunk_resumesAtTheExpected :
    let t := fun (n : Nat) => (after (.bulkChunk n) (loggedPart 1 (scanOf 3 2 4) 0)).exc.bulk.map (fun b =>
      (b.source, b.filled, b.skipped))
    t 1 = some (scanOf 3 0 4, 0, 0) ∧ t 2 = some (scanOf 4 1 4, 1, 0) := by decide

theorem test_xrst :
    (after .xrstAssert (slotAt DONE State.reset)).exc.mem = [] ∧ (after .xrstAssert State.reset).exc.xrst = true ∧
    (after .xrstDeassert (after .xrstAssert State.reset)).exc.xrst = false := by decide

theorem test_applyCode :
    let r := req .applyCode [(8, 2), (9, 49), (10, 50)]
    (after .applyCode (codeLane r service)).cau.queue = [⟨.exchange, [49, 50], some 0⟩] := by decide

theorem test_applyPackage :
    let r := req .applyPackage [(10, 1)]
    (after .applyPackage (codeLane r service)).cau.pkg = some ⟨[0], some 0, .decoding⟩ := by decide

theorem test_takeEmergency :
    let s := balance 99 (codeLane (req .takeEmergency []) (offering service))
    (after .takeEmergency s).ce.money.emergency = true := by decide

theorem test_setTime :
    let s := controlLane (req .setTime [(12, 5)]) (validClock State.reset)
    (after .setTime s).bat.clock = 5 ∧ (after .setTime s).bat.steerUsed = 5 := by decide

theorem test_switchRequests :
    let remote : Reasons := { Reasons.empty with remote := true }
    (after .switchOpen (controlLane (req .switchOpen []) State.reset)).swc.set.remote = true ∧
    (after .switchRelease (controlLane (req .switchRelease []) (switched .opened remote service))).swc.sw = .ready := by
  decide

theorem test_testSwitch :
    (after .testSwitch (controlLane (req .testSwitch [(8, 1)]) State.reset)).swc.drive =
      some ⟨.toClose, 1, false, true, some 0⟩ := by decide

theorem test_lifecycleRequests :
    (after .calibrate (controlLane (req .calibrate [(8, 9)]) State.reset)).ee.gains.v.a = 9 ∧
    (after .identify (controlLane (req .identify [(8, 9)]) State.reset)).cau.serial = 9 ∧
    (after .installKey (controlLane (req .installKey [(8, 9)]) State.reset)).cau.key = 9 ∧
    readByte (after .commission (controlLane (req .commission []) State.reset)).exc.mem 516 = 8 := by decide

theorem test_readLive :
    readByte (after .readLive (queryLane (req .readLive []) State.reset)).exc.mem 516 = 0 ∧
    slotState (after .readLive (queryLane (req .readLive []) State.reset)).exc.mem 0 = DONE := by decide

theorem test_readEvidence :
    readByte (after .readEvidence (queryLane (req .readEvidence [(8, 9)]) State.reset)).exc.mem 516 = 4 := by decide

theorem test_bulkRequests :
    let r := fun (k : ReqKind) => bulkReq k 1 1 0 64
    ((after .readProfile (queryLane (r .readProfile) State.reset)).exc.bulk.map (fun b => b.room)) = some 2 ∧
    ((after .readTamperLog (queryLane (r .readTamperLog) State.reset)).exc.bulk.map (fun b => b.gaps)) = some true ∧
    ((after .readCodes (queryLane (r .readCodes) State.reset)).exc.bulk.map (fun b => b.source)) = some (.entries []) ∧
    ((after .readSettings (queryLane (r .readSettings) State.reset)).exc.bulk.map (fun b => b.gaps)) = some false := by
  decide

end Sys2Proof.Tests
end

/-! PROOF. The rules of stages 1 to 3 of a billed period, and O11 and O12 from them
(chapter 01, R3 to R7). -/

namespace Sys2Proof.Machine

open Sys2Proof

/-! ### Stage 1 (R3) -/

theorem natAbs_clampInt (m : Nat) (x : Int) : (clampInt m x).natAbs = min x.natAbs m := by
  unfold clampInt
  split
  · omega
  · split <;> omega

theorem clampInt_nonneg (m : Nat) {x : Int} (h : 0 ≤ x) : 0 ≤ clampInt m x := by
  unfold clampInt
  split
  · omega
  · rwa [if_neg (by omega)]

theorem clampInt_nonpos (m : Nat) {x : Int} (h : x ≤ 0) : clampInt m x ≤ 0 := by
  unfold clampInt
  rw [if_neg (by omega)]
  split <;> omega

/-- The clamp bites exactly outside its range. -/
theorem clampInt_ne_iff (m : Nat) (x : Int) : clampInt m x ≠ x ↔ m < x.natAbs := by
  unfold clampInt
  split
  · omega
  · split <;> omega

/-- Division that truncates toward zero acts on the magnitude alone. -/
theorem natAbs_scaledPower (p : Int) (g : Nat) :
    (Int.tdiv (p * g) 16384).natAbs = p.natAbs * g / 16384 := by
  rw [Int.natAbs_tdiv, Int.natAbs_mul]
  rfl

theorem scaledPower_nonneg {p : Int} (g : Nat) (h : 0 ≤ p) : 0 ≤ Int.tdiv (p * g) 16384 :=
  Int.tdiv_nonneg (Int.mul_nonneg h (Int.natCast_nonneg g)) (by decide)

theorem scaledPower_nonpos {p : Int} (g : Nat) (h : p ≤ 0) : Int.tdiv (p * g) 16384 ≤ 0 := by
  have hneg : 0 ≤ Int.tdiv (-p * g) 16384 := scaledPower_nonneg g (by omega)
  rw [Int.neg_mul, Int.neg_tdiv] at hneg
  omega

theorem natAbs_scale_p (r : PhaseResult) (gv gi gp : Nat) :
    (scale r gv gi gp).p.natAbs = min (r.pRaw.natAbs * gp / 16384) 44000000 :=
  (natAbs_clampInt _ _).trans (by rw [natAbs_scaledPower])

theorem scale_p_nonneg (r : PhaseResult) (gv gi gp : Nat) (h : 0 ≤ r.pRaw) : 0 ≤ (scale r gv gi gp).p :=
  clampInt_nonneg _ (scaledPower_nonneg gp h)

theorem scale_p_nonpos (r : PhaseResult) (gv gi gp : Nat) (h : r.pRaw ≤ 0) : (scale r gv gi gp).p ≤ 0 :=
  clampInt_nonpos _ (scaledPower_nonpos gp h)

/-- OVERRANGE stands for a bite of any of the three clamps. -/
theorem scale_overrange_iff (r : PhaseResult) (gv gi gp : Nat) :
    (scale r gv gi gp).overrange = true ↔
      50000 < r.vRaw.toNat * gv / 32768 ∨ 160000 < r.iRaw.toNat * gi / 16384 ∨
        44000000 < r.pRaw.natAbs * gp / 16384 := by
  have hp := clampInt_ne_iff 44000000 (Int.tdiv (r.pRaw * gp) 16384)
  rw [natAbs_scaledPower] at hp
  simp only [scale, Bool.or_eq_true, decide_eq_true_eq, bne_iff_ne, hp, or_assoc]

/-! ### Stage 2 (R5) -/

theorem effective_noVoltage {m : Metering} {x : Scaled} (h : x.v < 4000 ∧ m.iMin ≤ x.i) :
    effective m x = ⟨x.i * m.vNom / 100, 0, true, false, false⟩ :=
  if_pos h

theorem effective_creep {m : Metering} {x : Scaled} (hv : ¬(x.v < 4000 ∧ m.iMin ≤ x.i))
    (hc : x.p.natAbs < m.pStart ∨ x.p = 0) : effective m x = ⟨0, 0, false, true, false⟩ :=
  (if_neg hv).trans (if_pos hc)

theorem effective_forward {m : Metering} {x : Scaled} (hv : ¬(x.v < 4000 ∧ m.iMin ≤ x.i))
    (hs : ¬x.p.natAbs < m.pStart) (hp : 0 < x.p) : effective m x = ⟨x.p.toNat, 0, false, false, false⟩ := by
  have hc : ¬(x.p.natAbs < m.pStart ∨ x.p = 0) := by omega
  have habs : x.p.natAbs = x.p.toNat := by omega
  unfold effective
  rw [if_neg hv, if_neg hc, if_pos hp, habs]

/-- Reverse power counts as import or, under SEPARATE, as export. -/
theorem effective_reverse {m : Metering} {x : Scaled} (hv : ¬(x.v < 4000 ∧ m.iMin ≤ x.i))
    (hs : ¬x.p.natAbs < m.pStart) (hp : x.p < 0) :
    effective m x = if m.separate then ⟨0, (-x.p).toNat, false, false, true⟩
      else ⟨(-x.p).toNat, 0, false, false, true⟩ := by
  have hc : ¬(x.p.natAbs < m.pStart ∨ x.p = 0) := by omega
  have habs : x.p.natAbs = (-x.p).toNat := by omega
  unfold effective
  rw [if_neg hv, if_neg hc, if_neg (by omega), habs]

theorem substitutedImport_le {i vNom : Nat} (hi : i ≤ 160000) (hv : vNom ≤ 25000) : i * vNom / 100 ≤ 40000000 := by
  have := Nat.mul_le_mul hi hv
  omega

/-! ### Stage 3 (R7) -/

theorem fallbackInForce_iff (s : State) : fallbackInForce s = true ↔
    s.bat.kinds.magnet.state = .warning ∨ s.bat.kinds.magnet.state = .declared := by
  unfold fallbackInForce
  cases s.bat.kinds.magnet.state <;> decide

theorem billedTotal_of_floored {fallback : Bool} {d t : Nat} (hf : fallback = true) (ht : t < d) :
    billedTotal fallback d t = d := by
  simp [billedTotal, hf, ht]

theorem billedTotal_of_not_floored {fallback : Bool} {d t : Nat} (h : ¬(fallback = true ∧ t < d)) :
    billedTotal fallback d t = t :=
  billed_false (by simpa using h)

/-- The sums over the phases stay in the range that R7 states. -/
theorem periodSums_le (m : Metering) (r : PerPhase PhaseResult) (g : Gains) (h : m.vNom ≤ 25000) :
    let e := mapPhase (effective m) (scaleAll r g)
    e.a.imp + e.b.imp + e.c.imp ≤ 132000000 ∧ e.a.exp + e.b.exp + e.c.exp ≤ 132000000 := by
  intro e
  obtain ⟨impA, expA⟩ : e.a.imp ≤ 44000000 ∧ e.a.exp ≤ 44000000 := effective_le m r.a _ _ _ h
  obtain ⟨impB, expB⟩ : e.b.imp ≤ 44000000 ∧ e.b.exp ≤ 44000000 := effective_le m r.b _ _ _ h
  obtain ⟨impC, expC⟩ : e.c.imp ≤ 44000000 ∧ e.c.exp ≤ 44000000 := effective_le m r.c _ _ _ h
  omega

/-! ### The obligations -/

/-- Settles O11: stage 1 by the rules of the clamp and of division toward zero, stage 2 by one rule per case, and the
flags by what a billed period leaves in the live values. -/
theorem effectivePowerTakesTheFirstCase : Obligations.EffectivePowerTakesTheFirstCase := by
  refine ⟨fun r gv gi gp => ?scaling, fun m x => ?cases, fun p s hr => ?shown⟩
  case scaling =>
    exact ⟨rfl, rfl, natAbs_scale_p r gv gi gp, scale_p_nonneg r gv gi gp, scale_p_nonpos r gv gi gp,
      scale_overrange_iff r gv gi gp⟩
  case cases =>
    refine ⟨effective_noVoltage, fun ⟨hv, hc⟩ => effective_creep hv hc,
      fun ⟨hv, hs, hp⟩ => effective_forward hv hs hp, fun ⟨hv, hs, hp, hsep⟩ => ?_, fun ⟨hv, hs, hp, hsep⟩ => ?_,
      substitutedImport_le⟩
    · simp [effective_reverse hv hs hp, hsep]
    · simp [effective_reverse hv hs hp, hsep]
  case shown =>
    obtain ⟨t, hexec, -, hlive, -⟩ := period_main p s hr
    refine ⟨t, hexec, ?_⟩
    rw [hlive]
    exact ⟨rfl, rfl, rfl⟩

/-- Settles O12: the energies and live values of the period are those of periodOut, whose billed total is the floor or
the sum according to the MAGNET state. -/
theorem periodTotalsTakeTheFallbackFloor : Obligations.PeriodTotalsTakeTheFallbackFloor := by
  intro p s hr m e t x floored
  obtain ⟨u, hexec, henergy, hlive, -⟩ := period_main p s hr
  have htotal : u.ee.live.tPrime = billedTotal (fallbackInForce s) m.pDef t := by rw [hlive]; rfl
  have hquant : u.ee.energy = quantize s.ee.energy (billedTotal (fallbackInForce s) m.pDef t) x
      (billedTotal (fallbackInForce s) m.pDef t - t) := henergy
  have hexport : u.ee.live.x = x := by rw [hlive]; rfl
  refine ⟨periodSums_le m p.phases s.ee.gains, fun hd hf => ?_, u, hexec, hexport, fun hf => ?_, fun hf => ?_⟩
  · have ht : t < m.pDef := hf.2
    omega
  · obtain ⟨hmagnet, ht⟩ := hf
    have hb : billedTotal (fallbackInForce s) m.pDef t = m.pDef :=
      billedTotal_of_floored ((fallbackInForce_iff s).mpr hmagnet) ht
    exact ⟨htotal.trans hb, by rw [hquant, hb]⟩
  · have hb : billedTotal (fallbackInForce s) m.pDef t = t :=
      billedTotal_of_not_floored fun ⟨hforce, ht⟩ => hf ⟨(fallbackInForce_iff s).mp hforce, ht⟩
    exact ⟨htotal.trans hb, by rw [hquant, hb, Nat.sub_self]⟩

end Sys2Proof.Machine

/-! PROOF. The rules of a removed reason, of an applied LOAD_UNLOCK code and of what an apply leaves, and O26 from them
(chapters 03 and 05, R53, R57, R85, R87 and R97). -/

namespace Sys2Proof.Machine

open Sys2Proof

/-! ### Removing a reason (R85, R87) -/

/-- Removing a reason leaves the set without it, present or absent before. -/
theorem removeReason_set (r : Reason) (s : State) :
    (removeReason r s).swc.set = putReason s.swc.set r false := by
  unfold removeReason
  split
  case isTrue hin => exact (respond_set _ _).1
  case isFalse hout => exact (putReason_self (by simpa using hout)).symm

/-- The response to a set that has become empty in OPEN: READY, where the switch waits for the button (R87). -/
theorem respond_opened_of_noReason (before : Bool) {s : State} (hservice : s.psv.inService = true)
    (hdrive : s.swc.drive = none) (hsw : s.swc.sw = .opened) (hset : noReason s.swc.set = true) :
    respond before s = setSwitch .ready s := by
  simp [respond, hservice, hdrive, hsw, hset]

/-- An OPEN switch without a drive goes to READY when its last reason is removed, and begins no drive. -/
theorem removeReason_last {r : Reason} {s : State} (hservice : s.psv.inService = true) (hsw : s.swc.sw = .opened)
    (hdrive : s.swc.drive = none) (hin : hasReason s.swc.set r = true)
    (hlast : noReason (putReason s.swc.set r false) = true) :
    (removeReason r s).swc.sw = .ready ∧ (removeReason r s).swc.drive = none := by
  have hready : removeReason r s =
      setSwitch .ready { s with swc := { s.swc with set := putReason s.swc.set r false } } :=
    (if_pos hin).trans (respond_opened_of_noReason _ hservice hdrive hsw hlast)
  rw [hready, (setSwitch_swc _ _).1]
  exact ⟨rfl, hdrive⟩

/-! ### An applied LOAD_UNLOCK code (R57, R97) -/

theorem loadUnlock_set (s : State) : (loadUnlock s).swc.set = { s.swc.set with lockout := false } :=
  removeReason_set .lockout _

theorem loadUnlock_tripMem (s : State) : (loadUnlock s).swc.tripMem = 0 :=
  (limiter_remove .lockout _).tripMem

theorem loadUnlock_cau (s : State) : (loadUnlock s).cau = s.cau :=
  (evalFrame_rem .lockout _).cau

theorem loadUnlock_last {s : State} (hservice : s.psv.inService = true) (hsw : s.swc.sw = .opened)
    (hdrive : s.swc.drive = none) (hset : s.swc.set = { Reasons.empty with lockout := true }) :
    (loadUnlock s).swc.sw = .ready ∧ (loadUnlock s).swc.drive = none :=
  removeReason_last hservice hsw hdrive (by simp [hset, hasReason]) (by simp [hset, putReason, noReason, Reasons.empty])

/-! ### The apply of a block (R53) -/

/-- The first step of an apply (R53, R54): the issue number is consumed. -/
def consumeIssue (b : ClearBlock) (s : State) : State :=
  { s with cau := { s.cau with codes := insertIssue b.issue s.cau.codes } }

/-- The CODE save that ends an apply does not reach the SWC. -/
theorem applyBlock_swc (b : ClearBlock) (s : State) :
    (applyBlock b s).swc = (codeEffect b (consumeIssue b s)).swc :=
  (arrive_parts_more _ _).2.2.1

theorem applyBlock_cau (b : ClearBlock) (s : State) :
    (applyBlock b s).cau = { (codeEffect b (consumeIssue b s)).cau with applied := some (appliedOf b s) } :=
  (arrive_parts_more _ _).2.2.2.2.1

theorem codeEffect_loadUnlock {b : ClearBlock} (s : State) (hkind : b.kind = 2) : codeEffect b s = loadUnlock s := by
  simp [codeEffect, hkind]

theorem appliedOf_loadUnlock {b : ClearBlock} (s : State) (hkind : b.kind = 2) :
    appliedOf b s = ⟨.accepted, 2, b.issue, 0⟩ := by
  simp [appliedOf, hkind]

/-! ### The obligation -/

/-- Settles O26: the SWC is left as loadUnlock leaves it, and the CAU as the consumed issue number and the outcome kept
for the commit leave it. -/
theorem loadUnlockRemovesLockout : Obligations.LoadUnlockRemovesLockout := by
  intro b s hkind t
  have hswc : t.swc = (loadUnlock (consumeIssue b s)).swc := by
    rw [applyBlock_swc, codeEffect_loadUnlock _ hkind]
  have hcau : t.cau = { (consumeIssue b s).cau with applied := some ⟨.accepted, 2, b.issue, 0⟩ } := by
    rw [applyBlock_cau, codeEffect_loadUnlock _ hkind, loadUnlock_cau, appliedOf_loadUnlock _ hkind]
  rw [hswc, hcau]
  exact ⟨loadUnlock_set _, loadUnlock_tripMem _, rfl, rfl, loadUnlock_last (s := consumeIssue b s)⟩

end Sys2Proof.Machine

/-! PROOF. The step and what every step keeps: O1 to O10. -/

namespace Sys2Proof.Machine

open Sys2Proof

/-! ### The step -/

/-- Settles O1: the step takes the front of the queue by its first case. -/
theorem stepRunsTheFrontCommand : Obligations.StepRunsTheFrontCommand :=
  fun _ _ _ => rfl

/-- No arm of exec faults or refuses. -/
theorem exec_next (c : Instr) (s : State) : ∃ t, exec c s = .next t := by
  cases c <;> exact ⟨_, rfl⟩

/-- Settles O2: no arm of exec faults or refuses, and no meaning touches the queue. -/
theorem everyCommandAnswersNext : Obligations.EveryCommandAnswersNext := by
  intro c s
  obtain ⟨t, hexec⟩ := exec_next c s
  exact ⟨t, hexec, (exec_keeps c s t hexec).pending⟩

theorem idleStep_of_nothingDue {s : State} (h : dueCommand s = none) : idleStep s = done (tick s) := by
  simp [idleStep, h]

theorem step_of_noPending {s : State} (h : s.pending = []) : step s = idleStep s := by
  simp [step, h]

theorem tick_run {s : State} (h : s.psv.power = .run) : tick s = tickRun s := by
  simp [tick, h]

/-- Settles O3: with nothing waiting and nothing due, a step in RUN is tickRun. -/
theorem idleSecondInRun : Obligations.IdleSecondInRun := by
  intro s hqueue hrun hdue
  rw [step_of_noPending hqueue, idleStep_of_nothingDue hdue, tick_run hrun]
  rfl

/-! ### What a step can do -/

/-- A step runs a command on s with some queue, or lets one second pass. -/
theorem step_cases {s t : State} (h : step s = .next t) :
    (∃ c rest, exec c { s with pending := rest } = .next t) ∨ done (tick s) = .next t := by
  unfold step at h
  split at h
  next c rest _ => exact .inl ⟨c, rest, h⟩
  next =>
    unfold idleStep at h
    split at h
    next c _ => exact .inl ⟨c, s.pending, h⟩
    next => exact .inr h

/-- A command ends by bringing the pictures up to date, or it is STATUS or a void command, which send bytes only. -/
theorem exec_cases {c : Instr} {s t : State} (h : exec c s = .next t) :
    (∃ u, t = refresh u) ∨ ∃ bs, t = sendOut bs s := by
  have hdone : ∀ {u : State}, done u = .next t → (∃ u, t = refresh u) ∨ ∃ bs, t = sendOut bs s :=
    fun {u} hu => .inl ⟨u, (Host.Outcome.next.inj hu).symm⟩
  cases c
  case status n => exact .inr ⟨_, (Host.Outcome.next.inj h).symm⟩
  case voidCommand cmd n => exact .inr ⟨_, (Host.Outcome.next.inj h).symm⟩
  all_goals exact hdone h

/-! ### The pictures (R171, R183) -/

/-- The queue of commands has no part in the pictures. -/
theorem pageFresh_pending {s : State} (l : List Instr) (h : PageFresh s) : PageFresh { s with pending := l } := h

theorem pageFresh_sendOut {s : State} (bs : List Byte) (h : PageFresh s) : PageFresh (sendOut bs s) := h

theorem pageFresh_refresh (s : State) : PageFresh (refresh s) := by
  unfold refresh
  split
  next => exact fun _ _ => ⟨rfl, rfl⟩
  next hstale =>
    intro hlive hreading
    simp [hlive, hreading] at hstale

/-- Settles O5: every command but STATUS and the void ones ends in a refresh, and so does a second. -/
theorem everyStepKeepsThePageFresh : Obligations.EveryStepKeepsThePageFresh := by
  intro s t hfresh hstep
  obtain ⟨c, rest, hexec⟩ | htick := step_cases hstep
  · obtain ⟨u, rfl⟩ | ⟨bs, rfl⟩ := exec_cases hexec
    · exact pageFresh_refresh u
    · exact pageFresh_sendOut bs (pageFresh_pending rest hfresh)
  · rw [← Host.Outcome.next.inj htick]
    exact pageFresh_refresh _

/-! ### One-way bits, memory, notices, ranges -/

/-- What no command breaks, no step breaks; the queue itself moves. -/
theorem step_keeps {s t : State} (h : step s = .next t) : ∃ rest, Keeps { s with pending := rest } t := by
  obtain ⟨c, rest, hexec⟩ | htick := step_cases h
  · exact ⟨rest, exec_keeps c _ t hexec⟩
  · exact ⟨s.pending, done_keeps (keeps_tick s) htick⟩

/-- Settles O6. -/
theorem noStepClearsAOneWayBit : Obligations.NoStepClearsAOneWayBit := by
  intro s t hstep
  obtain ⟨rest, hkeeps⟩ := step_keeps hstep
  exact hkeeps.bits

/-- Settles O7. -/
theorem everyStepKeepsTheMemoryCanonical : Obligations.EveryStepKeepsTheMemoryCanonical := by
  intro s t hwf hstep
  obtain ⟨rest, hkeeps⟩ := step_keeps hstep
  exact hkeeps.mem hwf

/-- Settles O8. -/
theorem everyStepKeepsTheNoticeList : Obligations.EveryStepKeepsTheNoticeList := by
  intro s t hnotices hstep
  obtain ⟨rest, hkeeps⟩ := step_keeps hstep
  exact hkeeps.notices hnotices

/-- Settles O9: the queue has no part in the saved values. -/
theorem everyStepKeepsTheSavedRanges : Obligations.EveryStepKeepsTheSavedRanges := by
  intro s t hranges hstep
  obtain ⟨rest, hkeeps⟩ := step_keeps hstep
  exact hkeeps.ranges (ranges_of hranges)

/-! ### Reset -/

/-- Settles O4: each clause reads a field of the reset state. -/
theorem resetLeavesTheFactoryState : Obligations.ResetLeavesTheFactoryState := by
  unfold Obligations.ResetLeavesTheFactoryState
  simp only
  repeat' apply And.intro
  all_goals rfl

/-- The values of a part from the factory are in their ranges. -/
theorem saveOk_reset : SaveOk (imageOf State.reset) where
  left := by unfold EnergyOk; decide
  right := ⟨by unfold MoneyOk; decide, ⟨by decide, trivial⟩, fun k => by cases k <;> decide, by decide⟩

theorem not_good_of_factory (r : SaveRecord) : RecordPlace.good r ∉ State.reset.flash.records := by
  intro h
  exact nomatch List.eq_of_mem_replicate h

theorem rangesOk_reset : RangesOk State.reset where
  now := saveOk_reset
  stored := fun r h => absurd h (not_good_of_factory r)
  running := fun _ _ h => nomatch h
  dropped := fun _ h => nomatch h

/-- Settles O10. -/
theorem theInvariantsHoldAtReset : Obligations.TheInvariantsHoldAtReset :=
  ⟨fun _ _ => ⟨by decide, rfl⟩, wf_reset, fun _ => rfl, by unfold NoticesOk; decide, rangesOk_reset⟩

end Sys2Proof.Machine

/-! PROOF. Field rules of refresh, arrive and of the completions of the three lanes, for the proofs below. -/

namespace Sys2Proof.Machine

open Sys2Proof

/-! ### A command's end -/

theorem done_eq {t u : State} (h : t = u) : done t = .next (refresh u) := by
  rw [h]; rfl

@[simp] theorem refresh_toModules (t : State) : (refresh t).toModules = t.toModules := (refresh_frame t).1
@[simp] theorem refresh_bat (t : State) : (refresh t).bat = t.bat := (refresh_frame t).2.1
@[simp] theorem refresh_flash (t : State) : (refresh t).flash = t.flash := (refresh_frame t).2.2.1
@[simp] theorem refresh_psv (t : State) : (refresh t).psv = t.psv := (refresh_frame t).2.2.2.1
@[simp] theorem refresh_mem (t : State) : (refresh t).exc.mem = t.exc.mem := (refresh_frame_more t).2.1
@[simp] theorem refresh_standing (t : State) : (refresh t).exc.standing = t.exc.standing := (refresh_frame_more t).1

/-- What refresh leaves of the exchange: everything but the two pictures. -/
theorem refresh_exc (t : State) : ∃ page image, (refresh t).exc = { t.exc with page := page, image := image } := by
  unfold refresh
  split
  next => exact ⟨_, _, rfl⟩
  next => exact ⟨t.exc.page, t.exc.image, rfl⟩

@[simp] theorem refresh_notices (t : State) : (refresh t).exc.notices = t.exc.notices := by
  obtain ⟨page, image, h⟩ := refresh_exc t; rw [h]
@[simp] theorem refresh_oldest (t : State) : (refresh t).exc.oldest = t.exc.oldest := by
  obtain ⟨page, image, h⟩ := refresh_exc t; rw [h]
@[simp] theorem refresh_overflow (t : State) : (refresh t).exc.overflow = t.exc.overflow := by
  obtain ⟨page, image, h⟩ := refresh_exc t; rw [h]
@[simp] theorem refresh_code (t : State) : (refresh t).exc.code = t.exc.code := by
  obtain ⟨page, image, h⟩ := refresh_exc t; rw [h]
@[simp] theorem refresh_control (t : State) : (refresh t).exc.control = t.exc.control := by
  obtain ⟨page, image, h⟩ := refresh_exc t; rw [h]
@[simp] theorem refresh_query (t : State) : (refresh t).exc.query = t.exc.query := by
  obtain ⟨page, image, h⟩ := refresh_exc t; rw [h]
@[simp] theorem refresh_bulk (t : State) : (refresh t).exc.bulk = t.exc.bulk := by
  obtain ⟨page, image, h⟩ := refresh_exc t; rw [h]
@[simp] theorem refresh_live (t : State) : (refresh t).exc.live = t.exc.live := by
  obtain ⟨page, image, h⟩ := refresh_exc t; rw [h]
@[simp] theorem refresh_xrst (t : State) : (refresh t).exc.xrst = t.exc.xrst := by
  obtain ⟨page, image, h⟩ := refresh_exc t; rw [h]
@[simp] theorem refresh_takeCtr (t : State) : (refresh t).exc.takeCtr = t.exc.takeCtr := by
  obtain ⟨page, image, h⟩ := refresh_exc t; rw [h]
@[simp] theorem refresh_markReg (t : State) : (refresh t).exc.markReg = t.exc.markReg := by
  obtain ⟨page, image, h⟩ := refresh_exc t; rw [h]
@[simp] theorem refresh_attn (t : State) : (refresh t).exc.attn = t.exc.attn := by
  obtain ⟨page, image, h⟩ := refresh_exc t; rw [h]
@[simp] theorem refresh_wake (t : State) : (refresh t).exc.wake = t.exc.wake := by
  obtain ⟨page, image, h⟩ := refresh_exc t; rw [h]

/-! ### A completion leaves the rest of the exchange (R175) -/

@[simp] theorem exc_complete_notices (i : Fin 16) (r : Result) (f n : Nat) (l : List (Nat × List Byte)) (x : Exc) :
    (x.complete i r f n l).notices = x.notices := rfl
@[simp] theorem exc_complete_code (i : Fin 16) (r : Result) (f n : Nat) (l : List (Nat × List Byte)) (x : Exc) :
    (x.complete i r f n l).code = x.code := rfl
@[simp] theorem exc_complete_control (i : Fin 16) (r : Result) (f n : Nat) (l : List (Nat × List Byte)) (x : Exc) :
    (x.complete i r f n l).control = x.control := rfl
@[simp] theorem exc_complete_query (i : Fin 16) (r : Result) (f n : Nat) (l : List (Nat × List Byte)) (x : Exc) :
    (x.complete i r f n l).query = x.query := rfl
@[simp] theorem exc_complete_mem (i : Fin 16) (r : Result) (f n : Nat) (l : List (Nat × List Byte)) (x : Exc) :
    (x.complete i r f n l).mem = doneMem i r f n l x.mem := rfl

/-! ### Arrivals at the store -/

@[simp] theorem arrive_exc (o : StoreOp) (s : State) : (arrive o s).exc = s.exc := (arrive_parts o s).1
@[simp] theorem arrive_bat (o : StoreOp) (s : State) : (arrive o s).bat = s.bat := (arrive_parts o s).2.1
@[simp] theorem arrive_ce (o : StoreOp) (s : State) : (arrive o s).ce = s.ce := (arrive_parts o s).2.2.1
@[simp] theorem arrive_psv (o : StoreOp) (s : State) : (arrive o s).psv = s.psv := (arrive_parts o s).2.2.2.1
@[simp] theorem arrive_ee (o : StoreOp) (s : State) : (arrive o s).ee = s.ee := (arrive_parts o s).2.2.2.2.1
@[simp] theorem arrive_cau (o : StoreOp) (s : State) : (arrive o s).cau = s.cau := (arrive_parts o s).2.2.2.2.2.1
@[simp] theorem arrive_swc (o : StoreOp) (s : State) : (arrive o s).swc = s.swc := (arrive_parts o s).2.2.2.2.2.2.1
@[simp] theorem arrive_kps (o : StoreOp) (s : State) : (arrive o s).kps = s.kps := (arrive_parts o s).2.2.2.2.2.2.2.1
@[simp] theorem arrive_rlr (o : StoreOp) (s : State) : (arrive o s).rlr = s.rlr := (arrive_parts o s).2.2.2.2.2.2.2.2.1
@[simp] theorem arrive_flash (o : StoreOp) (s : State) : (arrive o s).flash = s.flash :=
  (arrive_parts o s).2.2.2.2.2.2.2.2.2.1
@[simp] theorem arrive_tmoHead (o : StoreOp) (s : State) : (arrive o s).tmoHead = s.tmoHead :=
  (arrive_parts o s).2.2.2.2.2.2.2.2.2.2

/-- In FAULT an operation ends at its arrival (R145). -/
theorem arrive_fault {s : State} (o : StoreOp) (h : s.stc.fault = true) : arrive o s = s := by
  simp [arrive, h]

theorem storeTakes_run {p : Psv} (h : p.power = .run) : storeTakes p = true := by
  simp [storeTakes, h]

theorem mayDrive_run {p : Psv} (h : p.power = .run) : mayDrive p = true := by
  simp [mayDrive, h]

end Sys2Proof.Machine

/-! PROOF. What the switch controller's answers can change at all. -/

namespace Sys2Proof.Machine

open Sys2Proof

/-- t is s but for the SWC and the open interval, which the switch state marks. -/
def SwitchMoved (s t : State) : Prop := ∃ w v, t = { s with swc := w, ee := { s.ee with interval := v } }

theorem switchMoved_refl (s : State) : SwitchMoved s s := ⟨s.swc, s.ee.interval, rfl⟩

theorem switchMoved_swc (w : Swc) (s : State) : SwitchMoved s { s with swc := w } := ⟨w, s.ee.interval, rfl⟩

theorem switchMoved_trans {s t u : State} (h : SwitchMoved s t) (k : SwitchMoved t u) : SwitchMoved s u := by
  obtain ⟨_, _, rfl⟩ := h
  obtain ⟨w, v, rfl⟩ := k
  exact ⟨w, v, rfl⟩

theorem switchMoved_ite {s a b : State} {p : Prop} [Decidable p] (ha : SwitchMoved s a) (hb : SwitchMoved s b) :
    SwitchMoved s (if p then a else b) := by
  split
  · exact ha
  · exact hb

theorem switchMoved_flag (f : ProfileFlags → ProfileFlags) (s : State) : SwitchMoved s (flagInterval f s) :=
  ⟨s.swc, _, rfl⟩

theorem switchMoved_setSwitch (w : SwitchState) (s : State) : SwitchMoved s (setSwitch w s) :=
  switchMoved_ite (switchMoved_swc _ _) (switchMoved_trans (switchMoved_swc _ _) (switchMoved_flag _ _))

theorem switchMoved_setDrive (d : Option Drive) (s : State) : SwitchMoved s (setDrive d s) := switchMoved_swc _ _

theorem switchMoved_beginDrive (d : Direction) (s : State) : SwitchMoved s (beginDrive d s) :=
  switchMoved_trans (switchMoved_setSwitch _ _) (switchMoved_swc _ _)

theorem switchMoved_respond (before : Bool) (s : State) : SwitchMoved s (respond before s) := by
  unfold respond
  refine switchMoved_ite (switchMoved_refl s) ?_
  split
  next => exact switchMoved_ite (switchMoved_setSwitch _ _) (switchMoved_refl s)
  next =>
    exact switchMoved_ite (switchMoved_setSwitch _ _)
      (switchMoved_ite (switchMoved_beginDrive _ _) (switchMoved_refl s))
  next => exact switchMoved_ite (switchMoved_beginDrive _ _) (switchMoved_refl s)
  next => exact switchMoved_ite (switchMoved_beginDrive _ _) (switchMoved_refl s)
  all_goals exact switchMoved_refl s

theorem switchMoved_addReason (r : Reason) (s : State) : SwitchMoved s (addReason r s) :=
  switchMoved_ite (switchMoved_refl s) (switchMoved_trans (switchMoved_swc _ _) (switchMoved_respond _ _))

theorem switchMoved_removeReason (r : Reason) (s : State) : SwitchMoved s (removeReason r s) :=
  switchMoved_ite (switchMoved_trans (switchMoved_swc _ _) (switchMoved_respond _ _)) (switchMoved_refl s)

theorem switchMoved_tamperAgree (s : State) : SwitchMoved s (tamperAgree s) :=
  switchMoved_ite (switchMoved_addReason _ _) (switchMoved_removeReason _ _)

theorem switchMoved_cutDrives (s : State) : SwitchMoved s (cutDrives s) :=
  switchMoved_ite (switchMoved_trans (switchMoved_setSwitch _ _) (switchMoved_setDrive _ _)) (switchMoved_refl s)

/-- A post moves the notices, OVERFLOW and ATTN (R183). -/
theorem exc_post_moved (time : Nat) (b : NoticeBody) (x : Exc) :
    ∃ n o a, x.post time b = { x with notices := n, overflow := o, attn := a } := by
  unfold Exc.post
  split
  next =>
    split
    next => exact ⟨_, _, _, rfl⟩
    next => exact ⟨_, _, _, rfl⟩
  next => exact ⟨x.notices, x.overflow, x.attn, rfl⟩

/-- An evaluation moves the switch, the deferral flag and what a post moves (R35). -/
theorem evaluate_moved (s : State) : ∃ w v x n o a, evaluate s = { s with
    swc := w, ee := { s.ee with interval := v }, ce := { s.ce with deferral := x },
    exc := { s.exc with notices := n, overflow := o, attn := a } } := by
  obtain ⟨w, v, hrem⟩ := switchMoved_removeReason .credit s
  obtain ⟨w', v', hadd⟩ := switchMoved_addReason .credit s
  obtain ⟨n, o, a, hpost⟩ :=
    exc_post_moved s.bat.clock (.disconnectDeferred s.ce.money.b (creditLimit s)) s.exc
  unfold evaluate
  split
  next => exact ⟨w, v, false, s.exc.notices, s.exc.overflow, s.exc.attn, by rw [hrem]; rfl⟩
  next =>
    split
    next => exact ⟨s.swc, s.ee.interval, s.ce.deferral, s.exc.notices, s.exc.overflow, s.exc.attn, rfl⟩
    next =>
      split
      next =>
        dsimp only
        split
        next => exact ⟨s.swc, s.ee.interval, true, s.exc.notices, s.exc.overflow, s.exc.attn, rfl⟩
        next => exact ⟨s.swc, s.ee.interval, true, n, o, a, by rw [← hpost]; rfl⟩
      next => exact ⟨w', v', false, s.exc.notices, s.exc.overflow, s.exc.attn, by rw [hadd]; rfl⟩

end Sys2Proof.Machine

/-! PROOF. Codes, emergency credit, keypad and radio line: O18 to O25 and O27 to O29 (chapter 03). -/

namespace Sys2Proof.Machine

open Sys2Proof

/-! ### TAKE_EMERGENCY (R33, R62) -/

theorem decideEmergency_refused {s : State} (h : emergencyResult s ≠ .accepted) : decideEmergency s = s :=
  if_neg h

theorem decideEmergency_accepted {s : State} (h : emergencyResult s = .accepted) : decideEmergency s =
    arrive (.save .emergency) (evaluate { s with ce := { s.ce with money := { s.ce.money with emergency := true } } }) :=
  if_pos h

/-- TAKE_EMERGENCY at the head of its lane: decided, and completed with E and B as they then are. -/
theorem exec_takeEmergency {r : Request} {s : State} (h : CodeReady .takeEmergency r s) :
    exec .takeEmergency s = .next (refresh (popCode (complete r.slot (emergencyResult s) 0 0
      [(12, le 4 (decideEmergency s).cau.settings.e), (16, leInt 4 (decideEmergency s).ce.money.b)]
      (decideEmergency s)))) :=
  done_eq (by simp only [takeEmergency, code_ready h])

theorem exec_takeEmergency_refused {r : Request} {s : State} {x : Result} (h : CodeReady .takeEmergency r s)
    (hx : emergencyResult s = x) (hne : x ≠ .accepted) :
    exec .takeEmergency s = .next (refresh (popCode (complete r.slot x 0 0
      [(12, le 4 s.cau.settings.e), (16, leInt 4 s.ce.money.b)] s))) := by
  rw [exec_takeEmergency h, decideEmergency_refused (hx ▸ hne), hx]

/-- Settles O18: each refusal is the first condition of emergencyResult that holds. -/
theorem takeEmergencyRefuses : Obligations.TakeEmergencyRefuses := by
  intro r s hready refuse
  have refused : ∀ {x : Result}, emergencyResult s = x → x ≠ .accepted → refuse x :=
    fun hx hne => exec_takeEmergency_refused hready hx hne
  refine ⟨fun hservice => ?_, fun hservice he => ?_, fun hservice he hactive => ?_,
    fun hservice he hactive hb => ?_, fun hservice he hactive hb hfreeze => ?_⟩
  · exact refused (by simp [emergencyResult, hservice]) (by decide)
  · exact refused (by simp [emergencyResult, hservice, he]) (by decide)
  · exact refused (by simp [emergencyResult, hservice, he, hactive]) (by decide)
  · exact refused (by simp [emergencyResult, hservice, he, hactive, hb]) (by decide)
  · exact refused (by simp [emergencyResult, hservice, he, hactive, Int.not_le.mpr hb, hfreeze]) (by decide)

/-- The state whose evaluation an accepted TAKE_EMERGENCY makes: emergency credit is ACTIVE (R33). -/
def emergencyActive (s : State) : State := { s with ce := { s.ce with money := { s.ce.money with emergency := true } } }

/-- Settles O19: the acceptance is one evaluation at the limit −E, the save's arrival and the slot's completion. -/
theorem takeEmergencyMakesItActive : Obligations.TakeEmergencyMakesItActive := by
  intro r s hready hservice he hactive hb hfreeze hfault
  have hx : emergencyResult s = .accepted := by
    simp [emergencyResult, hservice, he, hactive, Int.not_le.mpr hb, hfreeze]
  have heval := ev_main (s0 := s) (s := emergencyActive s) rfl rfl rfl rfl
  obtain ⟨w, v, x, n, o, a, hmoved⟩ := evaluate_moved (emergencyActive s)
  have hdecide : decideEmergency s = arrive (.save .emergency) (evaluate (emergencyActive s)) :=
    decideEmergency_accepted hx
  have hsave : SaveTaken .emergency (decideEmergency s).stc := by
    rw [hdecide, hmoved]
    exact arrive_taken _ _ hfault (storeTakes_run hready.1.1)
  have hlimit : creditLimit (emergencyActive s) = -(s.cau.settings.e : Int) := rfl
  refine ⟨_, exec_takeEmergency hready, ?_⟩
  simp only [refresh_toModules, refresh_bat, refresh_flash, refresh_mem, refresh_code, popCode_complete_mem,
    popCode_complete_code, popCode_complete_modules, popCode_complete_bat, popCode_complete_flash, hdecide, arrive_ce,
    arrive_cau, arrive_exc, arrive_bat, arrive_flash, hx]
  refine ⟨by rw [hmoved]; rfl, ?limit, ?evaluated, by rw [hmoved]; rfl, by rw [hmoved]; rfl, by rw [hmoved]; rfl,
    by rw [hmoved]; rfl, hdecide ▸ hsave, by rw [hmoved]; rfl, by rw [hmoved]; rfl, by rw [hmoved]; rfl,
    by rw [hmoved]; rfl, by rw [hmoved]; rfl⟩
  case limit =>
    simp only [creditLimit, refresh_toModules, popCode_complete_modules, arrive_ce, arrive_cau, hmoved]
    rfl
  case evaluated =>
    rw [hlimit] at heval
    exact Evaluated_congr heval (by simp) (by simp) (by simp)

end Sys2Proof.Machine

/-! PROOF. Keypad, code queue and code decision. -/

namespace Sys2Proof.Machine

open Sys2Proof

/-! ### Keypad (R60, R61) -/

theorem keyPress_digit (d : Fin 10) {s : State} (h : s.psv.power = .run) : keyPress (.digit d) s =
    if s.kps.buf.length < 18 then setKeys (s.kps.buf ++ [d]) s else setKeys s.kps.buf s := by
  simp [keyPress, h]

theorem keyPress_star {s : State} (h : s.psv.power = .run) : keyPress .star s = setKeys s.kps.buf.dropLast s := by
  simp [keyPress, h]

theorem keyPress_hash {s : State} (h : s.psv.power = .run) :
    keyPress .hash s = if s.kps.buf = [] then s else submitKeys s := by
  simp [keyPress, h]

theorem setKeys_nil (s : State) : setKeys [] s = { s with kps := ⟨[], ⟨0, false⟩⟩ } := rfl

theorem setKeys_of_ne_nil {l : List (Fin 10)} (h : l ≠ []) (s : State) :
    setKeys l s = { s with kps := ⟨l, ⟨30, false⟩⟩ } := by
  simp [setKeys, h, startTimer]

theorem submissionRefusal_blocked {src : Source} {s : State} (h : 0 < (s.bat.penalties.get src).timer.left) :
    submissionRefusal src s = some .blocked := by
  simp [submissionRefusal, blocked, h]

theorem submissionRefusal_busy {src : Source} {s : State} (h : (s.bat.penalties.get src).timer.left = 0)
    (hq : 4 ≤ s.cau.queue.length) : submissionRefusal src s = some .busy := by
  simp [submissionRefusal, blocked, h, hq]

theorem submissionRefusal_none {src : Source} {s : State} (h : (s.bat.penalties.get src).timer.left = 0)
    (hq : s.cau.queue.length < 4) : submissionRefusal src s = none := by
  simp [submissionRefusal, blocked, h, hq]

/-- '#' submits an entry other than "000" as a code. -/
theorem submitKeys_code {s : State} (h : s.kps.buf ≠ [0, 0, 0]) (hx : submissionRefusal .keypad s = none) :
    submitKeys s = setKeys [] (enqueueCode ⟨.keypad, s.kps.buf.map digitByte, none⟩ s) := by
  simp only [submitKeys, if_neg h, hx]

theorem submitKeys_refused {s : State} {x : Result} (h : s.kps.buf ≠ [0, 0, 0])
    (hx : submissionRefusal .keypad s = some x) :
    submitKeys s = setKeys s.kps.buf (giveOutcome .keypad none x 0 0 0 s) := by
  simp only [submitKeys, if_neg h, hx]

theorem submitKeys_emergency {s : State} (h : s.kps.buf = [0, 0, 0]) : submitKeys s =
    setKeys [] (post (.emergencyResult (emergencyResult s) (decideEmergency s).cau.settings.e
      (decideEmergency s).ce.money.b) (decideEmergency s)) := by
  simp only [submitKeys, if_pos h]

/-- Settles O20: one rule of setKeys or submitKeys per key and buffer. -/
theorem keyPressEditsAndSubmits : Obligations.KeyPressEditsAndSubmits := by
  intro s hrun
  have hash : ∀ {t : State}, s.kps.buf ≠ [] → submitKeys s = t → exec (.keyPress .hash) s = .next (refresh t) :=
    fun hbuf ht => done_eq ((keyPress_hash hrun).trans ((if_neg hbuf).trans ht))
  refine ⟨fun d hlen => done_eq ((keyPress_digit d hrun).trans ?_),
    fun d hlen => done_eq ((keyPress_digit d hrun).trans ?_), fun hlen => done_eq ((keyPress_star hrun).trans ?_),
    fun hlen => done_eq ((keyPress_star hrun).trans ?_), fun hbuf => done_eq ((keyPress_hash hrun).trans (if_pos hbuf)),
    fun hbuf hcode hopen hroom => ?_, fun hbuf hcode hblocked => ?_, fun hbuf hservice => ?_⟩
  · exact (if_pos hlen).trans (setKeys_of_ne_nil (by simp) s)
  · exact (if_neg (by omega)).trans (setKeys_of_ne_nil (List.ne_nil_of_length_pos (by omega)) s)
  · have hnil : s.kps.buf.dropLast = [] := List.eq_nil_of_length_eq_zero (by simp; omega)
    rw [hnil, setKeys_nil]
  · exact setKeys_of_ne_nil (List.ne_nil_of_length_pos (by simp; omega)) s
  · exact hash hbuf (submitKeys_code hcode (submissionRefusal_none hopen hroom))
  · refine hash hbuf ((submitKeys_refused hcode (submissionRefusal_blocked hblocked)).trans ?_)
    exact setKeys_of_ne_nil hbuf _
  · have hx : emergencyResult s = .notCommissioned := by simp [emergencyResult, hservice]
    refine hash (by simp [hbuf]) ((submitKeys_emergency hbuf).trans ?_)
    rw [hx, decideEmergency_refused (by simp [hx])]
    rfl

/-! ### Expiries -/

/-- Settles O21: each expiry is its guard, which holds, and one named update. -/
theorem idleBlockAndGapTimersExpire : Obligations.IdleBlockAndGapTimersExpire := by
  intro s hrun
  refine ⟨fun hdue => done_eq ?_, fun src hdue => done_eq ?_, done_eq ?_⟩
  · simp [keypadIdle, hrun, hdue, setKeys_nil]
  · simp [blockExpiry, hrun, hdue]
    rfl
  · cases hhunt : inHunt s.rlr.rx
    · simp [radioGap, hrun, hhunt]
      rfl
    · simp [radioGap, hrun, hhunt]

/-! ### APPLY_CODE (R63) -/

theorem applyCode_badRequest {r : Request} {s : State} (h : CodeReady .applyCode r s) (hn : 40 < r.par 8 1) :
    applyCode s = popCode (complete r.slot .badRequest 0 0 [] s) := by
  simp only [applyCode, code_ready h, if_pos hn]

theorem applyCode_refused {r : Request} {s : State} {x : Result} (h : CodeReady .applyCode r s) (hn : r.par 8 1 ≤ 40)
    (hx : submissionRefusal .exchange s = some x) :
    applyCode s = giveOutcome .exchange (some r.slot) x 0 0 0 s := by
  simp only [applyCode, code_ready h, if_neg (Nat.not_lt.mpr hn), hx]

theorem applyCode_submitted {r : Request} {s : State} (h : CodeReady .applyCode r s) (hn : r.par 8 1 ≤ 40)
    (hx : submissionRefusal .exchange s = none) : applyCode s =
    beginCode (enqueueCode ⟨.exchange, slice r.params 1 (r.par 8 1), some r.slot⟩ s) := by
  simp only [applyCode, code_ready h, if_neg (Nat.not_lt.mpr hn), hx]

/-- Settles O22: the count, then the two tests of a submission. -/
theorem applyCodeSubmits : Obligations.ApplyCodeSubmits := by
  intro r s hready n refused none
  refine ⟨fun hn => ?_, fun hn hblocked => ?_, fun hn hopen hfull => ?_, fun hn hopen hroom => ?_⟩
  · exact done_eq (applyCode_badRequest hready hn)
  · exact done_eq (applyCode_refused hready hn (submissionRefusal_blocked (src := .exchange) hblocked))
  · exact done_eq (applyCode_refused hready hn (submissionRefusal_busy (src := .exchange) hopen hfull))
  · exact done_eq (applyCode_submitted hready hn (submissionRefusal_none (src := .exchange) hopen hroom))

/-! ### The decision of a code (R51 to R53) -/

/-- The character test of R51 fails at a character that is no digit. -/
theorem all_isDigit_iff (cs : List Byte) : cs.all isDigit = true ↔ ¬∃ b ∈ cs, b.toNat < 48 ∨ 57 < b.toNat := by
  simp only [List.all_eq_true, isDigit, decide_eq_true_eq, not_exists, not_and, not_or, Nat.not_lt]

theorem codeNumber_eq (cs : List Byte) : codeNumber cs =
    if cs.length ≠ 18 ∨ (∃ b ∈ cs, b.toNat < 48 ∨ 57 < b.toNat) ∨ 2 ^ 59 ≤ decimal cs then none
    else some (decimal cs) := by
  unfold codeNumber
  by_cases hlen : cs.length = 18
  · by_cases hdigits : cs.all isDigit = true
    · have hnone := (all_isDigit_iff cs).mp hdigits
      by_cases hvalue : decimal cs < 576460752303423488
      · rw [if_pos ⟨hlen, hdigits, hvalue⟩, if_neg (by simp [hlen, hnone]; omega)]
      · rw [if_neg (fun h => hvalue h.2.2), if_pos (by right; right; omega)]
    · rw [if_neg (fun h => hdigits h.2.1),
        if_pos (.inr (.inl (Classical.not_not.mp (mt (all_isDigit_iff cs).mpr hdigits))))]
  · rw [if_neg (fun h => hlen h.1), if_pos (.inl hlen)]

theorem codeDecision_refused {e : CodeEntry} {rest : List CodeEntry} {s : State} {r : Result} {kind issue amount : Nat}
    (hrun : s.psv.power = .run) (hqueue : s.cau.queue = e :: rest) (happlied : s.cau.applied = none)
    (hjudge : judgeCode e.chars s = .refused r kind issue amount) : exec .codeDecision s = .next (refresh
      (dropHead (giveOutcome e.src e.slot r kind issue amount (mapPenalty e.src (penaltyAfter r) s)))) :=
  done_eq (by simp only [codeDecision, hqueue, happlied, hrun, beq_self_eq_true, if_true, hjudge])

theorem codeDecision_applied {e : CodeEntry} {rest : List CodeEntry} {s : State} {b : ClearBlock}
    (hrun : s.psv.power = .run) (hqueue : s.cau.queue = e :: rest) (happlied : s.cau.applied = none)
    (hjudge : judgeCode e.chars s = .apply b) : exec .codeDecision s = .next (refresh (applyBlock b s)) :=
  done_eq (by simp only [codeDecision, hqueue, happlied, hrun, beq_self_eq_true, if_true, hjudge])

/-- Settles O23: codeNumber by its three tests, and the decision by the penalty of BAD_FORMAT. -/
theorem malformedCodesAreBadFormat : Obligations.MalformedCodesAreBadFormat := by
  refine ⟨codeNumber_eq, fun e rest s hrun hservice hqueue happlied hmalformed => ?_⟩
  have hjudge : judgeCode e.chars s = .refused .badFormat 0 0 0 := by
    simp [judgeCode, hservice, hmalformed]
  exact codeDecision_refused hrun hqueue happlied hjudge

end Sys2Proof.Machine

/-! PROOF. The first outcome of a code and the apply of its block. -/

namespace Sys2Proof.Machine

open Sys2Proof

/-! ### The first outcome of a code (R53) -/

theorem badKind_iff (b : ClearBlock) :
    badKind b = true ↔ 3 ≤ b.kind ∨ b.kind = 2 ∧ b.value ≠ 0 ∨ b.kind = 1 ∧ 256 ≤ b.value := by
  simp [badKind, or_assoc]

/-- The decision of a well-formed code in service: its check, its kind and value, then the block. -/
theorem judgeCode_wellFormed {cs : List Byte} {x : Nat} {s : State} (hservice : s.psv.inService = true)
    (hx : codeNumber cs = some x) : judgeCode cs s =
      if blockAuthentic s.cau.key (decodeBlock s.cau.key x) = false then .refused .badCheck 0 0 0
      else if badKind (decodeBlock s.cau.key x) = true then
        .refused .badKind (decodeBlock s.cau.key x).kind (decodeBlock s.cau.key x).issue 0
      else judgeBlock (decodeBlock s.cau.key x) s := by
  simp [judgeCode, hservice, hx]

theorem judgeCode_notCommissioned (cs : List Byte) {s : State} (hservice : s.psv.inService = false) :
    judgeCode cs s = .refused .notCommissioned 0 0 0 := by
  simp [judgeCode, hservice]

/-! ### The apply of a CLEAR_TAMPER block (R56, R118) -/

theorem codeEffect_clearTamper {b : ClearBlock} (s : State) (hkind : b.kind = 1) :
    codeEffect b s = clearTamper b.value s := by
  simp [codeEffect, hkind]

/-- The state after an apply's effect, before its CODE save arrives (R53). -/
def blockApplied (b : ClearBlock) (s : State) : State :=
  let u := codeEffect b (consumeIssue b s)
  { u with cau := { u.cau with applied := some (appliedOf b s) } }

theorem applyBlock_eq (b : ClearBlock) (s : State) : applyBlock b s = arrive (.save .code) (blockApplied b s) := rfl

theorem mem_kinds_filter (p : Kind → Bool) (k : Kind) : k ∈ kinds.filter p ↔ p k = true := by
  simp [mem_kinds]

/-- The kinds of a mask, each taken in turn on the state whose issue number is consumed. -/
theorem maskedKinds_cleared (b : ClearBlock) (s : State) : ClearedKinds (kinds.filter (inMask b.value)) (consumeIssue b s)
    ((kinds.filter (inMask b.value)).foldl clearKind (consumeIssue b s)) :=
  clearKinds_cleared _ _ (List.Pairwise.filter _ (show kinds.Nodup by decide))

/-- The kinds a CLEAR_TAMPER block clears, and those it names whose condition holds. -/
def clearedBy (b : ClearBlock) (s : State) (k : Kind) : Bool := inMask b.value k && clears s k

def keptBy (b : ClearBlock) (s : State) (k : Kind) : Bool :=
  (inMask b.value k && isDeclared s k) && conditionPresent s.bat k

theorem keptMask_eq (b : ClearBlock) (s : State) : keptMask b.value s = maskOf (keptBy b s) := rfl

theorem clearedMask_eq (b : ClearBlock) (s : State) : clearedMask b.value s = maskOf (clearedBy b s) := by
  simp only [clearedMask, Bool.and_assoc]; rfl

theorem appliedOf_clearTamper {b : ClearBlock} (s : State) (hkind : b.kind = 1) : appliedOf b s =
    ⟨if kinds.any (keptBy b s) = true then .partly else .accepted, 1, b.issue,
      maskOf (clearedBy b s) + 256 * maskOf (keptBy b s)⟩ := by
  simp only [appliedOf, hkind, if_true, keptMask_eq, clearedMask_eq, mask_zero]
  cases kinds.any (keptBy b s) <;> rfl

/-- The state whose kinds the CLEAR_TAMPER block has taken, before the switch controller agrees. -/
def kindsTaken (b : ClearBlock) (s : State) : State := (kinds.filter (inMask b.value)).foldl clearKind (consumeIssue b s)

/-- What a CLEAR_TAMPER block leaves: each field of the state after its apply. -/
theorem applyBlock_clearTamper_parts {b : ClearBlock} (s : State) (hkind : b.kind = 1) :
    (applyBlock b s).bat = (kindsTaken b s).bat ∧ (applyBlock b s).exc = (kindsTaken b s).exc ∧
    (applyBlock b s).ce = s.ce ∧ (applyBlock b s).flash = s.flash ∧ (applyBlock b s).psv = s.psv ∧
    (applyBlock b s).swc.set.tamper = tamperRequired (kindsTaken b s) ∧
    (applyBlock b s).cau = { (consumeIssue b s).cau with applied := some (appliedOf b s) } := by
  have hcleared := maskedKinds_cleared b s
  obtain ⟨hset, hexc, hce, hbat, hcau, hpsv, -, hflash⟩ := agree_all (kindsTaken b s)
  simp only [applyBlock_eq, arrive_bat, arrive_exc, arrive_ce, arrive_flash, arrive_psv, arrive_swc, arrive_cau,
    blockApplied, codeEffect_clearTamper _ hkind, clearTamper]
  refine ⟨hbat, hexc, hce.trans hcleared.ce, hflash.trans hcleared.flash, hpsv.trans hcleared.psv, ?_, ?_⟩
  · exact congrArg Reasons.tamper hset
  · exact congrArg (fun c => { c with applied := some (appliedOf b s) }) (hcau.trans hcleared.cau)

theorem applyBlock_clearTamper_kinds {b : ClearBlock} {s : State} (hkind : b.kind = 1) (k : Kind) :
    (applyBlock b s).bat.kinds.get k = if clearedBy b s k = true then clearedRec s k else s.bat.kinds.get k := by
  obtain ⟨hbat, -⟩ := applyBlock_clearTamper_parts s hkind
  rw [hbat, kindsTaken, (maskedKinds_cleared b s).kinds k]
  simp only [mem_kinds_filter, clearedBy, Bool.and_eq_true]
  rfl

theorem applyBlock_clearTamper_notices {b : ClearBlock} {s : State} (hkind : b.kind = 1) :
    (applyBlock b s).exc = (postAll ((kinds.filter (clearedBy b s)).map
      (fun k => .tamperCleared k (s.bat.kinds.get k).counter)) s).exc := by
  obtain ⟨-, hexc, -⟩ := applyBlock_clearTamper_parts s hkind
  rw [hexc, kindsTaken, (maskedKinds_cleared b s).exc, List.filter_filter]
  refine (fold_post _ (consumeIssue b s) s rfl rfl).trans ?_
  congr 4
  funext k
  exact Bool.and_comm _ _

/-- Each kind the block names and finds declared has its log entry taken by the store. -/
theorem applyBlock_clearTamper_entry {b : ClearBlock} {s : State} (hkind : b.kind = 1) (hfault : s.stc.fault = false)
    (htakes : storeTakes s.psv = true) (hroom : (s.stc.queue.filter isAppend).length ≤ 24) {k : Kind}
    (hmask : inMask b.value k = true) (hdeclared : isDeclared s k = true) :
    EntryTaken (.log (clearEntry s k)) (applyBlock b s).stc := by
  have hlen : (kinds.filter (inMask b.value)).length ≤ 8 := List.length_filter_le _ _
  have htaken : OpTaken (.append (.log (clearEntry s k))) (kindsTaken b s).stc :=
    (maskedKinds_cleared b s).tk hfault htakes
      (by have : appends (consumeIssue b s).stc.queue = (s.stc.queue.filter isAppend).length := rfl
          omega)
      k ((mem_kinds_filter _ _).2 hmask) hdeclared
  obtain ⟨-, -, -, -, -, -, hstc, -⟩ := agree_all (kindsTaken b s)
  refine opTaken_entry ?_
  rw [applyBlock_eq]
  refine opTaken_arrive _ _ (by simp) (by simp) ?_
  rw [blockApplied, codeEffect_clearTamper _ hkind]
  exact hstc ▸ htaken

theorem applyBlock_clearTamper_save {b : ClearBlock} {s : State} (hkind : b.kind = 1) (hfault : s.stc.fault = false)
    (htakes : storeTakes s.psv = true) : SaveTaken .code (applyBlock b s).stc := by
  obtain ⟨-, -, -, -, -, hpsv, hstc, -⟩ := agree_all (kindsTaken b s)
  have heffect : codeEffect b (consumeIssue b s) = tamperAgree (kindsTaken b s) := codeEffect_clearTamper _ hkind
  refine arrive_taken _ (blockApplied b s) ?_ ?_
  · simp only [blockApplied, heffect, hstc]
    exact (maskedKinds_cleared b s).fault.trans hfault
  · simp only [blockApplied, heffect, hpsv]
    exact (congrArg storeTakes (maskedKinds_cleared b s).psv).trans htakes

/-- A value given by cases fulfils what is stated by the same cases. -/
theorem ite_of_eq_ite {α : Type} {c P Q : Prop} {d₁ d₂ : Decidable c} {x a b : α} (hx : x = @ite α c d₁ a b)
    (ha : x = a → P) (hb : x = b → Q) : @ite Prop c d₂ P Q := by
  by_cases h : c
  · rw [if_pos h] at hx ⊢
    exact ha hx
  · rw [if_neg h] at hx ⊢
    exact hb hx

/-- Settles O24: the decision's refusals come in the order of R53, and a CLEAR_TAMPER block clears what it may. -/
theorem codeDecisionTakesTheFirstOutcome : Obligations.CodeDecisionTakesTheFirstOutcome := by
  refine ⟨fun e rest s hrun hqueue happlied => ?decision, fun b s hkind hrun hfault => ?clearing⟩
  case decision =>
    intro refuse
    refine ⟨fun hservice => ?_, fun hservice x hx => ?_⟩
    · exact codeDecision_refused hrun hqueue happlied (judgeCode_notCommissioned _ hservice)
    · have refused : ∀ {r k i a}, judgeCode e.chars s = .refused r k i a → refuse r k i a :=
        fun h => codeDecision_refused hrun hqueue happlied h
      have hjudge := judgeCode_wellFormed hservice hx
      simp only [badKind_iff, judgeBlock, List.contains_iff_mem, balanceCeiling, Int.natCast_mul, Int.cast_ofNat_Int] at hjudge
      generalize decodeBlock s.cau.key x = b at hjudge ⊢
      dsimp only
      generalize (if b.kind = 0 then b.value else 0) = credit at hjudge ⊢
      exact ite_of_eq_ite hjudge refused fun h => ite_of_eq_ite h refused fun h => ite_of_eq_ite h refused fun h =>
        ite_of_eq_ite h refused fun h => ite_of_eq_ite h refused fun h => ite_of_eq_ite h refused fun h =>
        ite_of_eq_ite h refused fun h => codeDecision_applied hrun hqueue happlied h
  case clearing =>
    intro present named cleared kept mask t
    have htakes : storeTakes s.psv = true := storeTakes_run hrun
    have hnamed : ∀ k, decide (named k) = (inMask b.value k && isDeclared s k) := fun k => by
      simp [named, inMask, isDeclared, Bool.decide_and, Bool.beq_eq_decide_eq]
    have hpresent : ∀ k, present k = conditionPresent s.bat k := fun k => by cases k <;> rfl
    have hcleared : cleared = clearedBy b s := funext fun k => by
      simp only [cleared, hnamed, hpresent, clearedBy, clears, Bool.and_assoc]
    have hkept : kept = keptBy b s := funext fun k => by simp only [kept, hnamed, hpresent, keptBy]
    obtain ⟨hbat, hexc, hce, hflash, hpsv, htamper, hcau⟩ := applyBlock_clearTamper_parts s hkind
    have hsettings : (applyBlock b s).cau.settings = s.cau.settings := (congrArg Cau.settings hcau).trans rfl
    have htaken : tamperRequired (applyBlock b s) = tamperRequired (kindsTaken b s) :=
      tamper_cong2 (hpsv.trans (maskedKinds_cleared b s).psv.symm) (congrArg Bat.kinds hbat)
        (hsettings.trans (congrArg Cau.settings (maskedKinds_cleared b s).cau).symm)
    rw [hcleared, hkept]
    refine ⟨applyBlock_clearTamper_kinds hkind, ?applied, ?switch,
      congrArg Exc.notices (applyBlock_clearTamper_notices hkind), ?entries, ?codes, ?save, hce, hflash, ?mem⟩
    case applied => exact (congrArg Cau.applied hcau).trans (congrArg some (appliedOf_clearTamper s hkind))
    case switch =>
      rw [htamper, ← htaken, tamperRequired, hpsv]
      rw [hsettings]
    case entries =>
      intro hroom k hk
      have hboth : inMask b.value k = true ∧ isDeclared s k = true := by
        rw [← Bool.and_eq_true, ← hnamed k]
        exact decide_eq_true hk
      refine ⟨clearEntry s k, applyBlock_clearTamper_entry hkind hfault htakes hroom hboth.1 hboth.2,
        rfl, rfl, ?_, hrun, rfl, rfl⟩
      rw [hpresent k]
      rfl
    case codes => exact congrArg Cau.codes hcau
    case save => exact applyBlock_clearTamper_save hkind hfault htakes
    case mem => exact (congrArg Exc.mem (applyBlock_clearTamper_notices hkind)).trans (postAll_mem _ _)

end Sys2Proof.Machine

/-! PROOF. The apply of a credit block and the table of used codes. -/

namespace Sys2Proof.Machine

open Sys2Proof

/-! ### The apply of a credit block (R37, R49, R53) -/

/-- Low credit moves the two arm flags and what a post moves (R37). -/
theorem lowCredit_moved (s : State) : ∃ a1 a2 n o a, lowCredit s = { s with
    ce := { s.ce with arm1 := a1, arm2 := a2 },
    exc := { s.exc with notices := n, overflow := o, attn := a } } := by
  have hpost : ∀ (p : Bool) (b : NoticeBody) (t : State), ∃ n o a, (if p = true then post b t else t) =
      { t with exc := { t.exc with notices := n, overflow := o, attn := a } } := by
    intro p b t
    obtain ⟨n, o, a, hexc⟩ := exc_post_moved t.bat.clock b t.exc
    cases p with
    | false => exact ⟨t.exc.notices, t.exc.overflow, t.exc.attn, rfl⟩
    | true => exact ⟨n, o, a, by rw [← hexc]; rfl⟩
  unfold lowCredit
  dsimp only
  obtain ⟨n, o, a, hfirst⟩ := hpost (armStep s.ce.arm1 s.ce.money.b s.cau.settings.l1).2
    (.creditLow1 s.ce.money.b s.cau.settings.l1) { s with ce := { s.ce with
      arm1 := (armStep s.ce.arm1 s.ce.money.b s.cau.settings.l1).1,
      arm2 := (armStep s.ce.arm2 s.ce.money.b s.cau.settings.l2).1 } }
  rw [hfirst]
  obtain ⟨n', o', a', hsecond⟩ := hpost (armStep s.ce.arm2 s.ce.money.b s.cau.settings.l2).2
    (.creditLow2 s.ce.money.b s.cau.settings.l2) _
  exact ⟨_, _, n', o', a', hsecond⟩

/-- The state whose balance has taken an amount, before its notices and its evaluation (R49). -/
def credited (k : Nat) (s : State) : State :=
  { s with ce := { s.ce with money := { s.ce.money with
      b := s.ce.money.b + k, emergency := s.ce.money.emergency && decide (s.ce.money.b + k < 0) } } }

theorem addCredit_eq (k : Nat) (s : State) : addCredit k s = evaluate (lowCredit (credited k s)) := rfl

theorem addCredit_moved (k : Nat) (s : State) : ∃ w v x n o a, addCredit k s = { s with
    swc := w, ee := { s.ee with interval := v },
    ce := { (lowCredit (credited k s)).ce with deferral := x },
    exc := { s.exc with notices := n, overflow := o, attn := a } } := by
  obtain ⟨w, v, x, n, o, a, heval⟩ := evaluate_moved (lowCredit (credited k s))
  obtain ⟨a1, a2, n', o', a', hlow⟩ := lowCredit_moved (credited k s)
  refine ⟨w, v, x, n, o, a, ?_⟩
  rw [addCredit_eq, heval, hlow]
  rfl

theorem addCredit_evaluated (k : Nat) (s : State) : Evaluated (s.ce.money.b + k) (creditLimit (credited k s))
    s.ce.window (lowCredit (credited k s)).exc s (addCredit k s) := by
  obtain ⟨a1, a2, n, o, a, hlow⟩ := lowCredit_moved (credited k s)
  have hmain := ev_main (s0 := s) (s := lowCredit (credited k s)) (x := (lowCredit (credited k s)).exc)
    (by rw [hlow]; rfl) (by rw [hlow]; rfl) (by rw [hlow]; rfl) rfl
  have hlimit : creditLimit (lowCredit (credited k s)) = creditLimit (credited k s) := by rw [hlow]; rfl
  have hb : (lowCredit (credited k s)).ce.money.b = s.ce.money.b + k := by rw [hlow]; rfl
  have hwindow : (lowCredit (credited k s)).ce.window = s.ce.window := by rw [hlow]; rfl
  rwa [hlimit, hb, hwindow] at hmain

/-- Low credit reads no issue number. -/
theorem lowCredit_consume (b : ClearBlock) (s : State) : lowCredit (consumeIssue b s) = consumeIssue b (lowCredit s) := by
  unfold lowCredit
  dsimp only [consumeIssue]
  cases (armStep s.ce.arm1 s.ce.money.b s.cau.settings.l1).2 <;>
    cases (armStep s.ce.arm2 s.ce.money.b s.cau.settings.l2).2 <;> rfl

theorem codeEffect_credit {b : ClearBlock} (s : State) (hkind : b.kind = 0) :
    codeEffect b s = addCredit (10 * b.value) s := by
  simp [codeEffect, hkind]

theorem appliedOf_credit {b : ClearBlock} (s : State) (hkind : b.kind = 0) :
    appliedOf b s = ⟨.accepted, 0, b.issue, b.value⟩ := by
  simp [appliedOf, hkind]

/-- Settles O25: the thresholds rearm and post by R37, and a credit block adds its amount and evaluates. -/
theorem creditBlockAddsToTheBalance : Obligations.CreditBlockAddsToTheBalance := by
  refine ⟨low_exc, fun b s hkind hrun hfault => ?_⟩
  intro t
  obtain ⟨w, v, x, n, o, a, hadd⟩ := addCredit_moved (10 * b.value) (consumeIssue b s)
  obtain ⟨a1, a2, n', o', a', hlow⟩ := lowCredit_moved (credited (10 * b.value) (consumeIssue b s))
  have heval := addCredit_evaluated (10 * b.value) (consumeIssue b s)
  have ht : t = arrive (.save .code) (blockApplied b s) := rfl
  have happlied : blockApplied b s = { addCredit (10 * b.value) (consumeIssue b s) with
      cau := { (consumeIssue b s).cau with applied := some (appliedOf b s) } } := by
    simp only [blockApplied, codeEffect_credit _ hkind, hadd]
  have htce : t.ce = (addCredit (10 * b.value) (consumeIssue b s)).ce := by rw [ht, arrive_ce, happlied]
  have hmoney : t.ce.money = (credited (10 * b.value) s).ce.money := by rw [htce, hadd, hlow]; rfl
  have hlowCredited : lowCredit (credited (10 * b.value) (consumeIssue b s)) =
      consumeIssue b (lowCredit (credited (10 * b.value) s)) := lowCredit_consume b (credited (10 * b.value) s)
  refine ⟨?balance, ?u, ?cRes, ?emergency, ?evaluated, ?codes, ?applied, ?save, ?energy, ?bat, ?mem⟩
  case balance => rw [hmoney]; rfl
  case u => rw [hmoney]; rfl
  case cRes => rw [hmoney]; rfl
  case emergency => rw [hmoney]; rfl
  case evaluated =>
    rw [hmoney]
    rw [hlowCredited] at heval hadd
    refine ⟨by rw [htce, hadd]; rfl, by rw [htce, hadd]; rfl, ?_, ?_⟩
    · rw [htce, hadd, ← hlowCredited, hlow]; rfl
    · refine Evaluated_congr (t := addCredit (10 * b.value) (consumeIssue b s)) ?_ ?_ ?_ ?_
      · exact heval
      · rw [ht, arrive_swc, happlied]
      · rw [htce]
      · rw [ht, arrive_exc, happlied]
  case codes => rw [ht, arrive_cau, happlied]; rfl
  case applied => rw [ht, arrive_cau, happlied, appliedOf_credit s hkind]
  case save =>
    refine arrive_taken _ (blockApplied b s) ?_ ?_
    · rw [happlied, hadd]; exact hfault
    · rw [happlied, hadd]; exact storeTakes_run hrun
  case energy => rw [ht, arrive_ee, happlied, hadd]; rfl
  case bat => rw [ht, arrive_bat, happlied, hadd]; rfl
  case mem => rw [ht, arrive_exc, happlied, hadd]; rfl

/-! ### The table of used codes (R54) -/

/-- Settles O27: with its least number dropped when the table is full, the table keeps its members (R54). -/
theorem usedCodeTableKeepsItsOrder : Obligations.UsedCodeTableKeepsItsOrder := by
  intro n c hok hfloor hnew d
  have hlen := insertSorted_length n c.table
  have hmem := fun x => mem_insert n x c.table
  have hokd : CodesOk d := codesOk_insert hok hfloor hnew
  obtain ⟨l, hl⟩ : ∃ l, insertSorted n c.table = l := ⟨_, rfl⟩
  rw [hl] at hlen hmem
  cases l with
  | nil => simp at hlen
  | cons least rest =>
    have hd : d = if 32 < (least :: rest).length then ⟨rest, least⟩ else ⟨least :: rest, c.floor⟩ := by
      simp only [d, insertIssue, hl]
    refine ⟨hokd, ?floor, fun hroom => ?room, fun hfull => ?full⟩
    case floor =>
      have hrises : risesFrom c.floor (least :: rest) := hl ▸ insertSorted_rises n hfloor hnew hok.2
      rw [hd]
      split
      next => exact Nat.le_of_lt hrises.1
      next => exact Nat.le_refl _
    case room =>
      rw [hd, if_neg (by omega)]
      exact ⟨rfl, hmem⟩
    case full =>
      rw [hd, if_pos (by omega)]
      refine ⟨by simpa [hfull] using hlen, (hmem least).1 (by simp), fun x => ?_⟩
      rw [← hmem x, List.mem_cons]

end Sys2Proof.Machine

/-! PROOF. The radio line and its calls. -/

namespace Sys2Proof.Machine

open Sys2Proof

/-! ### One byte of the line (R65, R66) -/

theorem rxState_self (s : State) : rxState s s.rlr.rx = s := rfl

theorem radioLineByte_unframed {s : State} (hrun : s.psv.power = .run) (b : Byte) :
    exec (.radioLineByte b false) s = .next (refresh (rxState s (.hunt 0))) :=
  done_eq (by simp [lineByte, hrun]; rfl)

/-- A framed byte in RUN moves the recognizer by its form alone. -/
theorem radioLineByte_framed {s : State} {x y : Recognizer} {b : Byte} (hrun : s.psv.power = .run) (hrx : s.rlr.rx = x)
    (h : framedByte b (rxState s x) = rxState s y) :
    exec (.radioLineByte b true) s = .next (refresh (rxState s y)) := by
  subst hrx
  exact done_eq ((lineByte_framed s hrun _ b).trans h)

theorem ownAddress_iff (s : State) (a : List Byte) :
    ownAddress s a = decide (a ≠ [0, 0, 0, 0, 0, 0] ∧ a = s.rlr.radioAddr) := by
  simp [ownAddress, zeroAddr, Bool.decide_and, bne, Bool.beq_eq_decide_eq]

theorem addressMatches_iff (s : State) (a : List Byte) : addressMatches s a = true ↔
    (a ≠ [0, 0, 0, 0, 0, 0] ∧ a = s.rlr.radioAddr) ∨ (a ≠ [0, 0, 0, 0, 0, 0] ∧ a ∈ s.cau.settings.groups) := by
  simp [addressMatches, zeroAddr, ← and_or_left]

theorem addressByte_broken {s : State} {taken : List Byte} {b : Byte} (h6 : 6 ≤ taken.length)
    (hne : taken.getD (taken.length % 6) 0 ≠ b) : addressByte s taken b = .hunt 0 :=
  if_pos ⟨h6, hne⟩

theorem addressByte_inside {s : State} {taken : List Byte} {b : Byte}
    (h : taken.length < 6 ∨ taken.getD (taken.length % 6) 0 = b) (h17 : taken.length ≠ 17) :
    addressByte s taken b = .address (taken ++ [b]) := by
  have hrepeat : ¬(6 ≤ taken.length ∧ taken.getD (taken.length % 6) 0 ≠ b) := fun ⟨h6, hne⟩ =>
    h.elim (fun hlt => absurd hlt (by omega)) hne
  unfold addressByte
  rw [if_neg hrepeat, if_neg (by simpa using h17)]

theorem addressByte_last {s : State} {taken : List Byte} {b : Byte} (h17 : taken.length = 17)
    (heq : taken.getD (taken.length % 6) 0 = b) : addressByte s taken b =
      if addressMatches s ((taken ++ [b]).take 6) then
        .kind (ownAddress s ((taken ++ [b]).take 6)) (taken ++ [b]) else .hunt 0 := by
  unfold addressByte
  rw [if_neg (fun h => h.2 heq), if_pos (by simp [h17])]

/-- Settles O28: one equation of the recognizer's byte functions per form and byte. -/
theorem radioLineByteMovesTheRecognizer : Obligations.RadioLineByteMovesTheRecognizer := by
  intro b s hrun goes
  have framed : ∀ {x y}, s.rlr.rx = x → framedByte b (rxState s x) = rxState s y → goes y true :=
    fun hrx h => radioLineByte_framed hrun hrx h
  refine ⟨radioLineByte_unframed hrun b, fun n hrx hb => framed hrx ?huntOther, fun n hrx hb hn => framed hrx ?huntMore,
    fun hrx hb => framed hrx ?huntLast, fun hrx hb => framed hrx ?syncStays, fun hrx hb => framed hrx ?syncEnds,
    fun taken hrx => ?address, fun own taken hrx => framed hrx rfl, fun own taken hrx => ?length,
    fun own taken left hrx => ?payload, fun own address kind len payload haddr hlen => ?check⟩
  case huntOther => exact congrArg (rxState s) (if_neg hb)
  case huntMore => exact congrArg (rxState s) ((if_pos hb).trans (if_neg (by omega)))
  case huntLast => exact congrArg (rxState s) (if_pos hb)
  case syncStays => exact if_pos hb
  case syncEnds => exact if_neg hb
  case address =>
    intro n a own group
    refine ⟨fun h6 hne => framed hrx ?_, fun h h17 => framed hrx ?_, fun h17 heq => ?_⟩
    · exact congrArg (rxState s) (addressByte_broken h6 hne)
    · exact congrArg (rxState s) (addressByte_inside h h17)
    · have hlast := addressByte_last (s := s) h17 heq
      refine ⟨fun hmatch => framed hrx (congrArg (rxState s) (hlast.trans ?_)),
        fun hmatch => framed hrx (congrArg (rxState s) (hlast.trans ?_))⟩
      · rw [if_pos ((addressMatches_iff s _).2 hmatch), ownAddress_iff]
      · exact if_neg (fun h => hmatch ((addressMatches_iff s _).1 h))
  case length =>
    refine ⟨fun h => framed hrx (congrArg (rxState s) (if_pos h)), fun h => framed hrx (congrArg (rxState s) ?_),
      fun hpos h => framed hrx (congrArg (rxState s) ?_)⟩
    · subst h; rfl
    · unfold lengthByte
      rw [if_neg (by omega), if_neg (by omega)]
  case payload =>
    refine ⟨fun h => framed hrx (congrArg (rxState s) (if_neg (by omega))),
      fun h => framed hrx (congrArg (rxState s) (if_pos h))⟩
  case check =>
    intro call
    have hshort : (call ++ [b]).length < 22 + field call 19 1 := by
      have := (call_valid_iff address payload kind len b b haddr hlen).2.1
      simp only [call, List.length_append, List.length_cons, List.length_nil] at this ⊢
      omega
    refine ⟨fun hrx => framed hrx ?_, fun hi hrx hcheck => framed hrx ?_⟩
    · exact if_pos hshort
    · obtain ⟨hfield, -, hvalid⟩ := call_valid_iff address payload kind len hi b haddr hlen
      refine (if_neg ?_).trans (if_neg fun h => hcheck (hvalid.1 h))
      simp only [call, List.length_append, List.length_cons, List.length_nil] at hfield ⊢
      omega

/-! ### A call on the line (R66 to R69) -/

theorem radioCall_append (l m : List Byte) (s : State) : radioCall (l ++ m) s = radioCall m (radioCall l s) :=
  List.foldl_append

theorem lineByte_hunt {s : State} (hrun : s.psv.power = .run) (n : Nat) (b : Byte) :
    lineByte b true (rxState s (.hunt n)) = rxState s (huntByte n b) :=
  lineByte_framed s hrun _ b

theorem radioCall_preamble {s : State} (hrun : s.psv.power = .run) :
    radioCall [0x96, 0x96, 0x96, 0x96] (rxState s (.hunt 0)) = rxState s .sync := by
  have h0 : huntByte 0 0x96 = .hunt 1 := by decide
  have h1 : huntByte 1 0x96 = .hunt 2 := by decide
  have h2 : huntByte 2 0x96 = .hunt 3 := by decide
  have h3 : huntByte 3 0x96 = .sync := by decide
  simp only [radioCall, List.foldl_cons, List.foldl_nil, lineByte_hunt hrun, h0, h1, h2, h3]

/-- A matched address, sent three times, brings the recognizer to the kind byte. -/
theorem radioCall_address {s : State} {addr : List Byte} (hrun : s.psv.power = .run) (hlen : addr.length = 6)
    (hhead : addr.head? ≠ some 0x96) (hmatch : addressMatches s addr = true) :
    radioCall (addr ++ addr ++ addr) (rxState s .sync) =
      rxState s (.kind (ownAddress s addr) (addr ++ addr ++ addr)) := by
  match addr, hlen with
  | [a, b, c, d, e, f], _ =>
    have hfirst : lineByte a true (rxState s .sync) = rxState s (.address [a]) :=
      (lineByte_framed s hrun _ _).trans (if_neg fun h => hhead (congrArg some h))
    simp only [radioCall, List.cons_append, List.nil_append, List.foldl_cons, List.foldl_nil, hfirst]
    iterate 16 rw [lineByte_address s hrun _ _ (by simp) (by simp)]
    exact lineByte_lastAddress s hrun _ _ _ _ (by simp) (by simp) (by simp) (by simp) hmatch

theorem radioCall_kind {s : State} (hrun : s.psv.power = .run) (own : Bool) (taken : List Byte) (kind : Byte) :
    radioCall [kind] (rxState s (.kind own taken)) = rxState s (.length own (taken ++ [kind])) :=
  lineByte_framed s hrun _ kind

/-- The length byte and the bytes it counts bring the recognizer to the two check bytes. -/
theorem radioCall_payload {s : State} (hrun : s.psv.power = .run) (own : Bool) (taken : List Byte) {len : Byte}
    {payload : List Byte} (hlen : payload.length = len.toNat) (hmax : payload.length ≤ 40) :
    radioCall (len :: payload) (rxState s (.length own taken)) = rxState s (.check own (taken ++ [len] ++ payload)) := by
  have hstep : lineByte len true (rxState s (.length own taken)) = rxState s (lengthByte own taken len) :=
    lineByte_framed s hrun _ len
  have h40 : ¬40 < len.toNat := by omega
  rw [radioCall, List.foldl_cons, hstep, lengthByte, if_neg h40]
  by_cases hnil : payload = []
  case pos =>
    subst hnil
    rw [if_pos (show len.toNat = 0 from hlen.symm), List.append_nil]
    rfl
  case neg =>
    rw [if_neg (by rw [← hlen]; simpa using hnil), ← hlen]
    exact lineByte_payload s hrun own payload _ hnil

/-- The two check bytes of a valid call have it taken. -/
theorem radioCall_check {s : State} (hrun : s.psv.power = .run) (own : Bool) {address payload : List Byte}
    {kind len hi lo : Byte} (haddr : address.length = 18) (hlen : payload.length = len.toNat)
    (hcheck : 256 * hi.toNat + lo.toNat =
      (65536 - ((kind :: len :: payload).map BitVec.toNat).sum % 65536) % 65536) :
    radioCall [hi, lo] (rxState s (.check own (address ++ [kind, len] ++ payload))) =
      takeCall own (address ++ [kind, len] ++ payload ++ [hi, lo]) (rxState s (.hunt 0)) := by
  obtain ⟨hfieldHi, hfield, hvalid⟩ := call_valid_iff address payload kind len hi lo haddr hlen
  simp only [radioCall, List.foldl_cons, List.foldl_nil]
  rw [lineByte_check s hrun, if_pos, lineByte_check s hrun, if_neg, if_pos (hvalid.2 hcheck)]
  · simp
  · simp only [List.length_append, List.length_cons, List.length_nil] at hfieldHi ⊢
    omega
  · simp only [List.length_append, List.length_cons, List.length_nil] at hfield ⊢
    omega

theorem call_kind {address payload : List Byte} {kind len hi lo : Byte} (haddr : address.length = 18) :
    field (address ++ [kind, len] ++ payload ++ [hi, lo]) 18 1 = kind.toNat := by
  have hdrop : (address ++ [kind, len] ++ payload ++ [hi, lo]).drop 18 = kind :: len :: payload ++ [hi, lo] := by
    simp [← haddr]
  rw [field, slice, hdrop]
  simp [padTo, zeros, fromLe]

theorem call_length {address payload : List Byte} {kind len hi lo : Byte} (haddr : address.length = 18) :
    field (address ++ [kind, len] ++ payload ++ [hi, lo]) 19 1 = len.toNat := by
  have hdrop : (address ++ [kind, len] ++ payload ++ [hi, lo]).drop 19 = len :: payload ++ [hi, lo] := by
    have h19 : (address ++ [kind]).length = 19 := by simp [haddr]
    have hcall : address ++ [kind, len] ++ payload ++ [hi, lo] = (address ++ [kind]) ++ (len :: payload ++ [hi, lo]) := by
      simp
    rw [← h19, hcall, List.drop_left]
  rw [field, slice, hdrop]
  simp [padTo, zeros, fromLe]

theorem call_payload {address payload : List Byte} {kind len hi lo : Byte} (haddr : address.length = 18) :
    slice (address ++ [kind, len] ++ payload ++ [hi, lo]) 20 payload.length = payload := by
  have hdrop : (address ++ [kind, len] ++ payload ++ [hi, lo]).drop 20 = payload ++ [hi, lo] := by
    have h20 : (address ++ [kind, len]).length = 20 := by simp [haddr]
    rw [← h20, List.append_assoc _ payload, List.drop_left]
  rw [slice, hdrop]
  simp [padTo, zeros]

/-- The whole burst from the hunt: its call is taken as its address says. -/
theorem radioCall_burst {s : State} {addr payload : List Byte} {kind hi lo : Byte} (hrun : s.psv.power = .run)
    (hrx : s.rlr.rx = .hunt 0) (haddr : addr.length = 6) (hhead : addr.head? ≠ some 0x96)
    (hmatch : addressMatches s addr = true) (hmax : payload.length ≤ 40)
    (hcheck : 256 * hi.toNat + lo.toNat = (65536 -
      ((kind :: BitVec.ofNat 8 payload.length :: payload).map BitVec.toNat).sum % 65536) % 65536) :
    let call := addr ++ addr ++ addr ++ [kind, BitVec.ofNat 8 payload.length] ++ payload ++ [hi, lo]
    radioCall ([0x96, 0x96, 0x96, 0x96] ++ call) s = takeCall (ownAddress s addr) call s := by
  intro call
  have hs : rxState s (.hunt 0) = s := hrx ▸ rxState_self s
  have hlen : payload.length = (BitVec.ofNat 8 payload.length).toNat := by simp; omega
  have hparts : [0x96, 0x96, 0x96, 0x96] ++ call = [0x96, 0x96, 0x96, 0x96] ++ ((addr ++ addr ++ addr) ++
      ([kind] ++ ((BitVec.ofNat 8 payload.length :: payload) ++ [hi, lo]))) := by simp [call]
  rw [hparts, radioCall_append, radioCall_append, radioCall_append, radioCall_append]
  conv => lhs; rw [← hs]
  rw [radioCall_preamble hrun, radioCall_address hrun haddr hhead hmatch, radioCall_kind hrun,
    radioCall_payload hrun _ _ hlen hmax]
  have htaken : addr ++ addr ++ addr ++ [kind] ++ [BitVec.ofNat 8 payload.length] ++ payload =
      addr ++ addr ++ addr ++ [kind, BitVec.ofNat 8 payload.length] ++ payload := by simp
  rw [htaken, radioCall_check hrun _ (by simp [haddr]) hlen hcheck, hs]

theorem ownAddress_of_matches {s : State} {a : List Byte} (h : addressMatches s a = true) :
    ownAddress s a = true ↔ a = s.rlr.radioAddr := by
  rw [addressMatches_iff] at h
  rw [ownAddress_iff, decide_eq_true_iff]
  exact and_iff_right (h.elim And.left And.left)

/-- Capturing a call leaves what a submission reads. -/
theorem captureCall_frame (call : List Byte) (s : State) : (captureCall call s).bat = s.bat ∧
    (captureCall call s).cau = s.cau ∧ (captureCall call s).ce = s.ce := by
  unfold captureCall
  split <;> exact ⟨rfl, rfl, rfl⟩

theorem submissionRefusal_congr {src : Source} {s t : State} (hbat : t.bat = s.bat) (hcau : t.cau = s.cau) :
    submissionRefusal src t = submissionRefusal src s := by
  unfold submissionRefusal blocked
  rw [hbat, hcau]

theorem submitRadio_refused {s : State} {payload : List Byte} {r : Result} (h : submissionRefusal .radio s = some r) :
    submitRadio payload s = post (.codeResult .radio r 0 0 0 s.ce.money.b) s := by
  simp only [submitRadio, h]
  rfl

theorem submitRadio_submitted {s : State} {payload : List Byte} (h : submissionRefusal .radio s = none) :
    submitRadio payload s = { s with cau := { s.cau with queue := s.cau.queue ++ [⟨.radio, payload, none⟩] } } := by
  simp only [submitRadio, h]
  rfl

/-- Settles O29: the burst ends in its call's take, which captures it and submits a code of the own address. -/
theorem validCallIsCaptured : Obligations.ValidCallIsCaptured := by
  intro addr payload kind hi lo s hrun hrx haddr hhead hmatch hmax len call hcheck captured submits burst refused
  have h18 : (addr ++ addr ++ addr).length = 18 := by simp [haddr]
  have hkind : field call 18 1 = kind.toNat := call_kind h18
  have hpayload : slice call 20 (field call 19 1) = payload := by
    have hlen : payload.length = len.toNat := by simp [len]; omega
    have hfield : field call 19 1 = payload.length := (call_length h18).trans hlen.symm
    rw [hfield]
    exact call_payload h18
  have hburst : exec burst s = .next (refresh (takeCall (ownAddress s addr) call s)) :=
    done_eq (radioCall_burst hrun hrx haddr hhead hmatch hmax hcheck)
  obtain ⟨hbat, hcau, hce⟩ := captureCall_frame call s
  have hsubmits : field call 18 1 = 67 ∧ ownAddress s addr = true ↔ submits := by
    rw [hkind, ownAddress_of_matches hmatch]
    exact and_congr_left' ⟨fun h => BitVec.eq_of_toNat_eq h, fun h => by rw [h]; rfl⟩
  have submitted : submits → exec burst s = .next (refresh (submitRadio payload captured)) := fun h => by
    rw [hburst, takeCall, if_pos (hsubmits.2 h), hpayload]
    rfl
  have hrefusal : submissionRefusal .radio captured = submissionRefusal .radio s := submissionRefusal_congr hbat hcau
  have hrefused : ∀ {x}, submits → submissionRefusal .radio s = some x → refused x := fun h hx => by
    refine (submitted h).trans ?_
    rw [submitRadio_refused (hrefusal.trans hx), show captured.ce = s.ce from hce]
  refine ⟨fun h => ?_, fun h hblocked => hrefused h (submissionRefusal_blocked hblocked),
    fun h hopen hfull => hrefused h (submissionRefusal_busy hopen hfull), fun h hopen hroom => ?_⟩
  · rw [hburst, takeCall, if_neg (fun h' => h (hsubmits.1 h'))]
    rfl
  · refine (submitted h).trans ?_
    rw [submitRadio_submitted (hrefusal.trans (submissionRefusal_none hopen hroom)), show captured.cau = s.cau from hcau]

end Sys2Proof.Machine

/-! PROOF. Meter, tariff and clock: O13, O15 to O17 (chapters 01 and 02). -/

namespace Sys2Proof.Machine

open Sys2Proof

/-! ### Residues (R13) -/

/-- Settles O13: the carry and the residue are the quotient and the remainder of one division. -/
theorem quantizeCarriesResidues : Obligations.QuantizeCarriesResidues := by
  intro e t x f q
  have hcarry : ∀ residue mJ : Nat, 3600 * wholeMwh residue mJ + (residue + mJ) % 3600 = residue + mJ :=
    fun residue mJ => Nat.div_add_mod (residue + mJ) 3600
  exact ⟨rfl, rfl, rfl, rfl, rfl, rfl, hcarry _ _, hcarry _ _, hcarry _ _, energyOk_quantize e t x f⟩

/-! ### Band and window of a time (R28, R34) -/

theorem isWeekend_eq (time : Nat) : isWeekend time = decide (time / 86400 % 7 < 2) := rfl

theorem windowAt_iff {s : State} (hvalid : s.bat.clockValid = true) (time : Nat) : windowAt s time = true ↔
    ∃ w ∈ (if time / 86400 % 7 < 2 then s.cau.settings.friendlyWeekend else s.cau.settings.friendlyWeekday),
      w.first ≤ time % 86400 / 60 ∧ time % 86400 / 60 < w.stop := by
  simp only [windowAt, hvalid, Bool.true_and, isWeekend_eq, decide_eq_true_eq, List.any_eq_true]
  rfl

theorem bandAt_point {s : State} {time : Nat} {before after : List SwitchPoint} {p : SwitchPoint}
    (hvalid : s.bat.clockValid = true)
    (hpoints : (if time / 86400 % 7 < 2 then s.cau.settings.weekend else s.cau.settings.weekday) = before ++ p :: after)
    (hbefore : ∀ q ∈ before, q.minute ≤ time % 86400 / 60) (hp : p.minute ≤ time % 86400 / 60)
    (hafter : ∀ q, after.head? = some q → time % 86400 / 60 < q.minute) : bandAt s time = p.band := by
  simp only [bandAt, hvalid, if_true, isWeekend_eq, decide_eq_true_eq, hpoints]
  exact bandIn_split before p after _ 0 hbefore hp hafter

/-! ### The minute timer (R28, R34, R97) -/

theorem evaluated_refresh {b d : Int} {w : Bool} {x : Exc} {s t : State} (h : Evaluated b d w x s t) :
    Evaluated b d w x s (refresh t) :=
  Evaluated_congr h (congrArg Modules.swc (refresh_toModules t)) (congrArg (fun m => m.ce.deferral) (refresh_toModules t))
    (refresh_notices t)

/-- The state whose band and window the minute timer has recomputed. -/
def minuteTaken (s : State) : State := recomputeWindow (recomputeBand { s with ce := { s.ce with minuteDue := false } })

theorem minuteExpiry_eq {s : State} (hrun : s.psv.power = .run) (hdue : s.ce.minuteDue = true) : minuteExpiry s =
    if (minuteTaken s).bat.clock % 86400 = 0 then steerRule (minuteTaken s) else minuteTaken s :=
  if_pos (by simp [hrun, hdue])

/-- With the window unchanged the recompute does nothing. -/
theorem recomputeWindow_same {s : State} (h : windowAt s s.bat.clock = s.ce.window) : recomputeWindow s = s :=
  if_pos h

/-- The recompute of the minute leaves the battery-backed memory, so the steering rule sees it as it was. -/
theorem minuteExpiry_parts {s : State} (hrun : s.psv.power = .run) (hdue : s.ce.minuteDue = true) :
    (minuteExpiry s).toModules = (minuteTaken s).toModules ∧ (minuteExpiry s).exc = (minuteTaken s).exc ∧
    (minuteExpiry s).flash = s.flash ∧
    (minuteExpiry s).bat = if s.bat.clock % 86400 = 0 ∧ s.bat.steerDay < s.bat.clock / 86400 then
      { s.bat with steerDay := s.bat.clock / 86400, steerUsed := 0 } else s.bat := by
  obtain ⟨-, -, -, hbat, -, -, hflash, -⟩ :=
    recomputeWindow_frame (recomputeBand { s with ce := { s.ce with minuteDue := false } })
  have hbat' : (minuteTaken s).bat = s.bat := hbat
  obtain ⟨hmod, hexc, hfl, hsteer⟩ := steer_frame (minuteTaken s)
  rw [minuteExpiry_eq hrun hdue, hbat']
  by_cases hday : s.bat.clock % 86400 = 0
  case pos =>
    simp only [hday, true_and, if_true]
    exact ⟨hmod, hexc, hfl.trans hflash, by rw [hsteer, hbat']⟩
  case neg =>
    simp only [hday, false_and, if_false]
    exact ⟨trivial, trivial, hflash, hbat⟩

/-- Settles O15: the schedule's point in force gives the band, and a window's edge alone evaluates. -/
theorem minuteTimerRecomputesBandAndWindow : Obligations.MinuteTimerRecomputesBandAndWindow := by
  refine ⟨fun s time => ?schedule, fun s hrun hdue => ?expiry⟩
  case schedule =>
    intro minute weekend points windows
    refine ⟨fun hinvalid => ?_, fun hvalid => ⟨fun before p after hpoints hbefore hp hafter => ?_, windowAt_iff hvalid time⟩⟩
    · simp [bandAt, windowAt, hinvalid]
    · exact bandAt_point hvalid hpoints hbefore hp hafter
  case expiry =>
    intro d
    obtain ⟨hwindow, hband, hminute, -, hmem, hmoney, -⟩ :=
      recomputeWindow_frame (recomputeBand { s with ce := { s.ce with minuteDue := false } })
    obtain ⟨hmod, hexc, hflash, hbat⟩ := minuteExpiry_parts hrun hdue
    have hce : (minuteExpiry s).ce = (minuteTaken s).ce := congrArg Modules.ce hmod
    have hswc : (minuteExpiry s).swc = (minuteTaken s).swc := congrArg Modules.swc hmod
    refine ⟨_, rfl, ?_⟩
    simp only [refresh_toModules, refresh_bat, refresh_flash, refresh_mem, refresh_notices]
    refine ⟨by rw [hce]; exact hminute, by rw [hce]; exact hband, by rw [hce]; exact hwindow, hbat,
      by rw [hce]; exact hmoney, hflash, by rw [hexc]; exact hmem, fun hsame => ?same, fun hedge => ?edge⟩
    case same =>
      have htaken : minuteTaken s = recomputeBand { s with ce := { s.ce with minuteDue := false } } :=
        recomputeWindow_same hsame
      rw [hswc, hce, hexc, htaken]
      exact ⟨rfl, rfl, rfl⟩
    case edge =>
      refine evaluated_refresh (Evaluated_congr (t := minuteTaken s) ?_ hswc (congrArg Ce.deferral hce)
        (congrArg Exc.notices hexc))
      exact window_ne (s := recomputeBand { s with ce := { s.ce with minuteDue := false } }) hedge

end Sys2Proof.Machine

/-! PROOF. SET_TIME: O16 and O17. -/

namespace Sys2Proof.Machine

open Sys2Proof

theorem setTime_delta {r : Request} {s : State} (h : ControlReady .setTime r s) (hmode : r.par 8 1 = 0) :
    setTime s = setDelta r.slot (signed32 (r.par 12 4)) s := by
  simp only [setTime, control_ready h, hmode]

theorem setTime_absolute {r : Request} {s : State} (h : ControlReady .setTime r s) (hmode : r.par 8 1 = 1) :
    setTime s = setAbsolute r.slot (r.par 12 4) s := by
  simp only [setTime, control_ready h, hmode]

theorem setTime_badMode {r : Request} {s : State} (h : ControlReady .setTime r s) (hmode : 1 < r.par 8 1) :
    setTime s = finishControl r.slot .badRequest 0 [] s := by
  simp only [setTime, control_ready h]
  split
  next h0 => omega
  next h1 => omega
  next => rfl

theorem clockStepped_refresh {t0 : Nat} {s t : State} (h : ClockStepped t0 s t) : ClockStepped t0 s (refresh t) :=
  clockStepped_congr h (refresh_toModules t) (refresh_bat t) (refresh_notices t)

theorem clockStepped_finish {t0 : Nat} {s t : State} {i : Fin 16} {r : Result} {f : Nat} {l : List (Nat × List Byte)}
    (h : ClockStepped t0 s t) : ClockStepped t0 s (finishControl i r f l t) :=
  clockStepped_congr h (finish_mod i r f l t) (finish_bat i r f l t) (finishControl_notices i r f l t)

/-- Settles O16: the step is clamped by the allowance and the clock's range, and its consequences are clockStep's. -/
theorem setTimeDeltaMovesTheClock : Obligations.SetTimeDeltaMovesTheClock := by
  intro r s hready hmode
  have hset := setTime_delta hready hmode
  refine ⟨fun hinvalid => done_eq (hset.trans ?_), fun hvalid => ?_⟩
  · simp [setDelta, hinvalid, finishControl]
  · intro x left byAllowance a hrange
    have hstep : appliedStep x s.bat = a := applied_eq x s.bat hrange
    obtain ⟨hmem, hcontrol, hmoney, hflash, hbat⟩ := steer_all a s
    obtain ⟨hstill, hstepped⟩ := steer_stepped a s
    have hclock : (((s.bat.clock : Int) + a).toNat : Int) = s.bat.clock + a := Int.toNat_of_nonneg (by omega)
    have ht : setTime s =
        finishControl r.slot .ok (2 * flagNat (a != x)) (timeResults a (steer a s)) (steer a s) := by
      rw [hset, setDelta, if_pos hvalid, ← hstep]
    refine ⟨_, done_eq ht, ?_⟩
    simp only [refresh_toModules, refresh_bat, refresh_flash, refresh_mem, refresh_control, refresh_notices,
      finish_bat, finish_mem, finish_ctl, finish_mod, finish_flash, finishControl_notices]
    refine ⟨?clock, ?valid, ?source, ?allowance, ?mem, ?control, hmoney, hflash, fun hzero => ?zero,
      fun hmove => clockStepped_refresh (clockStepped_finish (hstepped hmove))⟩
    case clock => rw [hbat]; split <;> exact hclock
    case valid => rw [hbat]; split <;> exact hvalid
    case source => rw [hbat]; split <;> rfl
    case allowance =>
      have hday : (steer a s).bat.clock = ((s.bat.clock : Int) + a).toNat := by rw [hbat]; split <;> rfl
      rw [hday, hbat]
      split
      next => exact ⟨rfl, rfl⟩
      next => exact ⟨rfl, rfl⟩
    case mem => rw [hmem]; rfl
    case control => rw [hcontrol]
    case zero =>
      obtain ⟨hmod, hexc⟩ := hstill hzero
      rw [hmod, hexc]
      exact ⟨rfl, rfl, rfl, rfl, rfl⟩

theorem reportedStep_eq (x : Int) : reportedStep x = max (-2147483648) (min x 2147483647) := by
  unfold reportedStep
  by_cases hhigh : x > 2147483647
  · rw [if_pos hhigh]
    omega
  · rw [if_neg hhigh]
    split <;> omega

/-- Settles O17: an absolute time is refused to a valid clock in service, and otherwise sets the clock outright. -/
theorem setTimeAbsoluteSetsTheClock : Obligations.SetTimeAbsoluteSetsTheClock := by
  intro r s hready
  refine ⟨fun hmode => done_eq (setTime_badMode hready hmode), fun hmode hvalid hservice => ?_, fun hmode hopen => ?_⟩
  · refine done_eq ((setTime_absolute hready hmode).trans ?_)
    simp [setAbsolute, hvalid, hservice, finishControl]
  · intro t1
    have ht : setTime s = finishControl r.slot .ok 0
        (timeResults (reportedStep ((t1 : Int) - s.bat.clock)) (setClock .hostSet t1 s)) (setClock .hostSet t1 s) := by
      refine (setTime_absolute hready hmode).trans (if_neg ?_)
      rcases hopen with h | h <;> simp [h]
    obtain ⟨hbat, hmoney⟩ := setClock_parts .hostSet t1 s
    obtain ⟨hstill, hstepped⟩ := setClock_stepped .hostSet t1 s
    have hframe := outside_setClock .hostSet t1 s
    refine ⟨_, done_eq ht, ?_⟩
    simp only [refresh_toModules, refresh_bat, refresh_flash, refresh_mem, finish_bat, finish_mem, finish_mod,
      finish_flash]
    refine ⟨?clock, ?valid, ?source, ?day, ?used, ?lastDay, hframe.b, hframe.flash, ?mem, fun hvalid hsame => ?still,
      fun hmove => clockStepped_refresh (clockStepped_finish (hstepped hmove))⟩
    case clock => rw [hbat]
    case valid => rw [hbat]
    case source => rw [hbat]
    case day => rw [hbat]; rfl
    case used => rw [hbat]
    case lastDay => rw [hmoney]
    case mem => rw [hframe.mem, timeResults, reportedStep_eq, hbat]; rfl
    case still =>
      obtain ⟨hmod, -⟩ := hstill hvalid hsame
      rw [hmod]
      exact ⟨rfl, rfl, rfl, rfl⟩

end Sys2Proof.Machine

/-! PROOF. The period's end: O14 (R11 to R17, R30 to R38). -/

namespace Sys2Proof.Machine

open Sys2Proof

/-! ### The money and the open interval after a period -/

/-- The state a period's hand-offs begin with: results taken, marker set (R12, R90). -/
def periodTaken (p : PeriodInput) (s : State) : State := markPeriod (takeResults (periodOut p s) s)

/-- What a period does to the open interval that it does not close. -/
theorem period_interval {p : PeriodInput} {s : State} (hrun : s.psv.power = .run) (hpkg : s.cau.pendingPkg = none)
    {v : Interval} (hv : s.ee.interval = some v) (hopen : s.bat.clock < v.nominalEnd) :
    let m := s.ce.money
    let today := s.bat.clock / 86400
    let days := if s.bat.clockValid = true ∧ s.psv.inService = true ∧ m.lastDay < today then today - m.lastDay else 0
    let fixed := days * s.cau.settings.fixed
    let taken := min fixed (m.b + 2000000).toNat
    let cost := m.cRes + wholeMwh s.ee.energy.rImp (periodOut p s).tPrime *
      priceOf s.cau.settings (bandAt s s.bat.clock)
    let k := cost / 1000000
    let billed := min k (m.b - taken + 2000000).toNat
    ∃ w, (periodEnd p s).ee.interval = some w ∧
      w.start = v.start ∧ w.nominalEnd = v.nominalEnd ∧
      w.imp = v.imp + wholeMwh s.ee.energy.rImp (periodOut p s).tPrime ∧
      w.exp = v.exp + wholeMwh s.ee.energy.rExp (periodOut p s).live.x ∧
      w.fb = v.fb + (periodOut p s).f ∧ w.credit = v.credit + taken + billed ∧
      w.maxW = max v.maxW ((periodOut p s).tPrime / 1000) ∧ w.lastBilled = s.bat.clock ∧
      w.flags.overrange = (v.flags.overrange || (periodOut p s).overrange) ∧
      w.flags.clockInvalid = (v.flags.clockInvalid || !s.bat.clockValid) ∧
      w.flags.saturated = (v.flags.saturated || decide (taken + billed < fixed + k)) := by
  intro m today days fixed taken cost k billed
  have hiv : (periodTaken p s).ee.interval.map ivCore = some (ivCore v) := congrArg (Option.map ivCore) hv
  obtain ⟨-, -, hcore⟩ := handOffs_iv (periodOut p s) p.order (periodTaken p s) rfl
  have hafter : (periodEnd p s).ee.interval.map ivCore = some (addBilled (periodOut p s).n (periodOut p s).m
      (periodOut p s).f (periodOut p s).tPrime s.bat.clock (periodOut p s).overrange (!s.bat.clockValid)
      (addDed (taken + billed) (fixed + k) (ivCore v))) := by
    rw [exec_periodEnd_noPackage p s hrun hpkg]
    exact hcore (ivCore v) hiv hopen
  obtain ⟨w, hw, hwv⟩ := Option.map_eq_some_iff.1 hafter
  have hcredit := congrArg Interval.credit hwv
  refine ⟨w, hw, (congrArg Interval.start hwv :), (congrArg Interval.nominalEnd hwv :), congrArg Interval.imp hwv,
    congrArg Interval.exp hwv, congrArg Interval.fb hwv, ?_, congrArg Interval.maxW hwv, congrArg Interval.lastBilled hwv,
    congrArg (fun x => x.flags.overrange) hwv, congrArg (fun x => x.flags.clockInvalid) hwv,
    congrArg (fun x => x.flags.saturated) hwv⟩
  exact hcredit.trans (Nat.add_assoc _ _ _).symm

/-- The arming flags after a period without a pending package (R37). -/
theorem period_arms {p : PeriodInput} {s : State} (hrun : s.psv.power = .run) (hpkg : s.cau.pendingPkg = none) :
    (periodEnd p s).ce.arm1 = decide (if s.ce.arm1 = true then (s.cau.settings.l1 : Int) ≤ (periodEnd p s).ce.money.b
      else (s.cau.settings.l1 : Int) < (periodEnd p s).ce.money.b) ∧
    (periodEnd p s).ce.arm2 = decide (if s.ce.arm2 = true then (s.cau.settings.l2 : Int) ≤ (periodEnd p s).ce.money.b
      else (s.cau.settings.l2 : Int) < (periodEnd p s).ce.money.b) := by
  rw [exec_periodEnd_noPackage p s hrun hpkg]
  obtain ⟨harm1, harm2, -⟩ := handOffs_iv (periodOut p s) p.order (periodTaken p s) rfl
  exact ⟨harm1, harm2⟩

/-! ### The suspicion counters and the standing requests -/

/-- The state after the hand-offs of a period. -/
def handedOff (p : PeriodInput) (s : State) : State := handOffs (periodOut p s) p.order (periodTaken p s)

/-- After the hand-offs, the standing requests and a package change no kind, and no live value. -/
theorem period_frame {p : PeriodInput} {s : State} (hrun : s.psv.power = .run) :
    (periodEnd p s).bat.kinds = (handedOff p s).bat.kinds ∧ (periodEnd p s).ee.live = (handedOff p s).ee.live ∧
    (periodEnd p s).exc.mem = (standingPeriod (handedOff p s)).exc.mem ∧
    (periodEnd p s).exc.standing = (standingPeriod (handedOff p s)).exc.standing := by
  rw [period_eq p s hrun]
  have hframe := activation_activate s.bat.clock (standingPeriod (handedOff p s))
  obtain ⟨-, hlive, -⟩ := activate_b s.bat.clock (standingPeriod (handedOff p s))
  exact ⟨hframe.kinds, hlive, hframe.mem, hframe.standing⟩

/-- The counter of a kind with an indicator, after a period (R105). -/
theorem period_counter {p : PeriodInput} {s : State} (hrun : s.psv.power = .run) {a : Arrival} {k : Kind}
    (h : arrKind a = some k) : ((periodEnd p s).bat.kinds.get k).counter =
      counterAfter (outPos (periodOut p s) a) (s.bat.kinds.get k).counter := by
  obtain ⟨hkinds, -⟩ := period_frame (p := p) hrun
  rw [hkinds]
  exact hand_counter (periodOut p s) p.order (periodTaken p s) a k h

theorem hasCounter_of_arrKind {a : Arrival} {k : Kind} (h : arrKind a = some k) : hasCounter k = true := by
  cases a with
  | billing => exact nomatch h
  | limiter => exact nomatch h
  | reverse | imbalance | bypass | noVoltage | magnet => obtain rfl := Option.some.inj h; rfl

/-- A kind that no hand-off brings is left. -/
theorem period_otherKind {p : PeriodInput} {s : State} (hrun : s.psv.power = .run) {k : Kind}
    (h : hasCounter k = false) : (periodEnd p s).bat.kinds.get k = s.bat.kinds.get k := by
  obtain ⟨hkinds, -⟩ := period_frame (p := p) hrun
  obtain ⟨-, -, -, -, -, hskip⟩ := handoff_skip (periodOut p s) (eachOnce p.order) (periodTaken p s)
  rw [hkinds]
  exact hskip k fun a _ ha => by simp [hasCounter_of_arrKind ha] at h

theorem arrKind_of_hasCounter {k : Kind} (h : hasCounter k = true) : ∃ a, arrKind a = some k := by
  cases k with
  | coverMain => exact absurd h (by decide)
  | coverTerminal => exact absurd h (by decide)
  | magnet => exact ⟨.magnet, rfl⟩
  | reverse => exact ⟨.reverse, rfl⟩
  | imbalance => exact ⟨.imbalance, rfl⟩
  | bypass => exact ⟨.bypass, rfl⟩
  | noVoltage => exact ⟨.noVoltage, rfl⟩
  | watchLost => exact absurd h (by decide)

theorem period_kindMoved {p : PeriodInput} {s : State} (hrun : s.psv.power = .run) {k : Kind}
    (h : hasCounter k = true) : KindMoved s.psv.inService s.bat.clock ((periodEnd p s).bat.kinds.get k).counter
      (s.bat.kinds.get k) ((periodEnd p s).bat.kinds.get k) := by
  obtain ⟨a, ha⟩ := arrKind_of_hasCounter h
  obtain ⟨hkinds, -⟩ := period_frame (p := p) hrun
  rw [hkinds]
  exact handOff_counts_moved (periodOut p s) p.order (periodTaken p s) hrun a k ha

/-- The standing requests of a period outside a READ (R188). -/
theorem period_standing {p : PeriodInput} {s : State} (hrun : s.psv.power = .run) (hreading : isReading s.exc = false)
    (hdeferred : s.exc.deferred = []) :
    (periodEnd p s).exc.mem = s.exc.standing.foldl (standMem (periodEnd p s).ee.live) s.exc.mem ∧
    (periodEnd p s).exc.standing = s.exc.standing.map (fun q =>
      { q with since := if q.every ≤ q.since + 1 then 0 else q.since + 1 }) := by
  obtain ⟨hmem, hstanding, hdef, hbus, -⟩ := handoff_skip (periodOut p s) (eachOnce p.order) (periodTaken p s)
  obtain ⟨-, hlive, hmem', hstanding'⟩ := period_frame (p := p) hrun
  have hread : isReading { (handedOff p s).exc with standing := [] } = false := by
    unfold isReading at hreading ⊢
    rw [show (handedOff p s).exc.bus = s.exc.bus from hbus]
    exact hreading
  obtain ⟨hfoldMem, hfoldStanding⟩ := stand_fold (handedOff p s).ee.live (handedOff p s).exc.standing
    { (handedOff p s).exc with standing := [] } hread (hdef.trans hdeferred)
  rw [hmem', hstanding', hlive]
  refine ⟨hfoldMem.trans ?_, hfoldStanding.trans ?_⟩
  · rw [show (handedOff p s).exc.standing = s.exc.standing from hstanding]
    exact congrArg (s.exc.standing.foldl (standMem (handedOff p s).ee.live)) hmem
  · rw [show (handedOff p s).exc.standing = s.exc.standing from hstanding]
    exact List.nil_append _

/-! ### The order of the hand-offs and the billing among them -/

theorem standingPeriod_toModules (s : State) : (standingPeriod s).toModules = s.toModules := rfl

/-- Without a pending package the credit state after a period is that of its billing; the rest posts. -/
theorem period_billing {p : PeriodInput} {s : State} (hrun : s.psv.power = .run) (hpkg : s.cau.pendingPkg = none) :
    ∃ t u before after, exec (.periodEnd p) s = .next t ∧
      u.ce = s.ce ∧ u.cau = s.cau ∧ u.psv = s.psv ∧ u.bat.clock = s.bat.clock ∧ u.swc.set.credit = s.swc.set.credit ∧
      u.exc.notices = (postAll before s).exc.notices ∧
      let v := billPeriod (periodOut p s).n s.bat.clock u
      t.ce = v.ce ∧ t.swc.set.credit = v.swc.set.credit ∧ t.exc.notices = (postAll after v).exc.notices := by
  obtain ⟨l1, l2, hsplit, hl1, hl2⟩ := eachOnce_split p.order .billing
  have hfirst := handOffs_posts (periodOut p s) l1 (periodTaken p s) hrun hl1
  obtain ⟨u, hu⟩ : ∃ u, u = l1.foldl (handOff (periodOut p s)) (periodTaken p s) := ⟨_, rfl⟩
  rw [← hu] at hfirst
  obtain ⟨before, hbefore⟩ := hfirst.posts
  obtain ⟨hce, hexc, hswc, hbat, -, -⟩ := handOff_billing (periodOut p s) u
  have hrun' : (handOff (periodOut p s) u .billing).psv.power = .run := by
    rw [(handOff_kept (periodOut p s) u (by rw [hfirst.psv]; exact hrun) .billing).psv, hfirst.psv]
    exact hrun
  have hrest := handOffs_posts (periodOut p s) l2 (handOff (periodOut p s) u .billing) hrun' hl2
  obtain ⟨after, hafter⟩ := hrest.posts
  have hend : handedOff p s = l2.foldl (handOff (periodOut p s)) (handOff (periodOut p s) u .billing) := by
    rw [handedOff, handOffs, hsplit, List.foldl_append, List.foldl_cons, ← hu]
  rw [← hend] at hrest hafter
  refine ⟨_, u, before, after, done_eq (exec_periodEnd_noPackage p s hrun hpkg), hfirst.ce, hfirst.cau, hfirst.psv,
    hfirst.clock, hfirst.credit, ?_, ?_, ?_, ?_⟩
  · exact congrArg Exc.notices (hbefore.trans (postAll_congr before (periodTaken p s) s rfl rfl))
  · rw [refresh_toModules]
    exact hrest.ce.trans hce
  · rw [refresh_toModules]
    exact hrest.credit.trans (congrArg (fun w => w.set.credit) hswc)
  · rw [refresh_notices]
    refine (standingPeriod_notices (handedOff p s)).trans (congrArg Exc.notices (hafter.trans ?_))
    exact postAll_congr after _ _ hexc (congrArg Bat.clock hbat)

/-! ### The credit engine's evaluation after a billing (R31, R35) -/

/-- A billing leaves the credit state evaluated for the new balance, when that moved. -/
theorem billPeriod_evaluated (n endTime : Nat) (s : State) :
    let t := billPeriod n endTime s
    let d : Int := if s.ce.money.emergency = true then -(s.cau.settings.e : Int) else 0
    let low := lowCredit { s with ce := { s.ce with money := t.ce.money } }
    t.ce.money.emergency = s.ce.money.emergency ∧ t.ce.arm1 = low.ce.arm1 ∧ t.ce.arm2 = low.ce.arm2 ∧
    t.ce.window = s.ce.window ∧ t.ce.band = s.ce.band ∧ t.bat = s.bat ∧ t.stc = s.stc ∧
    (t.ce.money.b = s.ce.money.b → t.swc = s.swc ∧ t.ce.deferral = s.ce.deferral ∧ t.exc = low.exc) ∧
    (t.ce.money.b ≠ s.ce.money.b → Evaluated t.ce.money.b d s.ce.window low.exc s t) := by
  intro t d low
  obtain ⟨c, hc⟩ : ∃ c, c = costStage n endTime (fixedCharge (dayOf endTime) s) := ⟨_, rfl⟩
  have hcost := costFrame_stages n endTime s
  have hemergency := emergency_stages n endTime s
  rw [← hc] at hcost hemergency
  obtain ⟨m, hm⟩ := hcost.ce
  obtain ⟨a1, a2, n1, o1, at1, hlow⟩ := lowCredit_moved c
  obtain ⟨w, v, x, n2, o2, at2, heval⟩ := evaluate_moved (lowCredit c)
  have ht : t = if (lowCredit c).ce.money.b = s.ce.money.b then lowCredit c else evaluate (lowCredit c) := by
    rw [hc]; rfl
  have hmoney : t.ce.money = c.ce.money := by
    rw [ht, heval, hlow]
    split <;> rfl
  have hlowC : low.ce = (lowCredit c).ce ∧ low.exc = (lowCredit c).exc := by
    refine lowCredit_congr ?_ hcost.cau.symm hcost.exc.symm hcost.bat.symm
    rw [hmoney, hm]
  have hb : t.ce.money.b = (lowCredit c).ce.money.b := by rw [hmoney, hlow]
  have hmoved : ∃ w v x exc, t = { lowCredit c with
      swc := w, ee := { (lowCredit c).ee with interval := v }, ce := { (lowCredit c).ce with deferral := x }, exc := exc } := by
    rw [ht, heval]
    split
    next => exact ⟨(lowCredit c).swc, (lowCredit c).ee.interval, (lowCredit c).ce.deferral, (lowCredit c).exc, rfl⟩
    next => exact ⟨_, _, _, _, rfl⟩
  obtain ⟨w', v', x', exc', hmoved⟩ := hmoved
  refine ⟨by rw [hmoney, hemergency], by rw [hmoved, hlowC.1], by rw [hmoved, hlowC.1], ?window, ?band, ?bat, ?stc,
    fun hsame => ?same, fun hmove => ?evaluated⟩
  case window => rw [hmoved, hlow, hm]
  case band => rw [hmoved, hlow, hm]
  case bat => rw [hmoved, hlow]; exact hcost.bat
  case stc => rw [hmoved, hlow]; exact hcost.stc
  case same =>
    rw [ht, if_pos (hb.symm.trans hsame), hlowC.2]
    refine ⟨?_, ?_, rfl⟩
    · rw [hlow]; exact hcost.swc
    · rw [hlow, hm]
  case evaluated =>
    have hmain := ev_main (s0 := s) (s := lowCredit c) (x := low.exc) (by rw [hlow]; exact hcost.swc)
      (by rw [hlow, hm]) (by rw [hlow, hcost.bat]) hlowC.2.symm
    have hlimit : creditLimit (lowCredit c) = d := by
      rw [hlow]
      simp only [creditLimit, hemergency, hcost.cau, d]
    have hwindow : (lowCredit c).ce.window = s.ce.window := by rw [hlow, hm]
    have heq : t = evaluate (lowCredit c) := ht.trans (if_neg (fun h => hmove (hb.trans h)))
    rwa [hlimit, hwindow, ← hb, ← heq] at hmain

/-! ### The boundary of an interval (R16) -/

theorem testBoundary_before {endTime : Nat} {v : Interval} {s : State} (hv : s.ee.interval = some v)
    (h : endTime < v.nominalEnd) : testBoundary endTime s = s := by
  simp only [testBoundary, hv]
  exact if_neg (by omega)

theorem testBoundary_reached {endTime : Nat} {v : Interval} {s : State} (hv : s.ee.interval = some v)
    (h : v.nominalEnd ≤ endTime) (hopen : v.start < v.nominalEnd) : testBoundary endTime s =
      drawFree (arrive (.append (.profile (profileEntry v v.nominalEnd (lenOf s) id s)))
        (openInterval v.nominalEnd s)) := by
  simp only [testBoundary, rollInterval, hv, if_pos h]
  exact if_neg (by omega)

/-- The entry of an interval closed at its nominal end, after its start. -/
theorem profileEntry_nominal {v : Interval} (s : State) (hopen : v.start < v.nominalEnd) :
    profileEntry v v.nominalEnd (lenOf s) id s = {
      endTime := v.nominalEnd, imp := v.imp, exp := v.exp, fb := v.fb, credit := v.credit,
      balance := s.ce.money.b, maxW := v.maxW, length := (v.nominalEnd - v.start + 59) / 60,
      flags := { v.flags with
        short := v.flags.short || decide (v.nominalEnd - v.start < s.cau.settings.intervalLen * 60) } } := by
  have hshort : decide ((v.nominalEnd : Int) - v.start < (lenOf s * 60 : Nat)) =
      decide (v.nominalEnd - v.start < s.cau.settings.intervalLen * 60) := decide_eq_decide.2 (by unfold lenOf; omega)
  have hlength : entryLength v.start v.nominalEnd s.free = (v.nominalEnd - v.start + 59) / 60 := by
    rw [entryLength, if_pos (by omega)]
    congr 1
    omega
  simp only [profileEntry, closingFlags, id, hlength, hshort]

/-- Settles O14: money and interval, counters and standing requests, the hand-offs' order, the evaluation, one
indicator, the marker and the interval's boundary, each by its own lemma. -/
theorem periodEndBillsTheEnergy : Obligations.PeriodEndBillsTheEnergy := by
  refine ⟨fun p s hrun => ?money, fun p s hrun => ?counters, fun p s hrun => ?order, billPeriod_evaluated,
    fun k positive s hrun => (indicator_moved k positive s hrun).2, fun s => ?mark, fun endTime v s hv => ?boundary⟩
  case money =>
    intro m today days fixed taken cost k billed
    obtain ⟨t, ht, -, -, hgains, ⟨hcRes, hb, hu, hlastDay⟩, hflash⟩ := period_main p s hrun
    have htEq : t = refresh (periodEnd p s) := by injection ht.symm
    refine ⟨t, ht, hcRes, hb, hu, hlastDay, hgains, hflash, fun hpkg => ?_⟩
    obtain ⟨harm1, harm2⟩ := period_arms (p := p) hrun hpkg
    rw [htEq, refresh_toModules]
    exact ⟨harm1, harm2, fun v hv hopen => period_interval hrun hpkg hv hopen⟩
  case counters =>
    intro m x e iMax counted
    refine ⟨_, rfl, ?_⟩
    simp only [refresh_toModules, refresh_bat, refresh_standing, refresh_mem]
    refine ⟨period_counter hrun (a := .reverse) rfl, period_counter hrun (a := .noVoltage) rfl,
      period_counter hrun (a := .imbalance) rfl, ?bypass, period_counter hrun (a := .magnet) rfl,
      period_otherKind hrun (k := .coverMain) rfl, period_otherKind hrun (k := .coverTerminal) rfl,
      period_otherKind hrun (k := .watchLost) rfl, fun k hk => period_kindMoved hrun hk,
      fun hreading hdeferred => ?standing⟩
    case bypass =>
      refine (period_counter hrun (a := .bypass) rfl).trans (congrArg (fun b => counted b s.bat.kinds.bypass.counter) ?_)
      simp only [outPos, periodOut, bypassed, anyPhase, Bool.decide_or, Bool.or_assoc]
      rfl
    case standing =>
      obtain ⟨hmem, hstanding⟩ := period_standing (p := p) hrun hreading hdeferred
      exact ⟨hstanding, hmem⟩
  case order =>
    intro o order
    exact ⟨eachOnce_mem p.order, eachOnce_nodup p.order, done_eq (period_eq p s hrun), period_billing hrun⟩
  case mark =>
    rw [← mark_decide]
    rfl
  case boundary =>
    intro len t
    refine ⟨testBoundary_before hv, fun hreached hopen => ?_⟩
    have ht : t = _ := testBoundary_reached hv hreached hopen
    refine ⟨⟨newInterval v.nominalEnd s, ?_, rfl, rfl, rfl, rfl, rfl, rfl, rfl, rfl, ?_, rfl, rfl, rfl, rfl, rfl, rfl, rfl⟩,
      fun htakes hfault hroom => ?_⟩
    · rw [ht]
      exact congrArg Ee.interval (arrive_ee _ _)
    · simp [newInterval, bne, Bool.beq_eq_decide_eq]
    · rw [ht, ← profileEntry_nominal s hopen]
      exact opTaken_entry (opTaken_arrive_new _ (openInterval v.nominalEnd s) (by simp) hfault htakes (by simp)
        (fun _ => hroom))

end Sys2Proof.Machine

/-! PROOF. Settings packages: O30 to O32 (chapter 04). -/

namespace Sys2Proof.Machine

open Sys2Proof

/-! ### APPLY_PACKAGE (R74) -/

theorem applyPackage_badRequest {r : Request} {s : State} (h : CodeReady .applyPackage r s)
    (hbad : r.par 10 2 = 0 ∨ 1024 < r.par 10 2 ∨ 4096 < r.par 8 2 + r.par 10 2) :
    applyPackage s = popCode (complete r.slot .badRequest 0 0 [] s) := by
  simp only [applyPackage, code_ready h, if_pos hbad]

theorem applyPackage_wellFormed {r : Request} {s : State} (h : CodeReady .applyPackage r s)
    (hok : ¬(r.par 10 2 = 0 ∨ 1024 < r.par 10 2 ∨ 4096 < r.par 8 2 + r.par 10 2)) :
    applyPackage s = if blocked .exchange s = true then popCode (complete r.slot .blocked 0 0 [] s)
      else beginCode { s with cau := { s.cau with
        pkg := some ⟨readBytes s.exc.mem (4096 + r.par 8 2) (r.par 10 2), some r.slot, .decoding⟩ } } := by
  simp only [applyPackage, code_ready h, if_neg hok]

theorem blocked_exchange (s : State) : blocked .exchange s = decide (0 < s.bat.penalties.exchange.timer.left) := rfl

/-- Settles O30: the range of the bytes, then the penalty of the exchange. -/
theorem applyPackageTakesTheBytes : Obligations.ApplyPackageTakesTheBytes := by
  intro r s hready off len refused
  refine ⟨fun hbad => done_eq (applyPackage_badRequest hready hbad),
    fun hok hblocked => done_eq ((applyPackage_wellFormed hready hok).trans (if_pos ?_)),
    fun hok hopen => done_eq ((applyPackage_wellFormed hready hok).trans (if_neg ?_))⟩
  · rw [blocked_exchange, decide_eq_true hblocked]
  · rw [blocked_exchange, hopen]
    decide

/-! ### The first outcome of a package (R75) -/

theorem packageDecision_refused {p : PkgRun} {s : State} {x : Result} {sect : Nat} (hrun : s.psv.power = .run)
    (hpkg : s.cau.pkg = some p) (hstage : p.stage = .decoding) (hjudge : judgePackage p.bytes s = ⟨x, sect, []⟩)
    (hx : ¬(x = .accepted ∨ x = .pending)) : exec .packageDecision s =
      .next (refresh (givePackage p x sect none (mapPenalty .exchange (penaltyAfter x) s))) :=
  done_eq (by simp only [packageDecision, hpkg, hrun, hstage, hjudge, hx, if_false]; rfl)

theorem packageDecision_taken {p : PkgRun} {s : State} {x : Result} {l : List Section} (hrun : s.psv.power = .run)
    (hpkg : s.cau.pkg = some p) (hstage : p.stage = .decoding) (hjudge : judgePackage p.bytes s = ⟨x, 0, l⟩)
    (hx : x = .accepted ∨ x = .pending) : exec .packageDecision s = .next (refresh (takePackage p ⟨x, 0, l⟩ s)) :=
  done_eq (by simp only [packageDecision, hpkg, hrun, hstage, hjudge, hx, if_true]; rfl)

theorem judgePackage_notCommissioned (bs : List Byte) {s : State} (h : s.psv.inService = false) :
    judgePackage bs s = ⟨.notCommissioned, 0, []⟩ := by
  simp [judgePackage, h]

theorem judgePackage_badFormat {bs : List Byte} {s : State} {i : Nat} (h : s.psv.inService = true)
    (hparse : parsePackage bs = .error i) : judgePackage bs s = ⟨.badFormat, i, []⟩ := by
  simp [judgePackage, h, hparse]

/-- The verdict on a well-formed package in service: check, meter, number, values, store. -/
theorem judgePackage_wellFormed {bs : List Byte} {s : State} {l : List Section} (h : s.psv.inService = true)
    (hparse : parsePackage bs = .ok l) : judgePackage bs s =
      if checkAgrees s.cau.key bs = false then ⟨.badCheck, 0, []⟩
      else if headerField bs 4 ≠ s.cau.serial ∨ newestRecord s.flash.records = none then ⟨.wrongMeter, 0, []⟩
      else if headerField bs 0 ≤ s.cau.lastPkg then ⟨.old, 0, []⟩
      else if badValueIndex (headerField bs 8) l ≠ 0 then ⟨.badValue, badValueIndex (headerField bs 8) l, []⟩
      else if s.stc.fault = true then ⟨.storeFault, 0, []⟩
      else if headerField bs 8 = 0 then ⟨.accepted, 0, l⟩
      else ⟨.pending, 0, l⟩ := by
  simp only [judgePackage, h, hparse, ← serialAgrees_false, Bool.not_eq_true', Bool.true_eq_false, if_false]

/-- Settles O31: the verdicts in the order of R75. -/
theorem packageDecisionTakesTheFirstOutcome : Obligations.PackageDecisionTakesTheFirstOutcome := by
  intro p s hrun hpkg hstage refuse take
  have refused : ∀ {x sect}, judgePackage p.bytes s = ⟨x, sect, []⟩ → ¬(x = .accepted ∨ x = .pending) → refuse x sect :=
    packageDecision_refused hrun hpkg hstage
  have taken : ∀ {x l}, judgePackage p.bytes s = ⟨x, 0, l⟩ → x = .accepted ∨ x = .pending → take x l :=
    packageDecision_taken hrun hpkg hstage
  refine ⟨fun x sect t i hslot => ?slot, fun hservice => refused (judgePackage_notCommissioned _ hservice) (by decide),
    fun hservice i hparse => refused (judgePackage_badFormat hservice hparse) (by decide),
    fun hservice l hparse => ?wellFormed⟩
  case slot =>
    simp only [givePackage, hslot]
    rfl
  case wellFormed =>
    have hjudge := judgePackage_wellFormed hservice hparse
    exact ite_of_eq_ite hjudge (refused · (by decide)) fun h => ite_of_eq_ite h (refused · (by decide)) fun h =>
      ite_of_eq_ite h (refused · (by decide)) fun h => ite_of_eq_ite h (refused · (by decide)) fun h =>
      ite_of_eq_ite h (refused · (by decide)) fun h =>
      ite_of_eq_ite h (taken · (Or.inl rfl)) (taken · (Or.inr rfl))

/-! ### A taken package (R76, R77) -/

theorem discardPending_some {s : State} {q : PendingPkg} (n : Nat) (h : s.cau.pendingPkg = some q) :
    discardPending n s = { s with
      exc := s.exc.post s.bat.clock (.packageDiscarded q.number q.effTime (min 255 (n - q.number))),
      cau := { s.cau with pendingPkg := none } } := by
  have hdistance : distanceByte (n - q.number) = min 255 (n - q.number) := by
    unfold distanceByte
    split <;> omega
  simp only [discardPending, h, hdistance]
  rfl

theorem discardPending_none {s : State} (n : Nat) (h : s.cau.pendingPkg = none) : discardPending n s = s := by
  simp only [discardPending, h]

/-- Discarding the pending package posts at most, and clears it. -/
theorem discardPending_eq (n : Nat) (s : State) : discardPending n s = { s with
    exc := (discardPending n s).exc, cau := { s.cau with pendingPkg := none } } := by
  cases h : s.cau.pendingPkg with
  | none =>
    rw [discardPending_none n h, ← h]
  | some q => rw [discardPending_some n h]

/-- The state whose package is committing with result r, its predecessor discarded. -/
def committing (p : PkgRun) (r : Result) (s : State) : State := { s with
  exc := (discardPending (headerField p.bytes 0) s).exc,
  cau := { s.cau with
    pendingPkg := none, lastPkg := headerField p.bytes 0,
    pkg := some { p with
      stage := .committing r (headerField p.bytes 0) (headerField p.bytes 8) (pendingNumber s.cau) } } }

theorem takePackage_accepted (p : PkgRun) (l : List Section) (s : State) :
    takePackage p ⟨.accepted, 0, l⟩ s = arrive (.save .package) (applySections l (committing p .accepted s)) := by
  simp only [takePackage, if_true]
  rw [discardPending_eq]
  rfl

theorem takePackage_pending (p : PkgRun) (l : List Section) (s : State) : takePackage p ⟨.pending, 0, l⟩ s =
    arrive (.save .package) { committing p .pending s with cau := { (committing p .pending s).cau with
      pendingPkg := some ⟨headerField p.bytes 0, headerField p.bytes 8, l, false⟩ } } := by
  simp only [takePackage, reduceCtorEq, if_false]
  rw [discardPending_eq]
  rfl

/-- A package applied at once: its settings are in force and its save arrives. -/
theorem takePackage_accepted_parts {p : PkgRun} {s : State} (l : List Section) (hrun : s.psv.power = .run)
    (hfault : s.stc.fault = false) :
    let t := takePackage p ⟨.accepted, 0, l⟩ s
    let u := applySections l (committing p .accepted s)
    t.cau = { (committing p .accepted s).cau with settings := l.foldl settingsWith s.cau.settings } ∧
    SaveTaken .package t.stc ∧ t.flash = s.flash ∧ t.ee.energy = s.ee.energy ∧ t.ce.money.b = s.ce.money.b ∧
    t.exc = u.exc ∧ t.ce = u.ce ∧ t.swc = u.swc ∧ t.bat = u.bat ∧ t.ee = u.ee := by
  intro t u
  have hframe := outside_apply l (committing p .accepted s)
  have ht : t = arrive (.save .package) u := takePackage_accepted p l s
  rw [ht]
  refine ⟨(arrive_cau _ _).trans hframe.cau, arrive_taken .package u ?_ ?_, (arrive_flash _ _).trans hframe.flash,
    (congrArg Ee.energy (arrive_ee _ _)).trans hframe.energy, (congrArg (fun c => c.money.b) (arrive_ce _ _)).trans hframe.b,
    arrive_exc _ _, arrive_ce _ _, arrive_swc _ _, arrive_bat _ _, arrive_ee _ _⟩
  · exact hframe.stc.fault.trans hfault
  · exact (congrArg storeTakes hframe.psv).trans (storeTakes_run hrun)

/-- A package held for its effective time. -/
theorem takePackage_pending_parts {p : PkgRun} {s : State} (l : List Section) (hrun : s.psv.power = .run)
    (hfault : s.stc.fault = false) :
    let t := takePackage p ⟨.pending, 0, l⟩ s
    t.cau = { (committing p .pending s).cau with
      pendingPkg := some ⟨headerField p.bytes 0, headerField p.bytes 8, l, false⟩ } ∧
    SaveTaken .package t.stc ∧ t.ee = s.ee ∧ t.ce = s.ce ∧ t.swc = s.swc ∧ t.bat = s.bat ∧ t.flash = s.flash ∧
    t.exc = (committing p .pending s).exc := by
  intro t
  have ht : t = _ := takePackage_pending p l s
  rw [ht]
  exact ⟨arrive_cau _ _, arrive_taken .package _ hfault (storeTakes_run hrun), arrive_ee _ _, arrive_ce _ _,
    arrive_swc _ _, arrive_bat _ _, arrive_flash _ _, arrive_exc _ _⟩

/-! ### The activation of a pending package (R78, R79) -/

theorem handOffs_clockValid (o : PeriodOut) (l : List Arrival) (s : State) :
    (l.foldl (handOff o) s).bat.clockValid = s.bat.clockValid := by
  induction l generalizing s with
  | nil => rfl
  | cons a l ih => exact (ih (handOff o s a)).trans (powerClock_handAll o s a).valid

theorem handOffs_live (o : PeriodOut) (l : List Arrival) (s : State) (h : o.live.endTime = s.bat.clock) :
    (handOffs o l s).ee.live = s.ee.live := by
  obtain ⟨-, hlive, -⟩ := handOffs_parts o l s h
  exact hlive

/-- The activation test comes last in a period, with the package and the clock the period began with. -/
theorem period_activates {p : PeriodInput} {s : State} (hrun : s.psv.power = .run) :
    ∃ u, u.bat.clock = s.bat.clock ∧ u.psv.power = .run ∧
    u.bat.clockValid = s.bat.clockValid ∧ u.cau.pendingPkg = s.cau.pendingPkg ∧ u.cau.settings = s.cau.settings ∧
    u.ee.live = (periodOut p s).live ∧ exec (.periodEnd p) s = .next (refresh (activatePending s.bat.clock u)) := by
  have hkept := handOffs_kept (periodOut p s) (eachOnce p.order) (periodTaken p s) hrun
  exact ⟨standingPeriod (handedOff p s), hkept.clock, (congrArg Psv.power hkept.psv).trans hrun,
    handOffs_clockValid _ _ _, congrArg Cau.pendingPkg hkept.cau, congrArg Cau.settings hkept.cau,
    handOffs_live _ _ _ rfl, done_eq (period_eq p s hrun)⟩

theorem activatePending_notDue {endTime : Nat} {s : State} (h : pendingDue endTime s = none) :
    activatePending endTime s = s := by
  simp only [activatePending, h]

theorem activatePending_due {endTime : Nat} {s : State} {p : PendingPkg} (h : pendingDue endTime s = some p) :
    activatePending endTime s = arrive (.save .activation) (post (.packageActivated p.number p.effTime
      (activationDistance (applySections p.sections s).bat.clock endTime)) { applySections p.sections s with
        cau := { (applySections p.sections s).cau with pendingPkg := none } }) := by
  simp only [activatePending, h]

theorem pendingDue_none {endTime : Nat} {s : State} (h : s.cau.pendingPkg = none) : pendingDue endTime s = none := by
  simp only [pendingDue, h]

theorem pendingDue_some {endTime : Nat} {s : State} {p : PendingPkg} (h : s.cau.pendingPkg = some p) :
    pendingDue endTime s =
      if p.released = true ∧ s.bat.clockValid = true ∧ p.effTime ≤ endTime then some p else none := by
  simp only [pendingDue, h, Bool.and_eq_true, decide_eq_true_eq, and_assoc]

theorem activatePending_due_parts {endTime : Nat} {s : State} {p : PendingPkg} (h : pendingDue endTime s = some p)
    (hrun : s.psv.power = .run) (hfault : s.stc.fault = false) :
    let t := activatePending endTime s
    let u := applySections p.sections s
    t.cau.settings = p.sections.foldl settingsWith s.cau.settings ∧ t.cau.pendingPkg = none ∧
    t.cau.lastPkg = s.cau.lastPkg ∧ SaveTaken .activation t.stc ∧ t.ce = u.ce ∧ t.swc = u.swc ∧ t.bat = u.bat ∧
    t.exc.notices = (u.exc.post u.bat.clock (.packageActivated p.number p.effTime
      (activationDistance u.bat.clock endTime))).notices := by
  intro t u
  have hframe := outside_apply p.sections s
  have ht : t = _ := activatePending_due h
  rw [ht]
  refine ⟨?_, congrArg Cau.pendingPkg (arrive_cau _ _), ?_, arrive_taken .activation _ (hframe.stc.fault.trans hfault) ?_,
    arrive_ce _ _, arrive_swc _ _, arrive_bat _ _, congrArg Exc.notices (arrive_exc _ _)⟩
  · exact (congrArg Cau.settings (arrive_cau _ _)).trans (congrArg Cau.settings hframe.cau :)
  · exact (congrArg Cau.lastPkg (arrive_cau _ _)).trans (congrArg Cau.lastPkg hframe.cau :)
  exact (congrArg storeTakes hframe.psv).trans (storeTakes_run hrun)

/-! ### One section taken into use (R72, R79) -/

/-- The state whose settings have one section. -/
def withSection (x : Section) (s : State) : State :=
  { s with cau := { s.cau with settings := settingsWith s.cau.settings x } }

theorem applySections_one (x : Section) (s : State) :
    applySections [x] s = takeClock (takeIntoUse s.cau.settings (withSection x s) x) x := rfl

theorem applySections_friendly (weekend : Bool) (l : List Window) (s : State) :
    let set := withSection (.friendly weekend l) s
    let t := applySections [.friendly weekend l] s
    let win := windowAt set s.bat.clock
    let d : Int := if s.ce.money.emergency = true then -(s.cau.settings.e : Int) else 0
    t.cau = set.cau ∧ t.ce.window = win ∧ t.ce.money = s.ce.money ∧ (win = s.ce.window → t = set) ∧
    (win ≠ s.ce.window → Evaluated s.ce.money.b d win s.exc s t) := by
  intro set t win d
  obtain ⟨hwindow, -, -, -, -, hmoney, -⟩ := recomputeWindow_frame set
  have hlimit : creditLimit set = d := by
    have he : set.cau.settings.e = s.cau.settings.e := by cases weekend <;> rfl
    unfold creditLimit
    rw [he]
    rfl
  refine ⟨(recomputeWindow_stc set).2, hwindow, hmoney, fun hsame => recomputeWindow_same hsame, fun hedge => ?_⟩
  have heval := window_ne (s := set) hedge
  rw [hlimit] at heval
  exact heval

theorem applySections_emergency (e o : Nat) (s : State) :
    let set := withSection (.emergency e o) s
    let t := applySections [.emergency e o] s
    t.cau = set.cau ∧ t.ce.money = s.ce.money ∧
    (s.ce.money.emergency = false ∨ e = s.cau.settings.e → t = set) ∧
    (s.ce.money.emergency = true → e ≠ s.cau.settings.e →
      Evaluated s.ce.money.b (-(e : Int)) s.ce.window s.exc s t) := by
  intro set t
  have ht : t = if (s.ce.money.emergency && e != s.cau.settings.e) = true then evaluate set else set := rfl
  refine ⟨?_, ?_, fun h => ht.trans (if_neg ?_), fun hemergency hne => ?_⟩
  · rw [ht]
    split
    next => exact (evalFrame_eval set).cau
    next => rfl
  · rw [ht]
    split
    next => exact (metering_evaluate set).money
    next => rfl
  · rcases h with h | h <;> simp [h]
  · have hlimit : creditLimit set = -(e : Int) := if_pos hemergency
    have heval := ev_main (s0 := s) (s := set) (x := s.exc) rfl rfl rfl rfl
    rw [hlimit] at heval
    rw [ht, if_pos (by simp [hemergency, hne])]
    exact heval

theorem applySections_tamperPolicy (l : PerKind Nat) (s : State) :
    let set := withSection (.tamperPolicy l) s
    let t := applySections [.tamperPolicy l] s
    t.cau = set.cau ∧ t.bat = s.bat ∧ t.ce = s.ce ∧ t.swc.set = { s.swc.set with tamper := tamperRequired set } := by
  intro set t
  obtain ⟨hset, -, hce, hbat, hcau, -⟩ := agree_all set
  exact ⟨hcau, hbat, hce, hset⟩

theorem applySections_profileInterval (n : Nat) {v : Interval} {s : State} (hv : s.ee.interval = some v) :
    let set := withSection (.profileInterval n) s
    let now := s.bat.clock
    let t := applySections [.profileInterval n] s
    t.cau = set.cau ∧ t.ce = s.ce ∧ t.swc = s.swc ∧ (n = s.cau.settings.intervalLen → t = set) ∧
    (n ≠ s.cau.settings.intervalLen → (∃ w, t.ee.interval = some w ∧ w.start = now ∧
        w.nominalEnd = (now / (n * 60) + 1) * (n * 60) ∧ w.imp = 0 ∧ w.exp = 0 ∧ w.fb = 0 ∧ w.credit = 0) ∧
      (v.start < now → storeTakes s.psv = true → s.stc.fault = false →
        (s.stc.queue.filter isAppend).length < 32 → ∃ e : ProfileEntry, EntryTaken (.profile e) t.stc ∧
        e.endTime = now ∧ e.imp = v.imp ∧ e.exp = v.exp ∧ e.fb = v.fb ∧ e.credit = v.credit ∧
        e.balance = s.ce.money.b ∧
        e.flags.short = (v.flags.short || decide (now - v.start < s.cau.settings.intervalLen * 60)))) := by
  intro set now t
  have ht : t = if n = s.cau.settings.intervalLen then set
      else rollInterval now s.cau.settings.intervalLen id now set := rfl
  obtain ⟨hce, -, hswc, -, hcau, -, -⟩ := rollInterval_parts now s.cau.settings.intervalLen id now set
  have hroll : rollInterval now s.cau.settings.intervalLen id now set = if now = v.start then openInterval now set
      else drawFree (arrive (.append (.profile (profileEntry v now s.cau.settings.intervalLen id set)))
        (openInterval now set)) := by
    simp only [rollInterval, show set.ee.interval = some v from hv]
  refine ⟨?_, ?_, ?_, fun h => ht.trans (if_pos h), fun h => ⟨⟨newInterval now set, ?_, rfl, rfl, rfl, rfl, rfl, rfl⟩,
    fun hopen htakes hfault hroom => ⟨profileEntry v now s.cau.settings.intervalLen id set, ?_, rfl, rfl, rfl, rfl, rfl,
      rfl, ?_⟩⟩⟩
  · rw [ht]
    split
    · rfl
    · exact hcau
  · rw [ht]
    split
    · rfl
    · exact hce
  · rw [ht]
    split
    · rfl
    · exact hswc
  · rw [ht, if_neg h, hroll]
    split
    next => rfl
    next => exact congrArg Ee.interval (arrive_ee _ _)
  · rw [ht, if_neg h, hroll, if_neg (by omega)]
    exact opTaken_entry (opTaken_arrive_new _ (openInterval now set) (by simp) hfault htakes (by simp) (fun _ => hroom))
  · exact congrArg (fun b => v.flags.short || b) (decide_eq_decide.2 (by omega))

/-- Settles O32: what a taken package leaves, when the pending one is activated, and one section in use. -/
theorem takenPackageIsAppliedOrHeld : Obligations.TakenPackageIsAppliedOrHeld := by
  refine ⟨fun p l s hrun hfault => ?taken, fun p s hrun => period_activates hrun, fun endTime s => ?activation,
    fun s => ?sections⟩
  case taken =>
    have haccepted := takePackage_accepted_parts (p := p) l hrun hfault
    have hpending := takePackage_pending_parts (p := p) l hrun hfault
    intro n displaced old taken
    have hdisplaced : displaced = (discardPending n s).exc := by
      cases hpkg : s.cau.pendingPkg with
      | none => rw [discardPending_none n hpkg]; simp only [displaced, hpkg]
      | some q => rw [discardPending_some n hpkg]; simp only [displaced, hpkg]
    have hold : old = pendingNumber s.cau := rfl
    have htaken : taken = committing p .accepted s := by
      simp only [taken, hdisplaced, hold]
      rfl
    rw [htaken, hdisplaced, hold]
    exact ⟨haccepted, hpending⟩
  case activation =>
    intro t
    refine ⟨fun hnone => activatePending_notDue (pendingDue_none hnone), fun p hp => ⟨fun hearly => ?_,
      fun hreleased hvalid hdue hrun hfault => ?_⟩⟩
    · refine activatePending_notDue ((pendingDue_some hp).trans (if_neg ?_))
      rintro ⟨hreleased, hvalid, hdue⟩
      rcases hearly with h | h | h
      · simp [hreleased] at h
      · simp [hvalid] at h
      · omega
    · exact activatePending_due_parts ((pendingDue_some hp).trans (if_pos ⟨hreleased, hvalid, hdue⟩)) hrun hfault
  case sections =>
    intro c now set d
    refine ⟨fun a b x y => rfl, fun w l => rfl, fun w l => applySections_friendly w l s,
      fun e o => applySections_emergency e o s, fun a b => rfl, fun f => rfl, fun r a b i v => rfl, fun l => rfl,
      fun p => rfl, fun l => applySections_tamperPolicy l s, fun n v hv => applySections_profileInterval n hv,
      fun time => ?clock⟩
    case clock =>
      obtain ⟨hbat, hmoney⟩ := setClock_parts .authenticated time s
      obtain ⟨-, hstepped⟩ := setClock_stepped .authenticated time s
      have hframe := outside_setClock .authenticated time s
      intro t
      have ht : t = setClock .authenticated time s := rfl
      rw [ht]
      refine ⟨hframe.cau, by rw [hbat], by rw [hbat], by rw [hbat], by rw [hbat]; rfl, by rw [hbat], hframe.b,
        by rw [hmoney], hstepped⟩

end Sys2Proof.Machine

/-! PROOF. The switch controller: O33 to O40 (chapter 05). -/

namespace Sys2Proof.Machine

open Sys2Proof

/-! ### State changes, drives and responses (R87, R88) -/

/-- The switch state a drive in a direction moves through. -/
def movingState : Direction → SwitchState
  | .toOpen => .opening
  | .toClose => .closing

/-- The switch state a drive in a direction ends in (R90). -/
def restState (set : Reasons) : Direction → SwitchState
  | .toClose => .closed
  | .toOpen => if noReason set then .ready else .opened

/-- The open interval is marked SUPPLY_OPEN (R17). -/
def markOpen (s : State) : State := flagInterval (fun g => { g with supplyOpen := true }) s

theorem setSwitch_notClosed {w : SwitchState} (h : w ≠ .closed) (s : State) : setSwitch w s = markOpen { s with
    swc := { s.swc with
      sw := w, overLimit := 0, mark := s.swc.mark && heldOpen s.psv.inService { s.swc with sw := w, overLimit := 0 } } } := by
  simp only [setSwitch, h, if_false]
  rfl

theorem setSwitch_heldOpen {w : SwitchState} (h : w = .ready ∨ w = .opened) (s : State) :
    setSwitch w s = markOpen { s with swc := { s.swc with sw := w, overLimit := 0 } } := by
  rcases h with rfl | rfl
  · rw [setSwitch_notClosed (by decide)]
    simp only [heldOpen, Bool.and_true]
  · rw [setSwitch_notClosed (by decide)]
    simp only [heldOpen, Bool.and_true]

theorem beginDrive_eq (d : Direction) (s : State) : beginDrive d s = markOpen { s with swc := { s.swc with
    sw := movingState d, overLimit := 0, mark := false, drive := some ⟨d, 1, false, false, none⟩ } } := by
  cases d <;> rfl

theorem respond_driving {s : State} (before : Bool) (h : s.swc.drive.isSome = true) : respond before s = s := by
  simp [respond, h]

theorem respond_opened {s : State} (before : Bool) (hservice : s.psv.inService = true) (hdrive : s.swc.drive = none)
    (hsw : s.swc.sw = .opened) : respond before s = if noReason s.swc.set then setSwitch .ready s else s := by
  simp [respond, hservice, hdrive, hsw]

theorem respond_ready {s : State} (before : Bool) (hservice : s.psv.inService = true) (hdrive : s.swc.drive = none)
    (hsw : s.swc.sw = .ready) : respond before s = if !noReason s.swc.set then setSwitch .opened s
      else if s.swc.consent && mayDrive s.psv then beginDrive .toClose s else s := by
  simp [respond, hservice, hdrive, hsw]

theorem respond_closed {s : State} (before : Bool) (hservice : s.psv.inService = true) (hdrive : s.swc.drive = none)
    (hsw : s.swc.sw = .closed) :
    respond before s = if !wantsClosed s.swc && mayDrive s.psv then beginDrive .toOpen s else s := by
  simp [respond, hservice, hdrive, hsw]

theorem addReason_absent {r : Reason} {s : State} (h : hasReason s.swc.set r = false) : addReason r s =
    respond (wantsClosed s.swc) { s with swc := { s.swc with set := putReason s.swc.set r true, consent := false } } :=
  if_neg (by simp [h])

theorem addReason_present {r : Reason} {s : State} (h : hasReason s.swc.set r = true) : addReason r s = s := if_pos h

theorem removeReason_present {r : Reason} {s : State} (h : hasReason s.swc.set r = true) : removeReason r s =
    respond (wantsClosed s.swc) { s with swc := { s.swc with set := putReason s.swc.set r false } } := if_pos h

theorem removeReason_absent {r : Reason} {s : State} (h : hasReason s.swc.set r = false) : removeReason r s = s :=
  if_neg (by simp [h])

/-! ### Customer button (R93) -/

theorem buttonPress_ignored {s : State} (h : s.psv.power ≠ .run ∨ s.psv.inService = false ∨
    (s.swc.sw ≠ .ready ∧ s.swc.sw ≠ .fault) ∨ (s.swc.sw = .fault ∧ noReason s.swc.set = false)) : buttonPress s = s := by
  rcases h with h | h | ⟨hready, hfault⟩ | ⟨hfault, hset⟩
  · simp [buttonPress, h]
  · simp [buttonPress, h]
  · unfold buttonPress
    split
    next =>
      split
      next hsw => exact absurd hsw hready
      next hsw => exact absurd hsw hfault
      next => rfl
    next => rfl
  · simp [buttonPress, hfault, hset]

theorem buttonPress_ready {s : State} (hrun : s.psv.power = .run) (hservice : s.psv.inService = true)
    (hsw : s.swc.sw = .ready) : buttonPress s = respond false { s with swc := { s.swc with consent := true } } := by
  simp [buttonPress, hrun, hservice, hsw]

/-- Settles O33: from READY the response begins the drive, from FAULT the press itself. -/
theorem buttonPressClosesOrIsIgnored : Obligations.ButtonPressClosesOrIsIgnored := by
  refine fun s => ⟨fun hrun hservice hdrive hset hsw => done_eq ?_, fun h => done_eq (buttonPress_ignored h)⟩
  have hpress : buttonPress s = beginDrive .toClose { s with swc := { s.swc with consent := true } } := by
    rcases hsw with hsw | hsw
    · have hrespond := respond_ready (s := { s with swc := { s.swc with consent := true } }) false hservice hdrive hsw
      rw [buttonPress_ready hrun hservice hsw, hrespond, if_neg (by simp [hset]), if_pos (by simp [mayDrive_run hrun])]
    · simp [buttonPress, hrun, hservice, hsw, hset]
  rw [hpress, beginDrive_eq]
  rfl

/-! ### Pulse and sense (R88, R89) -/

/-- Settles O34. -/
theorem coilPulseEndBeginsTheSettle : Obligations.CoilPulseEndBeginsTheSettle := by
  refine fun s => ⟨fun d hdrive => done_eq ?_, fun hdrive => done_eq ?_⟩
  · simp only [coilPulseEnd, hdrive]
    rfl
  · simp only [coilPulseEnd, hdrive]

/-- Settles O35: the three tests of senseOf, phase by phase. -/
theorem senseReadsTheLoadSide : Obligations.SenseReadsTheLoadSide := by
  intro v below some fed
  have hbelow : anyPhase (fun v => decide (4000 ≤ v.load)) v = true ↔ ¬below := by
    simp only [anyPhase, Bool.or_eq_true, decide_eq_true_eq, below]
    omega
  have hsome : anyPhase linePresent v = true ↔ some := by
    simp only [anyPhase, linePresent, Bool.or_eq_true, decide_eq_true_eq, some, or_assoc]
  have hfed : anyPhase (fun v => linePresent v && decide (v.load ≤ 4000)) v = true ↔ ¬fed := by
    simp only [anyPhase, linePresent, Bool.or_eq_true, Bool.and_eq_true, decide_eq_true_eq, fed]
    omega
  have hsense : senseOf v = if ¬anyPhase (fun v => decide (4000 ≤ v.load)) v = true then .sensedOpen
      else if anyPhase linePresent v = true ∧ ¬anyPhase (fun v => linePresent v && decide (v.load ≤ 4000)) v = true then
        .sensedClosed else .sensedMixed := by
    simp only [senseOf, Bool.not_eq_true', Bool.and_eq_true, Bool.not_eq_true]
  simp only [hbelow, hsome, hfed, Classical.not_not] at hsense
  refine ⟨fun h => ?_, fun h => ?_, fun h => ?_⟩
  · rw [hsense, if_pos h]
  · rw [hsense, if_neg h.1, if_pos h.2]
  · rw [hsense, if_neg h.1, if_neg h.2]

/-! ### The load limiter (R94 to R97) -/

/-- A limiter reason, the first of an empty set, opens the closed switch. -/
theorem addReason_loadLimit_closed {s : State} (hrun : s.psv.power = .run) (hservice : s.psv.inService = true)
    (hsw : s.swc.sw = .closed) (hdrive : s.swc.drive = none) (hset : s.swc.set = Reasons.empty) :
    addReason .loadLimit s = markOpen { s with swc := { s.swc with
      set := { Reasons.empty with loadLimit := true }, consent := false, sw := .opening, overLimit := 0, mark := false,
      drive := some ⟨.toOpen, 1, false, false, none⟩ } } := by
  have hrespond := respond_closed (wantsClosed s.swc)
    (s := { s with swc := { s.swc with set := putReason s.swc.set .loadLimit true, consent := false } }) hservice hdrive hsw
  rw [addReason_absent (by rw [hset]; rfl), hrespond, if_pos (by simp [wantsClosed, mayDrive_run hrun]), beginDrive_eq,
    hset]
  rfl

/-- What a trip does to the limiter's own fields (R94, R96). -/
def limiterTripped (mem : Nat) (s : State) : State :=
  { s with swc := { s.swc with recovery := ⟨60, false⟩, tripMem := mem, quiet := 0, overLimit := 0 } }

theorem trip_below {w : Nat} {s : State} (h : s.swc.tripMem < 2) : trip w s =
    post (.loadTrip (s.swc.tripMem + 1) w s.cau.settings.pMax)
      (limiterTripped (s.swc.tripMem + 1) (addReason .loadLimit s)) := by
  have hreason := addReason_added .loadLimit s
  have hmem : (addReason .loadLimit s).swc.tripMem = s.swc.tripMem := by
    obtain ⟨w, d, n, m, c, hswc, -⟩ := hreason.swc
    rw [hswc]
  have hmore : ¬3 ≤ s.swc.tripMem + 1 := by omega
  rw [← hreason.cau]
  simp only [trip, hmem, hmore, if_false]
  rfl

theorem trip_third {w : Nat} {s : State} (h : s.swc.tripMem = 2) : trip w s = post .lockout (addReason .lockout
    (post (.loadTrip 3 w s.cau.settings.pMax) (limiterTripped 0 (addReason .loadLimit s)))) := by
  have hreason := addReason_added .loadLimit s
  have hmem : (addReason .loadLimit s).swc.tripMem = 2 := by
    obtain ⟨w, d, n, m, c, hswc, -⟩ := hreason.swc
    rw [hswc, ← h]
  rw [← hreason.cau]
  simp only [trip, hmem]
  rfl

/-- While a drive is in progress a reason joins the set and nothing else happens but consent's end (R85, R86). -/
theorem addReason_driving {r : Reason} {s : State} (h : hasReason s.swc.set r = false)
    (hdrive : s.swc.drive.isSome = true) :
    addReason r s = { s with swc := { s.swc with set := putReason s.swc.set r true, consent := false } } := by
  rw [addReason_absent h, respond_driving]
  exact hdrive

/-- Settles O37: the trip's reason opens the switch, and the third trip adds LOCKOUT to the drive under way. -/
theorem loadTripOpensTheSwitch : Obligations.LoadTripOpensTheSwitch := by
  intro tPrime s hrun hservice hsw hdrive hset hconsent hpMax hover hcount after
  have hstep : overLimitAfter (tPrime / 1000) s = 30 := by
    rw [overLimitAfter, if_pos ⟨hpMax, hsw, hover⟩, hcount]
  have htrip : loadTrip tPrime s = trip (tPrime / 1000) { s with swc := { s.swc with overLimit := 30 } } := by
    simp only [loadTrip, limitStep, hstep, hrun, hservice]
    rfl
  have hreason := addReason_loadLimit_closed (s := { s with swc := { s.swc with overLimit := 30 } }) hrun hservice hsw
    hdrive hset
  refine ⟨fun hmem => done_eq (htrip.trans ?_), fun hmem => done_eq (htrip.trans ?_)⟩
  · rw [trip_below (by exact hmem), hreason]
    rfl
  · rw [trip_third (by exact hmem), hreason, addReason_driving rfl rfl]
    rfl

/-! ### Quiet count, recovery and the hand-off to the limiter -/

theorem quietStep_eq (s : State) :
    let full := s.swc.tripMem ≠ 0 ∧ s.swc.quiet = 599
    quietStep s = { s with swc := { s.swc with
      tripMem := if full then s.swc.tripMem - 1 else s.swc.tripMem,
      quiet := if full then 0 else if s.swc.tripMem = 0 then s.swc.quiet else s.swc.quiet + 1 } } := by
  intro full
  unfold quietStep
  by_cases hmem : s.swc.tripMem = 0
  · have hfull : ¬full := fun h => h.1 hmem
    simp only [hfull, hmem, if_true, if_false]
    rw [← hmem]
  · by_cases hquiet : s.swc.quiet = 599
    · have hfull : full := ⟨hmem, hquiet⟩
      simp only [hfull, hmem, if_true, if_false]
      exact if_pos (by omega)
    · have hfull : ¬full := fun h => hquiet h.2
      simp only [hfull, hmem, if_false]
      exact if_neg (by omega)

/-- Settles O38: the quiet step comes first; a hand-off in a period finds the limiter as the period began with it. -/
theorem quietAndRecoveryLowerTheLimiter : Obligations.QuietAndRecoveryLowerTheLimiter := by
  refine ⟨fun tPrime s => ?handOff, fun p s hrun hpkg => ?period, fun s hrun hservice => ⟨fun hmem hquiet => ?quiet,
    fun hdue hsw hdrive hlimit => ?recovery⟩⟩
  case handOff =>
    intro w pMax n full memory quiet t
    have hquiet : quietStep s = { s with swc := { s.swc with tripMem := memory, quiet := quiet } } := quietStep_eq s
    have hstep : s.psv.inService = true → t = limitStep tPrime { s with swc := { s.swc with
        tripMem := memory, quiet := quiet } } := fun hservice => by
      rw [← hquiet]
      exact if_pos hservice
    refine ⟨fun hservice => ?_, fun hservice hn => (hstep hservice).trans (if_neg (by exact Nat.not_le.2 hn)),
      fun hservice hn => ?_⟩
    · exact if_neg (by simp [hservice])
    · have htrip : t = trip w { s with swc := { s.swc with overLimit := n, tripMem := memory, quiet := quiet } } :=
        (hstep hservice).trans (if_pos hn)
      obtain ⟨hset, hover, hq, hrecovery, hmem, hce, hbat, hstc, hexc, -, -⟩ :=
        trip_parts w { s with swc := { s.swc with overLimit := n, tripMem := memory, quiet := quiet } }
      rw [htrip]
      exact ⟨hset, hover, hq, hrecovery, hmem, hce, hbat, hstc, hexc.trans (postAll_congr _ _ _ rfl rfl)⟩
  case period =>
    obtain ⟨l1, l2, hsplit, hl1, hl2⟩ := eachOnce_split p.order .limiter
    have hkept := handOffs_kept (periodOut p s) l1 (periodTaken p s) hrun
    have hfirst := handOffs_limiter (periodOut p s) l1 (periodTaken p s) hl1
    have hrest := handOffs_limiter (periodOut p s) l2
      (limiterHandOff (periodOut p s).tPrime (l1.foldl (handOff (periodOut p s)) (periodTaken p s))) hl2
    have hend : handedOff p s = l2.foldl (handOff (periodOut p s))
        (limiterHandOff (periodOut p s).tPrime (l1.foldl (handOff (periodOut p s)) (periodTaken p s))) := by
      rw [handedOff, handOffs, hsplit, List.foldl_append, List.foldl_cons]
      rfl
    rw [← hend] at hrest
    refine ⟨_, l1.foldl (handOff (periodOut p s)) (periodTaken p s), done_eq (exec_periodEnd_noPackage p s hrun hpkg),
      hkept.psv, hkept.cau, hfirst.tripMem, hfirst.quiet, hfirst.recovery, hfirst.closed, ?_⟩
    rw [refresh_toModules]
    exact ⟨hrest.tripMem, hrest.quiet, hrest.recovery, fun hclosed => (hrest.closed hclosed).2⟩
  case quiet =>
    have hstep : tripMemoryQuiet s = quietStep s := if_pos (by simp [hrun, hservice, hmem, hquiet])
    exact done_eq (hstep.trans ((if_neg hmem).trans (if_pos (by omega))))
  case recovery =>
    intro set
    have hexpiry : recoveryExpiry s =
        removeReason .loadLimit { s with swc := { s.swc with recovery := ⟨0, false⟩ } } :=
      if_pos (by simp [hrun, hdue])
    have hremove := hexpiry.trans (removeReason_present (r := .loadLimit)
      (s := { s with swc := { s.swc with recovery := ⟨0, false⟩ } }) hlimit)
    have hrespond := hremove.trans (respond_opened _ hservice hdrive hsw)
    refine ⟨fun hset => done_eq (hrespond.trans (if_neg ?_)), fun hset => done_eq (hrespond.trans ((if_pos ?_).trans ?_))⟩
    · exact fun h => by simp [show noReason set = true from h] at hset
    · exact hset
    · exact setSwitch_heldOpen (Or.inl rfl) _

end Sys2Proof.Machine

/-! PROOF. Confirm, switch requests and TEST_SWITCH: O36, O39, O40. -/

namespace Sys2Proof.Machine

open Sys2Proof

/-! ### The end of a drive in service (R90) -/

/-- What a change of switch state and drive leaves. -/
structure SwitchFrame (s t : State) : Prop where
  set : t.swc.set = s.swc.set
  consent : t.swc.consent = s.swc.consent
  sense : t.swc.lastSense = s.swc.lastSense
  tripMem : t.swc.tripMem = s.swc.tripMem
  ce : t.ce = s.ce
  cau : t.cau = s.cau
  stc : t.stc = s.stc
  bat : t.bat = s.bat
  flash : t.flash = s.flash
  mem : t.exc.mem = s.exc.mem

theorem switchFrame_set (w : SwitchState) (d : Option Drive) (s : State) :
    SwitchFrame s (setDrive d (setSwitch w s)) := by
  obtain ⟨hswc, hce, hcau, hstc, hbat, hflash, hexc, -⟩ := setSwitch_swc w s
  exact ⟨(congrArg Swc.set hswc :), (congrArg Swc.consent hswc :), (congrArg Swc.lastSense hswc :),
    (congrArg Swc.tripMem hswc :), hce,
    hcau, hstc, hbat, hflash, congrArg Exc.mem hexc⟩

theorem switchFrame_post {s t : State} (b : NoticeBody) (h : SwitchFrame s t) : SwitchFrame s (post b t) :=
  ⟨h.set, h.consent, h.sense, h.tripMem, h.ce, h.cau, h.stc, h.bat, h.flash, (post_exc_parts b t).1.trans h.mem⟩

theorem switchFrame_succeed (d driven : Direction) (n : Nat) (s : State) : SwitchFrame s (succeed d driven n s) :=
  switchFrame_post _ (switchFrame_set _ _ _)

/-- The state at a confirm: the sense is recorded (R89). -/
def sensed (v : PerPhase PhaseVolts) (s : State) : State := { s with swc := { s.swc with lastSense := v } }

theorem driveConfirm_service {v : PerPhase PhaseVolts} {d : Drive} {s : State} (hdrive : s.swc.drive = some d)
    (hsettling : d.settling = true) (htest : d.test = false) :
    driveConfirm v s = confirmDrive d (senseOf v) v (sensed v s) := by
  simp [driveConfirm, hdrive, hsettling, htest, sensed]

theorem driveConfirm_test {v : PerPhase PhaseVolts} {d : Drive} {s : State} (hdrive : s.swc.drive = some d)
    (hsettling : d.settling = true) (htest : d.test = true) :
    driveConfirm v s = confirmTest d (senseOf v) v (sensed v s) := by
  simp [driveConfirm, hdrive, hsettling, htest, sensed]

theorem senseMatches_other {r : Sense} {x y : Direction} (h : senseMatches r x = true) (hne : x ≠ y) :
    senseMatches r y = false := by
  cases r <;> cases x <;> cases y <;> first | rfl | exact absurd rfl hne | exact absurd h (by decide)

/-- The confirm of a drive toward the wanted state (R90). -/
theorem confirmDrive_wanted {v : PerPhase PhaseVolts} {d : Drive} {r : Sense} {s : State} (h : wantedDir s.swc = d.dir) :
    confirmDrive d r v s =
      if senseMatches r d.dir = true then succeed d.dir d.dir d.attempt s
      else if d.attempt = 1 then
        if mayDrive s.psv = true then setDrive (some { d with attempt := 2, settling := false }) s
        else setDrive none (setSwitch .unknown s)
      else post (.switchFault d.dir 2 r v) (setDrive none (setSwitch .fault s)) := by
  simp only [confirmDrive, h, if_true]

/-- The confirm of a drive that is no longer toward the wanted state (R90, R91). -/
theorem confirmDrive_unwanted {v : PerPhase PhaseVolts} {d : Drive} {r : Sense} {s : State}
    (h : wantedDir s.swc ≠ d.dir) : confirmDrive d r v s =
      if senseMatches r d.dir = true then
        if mayDrive s.psv = true then beginDrive (wantedDir s.swc) (succeed d.dir d.dir d.attempt s)
        else succeed d.dir d.dir d.attempt s
      else if senseMatches r (wantedDir s.swc) = true then succeed (wantedDir s.swc) d.dir d.attempt s
      else if mayDrive s.psv = true then beginDrive (wantedDir s.swc) s
      else setDrive none (setSwitch .unknown s) := by
  have hpsv : (succeed d.dir d.dir d.attempt s).psv = s.psv := (sw_succeed d.dir d.dir d.attempt s).psv
  simp only [confirmDrive, h, hpsv, if_false, driveWanted]

theorem switchTo_refl (s : State) : SwitchTo s.swc.sw s.swc.drive s.exc.notices s s :=
  ⟨rfl, rfl, rfl, rfl, rfl, rfl, rfl, rfl, rfl, rfl⟩

/-- A drive that begins after an end: the end's frame and notices, the new drive's switch state. -/
theorem switchTo_begin {w : SwitchState} {d : Option Drive} {n : List Notice} {s t : State} (x : Direction)
    (h : SwitchTo w d n s t) : SwitchTo (movingState x) (some ⟨x, 1, false, false, none⟩) n s (beginDrive x t) := by
  have hbegin := sw_begin x t
  exact ⟨by rw [beginDrive_eq]; rfl, hbegin.drive, hbegin.set.trans h.set, hbegin.consent.trans h.consent,
    hbegin.sense.trans h.sense, hbegin.notices.trans h.notices, hbegin.mem.trans h.mem, hbegin.ce.trans h.ce,
    hbegin.flash.trans h.flash, hbegin.psv.trans h.psv⟩

theorem succeed_switchTo (d driven : Direction) (n : Nat) (s : State) : SwitchTo (restState s.swc.set d) none
    (s.exc.post s.bat.clock (.supplyChanged (restState s.swc.set d) driven n s.swc.set)).notices s
    (succeed d driven n s) := by
  cases d
  case toOpen => exact sw_succeed .toOpen driven n s
  case toClose => exact sw_succeed .toClose driven n s

theorem setDrive_switchTo (w : SwitchState) (s : State) :
    SwitchTo w none s.exc.notices s (setDrive none (setSwitch w s)) := by
  obtain ⟨hswc, -, -, -, -, -, hexc, hpsv⟩ := setSwitch_swc w s
  have hframe := switchFrame_set w none s
  exact ⟨(congrArg Swc.sw hswc :), rfl, hframe.set, hframe.consent, hframe.sense, congrArg Exc.notices hexc, hframe.mem,
    hframe.ce, hframe.flash, hpsv⟩

/-- Settles O36: one branch of the confirm per case, each with what the drive's end leaves. -/
theorem driveConfirmEndsOrRepeats : Obligations.DriveConfirmEndsOrRepeats := by
  refine ⟨fun v d s hdrive hsettling htest hwanted => ?wanted, fun v d s hdrive hsettling htest hwanted => ?unwanted⟩
  case wanted =>
    intro frame
    have hconfirm : driveConfirm v s = _ :=
      (driveConfirm_service hdrive hsettling htest).trans (confirmDrive_wanted (s := sensed v s) hwanted)
    have framed : ∀ {t}, SwitchFrame (sensed v s) t → frame (refresh t) := fun {t} h => by
      simp only [frame, refresh_toModules, refresh_bat, refresh_flash, refresh_mem]
      exact ⟨h.set, h.consent, h.sense, h.tripMem, h.ce, h.cau, h.stc, h.bat, h.flash, h.mem⟩
    refine ⟨fun hmatch => ?_, fun hmatch hattempt hmay => ?_, fun hmatch hattempt => ?_⟩
    · intro w
      have hrest : w = restState s.swc.set d.dir := by cases hdir : d.dir <;> simp only [w, hdir] <;> rfl
      have hto := succeed_switchTo d.dir d.dir d.attempt (sensed v s)
      refine ⟨_, done_eq (hconfirm.trans (if_pos hmatch)), ?_, ?_, framed (switchFrame_succeed _ _ _ _), ?_⟩
      · rw [refresh_toModules, hrest]; exact hto.sw
      · rw [refresh_toModules]; exact hto.drive
      · rw [refresh_notices, hrest]; exact hto.notices
    · refine done_eq (hconfirm.trans ?_)
      rw [if_neg (by simp [hmatch]), if_pos hattempt, if_pos (by exact hmay)]
      rfl
    · have hfault := hconfirm.trans ((if_neg (by simp [hmatch])).trans (if_neg (by omega)))
      have hto := setDrive_switchTo .fault (sensed v s)
      obtain ⟨-, -, -, -, hbat, -, hexc, -⟩ := setSwitch_swc .fault (sensed v s)
      refine ⟨_, done_eq hfault, ?_, ?_, framed (switchFrame_post _ (switchFrame_set _ _ _)), ?_⟩
      · rw [refresh_toModules]; exact hto.sw
      · rw [refresh_toModules]; rfl
      · rw [refresh_notices]
        exact (congr (congrArg (fun (x : Exc) (b : Bat) =>
          (x.post b.clock (.switchFault d.dir 2 (senseOf v) v)).notices) hexc) hbat :)
  case unwanted =>
    intro want rest moving ends next changed
    have hconfirm : driveConfirm v s = _ :=
      (driveConfirm_service hdrive hsettling htest).trans (confirmDrive_unwanted (s := sensed v s) hwanted)
    have ended : ∀ {w drive} {x : Exc} {t}, driveConfirm v s = t → SwitchTo w drive x.notices (sensed v s) t →
        ends w drive x := fun {w drive x t} ht h => by
      refine ⟨_, done_eq ht, ?_⟩
      simp only [refresh_toModules, refresh_flash, refresh_mem, refresh_notices]
      exact ⟨h.sw, h.drive, h.set, h.consent, h.sense, h.notices, h.mem, h.ce, h.flash⟩
    have hrest : ∀ x, rest x = restState s.swc.set x := fun x => by cases x <;> rfl
    have hmoving : ∀ x, moving x = movingState x := fun x => by cases x <;> rfl
    have hchanged : ∀ x, changed x =
        s.exc.post s.bat.clock (.supplyChanged (restState s.swc.set x) d.dir d.attempt s.swc.set) := fun x => by
      simp only [changed, hrest]
    have hsucceed := succeed_switchTo d.dir d.dir d.attempt (sensed v s)
    rw [hmoving, hrest, hrest, hchanged, hchanged]
    have hnone : senseOf v = .sensedMixed → ∀ x, ¬senseMatches (senseOf v) x = true := fun hmixed x => by
      rw [hmixed]
      cases x <;> decide
    refine ⟨fun hmatch hmay => ?_, fun hmatch hmay => ?_, fun hmatch => ?_, fun hmixed hmay => ?_,
      fun hmixed hmay => ?_⟩
    · exact ended (hconfirm.trans ((if_pos hmatch).trans (if_pos hmay))) (switchTo_begin want hsucceed)
    · exact ended (hconfirm.trans ((if_pos hmatch).trans (if_neg (by exact Bool.not_eq_true _ ▸ hmay)))) hsucceed
    · have hother := senseMatches_other hmatch hwanted
      exact ended (hconfirm.trans ((if_neg (by simp [hother])).trans (if_pos hmatch)))
        (succeed_switchTo want d.dir d.attempt (sensed v s))
    · exact ended (hconfirm.trans ((if_neg (hnone hmixed _)).trans ((if_neg (hnone hmixed _)).trans (if_pos hmay))))
        (switchTo_begin want (switchTo_refl (sensed v s)))
    · refine ended (hconfirm.trans ((if_neg (hnone hmixed _)).trans ((if_neg (hnone hmixed _)).trans (if_neg ?_))))
        (setDrive_switchTo .unknown (sensed v s))
      exact Bool.not_eq_true _ ▸ hmay

/-! ### SWITCH_OPEN and SWITCH_RELEASE (R99) -/

theorem switchOpen_eq {r : Request} {s : State} (h : ControlReady .switchOpen r s) : switchOpen s =
    finishControl r.slot .ok (4 * flagNat (!s.swc.set.remote)) (switchResults (addReason .remote s)) (addReason .remote s) := by
  simp only [switchOpen, control_ready h]

theorem switchRelease_eq {r : Request} {s : State} (h : ControlReady .switchRelease r s) : switchRelease s =
    finishControl r.slot .ok (4 * flagNat s.swc.set.remote) (switchResults (removeReason .remote s))
      (removeReason .remote s) := by
  simp only [switchRelease, control_ready h]

theorem noReason_remote (set : Reasons) : noReason { set with remote := true } = false := by
  simp [noReason]

/-- Settles O39: each request is its change of REMOTE, then the response of R87. -/
theorem switchRequestsMoveRemote : Obligations.SwitchRequestsMoveRemote := by
  intro r s hservice hdrive finish flagged
  refine ⟨fun hready hremote => done_eq ?_, fun hready hset hconsent hsw => done_eq ?_,
    fun hready hremote hsw hset => done_eq ?_, fun hready hremote => done_eq ?_, fun hready hset hsw => done_eq ?_⟩
  · rw [switchOpen_eq hready, addReason_present (r := .remote) (s := s) hremote, hremote]
    rfl
  · have hrespond := respond_closed (wantsClosed s.swc)
      (s := { s with swc := { s.swc with set := putReason s.swc.set .remote true, consent := false } }) hservice hdrive hsw
    rw [switchOpen_eq hready, addReason_absent (by rw [hset]; rfl), hrespond,
      if_pos (by simp [wantsClosed, mayDrive_run hready.1.1]), beginDrive_eq, hset]
    rfl
  · have hrespond := respond_opened (wantsClosed s.swc)
      (s := { s with swc := { s.swc with set := putReason s.swc.set .remote true, consent := false } }) hservice hdrive hsw
    rw [switchOpen_eq hready, addReason_absent (r := .remote) (s := s) hremote, hrespond,
      if_neg (fun h => by simp [putReason, noReason_remote] at h), hremote]
    simp only [switchResults, finishControl, hsw]
    rfl
  · rw [switchRelease_eq hready, removeReason_absent (r := .remote) (s := s) hremote, hremote]
    rfl
  · have hrespond := respond_opened (wantsClosed s.swc)
      (s := { s with swc := { s.swc with set := putReason s.swc.set .remote false } }) hservice hdrive hsw
    rw [switchRelease_eq hready, removeReason_present (by rw [hset]; rfl), hrespond, if_pos (by rw [hset]; rfl),
      setSwitch_heldOpen (Or.inl rfl), hset]
    rfl

/-! ### TEST_SWITCH (R100) -/

theorem testSwitch_eq {r : Request} {s : State} (h : ControlReady .testSwitch r s) : testSwitch s =
    if 1 < r.par 8 1 then finishControl r.slot .badRequest 0 [] s
    else if s.psv.inService = true then finishControl r.slot .notNow 0 [] s
    else beginTest (if r.par 8 1 = 0 then .toOpen else .toClose) r.slot s := by
  simp only [testSwitch, control_ready h]

theorem beginTest_eq (d : Direction) (i : Fin 16) (s : State) : beginTest d i s = beginControl (markOpen { s with
    swc := { s.swc with
      sw := movingState d, overLimit := 0, mark := false, drive := some ⟨d, 1, false, true, some i⟩ } }) := by
  cases d <;> rfl

theorem confirmTest_live {d : Drive} {r : Sense} {v : PerPhase PhaseVolts} {i : Fin 16} {s : State}
    (hslot : d.slot = some i) (hlive : s.exc.live = true) : confirmTest d r v s =
      finishControl i .ok (8 * flagNat (senseMatches r d.dir))
        [(8, [byte (senseCode r), byte (phaseSenseCode v.a), byte (phaseSenseCode v.b), byte (phaseSenseCode v.c)])]
        (setDrive none (setSwitch (sensedState r) s)) := by
  obtain ⟨-, -, -, -, -, -, hexc, -⟩ := setSwitch_swc (sensedState r) s
  have hlive' : (setDrive none (setSwitch (sensedState r) s)).exc.live = true := (congrArg Exc.live hexc).trans hlive
  simp only [confirmTest, hslot, hlive', if_true]
  rfl

/-- Settles O40: the attempt begins outside service only, and its confirm takes the state from the sense. -/
theorem testSwitchMakesOneAttempt : Obligations.TestSwitchMakesOneAttempt := by
  refine ⟨fun r s hready => ?request, fun v d i s hdrive hsettling htest hslot hlive => ?confirm⟩
  case request =>
    intro refused
    refine ⟨fun hbad => done_eq ((testSwitch_eq hready).trans (if_pos hbad)),
      fun hok hservice => done_eq ((testSwitch_eq hready).trans ((if_neg (by omega)).trans (if_pos hservice))),
      fun hok hservice => ?_⟩
    intro dir
    refine done_eq ((testSwitch_eq hready).trans ((if_neg (by omega)).trans ((if_neg (by simp [hservice])).trans ?_)))
    rw [beginTest_eq]
    have hmoving : movingState dir = if r.par 8 1 = 0 then .opening else .closing := by
      simp only [dir]
      split <;> rfl
    rw [← hmoving]
    rfl
  case confirm =>
    have hto := setDrive_switchTo (sensedState (senseOf v)) (sensed v s)
    obtain ⟨-, -, -, -, -, -, hexc, -⟩ := setSwitch_swc (sensedState (senseOf v)) (sensed v s)
    have hconfirm := (driveConfirm_test hdrive hsettling htest).trans
      (confirmTest_live (r := senseOf v) (v := v) (s := sensed v s) hslot hlive)
    refine ⟨_, done_eq hconfirm, ?_⟩
    simp only [refresh_toModules, refresh_flash, refresh_mem, refresh_control, finish_mod, finish_flash, finish_mem,
      finish_ctl]
    refine ⟨hto.drive, hto.sense, hto.sw.trans ?_, by rw [hto.mem]; rfl, ?_, hto.set, hto.ce, hto.flash⟩
    · cases senseOf v <;> rfl
    · exact congrArg (fun x : Exc => (⟨x.control.queue.tail, false⟩ : Lane)) hexc

end Sys2Proof.Machine

/-! PROOF. Tamper monitor and store timers: O41 to O44 (chapters 06 and 07). -/

namespace Sys2Proof.Machine

open Sys2Proof

/-! ### Covers (R110, R120, R122) -/

theorem coverChange_changed {c : Cover} {x : Bool} {s : State} (hpower : s.psv.power ≠ .off)
    (hcover : coverOpen s.bat c = !x) : coverChange c x s =
      if x = true then coverOpens (coverKind c) (setCover c true s) else coverCloses (coverKind c) (setCover c false s) :=
  if_neg (by simp [hpower, hcover])

theorem coverChange_same {c : Cover} {x : Bool} {s : State} (hcover : coverOpen s.bat c = x) : coverChange c x s = s :=
  if_pos (by simp [hcover])

theorem coverOpens_inService {k : Kind} {s : State} (hservice : s.psv.inService = true)
    (hstate : (s.bat.kinds.get k).state ≠ .declared) : coverOpens k s = declareKind k s := by
  cases h : (s.bat.kinds.get k).state with
  | quiet => simp only [coverOpens, h, hservice, if_true]
  | warning => simp only [coverOpens, h, hservice, if_true]
  | declared => exact absurd h hstate

theorem coverOpens_quiet {k : Kind} {s : State} (hservice : s.psv.inService = false)
    (hstate : (s.bat.kinds.get k).state = .quiet) : coverOpens k s = warningBegin k s := by
  simp [coverOpens, hstate, hservice]

theorem coverOpens_declared {k : Kind} {s : State} (hstate : (s.bat.kinds.get k).state = .declared) :
    coverOpens k s = s := by
  simp only [coverOpens, hstate]

theorem coverCloses_warning {k : Kind} {s : State} (hstate : (s.bat.kinds.get k).state = .warning) :
    coverCloses k s = warningEnd k s := by
  simp only [coverCloses, hstate]

theorem coverCloses_other {k : Kind} {s : State} (hstate : (s.bat.kinds.get k).state ≠ .warning) :
    coverCloses k s = s := by
  cases h : (s.bat.kinds.get k).state with
  | quiet => simp only [coverCloses, h]
  | warning => exact absurd h hstate
  | declared => simp only [coverCloses, h]

theorem outageSpan_of {p : Psv} (h : p.power = .hold ∨ (p.power = .battery ∧ p.seq = none)) : outageSpan p = true := by
  rcases h with h | ⟨hpower, hseq⟩
  · simp [outageSpan, h]
  · simp [outageSpan, hpower, hseq]

theorem declareKind_outage {k : Kind} {s : State} (h : outageSpan s.psv = true) :
    declareKind k s = declareInOutage k s := if_pos h

theorem declareInOutage_cover (k : Kind) (s : State) (c : Cover) :
    coverOpen (declareInOutage k s).bat c = coverOpen s.bat c := by
  obtain ⟨-, -, -, hbat, -⟩ := agree_all (countDeclaration k s)
  have hcover : coverOpen (tamperAgree (countDeclaration k s)).bat c = coverOpen s.bat c := by
    rw [hbat]
    cases c <;> rfl
  rw [← hcover]
  unfold declareInOutage
  dsimp only
  split
  next => rfl
  next => exact coverOpen_congr c rfl rfl

/-- A cover's state is no part of what a declaration in an outage changes. -/
theorem outageDeclared_setCover {k : Kind} {r : KindRec} {c : Cover} {x : Bool} {s t : State}
    (h : OutageDeclared k r (setCover c x s) t) : OutageDeclared k r s t := by
  cases c <;> exact h

/-- A declared kind whose policy opens requires TAMPER in service (R114). -/
theorem tamperRequired_of {s : State} {k : Kind} (hservice : s.psv.inService = true)
    (hstate : (s.bat.kinds.get k).state = .declared) (hpolicy : (s.cau.settings.policies.get k).opens = true) :
    tamperRequired s = true := by
  simp only [tamperRequired, hservice, Bool.true_and, List.any_eq_true]
  exact ⟨k, mem_kinds k, by simp [isDeclared, hstate, hpolicy]⟩

/-- TAMPER, newly added, ends the consent (R86). -/
theorem tamperAgree_consent {s : State} (hrequired : tamperRequired s = true) (hset : s.swc.set.tamper = false) :
    (tamperAgree s).swc.consent = false := by
  have hadd : tamperAgree s = _ := (if_pos hrequired).trans (addReason_absent (r := .tamper) hset)
  rw [hadd]
  exact (respond_all _ _).2.1

/-- After the policy a declaration leaves the switch controller. -/
theorem declareWith_swc (k : Kind) (entry : State → TamperEntry) (s : State) : (declareWith k entry s).swc =
    (tamperAgree (flagInterval (fun g => { g with tamper := true }) (countDeclaration k s))).swc := by
  have hever : ∀ t : State, (programEver k t).swc = t.swc := fun t => by
    unfold programEver
    split
    next => rfl
    next => exact arrive_swc _ _
  have hannounce : ∀ (b : NoticeBody) (t : State), (announceDeclared b t).swc = t.swc := fun b t => by
    unfold announceDeclared
    split <;> rfl
  unfold declareWith
  dsimp only
  rw [hannounce, arrive_swc, arrive_swc, hever]

theorem declareKind_run_eq {k : Kind} {s : State} (h : s.psv.power = .run) :
    declareKind k s = declareWith k (logEntry k .declared) s :=
  if_neg (by simp [outageSpan, h])

/-- Settles O41: the change is debounced, and in service an opening declares at once. -/
theorem coverOpeningInServiceDeclares : Obligations.CoverOpeningInServiceDeclares := by
  refine ⟨fun c s hpower hopen hstate => ?close, fun c s hpower hservice hclosed hstate => ?outage,
    fun c s hrun hservice hfault hclosed hstate hroom => ?run⟩
  case close =>
    obtain ⟨-, -, -, -, hkinds, -⟩ := setcover_frame c false s
    exact done_eq ((coverChange_changed hpower (by simpa using hopen)).trans (coverCloses_other (by rw [hkinds]; exact hstate)))
  case outage =>
    obtain ⟨-, hpsv, -, -, hkinds, -, hcover⟩ := setcover_frame c true s
    have hoff : s.psv.power ≠ .off := by rcases hpower with h | ⟨h, -⟩ <;> simp [h]
    have hdeclare : coverChange c true s = declareInOutage (coverKind c) (setCover c true s) :=
      (coverChange_changed hoff (by simpa using hclosed)).trans
        ((coverOpens_inService (by rw [hpsv]; exact hservice) (by rw [hkinds]; exact hstate)).trans
          (declareKind_outage (by rw [hpsv]; exact outageSpan_of hpower)))
    refine ⟨_, done_eq hdeclare, ?_, outageDeclared_setCover (c := c) (x := true) ?_⟩
    · rw [refresh_bat, declareInOutage_cover, hcover]
    · have hmain := outage_main (coverKind c) ((setCover c true s).bat.kinds.get (coverKind c))
        ((setCover c true s).bat.kinds.get (coverKind c)).state (setCover c true s)
      rw [perKind_set_get_same] at hmain
      rw [← hkinds]
      exact hmain
  case run =>
    intro k r
    obtain ⟨hmod, hpsv, hexc, hflash, hkinds, hclock, hcover⟩ := setcover_frame c true s
    have hdeclare : coverChange c true s = declareKind k (setCover c true s) :=
      (coverChange_changed (by simp [hrun]) (by simpa using hclosed)).trans
        (coverOpens_inService (by rw [hpsv]; exact hservice) (by rw [hkinds]; exact hstate))
    have hd := declareKind_run k (setCover c true s) (by rw [hpsv]; exact hrun)
    have hstc : (setCover c true s).stc = s.stc := congrArg Modules.stc hmod
    have htaken := hd.takes (by rw [hstc]; exact hfault) (by rw [hstc]; exact hroom)
    have hkindsT := congrArg Bat.kinds hd.bat
    simp only [hmod, hkinds, hclock] at htaken hkindsT
    obtain ⟨⟨sw, hentry⟩, hsave, hbit⟩ := htaken
    refine ⟨_, done_eq hdeclare, ?_⟩
    simp only [refresh_toModules, refresh_bat, refresh_mem, refresh_notices, refresh_flash]
    refine ⟨?cover, hkindsT, fun hopens => ?policy, hbit, ⟨_, hentry, rfl, rfl, rfl, rfl, rfl, rfl⟩, hsave, ?notices, ?money,
      ?mem, ?flash, ?clock⟩
    case cover => rw [hd.bat]; exact (coverOpen_congr c rfl rfl).trans hcover
    case policy =>
      have hrequired : tamperRequired (declareKind k (setCover c true s)) = true := by
        refine tamperRequired_of (k := k) ?_ ?_ ?_
        · rw [hd.psv, hpsv]; exact hservice
        · rw [hkindsT, perKind_get_set_same]
        · rw [hd.cau, hmod]; exact hopens
      refine ⟨by rw [hd.set]; exact hrequired, fun hset => ?_⟩
      rw [declareKind_run_eq (by rw [hpsv]; exact hrun), declareWith_swc]
      refine tamperAgree_consent (tamperRequired_of (k := k) ?_ ?_ ?_) ?_
      · exact (congrArg Psv.inService hpsv).trans hservice
      · exact congrArg KindRec.state (perKind_get_set_same _ _ _)
      · exact (congrArg (fun m => (m.cau.settings.policies.get k).opens) hmod).trans hopens
      · exact (congrArg (fun m => m.swc.set.tamper) hmod).trans hset
    case notices => rw [hd.exc, hexc, hclock, hkinds]
    case money => rw [hd.ce, hmod]
    case mem =>
      rw [hd.exc]
      exact (post_exc_parts _ (setCover c true s)).1.trans (congrArg Exc.mem hexc)
    case flash => rw [hd.flash, hflash]
    case clock => rw [hd.bat, hclock]

theorem warningBegin_still {k : Kind} {s : State} (h : s.psv.power ≠ .run) :
    warningBegin k s = setKindState k .warning s :=
  if_neg fun hrun => h (eq_of_beq hrun)

theorem warningEnd_still {k : Kind} {s : State} (h : s.psv.power ≠ .run) : warningEnd k s = setKindState k .quiet s :=
  if_neg fun hrun => h (eq_of_beq hrun)

/-- Settles O42: before commissioning a cover warns and returns, with entry and notice in RUN alone. -/
theorem coverChangesBeforeCommissioning : Obligations.CoverChangesBeforeCommissioning := by
  refine ⟨fun c s hpower hservice => ?outage, fun c s hrun hservice => ?run⟩
  case outage =>
    have hoff : s.psv.power ≠ .off := by rcases hpower with h | h <;> simp [h]
    have hnotRun : s.psv.power ≠ .run := by rcases hpower with h | h <;> simp [h]
    intro k r moved
    refine ⟨fun hcover hstate => done_eq ?_, fun hcover hstate => done_eq ?_⟩
    · obtain ⟨-, hpsv, -, -, hkinds, -⟩ := setcover_frame c true s
      rw [coverChange_changed hoff (by simpa using hcover), if_pos rfl,
        coverOpens_quiet (by rw [hpsv]; exact hservice) (by rw [hkinds]; exact hstate),
        warningBegin_still (by rw [hpsv]; exact hnotRun)]
      cases c <;> rfl
    · obtain ⟨-, hpsv, -, -, hkinds, -⟩ := setcover_frame c false s
      rw [coverChange_changed hoff (by simpa using hcover), if_neg (by decide),
        coverCloses_warning (by rw [hkinds]; exact hstate), warningEnd_still (by rw [hpsv]; exact hnotRun)]
      cases c <;> rfl
  case run =>
    intro k r logged
    have hoff : s.psv.power ≠ .off := by simp [hrun]
    refine ⟨fun x hcover => done_eq (coverChange_same hcover), fun hcover hstate => ?warns, fun hcover hstate => ?returns,
      fun hcover hstate => done_eq ?stays⟩
    case warns =>
      obtain ⟨hmod, hpsv, hexc, -, hkinds, hclock, hopen⟩ := setcover_frame c true s
      have hwarn : coverChange c true s = warningBegin k (setCover c true s) :=
        (coverChange_changed hoff (by simpa using hcover)).trans
          (coverOpens_quiet (by rw [hpsv]; exact hservice) (by rw [hkinds]; exact hstate))
      obtain ⟨hw, hwexc⟩ := warningBegin_run k (setCover c true s) (by rw [hpsv]; exact hrun)
      refine ⟨_, done_eq hwarn, ?_⟩
      simp only [refresh_toModules, refresh_bat, refresh_notices, logged]
      refine ⟨?_, ?_, ?_, ?_, ?_, fun hfault hroom => ?_⟩
      · rw [hw.bat]; exact (coverOpen_congr c rfl rfl).trans hopen
      · rw [hw.bat, hkinds]
      · rw [hwexc, hexc, hclock, hkinds]
      · rw [hw.swc, hmod]
      · rw [hw.ce, hmod]
      · have htaken := hw.takes (by rw [hmod]; exact hfault) (by rw [hmod]; exact hroom)
        rw [hmod, hkinds, hclock] at htaken
        exact opTaken_entry htaken
    case returns =>
      obtain ⟨hmod, hpsv, hexc, -, hkinds, hclock, hclosed⟩ := setcover_frame c false s
      have hwarn : coverChange c false s = warningEnd k (setCover c false s) :=
        (coverChange_changed hoff (by simpa using hcover)).trans (coverCloses_warning (by rw [hkinds]; exact hstate))
      obtain ⟨hw, hwexc⟩ := warningEnd_run k (setCover c false s) (by rw [hpsv]; exact hrun)
      refine ⟨_, done_eq hwarn, ?_⟩
      simp only [refresh_toModules, refresh_bat, refresh_notices, logged]
      refine ⟨?_, ?_, ?_, ?_, ?_, fun hfault hroom => ?_⟩
      · rw [hw.bat]; exact (coverOpen_congr c rfl rfl).trans hclosed
      · rw [hw.bat, hkinds]
      · rw [hwexc, hexc]
      · rw [hw.swc, hmod]
      · rw [hw.ce, hmod]
      · have htaken := hw.takes (by rw [hmod]; exact hfault) (by rw [hmod]; exact hroom)
        rw [hmod, hkinds, hclock] at htaken
        exact opTaken_entry htaken
    case stays =>
      obtain ⟨-, -, -, -, hkinds, -⟩ := setcover_frame c true s
      exact (coverChange_changed hoff (by simpa using hcover)).trans (coverOpens_declared (by rw [hkinds]; exact hstate))

/-! ### The magnet's second in an outage (R107, R109, R122) -/

/-- The state whose magnet counter the second has moved. -/
def magnetCounted (hits : Nat) (s : State) : State :=
  mapKind .magnet (fun r => { r with counter := counterAfter (decide (16 < hits)) r.counter }) s

theorem magnetSecond_eq {hits : Nat} {s : State} (h : s.psv.power = .hold ∨ s.psv.power = .battery) :
    magnetSecond hits s = moveKind .magnet (magnetCounted hits s) :=
  if_pos (by rcases h with h | h <;> simp [h])

theorem moveKind_quiet {k : Kind} {s : State} (hstate : (s.bat.kinds.get k).state = .quiet) : moveKind k s =
    if (s.bat.kinds.get k).counter < 96 then s
    else if 128 ≤ (s.bat.kinds.get k).counter ∧ s.psv.inService = true then declareKind k (warningBegin k s)
    else warningBegin k s := by
  simp only [moveKind, hstate]

theorem moveKind_warning {k : Kind} {s : State} (hstate : (s.bat.kinds.get k).state = .warning) : moveKind k s =
    if (s.bat.kinds.get k).counter < 96 then warningEnd k s
    else if 128 ≤ (s.bat.kinds.get k).counter ∧ s.psv.inService = true then declareKind k s
    else s := by
  simp only [moveKind, hstate]

theorem moveKind_declared {k : Kind} {s : State} (hstate : (s.bat.kinds.get k).state = .declared) :
    moveKind k s = s := by
  simp only [moveKind, hstate]

/-- Settles O43: the counter, then the branch of moveKind for the state and the counter. -/
theorem magnetSecondMovesTheCounter : Obligations.MagnetSecondMovesTheCounter := by
  intro hits s hpower r c goes
  have hsecond := magnetSecond_eq (hits := hits) hpower
  have hnotRun : (magnetCounted hits s).psv.power ≠ .run := by
    rcases hpower with h | h <;> simp [magnetCounted, mapKind, h]
  have hcounter : ((magnetCounted hits s).bat.kinds.get .magnet).counter = c := by
    have hdecide : counterAfter (decide (16 < hits)) r.counter = c := by simp [counterAfter, c]
    exact hdecide
  have hset : ∀ x, setKindState .magnet x (magnetCounted hits s) = { s with
      bat := { s.bat with kinds := { s.bat.kinds with magnet := { r with counter := c, state := x } } } } := fun x => by
    rw [← hcounter]
    rfl
  have hstays : ∀ {x}, r.state = x → magnetCounted hits s = setKindState .magnet x (magnetCounted hits s) := by
    rintro x rfl
    rfl
  have hquiet := fun h : r.state = .quiet => hsecond.trans (moveKind_quiet (s := magnetCounted hits s) h)
  have hwarning := fun h : r.state = .warning => hsecond.trans (moveKind_warning (s := magnetCounted hits s) h)
  rw [hcounter] at hquiet hwarning
  have hnotDeclared : c < 128 ∨ s.psv.inService = false →
      ¬(128 ≤ c ∧ (magnetCounted hits s).psv.inService = true) := by
    rintro (h | h) ⟨hc, hservice⟩
    · omega
    · exact absurd (h.symm.trans hservice) (by decide)
  refine ⟨fun h hc => done_eq ?_, fun h hc hd => done_eq ?_, fun h hc => done_eq ?_, fun h hc hd => done_eq ?_,
    fun h => done_eq ?_, fun h hc hservice hspan => ?declares⟩
  · rw [hquiet h, if_pos hc, ← hset, ← hstays h]
  · rw [hquiet h, if_neg (by omega), if_neg (hnotDeclared hd), warningBegin_still hnotRun, hset]
  · rw [hwarning h, if_pos hc, warningEnd_still hnotRun, hset]
  · rw [hwarning h, if_neg (by omega), if_neg (hnotDeclared hd), ← hset, ← hstays h]
  · rw [hsecond, moveKind_declared (k := .magnet) (s := magnetCounted hits s) h, ← hset, ← hstays h]
  case declares =>
    have hoff : outageSpan s.psv = true := outageSpan_of (by
      rcases hpower with hp | hp
      · exact Or.inl hp
      · exact Or.inr ⟨hp, hspan.resolve_left (by simp [hp])⟩)
    have hdeclare : ∃ x, magnetSecond hits s = declareInOutage .magnet (setKindState .magnet x (magnetCounted hits s)) := by
      cases hstate : r.state with
      | quiet =>
        refine ⟨.warning, ?_⟩
        rw [hquiet hstate, if_neg (by omega), if_pos ⟨hc, hservice⟩, warningBegin_still hnotRun]
        exact declareKind_outage hoff
      | warning =>
        refine ⟨.warning, ?_⟩
        rw [hwarning hstate, if_neg (by omega), if_pos ⟨hc, hservice⟩, ← hstays hstate]
        exact declareKind_outage hoff
      | declared => exact absurd hstate h
    obtain ⟨x, hx⟩ := hdeclare
    refine ⟨_, done_eq hx, ?_⟩
    rw [hset]
    exact outage_main .magnet { r with counter := c } x s

/-! ### Store timers (R134, R137) -/

theorem periodicExpiry_due {s : State} (hrun : s.psv.power = .run) (hdue : s.stc.periodic.due = true) :
    periodicExpiry s = if s.stc.queue.any (fun q => q.op == .save .periodic) = true then
        { s with stc := { s.stc with periodic := ⟨900, false⟩ } }
      else arrive (.save .periodic) { s with stc := { s.stc with periodic := ⟨900, false⟩ } } :=
  if_pos (by simp [hrun, hdue])

theorem holdContinue_noWait {s : State} (h : s.psv.holdWait = false) : holdContinue s = s := if_neg (by simp [h])

/-- Settles O44: each expiry is its guard and one update of the store controller. -/
theorem storeTimersAct : Obligations.StoreTimersAct := by
  refine fun s hrun => ⟨fun hdue => ?periodic, fun hnone => ⟨done_eq ?_, done_eq ?_⟩, fun e he => done_eq ?_,
    fun e he hhold hread hsuspended hguarded => done_eq ?suspends⟩
  case periodic =>
    intro waits
    have hexpiry := periodicExpiry_due hrun hdue
    refine ⟨fun h => done_eq (hexpiry.trans ?_), fun hwaits hfault => ?_⟩
    · split
      next => rfl
      next hnot =>
        have hfault : s.stc.fault = true := h.resolve_left hnot
        exact arrive_fault _ hfault
    · have harrive := hexpiry.trans (if_neg (by simpa [waits] using hwaits))
      have hframe := outside_arrive (.save .periodic) { s with stc := { s.stc with periodic := ⟨900, false⟩ } }
      refine ⟨_, done_eq harrive, ?_⟩
      simp only [refresh_toModules, refresh_bat, refresh_flash, refresh_mem]
      exact ⟨arrive_taken .periodic _ hfault (storeTakes_run hrun), hframe.stc.periodic, arrive_ee _ _, arrive_ce _ _,
        arrive_swc _ _, arrive_bat _ _, arrive_flash _ _, congrArg Exc.mem (arrive_exc _ _)⟩
  · simp only [guardExpiry, hnone]
  · simp only [eraseSuspends, hnone]
  · simp only [guardExpiry, he]
  case suspends =>
    have hmay : maySuspend s e = true := by simp [maySuspend, hsuspended, hguarded, hread]
    have hrun : { e with suspended := true, guarded := false } = { e with suspended := true } := by rw [← hguarded]
    simp only [eraseSuspends, he, hmay, if_true, hrun]
    exact holdContinue_noWait hhold

end Sys2Proof.Machine

/-! PROOF. The end of a record's program: O45 (R132, R136 to R144). -/

namespace Sys2Proof.Machine

open Sys2Proof

/-! ### The owners of a record's saves -/

/-- Every save's end told in turn is one telling, when one owner alone waits and that telling ends its wait. -/
theorem tellSaves_once {ok : Bool} {k : SaveKind} {l : List SaveKind} {s t : State} (hk : k ∈ l)
    (htell : tellSave ok s k = t) (hothers : ∀ j ∈ l, j ≠ k → tellSave ok s j = s)
    (hafter : ∀ j ∈ l, tellSave ok t j = t) : tellSaves ok l s = t := by
  refine foldl_once (tellSave ok) s t l (fun j hj => ?_) hafter ⟨k, hk, htell⟩
  by_cases h : j = k
  · exact Or.inr (h ▸ htell)
  · exact Or.inl (hothers j hj h)

theorem notHold_of_run {s : State} (h : s.psv.power = .run) : (s.psv.power == .hold) = false := by
  rw [h]; rfl

theorem tellSaves_code {ok : Bool} {l : List SaveKind} {s : State} {e : CodeEntry} {rest : List CodeEntry} {a : Applied}
    (hrun : s.psv.power = .run) (hqueue : s.cau.queue = e :: rest) (happlied : s.cau.applied = some a) (hcode : .code ∈ l)
    (hpkg : .package ∉ l ∨ s.cau.pkg = none) (hreq : .lifecycle ∉ l ∨ s.psv.req = none) :
    tellSaves ok l s = codeCommitted ok s := by
  obtain ⟨hcau, hpsv, -⟩ := codeCommitted_given ok s e rest a hqueue happlied
  refine tellSaves_once hcode (tellSave_code ok s (notHold_of_run hrun)) (fun j hj hne => ?_) (fun j hj => ?_)
  · exact tellSave_nobody ok s j (fun h => absurd h hne) (fun h => hpkg.resolve_left (fun hn => hn (h ▸ hj)))
      (fun h => hreq.resolve_left (fun hn => hn (h ▸ hj)))
  · exact tellSave_nobody ok _ j (fun _ => by rw [hcau]) (fun h => by
      rw [hcau]; exact hpkg.resolve_left (fun hn => hn (h ▸ hj)))
      (fun h => by rw [hpsv]; exact hreq.resolve_left (fun hn => hn (h ▸ hj)))

theorem tellSaves_package {ok : Bool} {l : List SaveKind} {s : State} {p : PkgRun} {r : Result} {n eff old : Nat}
    (hrun : s.psv.power = .run) (hrunning : s.cau.pkg = some p) (hstage : p.stage = .committing r n eff old)
    (hpkg : .package ∈ l) (hcode : .code ∉ l ∨ s.cau.applied = none) (hreq : .lifecycle ∉ l ∨ s.psv.req = none) :
    tellSaves ok l s = packageCommitted ok s := by
  obtain ⟨hcau, hpsv, -⟩ := packageCommitted_given ok s p r n eff old hrunning hstage
  refine tellSaves_once hpkg (tellSave_package ok s (notHold_of_run hrun)) (fun j hj hne => ?_) (fun j hj => ?_)
  · exact tellSave_nobody ok s j (fun h => hcode.resolve_left (fun hn => hn (h ▸ hj))) (fun h => absurd h hne)
      (fun h => hreq.resolve_left (fun hn => hn (h ▸ hj)))
  · exact tellSave_nobody ok _ j (fun h => by rw [hcau]; exact hcode.resolve_left (fun hn => hn (h ▸ hj)))
      (fun _ => by rw [hcau]) (fun h => by rw [hpsv]; exact hreq.resolve_left (fun hn => hn (h ▸ hj)))

theorem tellSaves_lifecycle {ok : Bool} {l : List SaveKind} {s : State} {q : LifecycleReq} {i : Fin 16} {r : Result}
    {results : List (Nat × List Byte)} (hrun : s.psv.power = .run) (hslot : q.slot = some i)
    (hsaved : lifecycleSaved ok s = finishRequest q r results s) (hlife : .lifecycle ∈ l)
    (hcode : .code ∉ l ∨ s.cau.applied = none) (hpkg : .package ∉ l ∨ s.cau.pkg = none) :
    tellSaves ok l s = finishRequest q r results s := by
  obtain ⟨hpsv, hcau, -⟩ := finishRequest_given q r results s i hslot
  refine tellSaves_once hlife ((tellSave_lifecycle ok s (notHold_of_run hrun)).trans hsaved) (fun j hj hne => ?_)
    (fun j hj => ?_)
  · exact tellSave_nobody ok s j (fun h => hcode.resolve_left (fun hn => hn (h ▸ hj)))
      (fun h => hpkg.resolve_left (fun hn => hn (h ▸ hj))) (fun h => absurd h hne)
  · exact tellSave_nobody ok _ j (fun h => by rw [hcau]; exact hcode.resolve_left (fun hn => hn (h ▸ hj)))
      (fun h => by rw [hcau]; exact hpkg.resolve_left (fun hn => hn (h ▸ hj))) (fun _ => by rw [hpsv])

/-! ### A record that passes (R136, R138) -/

/-- The owners told, a passed record leaves what they left. -/
theorem recordDone_pass_told {saves : List SaveKind} {image : SaveRecord} {s z : State} (hrun : s.psv.power = .run)
    (hprog : s.stc.prog = some (.record saves image)) (hz : tellSaves true saves (recordPassed image s) = z) :
    ∃ t, exec (.programRecordDone .pass) s = .next t ∧ t.cau = z.cau ∧ t.psv = z.psv ∧ t.exc.notices = z.exc.notices ∧
      t.exc.mem = z.exc.mem ∧ t.exc.code = z.exc.code ∧ t.exc.control = z.exc.control ∧
      t.stc = (runArbiter (programOver z)).stc :=
  ⟨_, hz ▸ recordDone_pass saves image s hrun hprog, programOver_end z⟩

theorem recordPassed_stores (image : SaveRecord) (s : State) :
    (recordPassed image s).flash =
      { s.flash with records := s.flash.records.set (8 * s.stc.curBlock + s.stc.nextPlace) (.good image) } ∧
    (recordPassed image s).stc.failCount = 0 ∧ (recordPassed image s).stc.prog = s.stc.prog := by
  obtain ⟨-, -, -, -, -, -, -, hflash, -, hstc, -⟩ := recount_parts (countPass (putRecord (.good image) s))
  refine ⟨hflash, hstc.fail, ?_⟩
  unfold recordPassed recount
  split <;> rfl

theorem recordDone_pass_frame {saves : List SaveKind} {image : SaveRecord} {s : State} (hrun : s.psv.power = .run)
    (hprog : s.stc.prog = some (.record saves image)) : ∃ t, exec (.programRecordDone .pass) s = .next t ∧
      t.flash = { s.flash with records := s.flash.records.set (8 * s.stc.curBlock + s.stc.nextPlace) (.good image) } ∧
      t.stc.failCount = 0 ∧ t.ee = s.ee ∧ t.ce = s.ce ∧ t.swc = s.swc := by
  have hframe := owners_trans (owners_tells saves (recordPassed image s))
    (owners_trans (over_parts _) (owners_run _))
  obtain ⟨-, -, hce, -, hee, -, hswc, -⟩ := passed_parts image s
  obtain ⟨hflash, hfail, -⟩ := recordPassed_stores image s
  refine ⟨_, recordDone_pass saves image s hrun hprog, ?_⟩
  simp only [refresh_toModules, refresh_flash]
  exact ⟨hframe.flash.trans hflash, hframe.stc.fail.trans hfail, hframe.ee.trans hee, hframe.ce.trans hce,
    hframe.swc.trans hswc⟩

/-! ### A record whose failure is the third (R144) -/

@[simp] theorem announceFault_cau (b : NoticeBody) (s : State) : (announceFault b s).cau = s.cau := by
  unfold announceFault; split <;> rfl

/-- The owners told, an entry to FAULT leaves what they left and STORE_FAULT. -/
theorem recordDone_fault_told {saves : List SaveKind} {image : SaveRecord} {s z : State} (hrun : s.psv.power = .run)
    (hprog : s.stc.prog = some (.record saves image)) (hfail : 2 ≤ s.stc.failCount) (hz : faultTold saves s = z) :
    ∃ t, exec (.programRecordDone .bodyFails) s = .next t ∧ t.cau = z.cau ∧
      (ToldFrame (recordFailing s) z → z.exc.notices = s.exc.notices →
        t.psv = z.psv ∧
        t.exc.notices = (s.exc.post s.bat.clock (.storeFault 1 0 s.stc.curBlock s.stc.nextPlace)).notices ∧
        t.exc.mem = z.exc.mem ∧ t.exc.code = z.exc.code ∧ t.exc.control = z.exc.control) := by
  refine ⟨_, hz ▸ recordDone_fault saves image s hrun hprog hfail, ?_, fun htold hnotices => ?_⟩
  · simp only [refresh_toModules]
    exact announceFault_cau _ z
  · have htold' : ToldFrame s z := ⟨htold.power, htold.clock, htold.live, htold.oldest⟩
    exact (announceFault_end _ s z hrun htold'.power htold' hnotices).2

/-- The bits that waited tell nobody, when the request ended with the saves told before them. -/
theorem faultTold_of_told {saves : List SaveKind} {s z : State}
    (htell : tellSaves false (saves ++ savesOf s.stc.queue) (recordFailing s) = z) (hreq : z.psv.req = none) :
    faultTold saves s = z := by
  unfold faultTold
  rw [htell]
  exact bitEnded_none z hreq _

/-- What the entry to FAULT leaves of the modules whose owners are not told. -/
theorem faultTold_frame (saves : List SaveKind) (s : State) (b : NoticeBody) :
    OwnersExact (recordFailing s) (announceFault b (faultTold saves s)) :=
  ownersExact_trans (ownersExact_trans (ownersExact_foldl ownersExact_tell _ _)
    (ownersExact_foldl (fun t b => ownersExact_bit b t) _ _)) (ownersExact_ann _ _)

theorem recordDone_fault_frame {saves : List SaveKind} {image : SaveRecord} {s : State} (hrun : s.psv.power = .run)
    (hprog : s.stc.prog = some (.record saves image)) (hfail : 2 ≤ s.stc.failCount) :
    ∃ t, exec (.programRecordDone .bodyFails) s = .next t ∧
      t.flash.records = s.flash.records.set (8 * s.stc.curBlock + s.stc.nextPlace) .damaged ∧
      t.flash.bits = s.flash.bits ∧ t.stc.fault = true ∧ t.stc.queue = [] ∧ t.stc.prog = none ∧
      t.ee = s.ee ∧ t.ce = s.ce ∧ t.swc = s.swc := by
  have hframe := faultTold_frame saves s (.storeFault 1 0 s.stc.curBlock s.stc.nextPlace)
  refine ⟨_, recordDone_fault saves image s hrun hprog hfail, ?_⟩
  simp only [refresh_toModules, refresh_flash]
  exact ⟨(congrArg Flash.records hframe.flash :), (congrArg Flash.bits hframe.flash :), (congrArg Stc.fault hframe.stc :),
    (congrArg Stc.queue hframe.stc :), rfl, hframe.ee, hframe.ce, hframe.swc⟩

end Sys2Proof.Machine

/-! PROOF. The end of a record's program, owner by owner: O45 (R132, R136 to R144). -/

namespace Sys2Proof.Machine

open Sys2Proof

section Owners

variable {saves : List SaveKind} {image : SaveRecord} {s : State}

/-! ### The code (R136, R144) -/

theorem recordDone_code_pass {e : CodeEntry} {rest : List CodeEntry} {a : Applied} (hrun : s.psv.power = .run)
    (hprog : s.stc.prog = some (.record saves image)) (hqueue : s.cau.queue = e :: rest)
    (happlied : s.cau.applied = some a) (hcode : .code ∈ saves) (hpkg : .package ∉ saves ∨ s.cau.pkg = none)
    (hreq : .lifecycle ∉ saves ∨ s.psv.req = none) : ∃ t, exec (.programRecordDone .pass) s = .next t ∧
      t.cau = { s.cau with queue := rest, applied := none } ∧
      (∀ i, e.slot = some i → t.exc.notices = s.exc.notices ∧
        t.exc.mem = doneMem i a.result 0 0 (codeResults a.kind a.issue a.amount s.ce.money.b) s.exc.mem ∧
        t.exc.code = ⟨s.exc.code.queue.tail, false⟩) ∧
      (e.slot = none → t.exc.mem = s.exc.mem ∧ t.exc.notices = (s.exc.post s.bat.clock
        (.codeResult e.src a.result a.kind a.issue a.amount s.ce.money.b)).notices) := by
  obtain ⟨hexc, hbat, hce, hpsv, -, hcau, -⟩ := passed_parts image s
  have htell : tellSaves true saves (recordPassed image s) = codeCommitted true (recordPassed image s) :=
    tellSaves_code (by rw [hpsv, hrun]) (by rw [hcau, hqueue]) (by rw [hcau, happlied]) hcode (by rwa [hcau])
      (by rwa [hpsv])
  obtain ⟨t, hexec, htcau, -, hnotices, hmem, htcode, -⟩ := recordDone_pass_told hrun hprog htell
  obtain ⟨hzcau, -, hslot, hnone⟩ :=
    codeCommitted_given true (recordPassed image s) e rest a (by rw [hcau, hqueue]) (by rw [hcau, happlied])
  simp only [hexc, hbat, hce, hcau, if_true] at hzcau hslot hnone
  refine ⟨t, hexec, htcau.trans hzcau, fun i hi => ?_, fun hn => ?_⟩
  · obtain ⟨-, hn, hm, hc⟩ := hslot i hi
    exact ⟨hnotices.trans hn, hmem.trans hm, htcode.trans hc⟩
  · obtain ⟨hm, hn⟩ := hnone hn
    exact ⟨hmem.trans hm, hnotices.trans hn⟩

theorem recordDone_code_fault {e : CodeEntry} {rest : List CodeEntry} {a : Applied} (hrun : s.psv.power = .run)
    (hprog : s.stc.prog = some (.record saves image)) (hqueue : s.cau.queue = e :: rest)
    (happlied : s.cau.applied = some a) (hcode : .code ∈ saves ++ savesOf s.stc.queue)
    (hpkg : .package ∉ saves ++ savesOf s.stc.queue ∨ s.cau.pkg = none) (hreq : s.psv.req = none)
    (hfail : 2 ≤ s.stc.failCount) : ∃ t, exec (.programRecordDone .bodyFails) s = .next t ∧
      t.cau = { s.cau with queue := rest, applied := none } ∧
      ∀ i, e.slot = some i →
        t.exc.notices = (s.exc.post s.bat.clock (.storeFault 1 0 s.stc.curBlock s.stc.nextPlace)).notices ∧
        t.exc.mem = doneMem i .storeFault 0 0 (codeResults a.kind a.issue a.amount s.ce.money.b) s.exc.mem ∧
        t.exc.code = ⟨s.exc.code.queue.tail, false⟩ := by
  obtain ⟨hexc, hbat, hce, hpsv, -, hcau, -⟩ := failing_parts s
  have htell : tellSaves false (saves ++ savesOf s.stc.queue) (recordFailing s) = codeCommitted false (recordFailing s) :=
    tellSaves_code (by rw [hpsv, hrun]) (by rw [hcau, hqueue]) (by rw [hcau, happlied]) hcode (by rwa [hcau])
      (.inr (by rwa [hpsv]))
  obtain ⟨hzcau, hzpsv, hslot, -⟩ :=
    codeCommitted_given false (recordFailing s) e rest a (by rw [hcau, hqueue]) (by rw [hcau, happlied])
  obtain ⟨t, hexec, htcau, htold⟩ := recordDone_fault_told hrun hprog hfail
    (faultTold_of_told htell (by rw [hzpsv, hpsv, hreq]))
  simp only [hexc, hce, hcau, Bool.false_eq_true, if_false] at hzcau hslot
  refine ⟨t, hexec, htcau.trans hzcau, fun i hi => ?_⟩
  obtain ⟨hframe, hn, hm, hc⟩ := hslot i hi
  obtain ⟨-, hnotices, hmem, htcode, -⟩ := htold hframe hn
  exact ⟨hnotices, hmem.trans hm, htcode.trans hc⟩

/-! ### The package (R136, R144) -/

theorem recordDone_package_pass {p : PkgRun} {r : Result} {n eff old : Nat} (hrun : s.psv.power = .run)
    (hprog : s.stc.prog = some (.record saves image)) (hrunning : s.cau.pkg = some p)
    (hstage : p.stage = .committing r n eff old) (hpkg : .package ∈ saves)
    (hcode : .code ∉ saves ∨ s.cau.applied = none) (hreq : .lifecycle ∉ saves ∨ s.psv.req = none) :
    ∃ t, exec (.programRecordDone .pass) s = .next t ∧
      t.cau = { s.cau with
        pkg := none, pendingPkg := s.cau.pendingPkg.map (fun q => { q with released := q.released || q.number == n }) } ∧
      (∀ i, p.slot = some i → t.exc.notices = s.exc.notices ∧
        t.exc.mem = doneMem i r 0 0 ([(12, le 4 (headerField p.bytes 0)), (16, le 4 (headerField p.bytes 8)), (20, [0])] ++
          [(24, le 4 old)]) s.exc.mem ∧
        t.exc.code = ⟨s.exc.code.queue.tail, false⟩) ∧
      (p.slot = none → t.exc.mem = s.exc.mem ∧
        t.exc.notices = (s.exc.post s.bat.clock (.packageResult r (headerField p.bytes 0))).notices) := by
  obtain ⟨hexc, hbat, -, hpsv, -, hcau, -⟩ := passed_parts image s
  have htell : tellSaves true saves (recordPassed image s) = packageCommitted true (recordPassed image s) :=
    tellSaves_package (by rw [hpsv, hrun]) (by rw [hcau, hrunning]) hstage hpkg (by rwa [hcau]) (by rwa [hpsv])
  obtain ⟨t, hexec, htcau, -, hnotices, hmem, htcode, -⟩ := recordDone_pass_told hrun hprog htell
  obtain ⟨hzcau, -, hslot, hnone⟩ :=
    packageCommitted_given true (recordPassed image s) p r n eff old (by rw [hcau, hrunning]) hstage
  simp only [hexc, hbat, hcau, if_true] at hzcau hslot hnone
  refine ⟨t, hexec, htcau.trans hzcau, fun i hi => ?_, fun hn => ?_⟩
  · obtain ⟨-, hn, hm, hc⟩ := hslot i hi
    exact ⟨hnotices.trans hn, hmem.trans hm, htcode.trans hc⟩
  · obtain ⟨hm, hn⟩ := hnone hn
    exact ⟨hmem.trans hm, hnotices.trans hn⟩

theorem recordDone_package_fault {p : PkgRun} {r : Result} {n eff old : Nat} (hrun : s.psv.power = .run)
    (hprog : s.stc.prog = some (.record saves image)) (hrunning : s.cau.pkg = some p)
    (hstage : p.stage = .committing r n eff old) (hpkg : .package ∈ saves ++ savesOf s.stc.queue)
    (hcode : .code ∉ saves ++ savesOf s.stc.queue ∨ s.cau.applied = none) (hreq : s.psv.req = none)
    (hfail : 2 ≤ s.stc.failCount) : ∃ t, exec (.programRecordDone .bodyFails) s = .next t ∧
      t.cau = { s.cau with
        pkg := none, pendingPkg := s.cau.pendingPkg.map (fun q => { q with released := q.released || q.number == n }) } ∧
      ∀ i, p.slot = some i →
        t.exc.notices = (s.exc.post s.bat.clock (.storeFault 1 0 s.stc.curBlock s.stc.nextPlace)).notices ∧
        t.exc.mem = doneMem i .storeFault 0 0
          [(12, le 4 (headerField p.bytes 0)), (16, le 4 (headerField p.bytes 8)), (20, [0])] s.exc.mem ∧
        t.exc.code = ⟨s.exc.code.queue.tail, false⟩ := by
  obtain ⟨hexc, hbat, -, hpsv, -, hcau, -⟩ := failing_parts s
  have htell : tellSaves false (saves ++ savesOf s.stc.queue) (recordFailing s) =
      packageCommitted false (recordFailing s) :=
    tellSaves_package (by rw [hpsv, hrun]) (by rw [hcau, hrunning]) hstage hpkg (by rwa [hcau]) (.inr (by rwa [hpsv]))
  obtain ⟨hzcau, hzpsv, hslot, -⟩ :=
    packageCommitted_given false (recordFailing s) p r n eff old (by rw [hcau, hrunning]) hstage
  obtain ⟨t, hexec, htcau, htold⟩ := recordDone_fault_told hrun hprog hfail
    (faultTold_of_told htell (by rw [hzpsv, hpsv, hreq]))
  simp only [hexc, hcau, Bool.false_eq_true, if_false, List.append_nil] at hzcau hslot
  refine ⟨t, hexec, htcau.trans hzcau, fun i hi => ?_⟩
  obtain ⟨hframe, hn, hm, hc⟩ := hslot i hi
  obtain ⟨-, hnotices, hmem, htcode, -⟩ := htold hframe hn
  exact ⟨hnotices, hmem.trans hm, htcode.trans hc⟩

/-! ### The lifecycle request (R132, R136, R144) -/

theorem lifecycleSaved_results {q : LifecycleReq} {s : State} {results : List (Nat × List Byte)}
    (hreq : s.psv.req = some q) (hresults : lifecycleResults q.req s = some results) :
    lifecycleSaved true s = finishRequest q .ok results s := by
  unfold lifecycleSaved
  simp only [hreq, hresults, if_true]

theorem lifecycleSaved_installKey {q : LifecycleReq} {s : State} (hreq : s.psv.req = some q)
    (hkey : q.req = .installKey) : lifecycleSaved true s = arrive (.bit .keyInstalled) s := by
  unfold lifecycleSaved
  simp only [hreq, hkey, if_true]
  rfl

theorem lifecycleSaved_failed {q : LifecycleReq} {s : State} (hreq : s.psv.req = some q) :
    lifecycleSaved false s = finishRequest q .storeFault (failResults q.req) s := by
  unfold lifecycleSaved
  simp only [hreq, Bool.false_eq_true, if_false]

theorem gainBytes_flatMap (g : Gains) :
    gainBytes g = [g.v.a, g.v.b, g.v.c, g.i.a, g.i.b, g.i.c, g.p.a, g.p.b, g.p.c].flatMap (le 2) := by
  simp [gainBytes]

/-- A passed record ends the request, with the results that its kind gives. -/
theorem recordDone_lifecycle_pass {q : LifecycleReq} {i : Fin 16} {results : List (Nat × List Byte)}
    (hrun : s.psv.power = .run) (hprog : s.stc.prog = some (.record saves image)) (hreq : s.psv.req = some q)
    (hslot : q.slot = some i) (hresults : lifecycleResults q.req s = some results) (hlife : .lifecycle ∈ saves)
    (hcode : .code ∉ saves ∨ s.cau.applied = none) (hpkg : .package ∉ saves ∨ s.cau.pkg = none) :
    ∃ t, exec (.programRecordDone .pass) s = .next t ∧ t.psv = { s.psv with req := none } ∧ t.cau = s.cau ∧
      t.exc.notices = s.exc.notices ∧ t.exc.mem = doneMem i .ok 0 0 results s.exc.mem ∧
      t.exc.control = ⟨s.exc.control.queue.tail, false⟩ := by
  obtain ⟨hexc, hbat, -, hpsv, hee, hcau, hswc, hrlr, -⟩ := passed_parts image s
  have hresults' : lifecycleResults q.req (recordPassed image s) = some results := by
    rw [← hresults]; unfold lifecycleResults; rw [hee, hcau, hrlr, hswc]
  have htell : tellSaves true saves (recordPassed image s) = finishRequest q .ok results (recordPassed image s) :=
    tellSaves_lifecycle (by rw [hpsv, hrun]) hslot (lifecycleSaved_results (by rw [hpsv, hreq]) hresults') hlife
      (by rwa [hcau]) (by rwa [hcau])
  obtain ⟨t, hexec, htcau, htpsv, hnotices, hmem, -, hcontrol, -⟩ := recordDone_pass_told hrun hprog htell
  obtain ⟨hzpsv, hzcau, -, hznotices, hzmem, hzcontrol⟩ := finishRequest_given q .ok results (recordPassed image s) i hslot
  simp only [hexc, hpsv, hcau] at hzpsv hzcau hznotices hzmem hzcontrol
  exact ⟨t, hexec, htpsv.trans hzpsv, htcau.trans hzcau, hnotices.trans hznotices, hmem.trans hzmem,
    hcontrol.trans hzcontrol⟩

/-- The request to install the key waits for its save, and nobody else among the saves of `l` waits. -/
structure KeyAsked (q : LifecycleReq) (l : List SaveKind) (s : State) : Prop where
  power : s.psv.power = .run
  req : s.psv.req = some q
  key : q.req = .installKey
  code : .code ∉ l ∨ s.cau.applied = none
  package : .package ∉ l ∨ s.cau.pkg = none
  copy : s.stc.copy.keyInstalled = false
  fault : s.stc.fault = false

theorem keyAsked_outside {q : LifecycleReq} {l k : List SaveKind} {s t : State} (h : KeyAsked q l s)
    (hsub : ∀ j ∈ k, j ∈ l) (hframe : OutsideFrame s t) : KeyAsked q k t where
  power := by rw [hframe.psv]; exact h.power
  req := by rw [hframe.psv]; exact h.req
  key := h.key
  code := by rw [hframe.cau]; exact h.code.imp_left fun hn hc => hn (hsub _ hc)
  package := by rw [hframe.cau]; exact h.package.imp_left fun hn hc => hn (hsub _ hc)
  copy := by rw [hframe.stc.copy]; exact h.copy
  fault := by rw [hframe.stc.fault]; exact h.fault

theorem tellSave_keyAsked {q : LifecycleReq} {l : List SaveKind} {s : State} {k : SaveKind} (h : KeyAsked q l s)
    (hk : k ∈ l) : tellSave true s k = if k = .lifecycle then arrive (.bit .keyInstalled) s else s := by
  split
  · next hlife =>
    rw [hlife, tellSave_lifecycle true s (notHold_of_run h.power), lifecycleSaved_installKey h.req h.key]
  · next hlife =>
    exact tellSave_nobody true s k (fun hc => h.code.resolve_left (fun hn => hn (hc ▸ hk)))
      (fun hp => h.package.resolve_left (fun hn => hn (hp ▸ hk))) (fun hl => absurd hl hlife)

/-- The saves told, the one-way bit has been given to the store, and the request still waits. -/
theorem tellSaves_keyAsked {q : LifecycleReq} : ∀ (l : List SaveKind) (s : State), KeyAsked q l s →
    OutsideFrame s (tellSaves true l s) ∧
      (.lifecycle ∈ l ∨ OpTaken (.bit .keyInstalled) s.stc → OpTaken (.bit .keyInstalled) (tellSaves true l s).stc)
  | [], s, _ => ⟨outside_refl s, fun h => h.resolve_left List.not_mem_nil⟩
  | k :: l, s, h => by
    have hbit : ∀ b, StoreOp.bit .keyInstalled = .bit b → bitOf s.stc.copy b = false := fun b hb => by
      cases hb; exact h.copy
    obtain ⟨hframe, htaken⟩ : OutsideFrame s (tellSave true s k) ∧
        (k = .lifecycle ∨ OpTaken (.bit .keyInstalled) s.stc →
          OpTaken (.bit .keyInstalled) (tellSave true s k).stc) := by
      rw [tellSave_keyAsked h List.mem_cons_self]
      split
      · exact ⟨outside_arrive _ s, fun _ => opTaken_arrive_new _ s (fun _ _ _ => nofun) h.fault
          (storeTakes_run h.power) hbit nofun⟩
      · next hlife => exact ⟨outside_refl s, fun ht => ht.resolve_left hlife⟩
    obtain ⟨hframe', htaken'⟩ :=
      tellSaves_keyAsked l (tellSave true s k) (keyAsked_outside h (fun _ => List.mem_cons_of_mem _) hframe)
    refine ⟨outside_trans hframe hframe', fun ht => htaken' ?_⟩
    rcases ht with hmem | ht
    · exact (List.mem_cons.mp hmem).elim (fun he => .inr (htaken (.inl he.symm))) .inl
    · exact .inr (htaken (.inr ht))

/-- An operation other than a program's own save stays in the queue when the record's program ends. -/
theorem opTaken_programOver_bit {b : BitName} {s : State} {l : List SaveKind} {image : SaveRecord}
    (hprog : s.stc.prog = some (.record l image)) (h : OpTaken (.bit b) s.stc) :
    OpTaken (.bit b) (programOver s).stc := by
  rcases h with hq | ⟨p, hp, hserves⟩
  · exact .inl hq
  · rw [hprog] at hp
    cases hp
    exact absurd hserves (by simp [serves])

theorem recordDone_installKey {q : LifecycleReq} (hprog : s.stc.prog = some (.record saves image))
    (h : KeyAsked q saves s) (hlife : .lifecycle ∈ saves) : ∃ t, exec (.programRecordDone .pass) s = .next t ∧
      t.psv = s.psv ∧ t.cau = s.cau ∧ t.exc.mem = s.exc.mem ∧ BitTaken .keyInstalled t.stc := by
  obtain ⟨hexc, -, -, hpsv, -, hcau, -, -, hfault, hcopy⟩ := passed_parts image s
  have hkey : KeyAsked q saves (recordPassed image s) :=
    ⟨by rw [hpsv]; exact h.power, by rw [hpsv]; exact h.req, h.key, by rw [hcau]; exact h.code,
      by rw [hcau]; exact h.package, by rw [hcopy]; exact h.copy, by rw [hfault]; exact h.fault⟩
  obtain ⟨hframe, htaken⟩ := tellSaves_keyAsked saves _ hkey
  obtain ⟨t, hexec, htcau, htpsv, -, hmem, -, -, hstc⟩ := recordDone_pass_told h.power hprog rfl
  refine ⟨t, hexec, htpsv.trans (hframe.psv.trans hpsv), htcau.trans (hframe.cau.trans hcau),
    hmem.trans (hframe.mem.trans (congrArg Exc.mem hexc)), ?_⟩
  have hstill := hframe.prog _ ((recordPassed_stores image s).2.2.trans hprog)
  rw [hstc]
  refine opTaken_bit (opTaken_run _ (fun _ _ _ => nofun) (fun b hb => ?_)
    (opTaken_programOver_bit hstill (htaken (.inl hlife))))
  cases hb
  exact (congrArg OneWay.keyInstalled (hframe.stc.copy.trans hcopy)).trans h.copy

/-- Only the bits of a request end it when the store fails: an ever bit has no request. -/
def BitName.isEver : BitName → Prop
  | .ever _ => True
  | .commissioned | .keyInstalled => False

theorem bitEnded_byFault (b : BitName) {q : LifecycleReq} {s : State} (hreq : s.psv.req = some q)
    (hlive : s.exc.live = true) :
    b.isEver ∧ bitEnded b .byFault s = s ∨
      ¬ b.isEver ∧ bitEnded b .byFault s = finishRequest q .storeFault (failResults q.req) s := by
  cases b with
  | ever k => exact .inl ⟨trivial, rfl⟩
  | commissioned => exact .inr ⟨id, by simp only [bitEnded, hreq, hlive, if_true]⟩
  | keyInstalled => exact .inr ⟨id, by simp only [bitEnded, hreq, hlive, if_true]⟩

/-- The request ends with STORE_FAULT when the store fails, whether its save waits or its bit. -/
theorem recordDone_lifecycle_fault {q : LifecycleReq} {i : Fin 16} (hrun : s.psv.power = .run)
    (hprog : s.stc.prog = some (.record saves image)) (hreq : s.psv.req = some q) (hslot : q.slot = some i)
    (hwaits : .lifecycle ∈ saves ++ savesOf s.stc.queue ∨ .keyInstalled ∈ bitsOf s.stc.queue ∨
      .commissioned ∈ bitsOf s.stc.queue) (hcode : .code ∉ saves ++ savesOf s.stc.queue ∨ s.cau.applied = none)
    (hpkg : .package ∉ saves ++ savesOf s.stc.queue ∨ s.cau.pkg = none) (hfail : 2 ≤ s.stc.failCount)
    (hlive : s.exc.live = true) : ∃ t, exec (.programRecordDone .bodyFails) s = .next t ∧
      t.psv = { s.psv with req := none } ∧ t.cau = s.cau ∧
      t.exc.notices = (s.exc.post s.bat.clock (.storeFault 1 0 s.stc.curBlock s.stc.nextPlace)).notices ∧
      t.exc.mem = doneMem i .storeFault 0 0 (failResults q.req) s.exc.mem ∧
      t.exc.control = ⟨s.exc.control.queue.tail, false⟩ := by
  obtain ⟨hexc, -, -, hpsv, -, hcau, -⟩ := failing_parts s
  have hwaiting : (recordFailing s).psv.req = some q := by rw [hpsv, hreq]
  have hsaved := lifecycleSaved_failed hwaiting
  obtain ⟨hzpsv, hzcau, hframe, hznotices, hzmem, hzcontrol⟩ :=
    finishRequest_given q .storeFault (failResults q.req) (recordFailing s) i hslot
  have hz : faultTold saves s = finishRequest q .storeFault (failResults q.req) (recordFailing s) := by
    by_cases hlife : .lifecycle ∈ saves ++ savesOf s.stc.queue
    · exact faultTold_of_told (tellSaves_lifecycle (by rw [hpsv, hrun]) hslot hsaved hlife (by rwa [hcau])
        (by rwa [hcau])) (by rw [hzpsv])
    · have hidle : tellSaves false (saves ++ savesOf s.stc.queue) (recordFailing s) = recordFailing s :=
        foldl_idle _ _ _ fun j hj => tellSave_nobody false _ j
          (fun hc => by rw [hcau]; exact hcode.resolve_left (fun hn => hn (hc ▸ hj)))
          (fun hp => by rw [hcau]; exact hpkg.resolve_left (fun hn => hn (hp ▸ hj))) (fun hl => absurd (hl ▸ hj) hlife)
      have hended := fun b => bitEnded_byFault b hwaiting (by rw [hexc, hlive])
      unfold faultTold
      rw [hidle]
      refine foldl_once (fun t b => bitEnded b .byFault t) _ _ _ (fun b _ => ?_)
        (fun b _ => bitEnded_nobody b _ (by rw [hzpsv])) ?_
      · rcases hended b with h | h
        · exact .inl h.2
        · exact .inr h.2
      · rcases hwaits.resolve_left hlife with hk | hc
        · exact ⟨_, hk, ((hended .keyInstalled).resolve_left (fun h => h.1)).2⟩
        · exact ⟨_, hc, ((hended .commissioned).resolve_left (fun h => h.1)).2⟩
  simp only [hexc, hpsv, hcau] at hzpsv hzcau hznotices hzmem hzcontrol
  obtain ⟨t, hexec, htcau, htold⟩ := recordDone_fault_told hrun hprog hfail hz
  obtain ⟨htpsv, hnotices, hmem, -, hcontrol⟩ := htold hframe hznotices
  exact ⟨t, hexec, htpsv.trans hzpsv, htcau.trans hzcau, hnotices, hmem.trans hzmem, hcontrol.trans hzcontrol⟩

/-! ### A record that is retried (R143) -/

/-- A failed record's saves are back in the queue, before every other operation, and the erased places are counted. -/
def recordRetried (saves : List SaveKind) (v : RecordVerify) (s : State) : State :=
  recount (requeue (saves.map fun k => ⟨.save k, true⟩) (countRecordFailure v (putRecord .damaged s)))

theorem countRecordFailure_eq (v : RecordVerify) (s : State) : countRecordFailure v s =
    { s with stc := { s.stc with failCount := if v = .markFails then 1 else s.stc.failCount + 1 } } := by
  cases v <;> rfl

theorem recordEnds_retried {v : RecordVerify} (hrun : s.psv.power = .run) (hv : v ≠ .pass)
    (hfew : v = .markFails ∨ s.stc.failCount < 2) :
    recordEnds saves image v s = programOver (recordRetried saves v s) := by
  have hfails : recordEnds saves image v s = recordFails saves (countRecordFailure v (putRecord .damaged s)) := by
    cases v with
    | pass => exact absurd rfl hv
    | bodyFails => rfl
    | markFails => rfl
  have hcount : failedThrice (countRecordFailure v (putRecord .damaged s)) = false := by
    rw [countRecordFailure_eq]
    refine decide_eq_false ?_
    show ¬ 3 ≤ (if v = .markFails then 1 else s.stc.failCount + 1)
    split
    · decide
    · next hmark => have := hfew.resolve_left hmark; omega
  have hpower : ((countRecordFailure v (putRecord .damaged s)).psv.power == .hold) = false := by
    rw [countRecordFailure_eq]; exact notHold_of_run hrun
  rw [hfails]
  unfold recordFails
  rw [hcount, hpower]
  rfl

theorem recordDone_retried {v : RecordVerify} (hrun : s.psv.power = .run)
    (hprog : s.stc.prog = some (.record saves image)) (hv : v ≠ .pass)
    (hfew : v = .markFails ∨ s.stc.failCount < 2) : ∃ t, exec (.programRecordDone v) s = .next t ∧
      t.flash = { s.flash with records := s.flash.records.set (8 * s.stc.curBlock + s.stc.nextPlace) .damaged } ∧
      t.stc.failCount = (if v = .markFails then 1 else s.stc.failCount + 1) ∧ t.stc.fault = s.stc.fault ∧
      (∀ k ∈ saves, SaveTaken k t.stc) ∧ t.ee = s.ee ∧ t.ce = s.ce ∧ t.swc = s.swc ∧ t.bat = s.bat ∧
      t.exc.mem = s.exc.mem := by
  have hexec : exec (.programRecordDone v) s = done (afterStore (programOver (recordRetried saves v s))) := by
    show done (recordDone v s) = _
    unfold recordDone
    rw [hprog]
    dsimp only
    rw [hrun, ← recordEnds_retried (image := image) hrun hv hfew]
    rfl
  obtain ⟨hexc, hbat, hce, hpsv, hee, -, hswc, hflash, -, hstc, hqueue⟩ :=
    recount_parts (requeue (saves.map fun k => ⟨.save k, true⟩) (countRecordFailure v (putRecord .damaged s)))
  rw [countRecordFailure_eq] at hexc hbat hce hpsv hee hswc hflash hstc hqueue
  obtain ⟨t, ht, htflash, htee, htce, htswc, htbat, htmem, -, htstc, -, -, hstc'⟩ :=
    exec_programOver _ s (recordRetried saves v s) hexec (by
      unfold recordRetried; rw [countRecordFailure_eq, hpsv]; exact hrun)
  unfold recordRetried at *
  rw [countRecordFailure_eq] at *
  refine ⟨t, ht, htflash.trans hflash, htstc.fail.trans hstc.fail, htstc.fault.trans hstc.fault, fun k hk => ?_,
    htee.trans hee, htce.trans hce, htswc.trans hswc, htbat.trans hbat, htmem.trans (congrArg Exc.mem hexc)⟩
  rw [hstc']
  refine opTaken_save (opTaken_run _ (fun _ _ _ => nofun) nofun (.inl ⟨⟨.save k, true⟩, ?_, rfl⟩))
  exact hqueue _ (List.mem_append_left _ (List.mem_map.mpr ⟨k, hk, rfl⟩))

end Owners

/-- Settles O45. -/
theorem recordVerifyDecidesTheSave : Obligations.RecordVerifyDecidesTheSave := by
  intro saves image s hrun hprog place array noCode noPackage noRequest waiting faulted
  refine ⟨recordDone_pass_frame hrun hprog, fun e rest a hqueue happlied => ⟨?_, ?_⟩,
    fun p r n eff old hrunning hstage => ⟨?_, ?_⟩, fun q i hreq hslot => ⟨?_, ?_⟩,
    fun v hv hfew => recordDone_retried hrun hprog hv hfew, recordDone_fault_frame hrun hprog⟩
  case refine_1 => exact recordDone_code_pass hrun hprog hqueue happlied
  case refine_2 => exact recordDone_code_fault hrun hprog hqueue happlied
  case refine_3 => exact recordDone_package_pass hrun hprog hrunning hstage
  case refine_4 => exact recordDone_package_fault hrun hprog hrunning hstage
  case refine_5 =>
    intro hlife hcode hpkg
    refine ⟨fun hcal => ?_, fun hid => ?_, fun hkey hcopy hfault => ?_, fun time hcom => ?_⟩
    · refine recordDone_lifecycle_pass hrun hprog hreq hslot ?_ hlife hcode hpkg
      rw [hcal, ← gainBytes_flatMap]; rfl
    · exact recordDone_lifecycle_pass hrun hprog hreq hslot (by rw [hid]; rfl) hlife hcode hpkg
    · exact recordDone_installKey hprog ⟨hrun, hreq, hkey, hcode, hpkg, hcopy, hfault⟩ hlife
    · exact recordDone_lifecycle_pass hrun hprog hreq hslot (by rw [hcom]; rfl) hlife hcode hpkg
  case refine_6 =>
    intro hwaits hcode hpkg hfail hlive
    have h := recordDone_lifecycle_fault hrun hprog hreq hslot hwaits hcode hpkg hfail hlive
    have hresults : failResults q.req = (match q.req with | .commission _ => [(8, [0])] | _ => []) := by
      cases q.req <;> rfl
    rw [hresults] at h
    exact h

end Sys2Proof.Machine

/-! PROOF. The ends of an entry's program, of a bit's and of an erase: O46, O47, O48 (R129, R141 to R144). -/

namespace Sys2Proof.Machine

open Sys2Proof

/-! ### Entries (R141, R143) -/

theorem entryDone_exec {e : Entry} {s : State} (hprog : s.stc.prog = some (.entry e)) (pass : Bool) :
    exec (.programEntryDone pass) s = done (afterStore (entryEnds e pass s)) := by
  show done (entryDone pass s) = _
  unfold entryDone
  rw [hprog]

/-- The state in which an entry has been appended, before the arbiter runs. -/
def entryAppended (e : Entry) (s : State) : State :=
  putHead (areaOf e) ⟨(headOfArea s (areaOf e)).count + 1, (posOf s.stc (areaOf e)).place, (posOf s.stc (areaOf e)).nextSeq⟩
    (putEntry (areaOf e) (.bytes (entryBytes e (posOf s.stc (areaOf e)).nextSeq))
      (((posOf s.stc (areaOf e)).nextSeq + 1) % 65536) (countPass s))

theorem entryEnds_pass (e : Entry) (s : State) : entryEnds e true s = programOver (entryAppended e s) := by
  unfold entryEnds entryAppended
  cases e <;> rfl

/-- The state in which an entry's place is damaged and the entry waits again, before the arbiter runs. -/
def entryRetried (e : Entry) (s : State) : State :=
  let x := countFailure (putEntry (areaOf e) .damaged (posOf s.stc (areaOf e)).nextSeq s)
  requeue [⟨.append e, !areaFull x.flash x.stc (areaOf e)⟩] x

theorem putEntry_stc (a : Area) (d : PlaceData) (n : Nat) (s : State) :
    (putEntry a d n s).stc = putPos s.stc a ⟨nextPlaceIn a (posOf s.stc a).place, n⟩ := rfl

theorem entryEnds_fail {e : Entry} {s : State} (hrun : s.psv.power = .run) (hfew : s.stc.failCount < 2) :
    entryEnds e false s = programOver (entryRetried e s) := by
  have hcount : failedThrice (countFailure (putEntry (areaOf e) .damaged (posOf s.stc (areaOf e)).nextSeq s)) = false := by
    refine decide_eq_false ?_
    show ¬ 3 ≤ (putPos s.stc (areaOf e) _).failCount + 1
    rw [(arbiterFrame_putPos _ _ _).2.2.1]
    omega
  have hpower : ((countFailure (putEntry (areaOf e) .damaged (posOf s.stc (areaOf e)).nextSeq s)).psv.power == .hold) =
      false := notHold_of_run hrun
  unfold entryEnds
  simp only [Bool.false_eq_true, if_false, hcount, hpower]
  rfl

theorem entryDone_pass {e : Entry} {s : State} (hrun : s.psv.power = .run) (hprog : s.stc.prog = some (.entry e)) :
    ∃ t, exec (.programEntryDone true) s = .next t ∧
      t.flash = putPlaces s.flash (areaOf e) (putPlace (placesOf s.flash (areaOf e)) (posOf s.stc (areaOf e)).place
        (.bytes (entryBytes e (posOf s.stc (areaOf e)).nextSeq))) ∧
      posOf t.stc (areaOf e) = ⟨((posOf s.stc (areaOf e)).place + 1) % areaSize (areaOf e),
        ((posOf s.stc (areaOf e)).nextSeq + 1) % 65536⟩ ∧
      headOfArea t (areaOf e) = ⟨(headOfArea s (areaOf e)).count + 1, (posOf s.stc (areaOf e)).place,
        (posOf s.stc (areaOf e)).nextSeq⟩ ∧ t.stc.failCount = 0 ∧ t.ee.energy = s.ee.energy ∧ t.ce = s.ce ∧
      t.swc = s.swc ∧ t.bat = s.bat ∧ t.exc.mem = s.exc.mem := by
  have hexec := (entryDone_exec hprog true).trans (congrArg (fun x => done (afterStore x)) (entryEnds_pass e s))
  obtain ⟨henergy, hce, hswc, hbat, hexc, hstc, hflash, hpsv, -⟩ := putHead_parts (areaOf e)
    ⟨(headOfArea s (areaOf e)).count + 1, (posOf s.stc (areaOf e)).place, (posOf s.stc (areaOf e)).nextSeq⟩
    (putEntry (areaOf e) (.bytes (entryBytes e (posOf s.stc (areaOf e)).nextSeq))
      (((posOf s.stc (areaOf e)).nextSeq + 1) % 65536) (countPass s))
  change (entryAppended e s).ee.energy = _ at henergy
  change (entryAppended e s).ce = _ at hce
  change (entryAppended e s).swc = _ at hswc
  change (entryAppended e s).bat = _ at hbat
  change (entryAppended e s).exc = _ at hexc
  change (entryAppended e s).stc = _ at hstc
  change (entryAppended e s).flash = _ at hflash
  change (entryAppended e s).psv = _ at hpsv
  obtain ⟨t, ht, htflash, htee, htce, htswc, htbat, htmem, httmo, htstc, -⟩ :=
    exec_programOver _ s (entryAppended e s) hexec ((congrArg Psv.power hpsv).trans hrun)
  refine ⟨t, ht, htflash.trans hflash, ?_, ?_, ?_, (congrArg Ee.energy htee).trans henergy, htce.trans hce,
    htswc.trans hswc, htbat.trans hbat, htmem.trans (congrArg Exc.mem hexc)⟩
  · rw [arbiterFrame_pos htstc, hstc, putEntry_stc, posOf_putPos]
    cases areaOf e <;> rfl
  · rw [headOfArea_congr _ httmo htee]
    exact headOfArea_putHead _ _ _
  · rw [htstc.fail, hstc, putEntry_stc, (arbiterFrame_putPos _ _ _).2.2.1]
    rfl

theorem entryDone_fail {e : Entry} {s : State} (hrun : s.psv.power = .run) (hprog : s.stc.prog = some (.entry e))
    (hfew : s.stc.failCount < 2) : ∃ t, exec (.programEntryDone false) s = .next t ∧
      t.flash = putPlaces s.flash (areaOf e) (putPlace (placesOf s.flash (areaOf e)) (posOf s.stc (areaOf e)).place
        .damaged) ∧
      posOf t.stc (areaOf e) = ⟨((posOf s.stc (areaOf e)).place + 1) % areaSize (areaOf e),
        (posOf s.stc (areaOf e)).nextSeq⟩ ∧ headOfArea t (areaOf e) = headOfArea s (areaOf e) ∧
      t.stc.failCount = s.stc.failCount + 1 ∧ EntryTaken e t.stc ∧ t.ee.energy = s.ee.energy ∧ t.ce = s.ce ∧
      t.swc = s.swc ∧ t.bat = s.bat ∧ t.exc.mem = s.exc.mem := by
  have hexec := (entryDone_exec hprog false).trans (congrArg (fun x => done (afterStore x)) (entryEnds_fail hrun hfew))
  obtain ⟨t, ht, htflash, htee, htce, htswc, htbat, htmem, httmo, htstc, -, -, hstc⟩ :=
    exec_programOver _ s (entryRetried e s) hexec hrun
  refine ⟨t, ht, htflash, ?_, headOfArea_congr _ httmo htee, ?_, ?_, congrArg Ee.energy htee, htce, htswc, htbat, htmem⟩
  · rw [arbiterFrame_pos htstc]
    unfold entryRetried
    cases areaOf e <;> rfl
  · rw [htstc.fail]
    unfold entryRetried
    cases areaOf e <;> rfl
  · rw [hstc]
    exact opTaken_entry (opTaken_run _ (fun _ _ _ => nofun) nofun
      (.inl ⟨_, List.mem_append_left _ (List.mem_singleton.mpr rfl), rfl⟩))

/-- Settles O46. -/
theorem entryVerifyDecidesTheAppend : Obligations.EntryVerifyDecidesTheAppend := fun _ _ hrun hprog =>
  ⟨entryDone_pass hrun hprog, fun hfew => entryDone_fail hrun hprog hfew⟩

/-! ### One-way bits (R129, R143) -/

theorem bitDone_exec {b : BitName} {s : State} (hprog : s.stc.prog = some (.bit b)) (pass : Bool) :
    exec (.programBitDone pass) s = done (afterStore (bitEnds b pass s)) := by
  show done (bitDone pass s) = _
  unfold bitDone
  rw [hprog]

theorem bitEnds_fail {b : BitName} {s : State} (hfew : s.stc.failCount < 2) :
    bitEnds b false s = programOver (bitEnded b .failed (countFailure s)) := by
  have hcount : failedThrice (countFailure s) = false := decide_eq_false (by
    show ¬ 3 ≤ s.stc.failCount + 1; omega)
  unfold bitEnds
  simp only [Bool.false_eq_true, if_false, hcount]

/-- The request in progress, where one waits, has become a commissioning at the time of the change (R129). -/
def requestCommissioned (s : State) : State :=
  { s with
    psv := { s.psv with req := s.psv.req.map fun q => { q with req := .commission s.bat.clock } } }

@[simp] theorem requestCommissioned_flash (s : State) : (requestCommissioned s).flash = s.flash := rfl
@[simp] theorem requestCommissioned_stc (s : State) : (requestCommissioned s).stc = s.stc := rfl
@[simp] theorem requestCommissioned_power (s : State) : (requestCommissioned s).psv.power = s.psv.power := rfl
@[simp] theorem requestCommissioned_inService (s : State) :
    (requestCommissioned s).psv.inService = s.psv.inService := rfl
@[simp] theorem requestCommissioned_bat (s : State) : (requestCommissioned s).bat = s.bat := rfl
@[simp] theorem requestCommissioned_ce (s : State) : (requestCommissioned s).ce = s.ce := rfl
@[simp] theorem requestCommissioned_ee (s : State) : (requestCommissioned s).ee = s.ee := rfl
@[simp] theorem requestCommissioned_swc (s : State) : (requestCommissioned s).swc = s.swc := rfl

/-- What the end of a commissioning bit asks for: the lifecycle change, and the save that carries it (R129). -/
theorem bitEnded_commissioned (s : State) :
    bitEnded .commissioned .passed s = arrive (.save .lifecycle) (requestCommissioned (lifecycleChange s)) := rfl

theorem bitEnded_key_passed {q : LifecycleReq} {s : State} (hreq : s.psv.req = some q) (hlive : s.exc.live = true) :
    bitEnded .keyInstalled .passed s = finishRequest q .ok [] s := by
  simp only [bitEnded, hreq, hlive, if_true]

theorem bitEnded_failed {b : BitName} {q : LifecycleReq} {s : State} (hb : b = .keyInstalled ∨ b = .commissioned)
    (hreq : s.psv.req = some q) (hlive : s.exc.live = true) :
    bitEnded b .failed s = finishRequest q .bitFailed (failResults q.req) s := by
  rcases hb with rfl | rfl <;> simp only [bitEnded, hreq, hlive, if_true]

/-- A bit that passes tells its owner, who leaves the flash, the arbiter's part and the power state as they are. -/
theorem bitEnded_passed_frame (b : BitName) (s : State) :
    (bitEnded b .passed s).flash = s.flash ∧ ArbiterFrame s.stc (bitEnded b .passed s).stc ∧
      (bitEnded b .passed s).psv.power = s.psv.power := by
  cases b with
  | ever k => exact ⟨rfl, arbiterFrame_refl _, rfl⟩
  | commissioned =>
    obtain ⟨hflash, hstc, hpsv, -⟩ := change_parts s
    have harrive := outside_arrive (.save .lifecycle) (requestCommissioned (lifecycleChange s))
    have hpower := congrArg Psv.power harrive.psv
    have hframe := harrive.stc
    have hsame := harrive.flash
    rw [requestCommissioned_power, hpsv] at hpower
    rw [requestCommissioned_stc] at hframe
    rw [requestCommissioned_flash] at hsame
    rw [bitEnded_commissioned]
    exact ⟨hsame.trans hflash, arbiterFrame_trans hstc hframe, hpower⟩
  | keyInstalled =>
    have h : OwnersExact s (bitEnded .keyInstalled .passed s) := by
      simp only [bitEnded]
      split
      · split
        · exact ownersExact_fin _ _ _ _
        · exact ownersExact_refl s
      · exact ownersExact_refl s
    exact ⟨h.flash, h.own.stc, h.power⟩

theorem bitDone_pass {b : BitName} {s : State} (hrun : s.psv.power = .run) (hprog : s.stc.prog = some (.bit b)) :
    ∃ t, exec (.programBitDone true) s = .next t ∧ t.flash = { s.flash with bits := setBit s.flash.bits b } ∧
      t.stc.copy = setBit s.stc.copy b ∧ t.stc.failCount = 0 := by
  obtain ⟨hflash, hstc, hpower⟩ := bitEnded_passed_frame b (putBit b (countPass s))
  obtain ⟨t, ht, htflash, -, -, -, -, -, -, htstc, -⟩ :=
    exec_programOver _ s (bitEnded b .passed (putBit b (countPass s))) (bitDone_exec hprog true) (hpower.trans hrun)
  exact ⟨t, ht, htflash.trans hflash, htstc.copy.trans hstc.copy, htstc.fail.trans hstc.fail⟩

theorem bitDone_ever {k : Kind} {s : State} (hrun : s.psv.power = .run) (hprog : s.stc.prog = some (.bit (.ever k))) :
    ∃ t, exec (.programBitDone true) s = .next t ∧ t.ee = s.ee ∧ t.ce = s.ce ∧ t.swc = s.swc ∧ t.bat = s.bat ∧
      t.psv = s.psv ∧ t.exc.mem = s.exc.mem := by
  obtain ⟨t, ht, -, htee, htce, htswc, htbat, htmem, -, -, htpsv, -⟩ :=
    exec_programOver _ s (putBit (.ever k) (countPass s)) (bitDone_exec hprog true) hrun
  exact ⟨t, ht, htee, htce, htswc, htbat, htpsv, htmem⟩

theorem bitDone_ever_fail {k : Kind} {s : State} (hrun : s.psv.power = .run)
    (hprog : s.stc.prog = some (.bit (.ever k))) (hfew : s.stc.failCount < 2) :
    ∃ t, exec (.programBitDone false) s = .next t ∧ t.flash = s.flash ∧ t.stc.copy = s.stc.copy ∧
      t.stc.failCount = s.stc.failCount + 1 ∧ t.bat = s.bat ∧ t.exc.mem = s.exc.mem := by
  obtain ⟨t, ht, htflash, -, -, -, htbat, htmem, -, htstc, -⟩ := exec_programOver _ s (countFailure s)
    ((bitDone_exec hprog false).trans (congrArg (fun x => done (afterStore x)) (bitEnds_fail hfew))) hrun
  exact ⟨t, ht, htflash, htstc.copy, htstc.fail, htbat, htmem⟩

/-- The save that commissioning asks for is in the queue, since the bit's program still runs. -/
theorem saveQueued_commissioned {s : State} {b : BitName} (hrun : s.psv.power = .run) (hfault : s.stc.fault = false)
    (hprog : s.stc.prog = some (.bit b)) :
    ∃ q ∈ (arrive (.save .lifecycle) (requestCommissioned (lifecycleChange s))).stc.queue,
      q.op = .save .lifecycle := by
  obtain ⟨-, hstc, hpsv, -, -, -, -, -, -, -, -, hkeeps⟩ := change_parts s
  have hpower : (requestCommissioned (lifecycleChange s)).psv.power = .run := by
    rw [requestCommissioned_power, hpsv]; exact hrun
  have htaken : OpTaken (.save .lifecycle) (arrive (.save .lifecycle) (requestCommissioned (lifecycleChange s))).stc :=
    opTaken_arrive_new _ _ (fun _ _ _ => nofun) (by rw [requestCommissioned_stc, hstc.fault, hfault])
      (storeTakes_run hpower) nofun nofun
  have hstill := (outside_arrive (.save .lifecycle) (requestCommissioned (lifecycleChange s))).prog (.bit b)
    (by rw [requestCommissioned_stc]; exact hkeeps _ hprog)
  refine htaken.resolve_right ?_
  rintro ⟨p, hp, hserves⟩
  rw [hstill] at hp
  cases hp
  exact absurd hserves (by simp [serves])

/-- What commissioning leaves when its save has arrived (R129). -/
theorem arrive_commissioned {s x : State}
    (hx : arrive (.save .lifecycle) (requestCommissioned (lifecycleChange s)) = x) :
    x.psv.power = s.psv.power ∧ x.psv.inService = true ∧ x.ce.money = ⟨0, 0, 0, false, s.bat.clock / 86400⟩ ∧
      x.ee.energy = Energy.zero ∧ x.swc.set.loadLimit = false ∧ x.swc.set.lockout = false ∧ x.swc.consent = false ∧
      x.swc.tripMem = 0 ∧ (∀ k, (x.bat.kinds.get k).counter = 0) ∧ x.bat.clock = s.bat.clock := by
  obtain ⟨-, -, hpsv, hclock, henergy, hmoney, hkinds, hload, hlock, hconsent, htrip, -⟩ := change_parts s
  obtain ⟨-, hbat, hce, hapsv, hee, -, hswc, -⟩ :=
    arrive_parts (.save .lifecycle) (requestCommissioned (lifecycleChange s))
  have hpower := congrArg Psv.power hapsv
  have hservice := congrArg Psv.inService hapsv
  rw [requestCommissioned_power, hpsv] at hpower
  rw [requestCommissioned_inService, hpsv] at hservice
  rw [requestCommissioned_bat] at hbat
  rw [requestCommissioned_ce] at hce
  rw [requestCommissioned_ee] at hee
  rw [requestCommissioned_swc] at hswc
  rw [← hx, hce, hee, hswc, hbat]
  exact ⟨hpower, hservice, hmoney, henergy, hload, hlock, hconsent, htrip, hkinds, hclock⟩

theorem bitDone_commissioned {s : State} (hrun : s.psv.power = .run)
    (hprog : s.stc.prog = some (.bit .commissioned)) (hfault : s.stc.fault = false) :
    ∃ t, exec (.programBitDone true) s = .next t ∧
      t.psv.inService = true ∧ t.ce.money = ⟨0, 0, 0, false, s.bat.clock / 86400⟩ ∧ t.ee.energy = Energy.zero ∧
      t.swc.set.loadLimit = false ∧ t.swc.set.lockout = false ∧ t.swc.consent = false ∧ t.swc.tripMem = 0 ∧
      (∀ k, (t.bat.kinds.get k).counter = 0) ∧ SaveTaken .lifecycle t.stc ∧ t.bat.clock = s.bat.clock := by
  obtain ⟨hpower, hservice, hmoney, henergy, hload, hlock, hconsent, htrip, hkinds, hclock⟩ :=
    arrive_commissioned (s := putBit .commissioned (countPass s)) rfl
  have hqueued := saveQueued_commissioned (s := putBit .commissioned (countPass s)) hrun hfault hprog
  have hexec : exec (.programBitDone true) s = done (afterStore (programOver
      (arrive (.save .lifecycle) (requestCommissioned (lifecycleChange (putBit .commissioned (countPass s))))))) :=
    (bitDone_exec hprog true).trans rfl
  generalize arrive (.save .lifecycle) (requestCommissioned (lifecycleChange (putBit .commissioned (countPass s)))) = x
    at *
  obtain ⟨t, ht, -, htee, htce, htswc, htbat, -, -, -, htpsv, -, hstc⟩ :=
    exec_programOver _ s x hexec (hpower.trans hrun)
  refine ⟨t, ht, ?_⟩
  rw [htee, htce, htswc, htbat, htpsv, hstc]
  exact ⟨hservice, hmoney, henergy, hload, hlock, hconsent, htrip, hkinds,
    opTaken_save (opTaken_run _ (fun _ _ _ => nofun) nofun (.inl hqueued)), hclock⟩

theorem bitDone_key {q : LifecycleReq} {i : Fin 16} {s : State} (hrun : s.psv.power = .run)
    (hprog : s.stc.prog = some (.bit .keyInstalled)) (hreq : s.psv.req = some q) (hslot : q.slot = some i)
    (hlive : s.exc.live = true) : ∃ t, exec (.programBitDone true) s = .next t ∧
      t.psv = { s.psv with req := none } ∧ t.exc.mem = doneMem i .ok 0 0 [] s.exc.mem ∧
      t.exc.control = ⟨s.exc.control.queue.tail, false⟩ := by
  have hended : bitEnds .keyInstalled true s =
      programOver (finishRequest q .ok [] (putBit .keyInstalled (countPass s))) :=
    congrArg programOver (bitEnded_key_passed (s := putBit .keyInstalled (countPass s)) hreq hlive)
  obtain ⟨hpsv, -, -, -, hmem, hcontrol⟩ :=
    finishRequest_given q .ok [] (putBit .keyInstalled (countPass s)) i hslot
  obtain ⟨t, ht, -, -, -, -, -, htmem, -, -, htpsv, htcontrol, -⟩ := exec_programOver _ s _
    ((bitDone_exec hprog true).trans (congrArg (fun x => done (afterStore x)) hended))
    ((congrArg Psv.power hpsv).trans hrun)
  exact ⟨t, ht, htpsv.trans hpsv, htmem.trans hmem, htcontrol.trans hcontrol⟩

theorem bitDone_failed {b : BitName} {q : LifecycleReq} {i : Fin 16} {s : State} (hrun : s.psv.power = .run)
    (hprog : s.stc.prog = some (.bit b)) (hb : b = .keyInstalled ∨ b = .commissioned) (hreq : s.psv.req = some q)
    (hslot : q.slot = some i) (hlive : s.exc.live = true) (hfew : s.stc.failCount < 2) :
    ∃ t, exec (.programBitDone false) s = .next t ∧ t.psv = { s.psv with req := none } ∧ t.flash = s.flash ∧
      t.stc.copy = s.stc.copy ∧ t.exc.mem = doneMem i .bitFailed 0 0 (failResults q.req) s.exc.mem := by
  have hended := (bitEnds_fail (b := b) hfew).trans
    (congrArg programOver (bitEnded_failed (s := countFailure s) hb hreq hlive))
  obtain ⟨hpsv, -, -, -, hmem, -⟩ := finishRequest_given q .bitFailed (failResults q.req) (countFailure s) i hslot
  have hexact := ownersExact_fin q .bitFailed (failResults q.req) (countFailure s)
  obtain ⟨t, ht, htflash, -, -, -, -, htmem, -, htstc, htpsv, -⟩ := exec_programOver _ s _
    ((bitDone_exec hprog false).trans (congrArg (fun x => done (afterStore x)) hended))
    ((congrArg Psv.power hpsv).trans hrun)
  exact ⟨t, ht, htpsv.trans hpsv, htflash.trans hexact.flash,
    htstc.copy.trans ((congrArg Stc.copy hexact.stc :)), htmem.trans hmem⟩

/-- Settles O47. -/
theorem bitVerifySetsTheBit : Obligations.BitVerifySetsTheBit := by
  intro b s hrun hprog
  refine ⟨bitDone_pass hrun hprog, fun k hb => ?_, fun hb hfault => ?_, fun q i hreq hslot hlive => ⟨fun hb => ?_, ?_⟩,
    fun k hb hfew => ?_⟩
  case refine_1 => exact bitDone_ever hrun (hb ▸ hprog)
  case refine_2 => exact bitDone_commissioned hrun (hb ▸ hprog) hfault
  case refine_3 => exact bitDone_key hrun (hb ▸ hprog) hreq hslot hlive
  case refine_4 => exact fun hb hfew => bitDone_failed hrun hprog hb hreq hslot hlive hfew
  case refine_5 => exact bitDone_ever_fail hrun (hb ▸ hprog) hfew

end Sys2Proof.Machine

/-! PROOF. The end of an erase: O48 (R142 to R144). -/

namespace Sys2Proof.Machine

open Sys2Proof

section Erases

variable {e : EraseRun} {s : State}

theorem eraseDone_exec (hrun : s.stc.erase = some e) (hactive : e.suspended = false) (hreuse : e.startup = false)
    (pass : Bool) :
    exec (.eraseBlockDone pass) s = done (afterStore (if pass then erasePasses e s else eraseFails e s)) := by
  show done (eraseDone pass s) = _
  unfold eraseDone
  rw [hrun]
  simp only [hactive, hreuse, Bool.false_eq_true, if_false]

/-! ### The verify passes (R142) -/

/-- The state in which the block of a running erase is fully erased and the erase has ended. -/
def blockErased (e : EraseRun) (s : State) : State := eraseOver (eraseBlock e.block (countPass s))

theorem erasePasses_save (hreuse : e.startup = false) (hsave : e.block < 2) :
    erasePasses e s = recount (blockErased e s) := by
  unfold erasePasses
  simp only [hreuse, hsave, Bool.false_eq_true, if_false, if_true]
  rfl

theorem erasePasses_entry (hreuse : e.startup = false) (hentry : 2 ≤ e.block) :
    erasePasses e s = putHead (blockArea e.block)
      { headOfArea s (blockArea e.block) with count := (headOfArea s (blockArea e.block)).count - e.good }
      (blockErased e s) := by
  unfold erasePasses lowerHead
  simp only [hreuse, if_neg (show ¬ e.block < 2 by omega), Bool.false_eq_true, if_false]
  cases blockArea e.block <;> rfl

theorem blockErased_flash_save (hsave : e.block < 2) : (blockErased e s).flash =
    { s.flash with records := mapBlock e.block (fun _ _ => .erased) s.flash.records } := by
  simp only [blockErased, eraseOver, eraseBlock, if_pos hsave]
  rfl

theorem blockErased_flash_entry (hentry : 2 ≤ e.block) : (blockErased e s).flash =
    putPlaces s.flash (blockArea e.block)
      (clearBlock (placesOf s.flash (blockArea e.block)) (e.block - areaFirst (blockArea e.block))) := by
  simp only [blockErased, eraseOver, eraseBlock, if_neg (show ¬ e.block < 2 by omega)]
  rfl

theorem eraseDone_pass_save (hpower : s.psv.power = .run) (hrun : s.stc.erase = some e) (hactive : e.suspended = false)
    (hreuse : e.startup = false) (hsave : e.block < 2) : ∃ t, exec (.eraseBlockDone true) s = .next t ∧
      t.flash = { s.flash with records := mapBlock e.block (fun _ _ => .erased) s.flash.records } ∧
      t.tmoHead = s.tmoHead ∧ t.ee.head = s.ee.head ∧ t.stc.failCount = 0 ∧ t.flash.bits = s.flash.bits ∧
      t.ee.energy = s.ee.energy ∧ t.ce = s.ce ∧ t.swc = s.swc ∧ t.bat = s.bat ∧ t.exc.mem = s.exc.mem := by
  obtain ⟨hexc, hbat, hce, hpsv, hee, -, hswc, hflash, htmo, hstc, -⟩ := recount_parts (blockErased e s)
  obtain ⟨t, ht, htflash, htee, htce, htswc, htbat, htmem, httmo, htstc, -⟩ :=
    exec_afterStore _ s (recount (blockErased e s))
      ((eraseDone_exec hrun hactive hreuse true).trans
        (congrArg (fun x => done (afterStore x)) (erasePasses_save hreuse hsave)))
      ((congrArg Psv.power hpsv).trans hpower)
  have hafter := (htflash.trans hflash).trans (blockErased_flash_save hsave)
  have hsame := htee.trans hee
  exact ⟨t, ht, hafter, httmo.trans htmo, (congrArg Ee.head hsame :), htstc.fail.trans hstc.fail,
    (congrArg Flash.bits hafter :), (congrArg Ee.energy hsame :), htce.trans hce, htswc.trans hswc, htbat.trans hbat,
    htmem.trans (congrArg Exc.mem hexc)⟩

theorem eraseDone_pass_entry (hpower : s.psv.power = .run) (hrun : s.stc.erase = some e) (hactive : e.suspended = false)
    (hreuse : e.startup = false) (hentry : 2 ≤ e.block) : ∃ t, exec (.eraseBlockDone true) s = .next t ∧
      t.flash = putPlaces s.flash (blockArea e.block)
        (clearBlock (placesOf s.flash (blockArea e.block)) (e.block - areaFirst (blockArea e.block))) ∧
      headOfArea t (blockArea e.block) =
        { headOfArea s (blockArea e.block) with count := (headOfArea s (blockArea e.block)).count - e.good } ∧
      t.stc.failCount = 0 ∧ t.flash.bits = s.flash.bits ∧ t.ee.energy = s.ee.energy ∧ t.ce = s.ce ∧ t.swc = s.swc ∧
      t.bat = s.bat ∧ t.exc.mem = s.exc.mem := by
  have hpasses := erasePasses_entry (s := s) hreuse hentry
  generalize { headOfArea s (blockArea e.block) with
    count := (headOfArea s (blockArea e.block)).count - e.good : Head } = lowered at *
  obtain ⟨henergy, hce, hswc, hbat, hexc, hstc, hflash, hpsv, -⟩ :=
    putHead_parts (blockArea e.block) lowered (blockErased e s)
  obtain ⟨t, ht, htflash, htee, htce, htswc, htbat, htmem, httmo, htstc, -⟩ := exec_afterStore _ s _
    ((eraseDone_exec hrun hactive hreuse true).trans (congrArg (fun x => done (afterStore x)) hpasses))
    ((congrArg Psv.power hpsv).trans hpower)
  have hafter := (htflash.trans hflash).trans (blockErased_flash_entry hentry)
  refine ⟨t, ht, hafter, (headOfArea_congr _ httmo htee).trans (headOfArea_putHead _ _ _), ?_, ?_,
    (congrArg Ee.energy htee).trans henergy, htce.trans hce, htswc.trans hswc, htbat.trans hbat,
    htmem.trans (congrArg Exc.mem hexc)⟩
  · exact htstc.fail.trans (congrArg Stc.failCount hstc)
  · rw [hafter]
    exact (putPlaces_parts _ _ _).1

/-! ### The verify fails (R143, R144) -/

/-- What a failed erase leaves in an entry block: the records, the bits, and the other area stay as they are. -/
theorem remnants_entry {block : Nat} (failed : Bool) (s : State) (hentry : 2 ≤ block) :
    ∃ p, remnants block failed s = drawFree { s with flash := putPlaces s.flash (blockArea block) p } := by
  unfold remnants
  simp only [if_neg (show ¬ block < 2 by omega)]
  exact ⟨_, rfl⟩

/-- The state in which a reuse erase that failed waits again, ahead of the appends that wait for it. -/
def eraseRetried (e : EraseRun) (s : State) : State :=
  eraseOver (requeue [⟨.erase e.block e.cls (some e.good), false⟩] (countFailure (remnants e.block true s)))

theorem eraseFails_retried (hreuse : e.startup = false) (hentry : 2 ≤ e.block) (hfew : s.stc.failCount < 2) :
    eraseFails e s = eraseRetried e s := by
  have hcount : failedThrice (countFailure (remnants e.block true s)) = false :=
    decide_eq_false (by show ¬ 3 ≤ s.stc.failCount + 1; omega)
  unfold eraseFails
  simp only [hcount, hreuse, if_neg (show ¬ e.block < 2 by omega), Bool.false_eq_true, if_false]
  rfl

theorem eraseDone_fail_retried (hpower : s.psv.power = .run) (hrun : s.stc.erase = some e)
    (hactive : e.suspended = false) (hreuse : e.startup = false) (hentry : 2 ≤ e.block) (hfew : s.stc.failCount < 2) :
    ∃ t, exec (.eraseBlockDone false) s = .next t ∧ t.flash.records = s.flash.records ∧
      (blockArea e.block = .log → t.flash.profile = s.flash.profile) ∧
      (blockArea e.block = .profile → t.flash.log = s.flash.log) ∧
      headOfArea t (blockArea e.block) = headOfArea s (blockArea e.block) ∧
      t.stc.failCount = s.stc.failCount + 1 ∧ EraseTaken e.block e.cls e.good t.stc ∧ t.flash.bits = s.flash.bits ∧
      t.ee.energy = s.ee.energy ∧ t.ce = s.ce ∧ t.swc = s.swc ∧ t.bat = s.bat ∧ t.exc.mem = s.exc.mem := by
  obtain ⟨p, hp⟩ := remnants_entry true s hentry
  have hfails := eraseFails_retried hreuse hentry hfew
  unfold eraseRetried at hfails
  rw [hp] at hfails
  obtain ⟨hbits, hrecords, hlog, hprofile⟩ := putPlaces_parts s.flash (blockArea e.block) p
  obtain ⟨t, ht, htflash, htee, htce, htswc, htbat, htmem, httmo, htstc, -, hstc⟩ := exec_afterStore _ s _
    ((eraseDone_exec hrun hactive hreuse false).trans (congrArg (fun x => done (afterStore x)) hfails)) hpower
  refine ⟨t, ht, ?_, fun ha => ?_, fun ha => ?_, headOfArea_congr _ httmo htee, htstc.fail, ?_, ?_,
    congrArg Ee.energy htee, htce, htswc, htbat, htmem⟩
  · exact (congrArg Flash.records htflash).trans hrecords
  · exact (congrArg Flash.profile htflash).trans (hlog ha)
  · exact (congrArg Flash.log htflash).trans (hprofile ha)
  · rw [hstc]
    exact eraseTaken_run _ hentry ⟨_, List.mem_append_left _ (List.mem_singleton.mpr rfl), rfl⟩
  · exact (congrArg Flash.bits htflash).trans hbits

/-- With nobody waiting, the entry to FAULT empties the queue and posts its notice (R144). -/
theorem enterFault_nobody (body : NoticeBody) {x : State} (hpower : x.psv.power = .run) (hpkg : x.cau.pkg = none)
    (happlied : x.cau.applied = none) (hreq : x.psv.req = none) :
    enterFault [] [] body x =
      post body (stayRemoved (begunErases x.stc.queue) { x with stc := { x.stc with queue := [], fault := true } }) := by
  unfold enterFault
  dsimp only
  generalize hy : stayRemoved (begunErases x.stc.queue) _ = y
  have hypower : y.psv.power = .run := by rw [← hy]; exact hpower
  rw [tellSaves_none y (by rw [← hy]; exact hpkg) (by rw [← hy]; exact happlied) (by rw [← hy]; exact hreq),
    bitEnded_none y (by rw [← hy]; exact hreq)]
  unfold announceFault
  rw [hypower]
  rfl

/-- The state in which an erase has failed for the third time, before the store's entry to FAULT (R144). -/
def eraseFailing (e : EraseRun) (p : Places) (s : State) : State :=
  { s with
    flash := { putPlaces s.flash (blockArea e.block) p with
      removed := (putPlaces s.flash (blockArea e.block) p).removed ++ [(e.block, e.good)] },
    stc := { s.stc with failCount := s.stc.failCount + 1, startErases := [] },
    free := s.free + 1 }

theorem eraseFails_fault (hpower : s.psv.power = .run) (hentry : 2 ≤ e.block) (hmany : 2 ≤ s.stc.failCount)
    (hpkg : s.cau.pkg = none) (happlied : s.cau.applied = none) (hreq : s.psv.req = none) :
    ∃ p body, eraseFails e s = eraseOver (post body (stayRemoved (begunErases s.stc.queue)
      { eraseFailing e p s with stc := { (eraseFailing e p s).stc with queue := [], fault := true } })) := by
  obtain ⟨p, hp⟩ := remnants_entry true s hentry
  have hcount : failedThrice (countFailure (remnants e.block true s)) = true :=
    decide_eq_true (by show 3 ≤ s.stc.failCount + 1; omega)
  have hleaves : leavesRemoved e = [(e.block, e.good)] := if_pos hentry
  refine ⟨p, .storeFault 4 (blockRegion e.block) e.block 0, ?_⟩
  unfold eraseFails
  simp only [hcount, if_true, hleaves]
  rw [hp]
  exact congrArg eraseOver (enterFault_nobody _ (x := eraseFailing e p s) hpower hpkg happlied hreq)

theorem eraseDone_fail_fault (hpower : s.psv.power = .run) (hrun : s.stc.erase = some e)
    (hactive : e.suspended = false) (hreuse : e.startup = false) (hentry : 2 ≤ e.block) (hmany : 2 ≤ s.stc.failCount)
    (hpkg : s.cau.pkg = none) (happlied : s.cau.applied = none) (hreq : s.psv.req = none) :
    ∃ t, exec (.eraseBlockDone false) s = .next t ∧ t.stc.fault = true ∧ t.stc.queue = [] ∧ t.stc.erase = none ∧
      (e.block, e.good) ∈ t.flash.removed ∧ t.flash.bits = s.flash.bits ∧ t.ee.energy = s.ee.energy ∧ t.ce = s.ce ∧
      t.swc = s.swc ∧ t.bat = s.bat ∧ t.exc.mem = s.exc.mem := by
  obtain ⟨p, body, hfails⟩ := eraseFails_fault hpower hentry hmany hpkg happlied hreq
  obtain ⟨t, ht, htflash, htee, htce, htswc, htbat, htmem, -, -, -, hstc⟩ := exec_afterStore _ s _
    ((eraseDone_exec hrun hactive hreuse false).trans (congrArg (fun x => done (afterStore x)) hfails)) hpower
  rw [runArbiter_empty _ rfl] at hstc
  refine ⟨t, ht, (congrArg Stc.fault hstc :), (congrArg Stc.queue hstc :), (congrArg Stc.erase hstc :), ?_, ?_,
    (congrArg Ee.energy htee :), htce, htswc, htbat, htmem.trans (post_exc_parts body _).1⟩
  · rw [htflash]
    exact List.mem_append_left _ (List.mem_append_right _ (List.mem_singleton.mpr rfl))
  · rw [htflash]
    exact (putPlaces_parts s.flash (blockArea e.block) p).1

end Erases

/-- Settles O48. -/
theorem eraseVerifyFreesTheBlock : Obligations.EraseVerifyFreesTheBlock := fun _ _ hpower hrun hactive hreuse =>
  ⟨eraseDone_pass_save hpower hrun hactive hreuse, eraseDone_pass_entry hpower hrun hactive hreuse,
    eraseDone_fail_retried hpower hrun hactive hreuse, eraseDone_fail_fault hpower hrun hactive hreuse⟩

end Sys2Proof.Machine

/-! PROOF. The edges of the power inputs: O51 (R150, R151, R153, R155). -/

namespace Sys2Proof.Machine

open Sys2Proof

theorem mainsJudged_iff (v : PerPhase Nat) : mainsJudged v = true ↔ 15000 ≤ v.a ∨ 15000 ≤ v.b ∨ 15000 ≤ v.c := by
  simp [mainsJudged, anyPhase, or_assoc]

theorem mainsJudged_not_iff (v : PerPhase Nat) :
    mainsJudged v = false ↔ ¬ (15000 ≤ v.a ∨ 15000 ≤ v.b ∨ 15000 ≤ v.c) := by
  rw [← mainsJudged_iff, Bool.not_eq_true]

/-! ### The settle (R155) -/

theorem beginSettle_begins {s : State} (hpower : s.psv.power = .battery) (hseq : s.psv.seq = none)
    (hmains : s.psv.mainsPresent = true) (hfailing : s.psv.failing = false) :
    beginSettle s = setSettle (startTimer 2) s := by
  unfold beginSettle
  rw [hpower, hseq, hmains, hfailing]
  rfl

theorem beginSettle_waits {s : State} (h : s.psv.power ≠ .battery ∨ s.psv.seq ≠ none ∨ s.psv.mainsPresent = false ∨
    s.psv.failing = true) : beginSettle s = s := by
  refine if_neg fun hall => ?_
  simp only [Bool.and_eq_true, beq_iff_eq, Option.isNone_iff_eq_none, Bool.not_eq_true'] at hall
  obtain ⟨⟨⟨hpower, hseq⟩, hmains⟩, hfailing⟩ := hall
  rcases h with h | h | h | h
  · exact h hpower
  · exact h hseq
  · rw [hmains] at h; exact absurd h (by decide)
  · rw [hfailing] at h; exact absurd h (by decide)

theorem stopSettle_held {s : State} (h : s.psv.battery = true) : stopSettle s = setSettle Timer.stopped s := by
  unfold stopSettle; exact if_pos h

theorem stopSettle_lost {s : State} (h : s.psv.battery = false) :
    stopSettle s = domainLost (setSettle Timer.stopped s) := by
  unfold stopSettle; exact if_neg (by rw [show (setSettle Timer.stopped s).psv.battery = s.psv.battery from rfl, h]; simp)

/-! ### Mains presence (R151) -/

theorem mainsAppear_still {v : PerPhase Nat} {s : State} (h : s.psv.mainsPresent = true ∨ mainsJudged v = false) :
    mainsAppear v s = s := by
  unfold mainsAppear
  rcases h with h | h <;> rw [h] <;> simp

theorem mainsAppear_judged {v : PerPhase Nat} {s : State} {p : Power} (hmains : s.psv.mainsPresent = false)
    (hjudged : mainsJudged v = true) (hp : (if s.psv.power = .off then .battery else s.psv.power) = p) :
    mainsAppear v s = beginSettle { s with psv := { s.psv with mainsPresent := true, power := p } } := by
  unfold mainsAppear
  rw [hmains, hjudged, ← hp]
  cases hpower : s.psv.power <;> simp [hpower, setPower]

theorem mainsEnd_still {v : PerPhase Nat} {s : State} (h : s.psv.mainsPresent = false ∨ mainsJudged v = true) :
    mainsEnd v s = s := by
  unfold mainsEnd
  rcases h with h | h <;> rw [h] <;> simp

theorem mainsEnd_settling {v : PerPhase Nat} {s : State} (hmains : s.psv.mainsPresent = true)
    (hjudged : mainsJudged v = false) (hpower : s.psv.power = .battery) (hseq : s.psv.seq = none) :
    mainsEnd v s = stopSettle { s with psv := { s.psv with mainsPresent := false } } := by
  unfold mainsEnd
  rw [hmains, hjudged]
  exact (if_pos rfl).trans (if_pos (by simp [hpower, hseq]))

theorem mainsEnd_noted {v : PerPhase Nat} {s : State} (hmains : s.psv.mainsPresent = true)
    (hjudged : mainsJudged v = false) (h : s.psv.power ≠ .battery ∨ s.psv.seq ≠ none) :
    mainsEnd v s = { s with psv := { s.psv with mainsPresent := false } } := by
  unfold mainsEnd
  rw [hmains, hjudged]
  refine (if_pos rfl).trans (if_neg ?_)
  simp only [Bool.and_eq_true, beq_iff_eq, Option.isNone_iff_eq_none]
  exact fun hall => h.elim (fun hp => hp hall.1) (fun hs => hs hall.2)

/-! ### The mains-failing input and the battery (R150, R155) -/

theorem failingAssert_settling {s : State} (hfailing : s.psv.failing = false) (hpower : s.psv.power = .battery)
    (hseq : s.psv.seq = none) : failingAssert s = stopSettle { s with psv := { s.psv with failing := true } } := by
  unfold failingAssert
  rw [hfailing]
  simp only [Bool.false_eq_true, if_false, hpower, hseq]

theorem batteryExhausted_lost {s : State} (hpower : s.psv.power = .battery) (hmains : s.psv.mainsPresent = false) :
    batteryExhausted s = domainLost { s with psv := { s.psv with battery := false } } := by
  unfold batteryExhausted
  exact if_pos (by simp [hpower, hmains])

theorem batteryExhausted_noted {s : State} (h : s.psv.power ≠ .battery ∨ s.psv.mainsPresent = true) :
    batteryExhausted s = { s with psv := { s.psv with battery := false } } := by
  unfold batteryExhausted
  refine if_neg ?_
  simp only [Bool.and_eq_true, beq_iff_eq, Bool.not_eq_true']
  rintro ⟨hpower, hmains⟩
  exact h.elim (fun hp => hp hpower) (fun hm => by rw [hmains] at hm; exact absurd hm (by decide))

/-! ### The supply collapses in HOLD (R153) -/

theorem supplyCollapse_elsewhere {s : State} (h : s.psv.power ≠ .hold) : supplyCollapse s = s :=
  if_neg (by simpa using h)

theorem supplyCollapse_hold {s : State} (h : s.psv.power = .hold) : supplyCollapse s = finishHold (cutStore s) :=
  if_pos (by rw [h]; rfl)

theorem cutStore_record {s : State} {saves : List SaveKind} {image : SaveRecord}
    (hprog : s.stc.prog = some (.record saves image)) : cutStore s =
      { s with
        flash := { s.flash with
          records := s.flash.records.set (8 * s.stc.curBlock + s.stc.nextPlace) .damaged,
          removed := s.flash.removed ++ begunErases s.stc.queue },
        stc := { s.stc with nextPlace := s.stc.nextPlace + 1, queue := [] } } := by
  unfold cutStore cutProgram
  rw [hprog]
  rfl

theorem supplyCollapse_record {s : State} {saves : List SaveKind} {image : SaveRecord} (hpower : s.psv.power = .hold)
    (hprog : s.stc.prog = some (.record saves image)) (herase : s.stc.erase = none) (hbattery : s.psv.battery = true) :
    ∃ t, exec .supplyCollapse s = .next t ∧ t.psv.power = .battery ∧ t.stc.prog = none ∧ t.stc.queue = [] ∧
      t.flash = { s.flash with
        records := s.flash.records.set (8 * s.stc.curBlock + s.stc.nextPlace) .damaged,
        removed := s.flash.removed ++ begunErases s.stc.queue } ∧
      t.exc.attn = false ∧ t.exc.wake = false ∧ t.ce = s.ce ∧ t.bat = s.bat := by
  have hcut := cutStore_record hprog
  have hexec : exec .supplyCollapse s = done (finishHold (cutStore s)) :=
    congrArg done (supplyCollapse_hold hpower)
  have hbattery' : (cutStore s).psv.battery = true := by rw [hcut]; exact hbattery
  have herase' : (cutStore s).stc.erase = none := by rw [hcut]; exact herase
  obtain ⟨t, ht, htpower, htflash, htstc, hattn, hwake, -, -, htce, htbat⟩ :=
    finishHold_refresh _ s (cutStore s) hexec hbattery'
  obtain ⟨hflash, hprog'⟩ := interruptStore_free herase'
  have hqueue : (interruptStore (cutDrives (cutStore s))).stc.queue = [] := by
    rw [interruptStore_queue, (cutDrives_frame _).2.1, hcut]
  refine ⟨t, ht, htpower, (congrArg Stc.prog htstc).trans hprog', (congrArg Stc.queue htstc).trans hqueue, ?_, hattn,
    hwake, ?_, ?_⟩
  · rw [htflash, hflash, hcut]
  · rw [htce, hcut]
  · rw [htbat, hcut]

/-- Settles O51. -/
theorem powerEdgesMoveTheState : Obligations.PowerEdgesMoveTheState := by
  intro s v put fed noted left lost
  have lost_of : ∀ c p, (exec c s = .next (refresh (domainLost (put p))) ∨
      exec c s = .next (refresh (domainLost (setSettle Timer.stopped (put p))))) → lost c p := by
    rintro c p (h | h)
    · exact ⟨_, h, domainLost_parts (put p)⟩
    · exact ⟨_, h, domainLost_parts (setSettle Timer.stopped (put p))⟩
  have hfed : mainsJudged v = true ↔ fed := mainsJudged_iff v
  have hunfed : mainsJudged v = false ↔ ¬ fed := mainsJudged_not_iff v
  refine ⟨fun h => ?_, fun hmains hf hpower hseq => ⟨fun hfailing => ?_, fun hfailing => ?_⟩,
    fun hmains hf hpower => ?_, fun h => ?_, fun hmains hf hpower hseq => ⟨fun hbat => ?_, fun hbat => ?_⟩,
    fun hmains hf h => ?_, fun hfailing hpower hseq => ⟨fun hbat => ?_, fun hbat => ?_⟩, fun hfailing => ?_,
    fun hfailing hpower hseq hmains => ?_, fun hfailing h => ?_, fun hpower hmains => ?_, fun h => ?_, fun h => ?_,
    fun saves image hpower hprog herase hbat => supplyCollapse_record hpower hprog herase hbat⟩
  case refine_1 => exact congrArg done (mainsAppear_still (h.imp_right hunfed.mpr))
  case refine_2 =>
    have hbegins := beginSettle_begins (s := put { s.psv with mainsPresent := true, power := .battery }) rfl hseq rfl
      hfailing
    exact congrArg done ((mainsAppear_judged hmains (hfed.mpr hf) (by rcases hpower with h | h <;> simp [h])).trans
      hbegins)
  case refine_3 =>
    have hwaits := beginSettle_waits (s := put { s.psv with mainsPresent := true, power := .battery })
      (.inr (.inr (.inr hfailing)))
    exact congrArg done ((mainsAppear_judged hmains (hfed.mpr hf) (by rcases hpower with h | h <;> simp [h])).trans
      hwaits)
  case refine_4 =>
    have hwaits := beginSettle_waits (s := put { s.psv with mainsPresent := true })
      (.inl (by rcases hpower with h | h <;> simp [put, h]))
    exact congrArg done ((mainsAppear_judged hmains (hfed.mpr hf) (by rcases hpower with h | h <;> simp [h])).trans
      hwaits)
  case refine_5 => exact congrArg done (mainsEnd_still (h.imp_right hfed.mpr))
  case refine_6 =>
    exact congrArg done ((mainsEnd_settling hmains (hunfed.mpr hf) hpower hseq).trans
      (stopSettle_held (s := put { s.psv with mainsPresent := false }) hbat))
  case refine_7 =>
    exact ⟨_, congrArg done ((mainsEnd_settling hmains (hunfed.mpr hf) hpower hseq).trans
      (stopSettle_lost (s := put { s.psv with mainsPresent := false }) hbat)), domainLost_parts _⟩
  case refine_8 => exact congrArg done (mainsEnd_noted hmains (hunfed.mpr hf) h)
  case refine_9 =>
    exact congrArg done ((failingAssert_settling hfailing hpower hseq).trans
      (stopSettle_held (s := put { s.psv with failing := true }) hbat))
  case refine_10 =>
    exact lost_of _ _ (.inr (congrArg done ((failingAssert_settling hfailing hpower hseq).trans
      (stopSettle_lost (s := put { s.psv with failing := true }) hbat))))
  case refine_11 => exact congrArg done (if_neg (by rw [hfailing]; simp))
  case refine_12 => exact congrArg done ((if_pos hfailing).trans
    (beginSettle_begins (s := put { s.psv with failing := false }) hpower hseq hmains rfl))
  case refine_13 =>
    exact congrArg done ((if_pos hfailing).trans
      (beginSettle_waits (s := put { s.psv with failing := false }) (h.imp_right (Or.imp_right .inl))))
  case refine_14 => exact lost_of _ _ (.inl (congrArg done (batteryExhausted_lost hpower hmains)))
  case refine_15 => exact congrArg done (batteryExhausted_noted h)
  case refine_16 => exact congrArg done (supplyCollapse_elsewhere h)

end Sys2Proof.Machine

/-! PROOF. HOLD begins and ends: O49, O50 (R146, R152, R153, R160). -/

namespace Sys2Proof.Machine

open Sys2Proof

/-! ### The steps of HOLD -/

theorem holdContinue_waits {x : State} (h : holdReady x.stc = false) : holdContinue x = x := by
  unfold holdContinue; rw [h, Bool.and_false]; rfl

theorem canSave_discardWaiting (x : State) : canSave (discardWaiting x) = canSave x := rfl

theorem canSave_iff {x : State} : canSave x = true ↔ x.stc.fault = false ∧ 1 ≤ erasedPlaces x.stc x.flash := by
  simp [canSave]

theorem holdContinue_saves {x : State} (hwait : x.psv.holdWait = true) (hready : holdReady x.stc = true)
    (hsave : canSave x = true) : holdContinue x = beginPowerFail (discardWaiting x) := by
  unfold holdContinue
  rw [hwait, hready]
  exact (if_pos rfl).trans (if_pos ((canSave_discardWaiting x).trans hsave))

theorem holdContinue_ends {x : State} (hwait : x.psv.holdWait = true) (hready : holdReady x.stc = true)
    (hsave : canSave x = false) : holdContinue x = finishHold (discardWaiting x) := by
  unfold holdContinue
  rw [hwait, hready]
  exact (if_pos rfl).trans (if_neg (by rw [canSave_discardWaiting, hsave]; simp))

theorem holdReady_idle {t : Stc} (hprog : t.prog = none) (herase : t.erase = none) : holdReady t = true := by
  simp [holdReady, hprog, herase]

theorem holdReady_suspended {t : Stc} {e : EraseRun} (hprog : t.prog = none) (herase : t.erase = some e)
    (hsuspended : e.suspended = true) : holdReady t = true := by
  simp [holdReady, hprog, herase, hsuspended]

theorem holdReady_erasing {t : Stc} {e : EraseRun} (herase : t.erase = some e) (hactive : e.suspended = false) :
    holdReady t = false := by
  simp [holdReady, herase, hactive]

theorem holdReady_programming {t : Stc} {p : Prog} (hprog : t.prog = some p) : holdReady t = false := by
  simp [holdReady, hprog]

theorem notesAtHold_bat (s : State) : (notesAtHold s).bat = { s.bat with notes := (notesAtHold s).bat.notes } := by
  have hone : ∀ (x : State) (k : Kind), (noteAtHold x k).bat = { x.bat with notes := (noteAtHold x k).bat.notes } := by
    intro x k
    unfold noteAtHold
    split <;> rfl
  have hall : ∀ (l : List Kind) (x : State),
      (l.foldl noteAtHold x).bat = { x.bat with notes := (l.foldl noteAtHold x).bat.notes } := by
    intro l
    induction l with
    | nil => intro x; rfl
    | cons k rest ih =>
      intro x
      have h := ih (noteAtHold x k)
      rw [hone x k] at h
      exact h
  exact hall kinds s

/-- The state in which HOLD has been entered, before the store's steps (R152 steps 1 and 2). -/
def holdEntered (s : State) : State :=
  notesAtHold (flagInterval (fun g => { g with powerOut := true }) { s with
    psv := { s.psv with
      power := .hold, holdWait := true, seq := none, dropped := none, startNotices := [], settle := Timer.stopped },
    exc := { s.exc with live := false } })

/-- The interval in progress, marked with the outage (R21). -/
def outageInterval (s : State) : Option Interval :=
  s.ee.interval.map fun v => { v with flags := { v.flags with powerOut := true } }

theorem holdEntered_parts (s : State) :
    (holdEntered s).toModules = { s.toModules with ee := { s.ee with interval := outageInterval s } } ∧
      (holdEntered s).psv = { s.psv with
        power := .hold, holdWait := true, seq := none, dropped := none, startNotices := [], settle := Timer.stopped } ∧
      (holdEntered s).flash = s.flash ∧ (holdEntered s).exc = { s.exc with live := false } ∧
      (holdEntered s).bat = { s.bat with notes := (holdEntered s).bat.notes } := by
  have h := notesFrame_notes (flagInterval (fun g => { g with powerOut := true }) { s with
    psv := { s.psv with
      power := .hold, holdWait := true, seq := none, dropped := none, startNotices := [], settle := Timer.stopped },
    exc := { s.exc with live := false } })
  exact ⟨h.mods, h.psv, h.flash, h.exc, notesAtHold_bat _⟩

section Hold

variable {s : State}

/-- The state at which the mains-failing input begins HOLD: in RUN the outage begins now. -/
def failingNoted (s : State) : State :=
  { s with
    psv := { s.psv with failing := true },
    bat := { s.bat with holdBegin := if s.psv.power = .run then some s.bat.clock else s.bat.holdBegin } }

theorem failingAssert_hold (hfailing : s.psv.failing = false)
    (h : s.psv.power = .run ∨ (s.psv.power = .battery ∧ ∃ q, s.psv.seq = some q ∧ 3 ≤ q.next)) :
    failingAssert s = holdContinue (holdEntered (failingNoted s)) := by
  unfold failingAssert failingNoted
  rw [hfailing]
  rcases h with hrun | ⟨hbattery, q, hseq, hlate⟩
  · simp only [Bool.false_eq_true, if_false, hrun, if_true]
    rfl
  · simp only [Bool.false_eq_true, if_false, hbattery, hseq, if_pos hlate, reduceCtorEq]
    rfl

theorem failingAssert_abandons {q : StartSeq} (hfailing : s.psv.failing = false) (hpower : s.psv.power = .battery)
    (hseq : s.psv.seq = some q) (hearly : q.next ≤ 2) : failingAssert s =
      stopSettle { s with
        toModules := s.psv.dropped.getD s.toModules,
        psv := { s.psv with failing := true, seq := none, dropped := none, startNotices := [] } } := by
  unfold failingAssert
  rw [hfailing]
  simp only [Bool.false_eq_true, if_false, hpower, hseq, if_neg (show ¬ 3 ≤ q.next by omega)]
  rfl

/-- What the entry to HOLD leaves of a state (R152 steps 1 and 2). -/
structure HoldBegun (s x : State) : Prop where
  stc : x.stc = s.stc
  ce : x.ce = s.ce
  swc : x.swc = s.swc
  energy : x.ee.energy = s.ee.energy
  interval : x.ee.interval = outageInterval s
  flash : x.flash = s.flash
  live : x.exc.live = false
  power : x.psv.power = .hold
  wait : x.psv.holdWait = true
  failing : x.psv.failing = true
  seq : x.psv.seq = none
  battery : x.psv.battery = s.psv.battery
  bat : x.bat = { s.bat with
    holdBegin := if s.psv.power = .run then some s.bat.clock else s.bat.holdBegin, notes := x.bat.notes }

theorem failingAssert_begun (hfailing : s.psv.failing = false)
    (h : s.psv.power = .run ∨ (s.psv.power = .battery ∧ ∃ q, s.psv.seq = some q ∧ 3 ≤ q.next)) :
    ∃ x, exec .mainsFailingAssert s = done (holdContinue x) ∧ HoldBegun s x := by
  obtain ⟨hmods, hpsv, hflash, hexc, hbat⟩ := holdEntered_parts (failingNoted s)
  refine ⟨_, congrArg done (failingAssert_hold hfailing h), ?_⟩
  generalize holdEntered (failingNoted s) = x at *
  exact {
    stc := (congrArg Modules.stc hmods :)
    ce := (congrArg Modules.ce hmods :)
    swc := (congrArg Modules.swc hmods :)
    energy := (congrArg (fun m => m.ee.energy) hmods :)
    interval := (congrArg (fun m => m.ee.interval) hmods :)
    flash := hflash
    live := (congrArg Exc.live hexc :)
    power := (congrArg Psv.power hpsv :)
    wait := (congrArg Psv.holdWait hpsv :)
    failing := (congrArg Psv.failing hpsv :)
    seq := (congrArg Psv.seq hpsv :)
    battery := (congrArg Psv.battery hpsv :)
    bat := hbat }

variable {x : State}

theorem holdBegun_holdBegin (h : HoldBegun s x) :
    x.bat.holdBegin = if s.psv.power = .run then some s.bat.clock else s.bat.holdBegin :=
  (congrArg Bat.holdBegin h.bat :)

/-- The image that the POWER_FAIL save of HOLD takes. -/
def holdImage (x : State) : SaveRecord :=
  { imageOf (discardWaiting x) with seq := x.stc.nextSeq, suspendedErase := suspendedBlock x.stc }

theorem powerFail_parts (x : State) :
    let t := refresh (beginPowerFail (discardWaiting x))
    t.stc.prog = some (.record [.powerFail] (holdImage x)) ∧ t.stc.erase = x.stc.erase ∧ t.stc.queue = [] ∧
      t.flash = { x.flash with removed := x.flash.removed ++ begunErases x.stc.queue } ∧
      t.bat = { x.bat with eraseNote := (match x.stc.erase with
        | some e => some e.block
        | none => x.bat.eraseNote) } ∧
      t.psv = { x.psv with holdWait := false } ∧ t.exc.live = x.exc.live ∧ t.ee = x.ee ∧ t.ce = x.ce ∧
      t.swc = x.swc := by
  simp only [refresh_toModules, refresh_bat, refresh_flash, refresh_psv, refresh_live]
  refine ⟨rfl, rfl, rfl, rfl, ?_, rfl, rfl, rfl, rfl, rfl⟩
  cases h : x.stc.erase <;> (simp only [discardWaiting, beginPowerFail, h]; rfl)

theorem canSave_begun (h : HoldBegun s x) (hfault : s.stc.fault = false) (hplaces : 1 ≤ erasedPlaces s.stc s.flash) :
    canSave x = true := canSave_iff.mpr (by rw [h.stc, h.flash]; exact ⟨hfault, hplaces⟩)

/-- The POWER_FAIL save begins over a suspended erase, whose block goes into the erase note (R146). -/
theorem hold_over_suspended {e : EraseRun} (hexec : exec .mainsFailingAssert s = done (holdContinue x))
    (h : HoldBegun s x) (hprog : s.stc.prog = none) (herase : s.stc.erase = some e) (hsuspended : e.suspended = true)
    (hfault : s.stc.fault = false) (hplaces : 1 ≤ erasedPlaces s.stc s.flash) :
    ∃ t image, exec .mainsFailingAssert s = .next t ∧ t.psv.power = .hold ∧ t.bat.eraseNote = some e.block ∧
      t.stc.prog = some (.record [.powerFail] image) ∧ image.suspendedErase = some e.block ∧ t.stc.erase = some e ∧
      t.stc.queue = [] ∧ t.flash = { s.flash with removed := s.flash.removed ++ begunErases s.stc.queue } := by
  have hready : holdReady x.stc = true := by rw [h.stc]; exact holdReady_suspended hprog herase hsuspended
  rw [holdContinue_saves h.wait hready (canSave_begun h hfault hplaces)] at hexec
  obtain ⟨htprog, hterase, htqueue, htflash, htbat, htpsv, -⟩ := powerFail_parts x
  rw [h.stc] at hterase htflash htbat
  refine ⟨_, holdImage x, hexec, ?_, ?_, htprog, ?_, hterase.trans herase, htqueue, ?_⟩
  · exact (congrArg Psv.power htpsv).trans h.power
  · rw [htbat, herase]
  · show suspendedBlock x.stc = _
    rw [h.stc]
    simp only [suspendedBlock, herase, hsuspended, if_true]
  · rw [htflash, h.flash]

/-- The array at rest, the POWER_FAIL save begins (R146, R152). -/
theorem hold_at_rest (hexec : exec .mainsFailingAssert s = done (holdContinue x)) (h : HoldBegun s x)
    (hprog : s.stc.prog = none) (herase : s.stc.erase = none) (hfault : s.stc.fault = false)
    (hplaces : 1 ≤ erasedPlaces s.stc s.flash) :
    ∃ t image, exec .mainsFailingAssert s = .next t ∧ t.psv.power = .hold ∧ t.psv.failing = true ∧
      t.exc.live = false ∧ t.psv.seq = none ∧ t.bat = { s.bat with
        holdBegin := if s.psv.power = .run then some s.bat.clock else s.bat.holdBegin, notes := t.bat.notes } ∧
      t.stc.prog = some (.record [.powerFail] image) ∧ t.stc.queue = [] ∧ image.money = s.ce.money ∧
      image.energy = s.ee.energy ∧ image.interval = outageInterval s ∧ image.seq = s.stc.nextSeq ∧
      t.ee.interval = outageInterval s ∧ t.ce = s.ce ∧ t.swc = s.swc ∧
      t.flash = { s.flash with removed := s.flash.removed ++ begunErases s.stc.queue } := by
  have hready : holdReady x.stc = true := by rw [h.stc]; exact holdReady_idle hprog herase
  rw [holdContinue_saves h.wait hready (canSave_begun h hfault hplaces)] at hexec
  obtain ⟨htprog, -, htqueue, htflash, htbat, htpsv, htlive, htee, htce, htswc⟩ := powerFail_parts x
  rw [h.stc, herase] at htbat
  refine ⟨_, holdImage x, hexec, (congrArg Psv.power htpsv).trans h.power, (congrArg Psv.failing htpsv).trans h.failing,
    htlive.trans h.live, (congrArg Psv.seq htpsv).trans h.seq, ?_, htprog, htqueue, congrArg Ce.money h.ce, h.energy,
    h.interval, congrArg Stc.nextSeq h.stc, (congrArg Ee.interval htee).trans h.interval, htce.trans h.ce,
    htswc.trans h.swc, ?_⟩
  · rw [htbat]
    exact h.bat
  · rw [htflash, h.flash, h.stc]

/-- A program or an erase at work is waited for: nothing of the store changes (R152 step 3). -/
theorem hold_waits (hexec : exec .mainsFailingAssert s = done (holdContinue x)) (h : HoldBegun s x)
    (hbusy : holdReady s.stc = false) : ∃ t, exec .mainsFailingAssert s = .next t ∧ t.psv.power = .hold ∧
      t.psv.holdWait = true ∧ t.psv.seq = none ∧
      t.bat.holdBegin = (if s.psv.power = .run then some s.bat.clock else s.bat.holdBegin) ∧ t.stc = s.stc ∧
      t.exc.live = false ∧ t.ee.interval = outageInterval s ∧ t.ce = s.ce ∧ t.flash = s.flash := by
  rw [holdContinue_waits (by rw [h.stc]; exact hbusy)] at hexec
  refine ⟨_, hexec, ?_⟩
  simp only [refresh_toModules, refresh_bat, refresh_flash, refresh_psv, refresh_live]
  exact ⟨h.power, h.wait, h.seq, holdBegun_holdBegin h, h.stc, h.live, h.interval, h.ce, h.flash⟩

theorem enterBattery_seq {x : State} (h : x.psv.battery = true) : (enterBattery x).psv.seq = x.psv.seq := by
  unfold enterBattery
  refine (congrArg (fun y : State => y.psv.seq) (if_pos h)).trans ?_
  unfold beginSettle
  split <;> rfl

theorem finishHold_seq {x : State} (h : x.psv.battery = true) : (finishHold x).psv.seq = x.psv.seq := by
  have hpsv : (interruptStore (cutDrives x)).psv = x.psv :=
    (interruptStore_frame _).1.trans (cutDrives_frame x).1
  unfold finishHold
  refine (enterBattery_seq ?_).trans ?_
  · exact (congrArg Psv.battery hpsv).trans h
  · exact (congrArg Psv.seq hpsv :)

/-- In FAULT nothing is saved: HOLD ends at once (R146, R153). -/
theorem hold_in_fault (hexec : exec .mainsFailingAssert s = done (holdContinue x)) (h : HoldBegun s x)
    (hprog : s.stc.prog = none) (herase : s.stc.erase = none) (hfault : s.stc.fault = true)
    (hbattery : s.psv.battery = true) : ∃ t, exec .mainsFailingAssert s = .next t ∧ t.psv.power = .battery ∧
      t.psv.holdWait = false ∧ t.psv.seq = none ∧
      t.bat.holdBegin = (if s.psv.power = .run then some s.bat.clock else s.bat.holdBegin) ∧ t.exc.live = false ∧
      t.exc.attn = false ∧ t.exc.wake = false ∧ t.exc.mem = [] ∧ t.exc.notices = [] ∧ t.ce = s.ce ∧
      t.flash = { s.flash with removed := s.flash.removed ++ begunErases s.stc.queue } ∧ t.swc.drive = none := by
  have hready : holdReady x.stc = true := by rw [h.stc]; exact holdReady_idle hprog herase
  have hsave : canSave x = false := by
    rw [← Bool.not_eq_true, canSave_iff, h.stc, hfault]; simp
  have hbattery' : (discardWaiting x).psv.battery = true := h.battery.trans hbattery
  have herase' : (discardWaiting x).stc.erase = none := by
    show x.stc.erase = none
    rw [h.stc, herase]
  rw [holdContinue_ends h.wait hready hsave] at hexec
  have hended := finishHold_ended (discardWaiting x) hbattery'
  refine ⟨_, hexec, ?_⟩
  simp only [refresh_toModules, refresh_bat, refresh_flash, refresh_psv, refresh_live, refresh_attn, refresh_wake,
    refresh_mem, refresh_notices]
  rw [hended.power, hended.wait, finishHold_seq hbattery', hended.bat, hended.exc, hended.ce, hended.flash, hended.swc,
    (interruptStore_free herase').1]
  refine ⟨rfl, rfl, h.seq, (holdBegun_holdBegin h :), rfl, rfl, rfl, rfl, rfl, h.ce, ?_, (cutDrives_frame _).2.2.2⟩
  show { x.flash with removed := x.flash.removed ++ begunErases x.stc.queue } = _
  rw [h.flash, h.stc]

/-! ### A start that is abandoned (R160) -/

theorem abandon_held {q : StartSeq} (hfailing : s.psv.failing = false) (hpower : s.psv.power = .battery)
    (hseq : s.psv.seq = some q) (hearly : q.next ≤ 2) (hbattery : s.psv.battery = true) :
    exec .mainsFailingAssert s = .next (refresh { s with
      toModules := s.psv.dropped.getD s.toModules,
      psv := { s.psv with failing := true, settle := ⟨0, false⟩, seq := none, dropped := none, startNotices := [] } }) :=
  congrArg done ((failingAssert_abandons hfailing hpower hseq hearly).trans (stopSettle_held hbattery))

theorem abandon_lost {q : StartSeq} (hfailing : s.psv.failing = false) (hpower : s.psv.power = .battery)
    (hseq : s.psv.seq = some q) (hearly : q.next ≤ 2) (hbattery : s.psv.battery = false) :
    let m := s.psv.dropped.getD s.toModules
    ∃ t, exec .mainsFailingAssert s = .next t ∧
      t.psv = { s.psv with
        failing := true, settle := ⟨0, false⟩, seq := none, dropped := none, startNotices := [], power := .off,
        mainsPresent := false, holdWait := false } ∧ t.bat = clearedDomain ∧
      t.exc.live = false ∧ t.exc.mem = [] ∧ t.stc.prog = none ∧ t.stc.erase = none ∧ t.swc.drive = none ∧
      (m.stc.prog = none → m.stc.erase = none → t.flash =
        { s.flash with removed := s.flash.removed ++ begunErases m.stc.queue }) := by
  intro m
  have hexec := congrArg done
    ((failingAssert_abandons hfailing hpower hseq hearly).trans (stopSettle_lost hbattery))
  obtain ⟨hpsv, hbat, hprog, herase, hdrive, hlive, hmem, -, -, -, hflash⟩ := domainLost_parts
    (setSettle Timer.stopped { s with
      toModules := s.psv.dropped.getD s.toModules,
      psv := { s.psv with failing := true, seq := none, dropped := none, startNotices := [] } })
  exact ⟨_, hexec, hpsv, hbat, hlive, hmem, hprog, herase, hdrive, hflash⟩

end Hold

/-- Settles O49. -/
theorem failingMainsBeginHold : Obligations.FailingMainsBeginHold := by
  intro s
  refine ⟨fun hfailing => congrArg done (if_pos hfailing), fun q hfailing hpower hseq hearly => ⟨?_, ?_⟩,
    fun hfailing hpower => ?_⟩
  case refine_1 => exact abandon_held hfailing hpower hseq hearly
  case refine_2 => exact abandon_lost hfailing hpower hseq hearly
  case refine_3 =>
    obtain ⟨x, hexec, h⟩ := failingAssert_begun hfailing hpower
    refine ⟨fun e hprog herase hsuspended hfault hplaces =>
      hold_over_suspended hexec h hprog herase hsuspended hfault hplaces, fun e herase hactive => ?_,
      hold_at_rest hexec h, fun p hprog => ?_, hold_in_fault hexec h⟩
    · obtain ⟨t, ht, htpower, htwait, -, -, htstc, htlive, -, -, htflash⟩ :=
        hold_waits hexec h (holdReady_erasing herase hactive)
      exact ⟨t, ht, htpower, htwait, htstc, htlive, htflash⟩
    · exact hold_waits hexec h (holdReady_programming hprog)

end Sys2Proof.Machine

/-! PROOF. The end of the POWER_FAIL save: O50 (R146, R153). -/

namespace Sys2Proof.Machine

open Sys2Proof

section PowerFail

variable {saves : List SaveKind} {image : SaveRecord} {s : State}

/-- The state that a passed POWER_FAIL save leaves, before HOLD ends. -/
def powerFailPassed (image : SaveRecord) (s : State) : State := programOver (countPass (putRecord (.good image) s))

/-- The state that a failed POWER_FAIL save leaves, before another is tried. -/
def powerFailFailed (v : RecordVerify) (s : State) : State :=
  programOver { putRecord .damaged s with
    stc := { (putRecord .damaged s).stc with failCount := if v = .markFails then 1 else s.stc.failCount + 1 } }

theorem recordDone_powerFail_fail {v : RecordVerify} (hpower : s.psv.power = .hold) (hwait : s.psv.holdWait = false)
    (hprog : s.stc.prog = some (.record saves image)) (hv : v ≠ .pass)
    (hfew : v = .markFails ∨ s.stc.failCount < 2) : exec (.programRecordDone v) s = done
      (if canSave (powerFailFailed v s) then beginPowerFail (powerFailFailed v s)
        else finishHold (powerFailFailed v s)) := by
  have hfails : recordEnds saves image v s = recordFails saves (countRecordFailure v (putRecord .damaged s)) := by
    cases v with
    | pass => exact absurd rfl hv
    | bodyFails => rfl
    | markFails => rfl
  have hcount : failedThrice (countRecordFailure v (putRecord .damaged s)) = false := by
    rw [countRecordFailure_eq]
    refine decide_eq_false ?_
    show ¬ 3 ≤ (if v = .markFails then 1 else s.stc.failCount + 1)
    split
    · decide
    · next hmark => have := hfew.resolve_left hmark; omega
  have hhold : ((countRecordFailure v (putRecord .damaged s)).psv.power == .hold) = true := by
    rw [countRecordFailure_eq]
    show (s.psv.power == .hold) = true
    rw [hpower]; rfl
  have hends : recordEnds saves image v s = powerFailFailed v s := by
    rw [hfails]
    unfold recordFails
    rw [hcount, hhold, countRecordFailure_eq]
    rfl
  show done (recordDone v s) = _
  unfold recordDone
  rw [hprog]
  dsimp only
  rw [hpower, hwait, hends]
  unfold afterPowerFail
  rw [decide_eq_false hv]
  rfl

/-- HOLD ends over an erase: its block is left partly erased, and stays removed (R142, R146). -/
theorem powerFail_over_erase {e : EraseRun} (hpower : s.psv.power = .hold) (hwait : s.psv.holdWait = false)
    (hprog : s.stc.prog = some (.record saves image)) (herase : s.stc.erase = some e) (hentry : 2 ≤ e.block)
    (hbattery : s.psv.battery = true) : ∃ t, exec (.programRecordDone .pass) s = .next t ∧ t.psv.power = .battery ∧
      t.stc.erase = none ∧ t.stc.prog = none ∧ t.flash.removed = s.flash.removed ++ [(e.block, e.good)] ∧
      t.flash.bits = s.flash.bits := by
  obtain ⟨t, ht, htpower, htflash, htstc, -⟩ := finishHold_refresh _ s (powerFailPassed image s)
    (recordDone_powerFail_pass saves image hpower hwait hprog) hbattery
  obtain ⟨hremoved, hbits⟩ := interruptStore_left (x := powerFailPassed image s) herase hentry
  obtain ⟨-, hprog', herase', -⟩ := interruptStore_frame (cutDrives (powerFailPassed image s))
  refine ⟨t, ht, htpower, ?_⟩
  rw [htstc, htflash]
  exact ⟨herase', hprog', hremoved, hbits⟩

theorem powerFail_pass (hpower : s.psv.power = .hold) (hwait : s.psv.holdWait = false)
    (hprog : s.stc.prog = some (.record saves image)) (herase : s.stc.erase = none) (hbattery : s.psv.battery = true) :
    ∃ t, exec (.programRecordDone .pass) s = .next t ∧ t.psv.power = .battery ∧
      t.flash = { s.flash with records := s.flash.records.set (8 * s.stc.curBlock + s.stc.nextPlace) (.good image) } ∧
      t.stc.prog = none ∧ t.exc.attn = false ∧ t.exc.wake = false ∧ t.exc.mem = [] ∧ t.exc.notices = [] ∧
      t.ce = s.ce ∧ t.bat = s.bat := by
  obtain ⟨t, ht, htpower, htflash, htstc, hattn, hwake, hmem, hnotices, htce, htbat⟩ :=
    finishHold_refresh _ s (powerFailPassed image s) (recordDone_powerFail_pass saves image hpower hwait hprog) hbattery
  obtain ⟨hflash, hprog'⟩ := interruptStore_free (x := powerFailPassed image s) herase
  exact ⟨t, ht, htpower, htflash.trans hflash, (congrArg Stc.prog htstc).trans hprog', hattn, hwake, hmem, hnotices,
    htce, htbat⟩

theorem canSave_powerFailFailed {v : RecordVerify} (hfault : s.stc.fault = false) :
    canSave (powerFailFailed v s) = decide (1 ≤ erasedPlaces { s.stc with nextPlace := s.stc.nextPlace + 1 }
      { s.flash with records := s.flash.records.set (8 * s.stc.curBlock + s.stc.nextPlace) .damaged }) := by
  show (!s.stc.fault && _) = _
  rw [hfault]
  rfl

/-- A failed save is tried again while a place is erased (R146). -/
theorem powerFail_retried {v : RecordVerify} (hpower : s.psv.power = .hold) (hwait : s.psv.holdWait = false)
    (hprog : s.stc.prog = some (.record saves image)) (hv : v ≠ .pass)
    (hfew : v = .markFails ∨ s.stc.failCount < 2) (hfault : s.stc.fault = false)
    (hplaces : 1 ≤ erasedPlaces { s.stc with nextPlace := s.stc.nextPlace + 1 }
      { s.flash with records := s.flash.records.set (8 * s.stc.curBlock + s.stc.nextPlace) .damaged }) :
    ∃ t l image', exec (.programRecordDone v) s = .next t ∧ t.psv.power = .hold ∧
      t.stc.prog = some (.record (.powerFail :: l) image') ∧ image'.money = s.ce.money ∧
      image'.energy = s.ee.energy ∧
      t.flash = { s.flash with records := s.flash.records.set (8 * s.stc.curBlock + s.stc.nextPlace) .damaged } ∧
      t.ce = s.ce := by
  have hexec := recordDone_powerFail_fail hpower hwait hprog hv hfew
  rw [if_pos ((canSave_powerFailFailed hfault).trans (decide_eq_true hplaces))] at hexec
  refine ⟨_, savesOf s.stc.queue, { imageOf (powerFailFailed v s) with
    seq := (powerFailFailed v s).stc.nextSeq, suspendedErase := suspendedBlock (powerFailFailed v s).stc }, hexec, ?_⟩
  simp only [refresh_toModules, refresh_flash, refresh_psv]
  exact ⟨hpower, rfl, rfl, rfl, rfl, rfl⟩

/-- No place being erased, HOLD ends without the save (R146, R153). -/
theorem powerFail_given_up {v : RecordVerify} (hpower : s.psv.power = .hold) (hwait : s.psv.holdWait = false)
    (hprog : s.stc.prog = some (.record saves image)) (herase : s.stc.erase = none) (hbattery : s.psv.battery = true)
    (hv : v ≠ .pass) (hfew : v = .markFails ∨ s.stc.failCount < 2) (hfault : s.stc.fault = false)
    (hplaces : erasedPlaces { s.stc with nextPlace := s.stc.nextPlace + 1 }
      { s.flash with records := s.flash.records.set (8 * s.stc.curBlock + s.stc.nextPlace) .damaged } = 0) :
    ∃ t, exec (.programRecordDone v) s = .next t ∧ t.psv.power = .battery ∧
      t.flash = { s.flash with records := s.flash.records.set (8 * s.stc.curBlock + s.stc.nextPlace) .damaged } ∧
      t.stc.prog = none ∧ t.exc.attn = false ∧ t.exc.wake = false ∧ t.ce = s.ce ∧ t.bat = s.bat := by
  have hexec := recordDone_powerFail_fail hpower hwait hprog hv hfew
  have hcannot : canSave (powerFailFailed v s) = false :=
    (canSave_powerFailFailed hfault).trans (decide_eq_false (by omega))
  rw [hcannot] at hexec
  obtain ⟨t, ht, htpower, htflash, htstc, hattn, hwake, -, -, htce, htbat⟩ :=
    finishHold_refresh _ s (powerFailFailed v s) hexec hbattery
  obtain ⟨hflash, hprog'⟩ := interruptStore_free (x := powerFailFailed v s) herase
  exact ⟨t, ht, htpower, htflash.trans hflash, (congrArg Stc.prog htstc).trans hprog', hattn, hwake, htce, htbat⟩

end PowerFail

/-- Settles O50. -/
theorem powerFailSaveEndsHold : Obligations.PowerFailSaveEndsHold := by
  refine ⟨fun saves image e s hpower hwait hprog herase hentry hbattery =>
    powerFail_over_erase hpower hwait hprog herase hentry hbattery,
    fun saves image s hpower hwait hprog herase hbattery => ?_⟩
  intro place array
  exact ⟨powerFail_pass hpower hwait hprog herase hbattery, fun v hv hfew hfault =>
    ⟨powerFail_retried hpower hwait hprog hv hfew hfault,
      powerFail_given_up hpower hwait hprog herase hbattery hv hfew hfault⟩⟩

end Sys2Proof.Machine

/-! PROOF. The first steps of a start: O52 (R147, R156, R157, R161). -/

namespace Sys2Proof.Machine

open Sys2Proof

/-- The state in which the sender asks for the steps up to n of a start in progress. -/
def startAsked (n : Nat) (v : PerPhase PhaseVolts) (s : State) : State :=
  { s with psv := { s.psv with seq := some ⟨n, n, v⟩ } }

section Start

variable {v : PerPhase PhaseVolts} {s : State}

theorem exec_startStep {n : Nat} {q : StartSeq} (hpower : s.psv.power = .battery) (hseq : s.psv.seq = some q)
    (hnext : q.next = n) (herase : s.stc.erase = none) {z : State} {m : Nat}
    (hz : startStep n v (startAsked n v s) = z) (hzseq : z.psv.seq = some ⟨m, n, v⟩) (hm : n < m) :
    exec (.settleTimerExpiry v n) s = .next (refresh z) :=
  exec_start_step v s hpower n q hseq hnext herase z hz m hzseq (.inl hm)

theorem settleExpiry_waits (hpower : s.psv.power = .battery) (hseq : s.psv.seq = none)
    (hdue : s.psv.settle.due = false) (n : Nat) : exec (.settleTimerExpiry v n) s = .next (refresh s) := by
  have h : settleExpiry v n s = s := by
    unfold settleExpiry
    rw [hpower, hseq, hdue]
    rfl
  exact congrArg done h

/-- The expiry of the settle begins the start (R156). -/
theorem settleExpiry_begins (hpower : s.psv.power = .battery) (hseq : s.psv.seq = none)
    (hdue : s.psv.settle.due = true) : exec (.settleTimerExpiry v 1) s =
      exec (.settleTimerExpiry v 1) (setSettle Timer.stopped (startAsked 1 v s)) := by
  have h : settleExpiry v 1 s = settleExpiry v 1 (setSettle Timer.stopped (startAsked 1 v s)) := by
    unfold settleExpiry
    rw [hpower, hseq, hdue, show (setSettle Timer.stopped (startAsked 1 v s)).psv.power = .battery from hpower]
    rfl
  exact congrArg done h

/-! ### Step 1 (R147, R161) -/

/-- The newest record, where one is found. -/
def loadedRecord (s : State) : Option SaveRecord := (newestRecord s.flash.records).map fun x => x.2

theorem loadStore_fault (f : Flash) (t : Stc) : (loadStore f t).fault = t.fault := by
  unfold loadStore; dsimp only; split <;> rfl

theorem loadStore_copy (f : Flash) (t : Stc) : (loadStore f t).copy = f.bits := by
  unfold loadStore; dsimp only; split <;> rfl

theorem loadStore_queue (f : Flash) (t : Stc) : (loadStore f t).queue = [] := by
  unfold loadStore; dsimp only; split <;> rfl

theorem stepLoad_parts (s : State) :
    (stepLoad s).ee = loadEe (loadedRecord s) s.ee ∧ (stepLoad s).ce = loadCe (loadedRecord s) s.ce ∧
      (stepLoad s).cau = loadCau (loadedRecord s) ∧ (stepLoad s).kps = ⟨[], Timer.stopped⟩ ∧
      (stepLoad s).rlr = loadRlr (loadedRecord s) ∧ (stepLoad s).swc = loadSwc (loadedRecord s) s.swc ∧
      (stepLoad s).stc = { loadStore s.flash s.stc with
        fault := s.stc.fault || ((loadedRecord s).isNone && s.flash.bits.commissioned) } ∧
      (stepLoad s).bat = s.bat ∧ (stepLoad s).flash = s.flash ∧
      (stepLoad s).psv.seq = s.psv.seq.map (fun q => { q with next := 2 }) ∧
      (stepLoad s).psv.inService = s.flash.bits.commissioned ∧
      (stepLoad s).psv.recordFound = (loadedRecord s).isSome := by
  rw [← loadStore_fault s.flash s.stc]
  unfold stepLoad loadedRecord
  dsimp only
  split <;> exact ⟨rfl, rfl, rfl, rfl, rfl, rfl, rfl, rfl, rfl, rfl, rfl, rfl⟩

theorem loadCau_queue (r : Option SaveRecord) : (loadCau r).queue = [] := by cases r <;> rfl

theorem loadRlr_capture (r : Option SaveRecord) : (loadRlr r).captureHeld = false := by cases r <;> rfl

theorem loadSwc_idle (r : Option SaveRecord) (w : Swc) : (loadSwc r w).sw = .unknown ∧ (loadSwc r w).drive = none := by
  cases r <;> exact ⟨rfl, rfl⟩

theorem startStep_load (hpower : s.psv.power = .battery) (hseq : s.psv.seq = none) (hdue : s.psv.settle.due = true)
    (herase : s.stc.erase = none) : ∃ t, exec (.settleTimerExpiry v 1) s = .next t ∧ t.psv.seq = some ⟨2, 1, v⟩ ∧
      t.psv.inService = s.flash.bits.commissioned ∧ t.stc.copy = s.flash.bits ∧ t.stc.queue = [] ∧
      t.swc.sw = .unknown ∧ t.swc.drive = none ∧ t.kps.buf = [] ∧ t.rlr.captureHeld = false ∧ t.cau.queue = [] ∧
      t.bat = s.bat ∧ t.flash = s.flash ∧
      (∀ n r, newestRecord s.flash.records = some (n, r) →
        t.ee.energy = r.energy ∧ t.ee.gains = r.gains ∧ t.ee.interval = r.interval ∧ t.ce.money = r.money ∧
        t.cau.codes = r.codes ∧ t.cau.settings = r.settings ∧ t.cau.lastPkg = r.lastPkg ∧ t.cau.serial = r.serial ∧
        t.cau.pendingPkg = r.pendingPkg.map (fun p => { p with released := true }) ∧
        t.cau.key = r.key ∧ t.rlr.radioAddr = r.radioAddr ∧ t.swc.set = r.set ∧ t.swc.consent = r.consent ∧
        t.swc.tripMem = r.tripMem ∧ t.stc.nextSeq = (r.seq + 1) % 4294967296 ∧ t.psv.recordFound = true ∧
        t.stc.fault = s.stc.fault) ∧
      (newestRecord s.flash.records = none →
        t.ee.energy = Energy.zero ∧ t.ee.gains = Gains.nominal ∧ t.ee.interval = none ∧ t.ce.money = Money.zero ∧
        t.cau.codes = ⟨[], 0⟩ ∧ t.cau.settings = Settings.initial ∧ t.cau.lastPkg = 0 ∧ t.cau.pendingPkg = none ∧
        t.swc.set = Reasons.empty ∧
        t.swc.consent = false ∧ t.stc.nextSeq = 1 ∧ t.psv.recordFound = false ∧
        t.stc.fault = (s.stc.fault || s.flash.bits.commissioned)) := by
  obtain ⟨hee, hce, hcau, hkps, hrlr, hswc, hstc, hbat, hflash, hzseq, hservice, hfound⟩ :=
    stepLoad_parts (setSettle Timer.stopped (startAsked 1 v s))
  have hexec := exec_startStep (z := stepLoad (setSettle Timer.stopped (startAsked 1 v s)))
    (s := setSettle Timer.stopped (startAsked 1 v s)) (m := 2) hpower rfl rfl herase rfl hzseq (show 1 < 2 by decide)
  rw [← settleExpiry_begins hpower hseq hdue] at hexec
  refine ⟨_, hexec, ?_⟩
  simp only [refresh_toModules, refresh_bat, refresh_flash, refresh_psv]
  rw [hservice, hstc, hswc, hkps, hrlr, hcau, hbat, hflash, hee, hce, hfound]
  refine ⟨hzseq, rfl, loadStore_copy _ _, loadStore_queue _ _, (loadSwc_idle _ _).1, (loadSwc_idle _ _).2, rfl,
    loadRlr_capture _, loadCau_queue _, rfl, rfl, fun n r hr => ?_, fun hr => ?_⟩
  · have hloaded : loadedRecord (setSettle Timer.stopped (startAsked 1 v s)) = some r := congrArg (Option.map _) hr
    rw [hloaded]
    refine ⟨rfl, rfl, rfl, rfl, rfl, rfl, rfl, rfl, rfl, rfl, rfl, rfl, rfl, rfl, ?_, rfl, Bool.or_false _⟩
    show (loadStore s.flash s.stc).nextSeq = _
    unfold loadStore
    dsimp only
    rw [hr]
    rfl
  · have hloaded : loadedRecord (setSettle Timer.stopped (startAsked 1 v s)) = none := congrArg (Option.map _) hr
    rw [hloaded]
    refine ⟨rfl, rfl, rfl, rfl, rfl, rfl, rfl, rfl, rfl, rfl, ?_, rfl, rfl⟩
    show (loadStore s.flash s.stc).nextSeq = _
    unfold loadStore
    dsimp only
    rw [hr]

/-! ### Step 2 (R157) -/

/-- The state in which the domain is valid and its clock has been judged, before a cold start keeps its notices. -/
def domainChecked (b : Bat) (kind : StartKind) (s : State) : State :=
  clockChecked { s with
    bat := { b with valid := true, coverMain := false, coverTerminal := false },
    psv := { s.psv with startKind := kind } }

theorem stepDomain_warm (hvalid : s.bat.valid = true) :
    stepDomain s = nextStep 3 (domainChecked s.bat .warm s) := by
  unfold stepDomain domainChecked
  simp only [hvalid, if_true]

theorem stepDomain_cold (hvalid : s.bat.valid = false) :
    stepDomain s = nextStep 3 (coldNotices (domainChecked (coldDomain (loadedRecord s) s.bat) .cold s)) := by
  unfold stepDomain domainChecked
  simp only [hvalid, Bool.false_eq_true, if_false]
  rfl

theorem domainChecked_parts (b : Bat) (kind : StartKind) (s : State) :
    let x := domainChecked b kind s
    x.bat = { b with valid := true, coverMain := false, coverTerminal := false } ∧
      x.psv = { s.psv with startKind := kind } ∧ x.flash = s.flash ∧ x.stc = s.stc ∧ x.swc = s.swc ∧
      x.ce.money = s.ce.money ∧ (b.clockValid = true → x.ce = s.ce ∧ x.ee = s.ee) ∧
      (b.clockValid = false → x.ce.window = false ∧ ∀ w, x.ee.interval = some w → w.flags.clockInvalid = true) := by
  obtain ⟨hbat, hpsv, hflash, hstc, hswc, -, -, hmoney, hvalid, hinvalid⟩ := clockChecked_parts { s with
    bat := { b with valid := true, coverMain := false, coverTerminal := false },
    psv := { s.psv with startKind := kind } }
  exact ⟨hbat, hpsv, hflash, hstc, hswc, hmoney, hvalid, hinvalid⟩

theorem startStep_warm {q : StartSeq} (hpower : s.psv.power = .battery) (hseq : s.psv.seq = some q)
    (hnext : q.next = 2) (herase : s.stc.erase = none) (hvalid : s.bat.valid = true) :
    ∃ t, exec (.settleTimerExpiry v 2) s = .next t ∧ t.psv.seq = some ⟨3, 2, v⟩ ∧
      t.bat = { s.bat with coverMain := false, coverTerminal := false } ∧ t.flash = s.flash ∧
      t.ce.money = s.ce.money ∧ (s.bat.clockValid = true → t.ce = s.ce ∧ t.ee = s.ee) ∧
      (s.bat.clockValid = false → t.ce.window = false ∧
        ∀ w, t.ee.interval = some w → w.flags.clockInvalid = true) ∧
      t.psv.startKind = .warm ∧ t.swc = s.swc ∧ t.stc = s.stc ∧ t.psv.startNotices = s.psv.startNotices := by
  obtain ⟨hbat, hpsv, hflash, hstc, hswc, hmoney, hclock, hinvalid⟩ :=
    domainChecked_parts s.bat .warm (startAsked 2 v s)
  have hexec := exec_startStep (v := v) (z := nextStep 3 (domainChecked s.bat .warm (startAsked 2 v s))) (m := 3)
    hpower hseq hnext herase (stepDomain_warm (s := startAsked 2 v s) hvalid)
    (by simp only [nextStep, hpsv]; rfl) (by decide)
  have hbat' : (domainChecked s.bat .warm (startAsked 2 v s)).bat =
      { s.bat with coverMain := false, coverTerminal := false } := by rw [hbat, ← hvalid]
  refine ⟨_, hexec, ?_⟩
  simp only [refresh_toModules, refresh_bat, refresh_flash, refresh_psv]
  refine ⟨?_, hbat', hflash, hmoney, hclock, hinvalid, ?_, hswc, hstc, ?_⟩
  · simp only [nextStep, hpsv]; rfl
  · exact (congrArg Psv.startKind hpsv :)
  · exact (congrArg Psv.startNotices hpsv :)

/-- The battery domain that a cold start leaves, apart from the kind that it declares (R157). -/
def coldBat (r : Option SaveRecord) (b : Bat) : Bat :=
  { coldDomain r b with valid := true, coverMain := false, coverTerminal := false }

theorem coldBat_parts (r : Option SaveRecord) (b : Bat) :
    (coldBat r b).valid = true ∧ (coldBat r b).coverMain = false ∧ (coldBat r b).coverTerminal = false ∧
      (coldBat r b).clock = (r.map (fun x => x.time)).getD 0 ∧ (coldBat r b).clockValid = false ∧
      (coldBat r b).clockSource = .none ∧ (coldBat r b).steerDay = (r.map (fun x => x.time)).getD 0 / 86400 ∧
      (coldBat r b).steerUsed = 0 ∧ (coldBat r b).notes = PerKind.all none ∧
      (coldBat r b).penalties = ⟨Penalty.zero, Penalty.zero, Penalty.zero⟩ ∧ (coldBat r b).eraseNote = none ∧
      (coldBat r b).holdBegin = none ∧
      (coldBat r b).kinds = (r.map (fun x => x.kinds)).getD (PerKind.all KindRec.quiet) := by
  cases r <;> exact ⟨rfl, rfl, rfl, rfl, rfl, rfl, rfl, rfl, rfl, rfl, rfl, rfl, rfl⟩

/-- What a cold start's second step leaves, whether it declares WATCH_LOST or not. -/
structure ColdStarted (v : PerPhase PhaseVolts) (s t : State) : Prop where
  seq : t.psv.seq = some ⟨3, 2, v⟩
  flash : t.flash = s.flash
  money : t.ce.money = s.ce.money
  window : t.ce.window = false
  interval : ∀ w, t.ee.interval = some w → w.flags.clockInvalid = true
  kind : t.psv.startKind = .cold

theorem startStep_cold_still {q : StartSeq} (hpower : s.psv.power = .battery) (hseq : s.psv.seq = some q)
    (hnext : q.next = 2) (herase : s.stc.erase = none) (hvalid : s.bat.valid = false)
    (hservice : s.psv.inService = false) : ∃ t, exec (.settleTimerExpiry v 2) s = .next t ∧ ColdStarted v s t ∧
      t.bat = coldBat (loadedRecord s) s.bat ∧
      t.psv.startNotices = s.psv.startNotices ++ [.clockInvalid (coldBat (loadedRecord s) s.bat).clock] := by
  obtain ⟨hbat, hpsv, hflash, hstc, hswc, hmoney, -, hinvalid⟩ :=
    domainChecked_parts (coldDomain (loadedRecord s) s.bat) .cold (startAsked 2 v s)
  obtain ⟨hwindow, hinterval⟩ := hinvalid (coldBat_parts (loadedRecord s) s.bat).2.2.2.2.1
  have hstep := stepDomain_cold (s := startAsked 2 v s) hvalid
  change stepDomain (startAsked 2 v s) =
    nextStep 3 (coldNotices (domainChecked (coldDomain (loadedRecord s) s.bat) .cold (startAsked 2 v s))) at hstep
  generalize domainChecked (coldDomain (loadedRecord s) s.bat) .cold (startAsked 2 v s) = x at *
  have hnotices : coldNotices x = keepNotice (.clockInvalid (coldBat (loadedRecord s) s.bat).clock) x := by
    unfold coldNotices
    rw [hbat]
    exact if_neg (by rw [show (keepNotice _ x).psv.inService = x.psv.inService from rfl, hpsv]; simp [startAsked, hservice])
  rw [hnotices] at hstep
  have hzseq : (nextStep 3 (keepNotice (.clockInvalid (coldBat (loadedRecord s) s.bat).clock) x)).psv.seq =
      some ⟨3, 2, v⟩ := by
    simp only [nextStep, keepNotice, hpsv]; rfl
  have hexec := exec_startStep hpower hseq hnext herase hstep hzseq (by decide)
  refine ⟨_, hexec, ⟨?_, ?_, ?_, ?_, ?_, ?_⟩, ?_⟩ <;>
    simp only [refresh_toModules, refresh_bat, refresh_flash, refresh_psv]
  · exact hzseq
  · exact hflash
  · exact hmoney
  · exact hwindow
  · exact hinterval
  · exact (congrArg Psv.startKind hpsv :)
  · refine ⟨hbat, ?_⟩
    show x.psv.startNotices ++ _ = _
    rw [hpsv]
    rfl

theorem startStep_cold_declares {q : StartSeq} (hpower : s.psv.power = .battery) (hseq : s.psv.seq = some q)
    (hnext : q.next = 2) (herase : s.stc.erase = none) (hvalid : s.bat.valid = false)
    (hservice : s.psv.inService = true) :
    let b := coldBat (loadedRecord s) s.bat
    let r := b.kinds.get .watchLost
    ∃ t, exec (.settleTimerExpiry v 2) s = .next t ∧ ColdStarted v s t ∧
      t.bat = { b with kinds := b.kinds.set .watchLost { r with
        state := .declared, count := min 65535 (r.count + 1), last := some b.clock,
        first := match r.first with
          | some t => some t
          | none => some b.clock } } ∧
      t.psv.startNotices = s.psv.startNotices ++ [.clockInvalid b.clock,
        .tamperDeclared .watchLost false r.counter (min 65535 (r.count + 1)) b.clock] ∧
      (s.stc.fault = false → SaveTaken .tamper t.stc) := by
  intro b r
  obtain ⟨hbat, hpsv, hflash, hstc, -, hmoney, -, hinvalid⟩ :=
    domainChecked_parts (coldDomain (loadedRecord s) s.bat) .cold (startAsked 2 v s)
  obtain ⟨hwindow, hinterval⟩ := hinvalid (coldBat_parts (loadedRecord s) s.bat).2.2.2.2.1
  have hstep := stepDomain_cold (s := startAsked 2 v s) hvalid
  change stepDomain (startAsked 2 v s) =
    nextStep 3 (coldNotices (domainChecked (coldDomain (loadedRecord s) s.bat) .cold (startAsked 2 v s))) at hstep
  generalize domainChecked (coldDomain (loadedRecord s) s.bat) .cold (startAsked 2 v s) = x at *
  have hnotices : coldNotices x = declareWatchLost (keepNotice (.clockInvalid x.bat.clock) x) := by
    unfold coldNotices
    exact if_pos (by rw [show (keepNotice _ x).psv.inService = x.psv.inService from rfl, hpsv]; exact hservice)
  rw [hnotices] at hstep
  have hkept : (keepNotice (.clockInvalid x.bat.clock) x).psv = { s.psv with
      seq := some ⟨2, 2, v⟩, startKind := .cold,
      startNotices := s.psv.startNotices ++ [.clockInvalid x.bat.clock] } := by
    show ({ x.psv with startNotices := x.psv.startNotices ++ [.clockInvalid x.bat.clock] } : Psv) = _
    rw [hpsv]
    rfl
  obtain ⟨hframe, hflag, hdbat, hdpsv, hsave⟩ := declareWatchLost_parts (keepNotice (.clockInvalid x.bat.clock) x)
    (by rw [hkept]; exact hpower) (by rw [hkept]; simp)
  have hkbat : (keepNotice (.clockInvalid x.bat.clock) x).bat = b := hbat
  rw [hkbat] at hdbat hdpsv
  rw [hkept] at hdpsv
  rw [show x.bat.clock = b.clock from congrArg Bat.clock hbat] at *
  generalize declareWatchLost (keepNotice (.clockInvalid b.clock) x) = y at *
  have hzseq : (nextStep 3 y).psv.seq = some ⟨3, 2, v⟩ := by simp only [nextStep, hdpsv]; rfl
  have hexec := exec_startStep hpower hseq hnext herase hstep hzseq (by decide)
  refine ⟨_, hexec, ⟨?_, ?_, ?_, ?_, ?_, ?_⟩, ?_⟩ <;>
    simp only [refresh_toModules, refresh_bat, refresh_flash, refresh_psv]
  · exact hzseq
  · exact hframe.flash.trans hflash
  · exact (congrArg Ce.money hframe.ce).trans hmoney
  · exact (congrArg Ce.window hframe.ce).trans hwindow
  · exact hflag hinterval
  · exact (congrArg Psv.startKind hdpsv :)
  · refine ⟨hdbat, ?_, fun hfault => opTaken_save (hsave ((congrArg Stc.fault hstc).trans hfault))⟩
    refine (congrArg Psv.startNotices hdpsv).trans ?_
    exact List.append_assoc _ _ _

theorem startStep_domain {q : StartSeq} (hpower : s.psv.power = .battery) (hseq : s.psv.seq = some q)
    (hnext : q.next = 2) (herase : s.stc.erase = none) :
      let r := (newestRecord s.flash.records).map (fun x => x.2)
      let time := (r.map (fun x => x.time)).getD 0
      let loaded := (r.map (fun x => x.kinds)).getD (PerKind.all KindRec.quiet)
      let lost := loaded.watchLost
      ∃ t, exec (.settleTimerExpiry v 2) s = .next t ∧ t.psv.seq = some ⟨3, 2, v⟩ ∧ t.bat.valid = true ∧
        t.bat.coverMain = false ∧ t.bat.coverTerminal = false ∧ t.flash = s.flash ∧ t.ce.money = s.ce.money ∧
        (t.bat.clockValid = true → t.ce = s.ce ∧ t.ee = s.ee) ∧
        (t.bat.clockValid = false → t.ce.window = false ∧
          ∀ w, t.ee.interval = some w → w.flags.clockInvalid = true) ∧
        (s.bat.valid = true → t.psv.startKind = .warm ∧ t.swc = s.swc ∧ t.stc = s.stc ∧
          t.bat = { s.bat with coverMain := false, coverTerminal := false } ∧
          t.psv.startNotices = s.psv.startNotices) ∧
        (s.bat.valid = false → t.psv.startKind = .cold ∧ t.bat.clock = time ∧ t.bat.clockValid = false ∧
          t.bat.clockSource = .none ∧ t.bat.steerDay = time / 86400 ∧ t.bat.steerUsed = 0 ∧
          t.bat.notes = PerKind.all none ∧ t.bat.penalties = ⟨Penalty.zero, Penalty.zero, Penalty.zero⟩ ∧
          t.bat.eraseNote = none ∧ t.bat.holdBegin = none ∧
          (s.psv.inService = false → t.bat.kinds = loaded ∧
            t.psv.startNotices = s.psv.startNotices ++ [.clockInvalid time]) ∧
          (s.psv.inService = true →
            t.bat.kinds = { loaded with watchLost := { lost with
              state := .declared, count := min 65535 (lost.count + 1), last := some time,
              first := some (lost.first.getD time) } } ∧
            (s.stc.fault = false → SaveTaken .tamper t.stc) ∧
            t.psv.startNotices = s.psv.startNotices ++ [.clockInvalid time,
              .tamperDeclared .watchLost false lost.counter (min 65535 (lost.count + 1)) time])) := by
  intro r time loaded lost
  obtain ⟨hbvalid, hbmain, hbterminal, hbclock, hbclockValid, hbsource, hbday, hbused, hbnotes, hbpenalties, hbnote,
    hbhold, hbkinds⟩ := coldBat_parts (loadedRecord s) s.bat
  cases hvalid : s.bat.valid with
  | true =>
    obtain ⟨t, ht, htseq, htbat, htflash, htmoney, htclock, htinvalid, htkind, htswc, htstc, htnotices⟩ :=
      startStep_warm (v := v) hpower hseq hnext herase hvalid
    refine ⟨t, ht, htseq, ?_, ?_, ?_, htflash, htmoney, ?_, ?_, fun _ => ⟨htkind, htswc, htstc, htbat, htnotices⟩,
      nofun⟩ <;> rw [htbat]
    · exact hvalid
    · exact htclock
    · exact htinvalid
  | false =>
    cases hservice : s.psv.inService with
    | false =>
      obtain ⟨t, ht, hcold, htbat, htnotices⟩ :=
        startStep_cold_still (v := v) hpower hseq hnext herase hvalid hservice
      rw [hbclock] at htnotices
      refine ⟨t, ht, hcold.seq, ?_, ?_, ?_, hcold.flash, hcold.money, ?_, fun _ => ⟨hcold.window, hcold.interval⟩,
        nofun, fun _ => ⟨hcold.kind, ?_⟩⟩ <;> rw [htbat]
      · exact hbvalid
      · exact hbmain
      · exact hbterminal
      · rw [hbclockValid]; nofun
      · exact ⟨hbclock, hbclockValid, hbsource, hbday, hbused, hbnotes, hbpenalties, hbnote, hbhold,
          fun _ => ⟨hbkinds, htnotices⟩, nofun⟩
    | true =>
      obtain ⟨t, ht, hcold, htbat, htnotices, htsave⟩ :=
        startStep_cold_declares (v := v) hpower hseq hnext herase hvalid hservice
      rw [hbclock, hbkinds] at htnotices htbat
      refine ⟨t, ht, hcold.seq, ?_, ?_, ?_, hcold.flash, hcold.money, ?_, fun _ => ⟨hcold.window, hcold.interval⟩,
        nofun, fun _ => ⟨hcold.kind, ?_⟩⟩ <;> rw [htbat]
      · exact hbvalid
      · exact hbmain
      · exact hbterminal
      · show (coldBat (loadedRecord s) s.bat).clockValid = true → _
        rw [hbclockValid]; nofun
      · refine ⟨rfl, hbclockValid, hbsource, hbday, hbused, hbnotes, hbpenalties, hbnote, hbhold, nofun,
          fun _ => ⟨?_, htsave, htnotices⟩⟩
        have hfirst : (match lost.first with | some t => some t | none => some time) = some (lost.first.getD time) := by
          cases lost.first <;> rfl
        rw [← hfirst]
        rfl

end Start

end Sys2Proof.Machine

/-! PROOF. The tamper, store and money steps of a start: O52 (R122, R148, R149, R157). -/

namespace Sys2Proof.Machine

open Sys2Proof

section Start

variable {v : PerPhase PhaseVolts} {s : State}

/-! ### Step 3 (R122) -/

theorem tamperRequired_congr {s t : State} (hpsv : t.psv.inService = s.psv.inService)
    (hkinds : t.bat.kinds = s.bat.kinds) (hcau : t.cau = s.cau) : tamperRequired t = tamperRequired s := by
  unfold tamperRequired isDeclared
  rw [hpsv, hkinds, hcau]

theorem perKind_eq_all_none {α : Type} {n : PerKind (Option α)} (h : ∀ k, n.get k = none) : n = PerKind.all none :=
  perKind_ext fun k => by rw [h k]; cases k <;> rfl

/-- What the tamper step of a start leaves, before the next step is noted (R122). -/
structure TamperStepped (s t : State) : Prop where
  bat : t.bat = { s.bat with notes := PerKind.all none }
  ce : t.ce = s.ce
  flash : t.flash = s.flash
  set : t.swc.set = { s.swc.set with tamper := tamperRequired s }
  psv : t.psv = { s.psv with startNotices := s.psv.startNotices ++ kinds.filterMap (noteOf s.bat) }
  bits : s.stc.fault = false → storeTakes s.psv = true → ∀ k,
    0 < (s.bat.kinds.get k).count ∨ s.bat.notes.get k ≠ none → bitOf s.stc.copy (.ever k) = false →
    BitTaken (.ever k) t.stc
  notes : s.stc.fault = false → storeTakes s.psv = true → ∀ k e, s.bat.notes.get k = some e →
    SaveTaken .tamper t.stc ∧ ((s.stc.queue.filter isAppend).length ≤ 24 → EntryTaken (.log e) t.stc)

theorem tamperAgree_stepped {s x y : State} (hnotes : NotesProcessed kinds s x) (hevers : EverChecked kinds x y) :
    TamperStepped s (tamperAgree y) := by
  obtain ⟨hset, -, hce, hbat, hcau, hpsv, hstc, hflash⟩ := agree_all y
  generalize tamperAgree y = t at *
  obtain ⟨n, hxbat, hn⟩ := hnotes.bat
  have hnone : n = PerKind.all none := perKind_eq_all_none fun k => (hn k).trans (if_pos (mem_kinds k))
  have hxfault := hnotes.ta.fault
  have hxcopy := hnotes.ta.copy
  have hxtakes : storeTakes x.psv = storeTakes s.psv := takes_congr hnotes.ta.seq hnotes.ta.power
  have hrequired : tamperRequired y = tamperRequired s := tamperRequired_congr
    (by rw [hevers.psv, hnotes.ta.svc]) (by rw [hevers.bat, hxbat])
    (hevers.ta.cau.trans hnotes.ta.cau)
  exact {
    bat := by rw [hbat, hevers.bat, hxbat, hnone]
    ce := hce.trans (hevers.ta.ce.trans hnotes.ta.ce)
    flash := hflash.trans (hevers.ta.flash.trans hnotes.ta.flash)
    set := by rw [hset, hrequired, hevers.swc, hnotes.swc]
    psv := by rw [hpsv, hevers.psv, hnotes.psv]
    bits := fun hfault htakes k hk hcopy => by
      rw [hstc]
      refine opTaken_bit ?_
      rcases hk with hcount | hnote
      · exact hevers.new (hxfault.trans hfault) (hxtakes.trans htakes) k (mem_kinds k) (by rw [hxbat]; exact hcount)
          (by rw [hxcopy]; exact hcopy)
      · obtain ⟨e, he⟩ := Option.ne_none_iff_exists'.mp hnote
        exact hevers.tkp _ (fun _ _ _ => nofun) (fun b hb => by cases hb; rw [hxcopy]; exact hcopy)
          ((hnotes.new hfault htakes k (mem_kinds k) e he).1 hcopy)
    notes := fun hfault htakes k e he => by
      obtain ⟨-, hsave, hentry⟩ := hnotes.new hfault htakes k (mem_kinds k) e he
      rw [hstc]
      refine ⟨opTaken_save (hevers.tkp _ (fun _ _ _ => nofun) nofun hsave), fun hroom => ?_⟩
      refine opTaken_entry (hevers.tkp _ (fun _ _ _ => nofun) nofun (hentry ?_))
      show (s.stc.queue.filter isAppend).length + 8 ≤ 32
      omega }

theorem startTamper_stepped (s : State) : TamperStepped s (startTamper s) :=
  tamperAgree_stepped (processNotes_processed kinds s (by decide)) (everChecks_checked kinds _)

theorem startStep_tamper {q : StartSeq} (hpower : s.psv.power = .battery) (hseq : s.psv.seq = some q)
    (hnext : q.next = 3) (herase : s.stc.erase = none) :
      ∃ t, exec (.settleTimerExpiry v 3) s = .next t ∧ t.psv.seq = some ⟨4, 3, v⟩ ∧
        t.bat = { s.bat with notes := PerKind.all none } ∧ t.ce = s.ce ∧ t.flash = s.flash ∧
        t.swc.set = { s.swc.set with tamper := tamperRequired s } ∧
        t.psv.startNotices = s.psv.startNotices ++ kinds.filterMap (fun k => (s.bat.notes.get k).map (fun e =>
          .tamperDeclared k true e.counter (s.bat.kinds.get k).count e.time)) ∧
        (s.stc.fault = false →
          (∀ k, 0 < (s.bat.kinds.get k).count ∨ s.bat.notes.get k ≠ none → bitOf s.stc.copy (.ever k) = false →
            BitTaken (.ever k) t.stc) ∧
          ∀ k e, s.bat.notes.get k = some e → SaveTaken .tamper t.stc ∧
            ((s.stc.queue.filter isAppend).length ≤ 24 → EntryTaken (.log e) t.stc)) := by
  have h := startTamper_stepped (startAsked 3 v s)
  have htakes : storeTakes (startAsked 3 v s).psv = true := by
    unfold storeTakes
    rw [show (startAsked 3 v s).psv.power = .battery from hpower]
    rfl
  have hstep : startStep 3 v (startAsked 3 v s) = nextStep 4 (startTamper (startAsked 3 v s)) := rfl
  generalize startTamper (startAsked 3 v s) = y at *
  have hzseq : (nextStep 4 y).psv.seq = some ⟨4, 3, v⟩ := by
    simp only [nextStep, h.psv]; rfl
  refine ⟨_, exec_startStep hpower hseq hnext herase hstep hzseq (by decide), ?_⟩
  simp only [refresh_toModules, refresh_bat, refresh_flash, refresh_psv]
  exact ⟨hzseq, h.bat, h.ce, h.flash, h.set, (congrArg Psv.startNotices h.psv :), fun hfault =>
    ⟨h.bits hfault htakes, h.notes hfault htakes⟩⟩

end Start

end Sys2Proof.Machine

/-! PROOF. The store step of a start: O52 (R148, R149). -/

namespace Sys2Proof.Machine

open Sys2Proof

section Start

variable {v : PerPhase PhaseVolts} {s : State}

/-! ### Step 4 (R148, R149) -/

/-- The blocks that the start-up erase erases: the save block not in use, and the entry blocks of R148's list. -/
theorem mem_startupErases (s : State) (b : Nat) : b ∈ startupErases s ↔
    (b = 1 - s.stc.curBlock ∧ saveBlockErased s.flash.records (1 - s.stc.curBlock) = false) ∨
      (2 ≤ b ∧ b < 36 ∧ (s.bat.eraseNote = some b ∨
        (∃ n r, newestRecord s.flash.records = some (n, r) ∧ r.suspendedErase = some b) ∨ gapIn s.flash b = true ∨
        ∃ g, (b, g) ∈ s.flash.removed)) := by
  have hsave : b ∈ (if saveBlockErased s.flash.records (1 - s.stc.curBlock) then [] else [1 - s.stc.curBlock]) ↔
      b = 1 - s.stc.curBlock ∧ saveBlockErased s.flash.records (1 - s.stc.curBlock) = false := by
    cases saveBlockErased s.flash.records (1 - s.stc.curBlock) <;> simp
  have hnote : b ∈ (recordNote s.flash).toList ↔
      ∃ n r, newestRecord s.flash.records = some (n, r) ∧ r.suspendedErase = some b := by
    unfold recordNote
    cases newestRecord s.flash.records with
    | none => simp
    | some x =>
      obtain ⟨n, r⟩ := x
      exact ⟨fun h => ⟨n, r, rfl, Option.mem_toList.mp h⟩, fun ⟨_, _, hnewest, h⟩ => by
        cases hnewest
        exact Option.mem_toList.mpr h⟩
  unfold startupErases
  rw [List.mem_append, hsave, mem_entryErases, List.mem_append, hnote, Option.mem_toList]
  simp only [and_assoc, or_assoc]

/-- The two entry areas are rebuilt from the flash f. -/
def AreasRebuilt (f : Flash) (t : State) : Prop := Rebuilt f .log t ∧ Rebuilt f .profile t

theorem rebuilt_refresh {f : Flash} {a : Area} {z : State} (h : Rebuilt f a z) : Rebuilt f a (refresh z) :=
  rebuilt_congr (headOfArea_congr a (by simp only [refresh_toModules]) (by simp only [refresh_toModules]))
    (by simp only [refresh_toModules]) h

theorem nextStep_seq {n m u : Nat} {x : State} (h : x.psv.seq = some ⟨n, u, v⟩) :
    (nextStep m x).psv.seq = some ⟨m, u, v⟩ := by
  simp only [nextStep, h]; rfl

/-- A commissioned part without a record stays in FAULT: no block is erased. -/
theorem startStep_store_bare {q : StartSeq} (hpower : s.psv.power = .battery) (hseq : s.psv.seq = some q)
    (hnext : q.next = 4) (herase : s.stc.erase = none) (hservice : s.psv.inService = true)
    (hfound : s.psv.recordFound = false) : ∃ t, exec (.settleTimerExpiry v 4) s = .next t ∧
      t.psv.seq = some ⟨5, 4, v⟩ ∧ t.stc.fault = s.stc.fault ∧ AreasRebuilt s.flash t := by
  have hstep : startStep 4 v (startAsked 4 v s) = storeRebuilt (startAsked 4 v s) :=
    if_pos (by simp [startAsked, hservice, hfound])
  obtain ⟨hlog, hprofile, -, -, -, -, hpsv, hfault⟩ := storeRebuilt_parts (startAsked 4 v s)
  have hzseq : (storeRebuilt (startAsked 4 v s)).psv.seq = some ⟨5, 4, v⟩ := by rw [hpsv]; exact nextStep_seq rfl
  refine ⟨_, exec_startStep hpower hseq hnext herase hstep hzseq (by decide), ?_, ?_, rebuilt_refresh hlog,
    rebuilt_refresh hprofile⟩ <;>
    simp only [refresh_toModules, refresh_psv]
  · exact hzseq
  · exact hfault

/-- The state in which the start-up erases are known and none has begun. -/
def erasesListed (s : State) : State :=
  { s with stc := { s.stc with failCount := 0, startErases := startupErases s } }

theorem startStep_store_listed (h : s.psv.inService = false ∨ s.psv.recordFound = true) :
    startStep 4 v (startAsked 4 v s) = nextStartupErase (erasesListed (startAsked 4 v s)) :=
  if_neg (by rcases h with h | h <;> simp [startAsked, h])

theorem nextStartupErase_begins {b : Nat} {rest : List Nat} (h : s.stc.startErases = b :: rest) : nextStartupErase s =
    { s with stc := { s.stc with
      startErases := rest, erase := some ⟨b, 8, goodInEraseBlock s.flash b, false, false, true⟩ } } := by
  unfold nextStartupErase
  rw [h]
  rfl

theorem nextStartupErase_passes (h : s.stc.startErases = []) : nextStartupErase s = startupPasses s := by
  unfold nextStartupErase
  rw [h]

theorem startStep_store_erases {q : StartSeq} {b : Nat} {rest : List Nat} (hpower : s.psv.power = .battery)
    (hseq : s.psv.seq = some q) (hnext : q.next = 4) (herase : s.stc.erase = none)
    (h : s.psv.inService = false ∨ s.psv.recordFound = true) (herases : startupErases s = b :: rest) :
    ∃ t, exec (.settleTimerExpiry v 4) s = .next t ∧ t.psv.seq = some ⟨4, 4, v⟩ ∧ t.stc.startErases = rest ∧
      t.stc.failCount = 0 ∧ t.flash = s.flash ∧
      t.stc.erase = some ⟨b, 8, goodInEraseBlock s.flash b, false, false, true⟩ := by
  have hlisted : (erasesListed (startAsked 4 v s)).stc.startErases = b :: rest := herases
  have hstep := (startStep_store_listed (v := v) h).trans (nextStartupErase_begins hlisted)
  have hexec := exec_start_step v s hpower 4 q hseq hnext herase _ hstep 4 rfl (.inr rfl)
  refine ⟨_, hexec, refresh_seq rfl, ?_, ?_, ?_, ?_⟩ <;> simp only [refresh_toModules, refresh_flash]
  · rfl
  · rfl
  · rfl

theorem startStep_store_passes {q : StartSeq} (hpower : s.psv.power = .battery) (hseq : s.psv.seq = some q)
    (hnext : q.next = 4) (herase : s.stc.erase = none) (h : s.psv.inService = false ∨ s.psv.recordFound = true)
    (herases : startupErases s = []) : ∃ t, exec (.settleTimerExpiry v 4) s = .next t ∧
      t.psv.seq = some ⟨5, 4, v⟩ ∧ t.stc.fault = false ∧ t.bat = { s.bat with eraseNote := none } ∧
      t.flash = { s.flash with removed := [] } ∧ t.ce = s.ce ∧ t.swc = s.swc ∧ AreasRebuilt t.flash t := by
  have hlisted : (erasesListed (startAsked 4 v s)).stc.startErases = [] := herases
  have hstep := (startStep_store_listed (v := v) h).trans (nextStartupErase_passes hlisted)
  unfold startupPasses at hstep
  obtain ⟨hlog, hprofile, hflash, hce, hswc, hbat, hpsv, hfault⟩ := storeRebuilt_parts
    { erasesListed (startAsked 4 v s) with
      stc := { (erasesListed (startAsked 4 v s)).stc with fault := false },
      bat := { (erasesListed (startAsked 4 v s)).bat with eraseNote := none },
      flash := { (erasesListed (startAsked 4 v s)).flash with removed := [] } }
  generalize storeRebuilt _ = z at *
  have hzseq : z.psv.seq = some ⟨5, 4, v⟩ := by rw [hpsv]; exact nextStep_seq rfl
  have hzflash : z.flash = { s.flash with removed := [] } := hflash
  refine ⟨_, exec_startStep hpower hseq hnext herase hstep hzseq (by decide), ?_⟩
  simp only [refresh_toModules, refresh_bat, refresh_flash, refresh_psv]
  rw [hzflash]
  exact ⟨hzseq, hfault, hbat, rfl, hce, hswc, rebuilt_refresh hlog, rebuilt_refresh hprofile⟩

end Start

end Sys2Proof.Machine

/-! PROOF. The last steps of a start: O52 (R21, R31, R95, R158, R159). -/

namespace Sys2Proof.Machine

open Sys2Proof

section Start

variable {v : PerPhase PhaseVolts} {s : State}

/-! ### Step 5 (R30, R31) -/

theorem deduct_swc (k : Nat) (s : State) : (deduct k s).swc = s.swc := by
  unfold deduct; dsimp only; split <;> rfl

theorem chargeDays_swc : ∀ (n : Nat) (s : State), (chargeDays n s).swc = s.swc
  | 0, _ => rfl
  | n + 1, s => (chargeDays_swc n _).trans (deduct_swc _ s)

/-- The days of the outage are due their fixed charge: a record was found, the clock is valid, the part is in service
and the last charged day has passed. -/
def DaysMissed (s : State) : Prop :=
  s.psv.recordFound = true ∧ s.bat.clockValid = true ∧ s.psv.inService = true ∧
    s.ce.money.lastDay < s.bat.clock / 86400

theorem missedDays_still (h : ¬ DaysMissed s) : missedDays s = s := by
  unfold missedDays fixedCharge
  refine ite_eq_right_iff.mpr fun hfound => if_neg fun hdue => h ?_
  simp only [Bool.and_eq_true, decide_eq_true_eq] at hdue
  exact ⟨hfound, hdue.1.1, hdue.1.2, hdue.2⟩

theorem missedDays_due (h : DaysMissed s) : missedDays s = setLastDay (s.bat.clock / 86400)
    (chargeDays (s.bat.clock / 86400 - s.ce.money.lastDay) s) := by
  obtain ⟨hfound, hclock, hservice, hday⟩ := h
  unfold missedDays fixedCharge
  exact (if_pos hfound).trans (if_pos (by simp [hclock, hservice, dayOf, hday]))

theorem missedDays_frame (s : State) : (missedDays s).swc = s.swc ∧ (missedDays s).bat = s.bat ∧
    (missedDays s).flash = s.flash ∧ (missedDays s).psv = s.psv := by
  by_cases h : DaysMissed s
  · have hcharge := billFrame_charge (s.bat.clock / 86400 - s.ce.money.lastDay) s
    rw [missedDays_due h]
    exact ⟨chargeDays_swc _ s, hcharge.bat, hcharge.flash, hcharge.psv⟩
  · rw [missedDays_still h]
    exact ⟨rfl, rfl, rfl, rfl⟩

theorem missedDays_money (h : DaysMissed s) :
    let fixed := (s.bat.clock / 86400 - s.ce.money.lastDay) * s.cau.settings.fixed
    let taken := min fixed (s.ce.money.b + 2000000).toNat
    (missedDays s).ce.money = { s.ce.money with
      b := s.ce.money.b - taken, u := min 4294967295 (s.ce.money.u + (fixed - taken)),
      lastDay := s.bat.clock / 86400 } := by
  intro fixed taken
  have hmoney := charge_money (s.bat.clock / 86400 - s.ce.money.lastDay) s
    (.inr (Nat.sub_pos_of_lt h.2.2.2))
  rw [missedDays_due h]
  show ({ (chargeDays _ s).ce.money with lastDay := s.bat.clock / 86400 } : Money) = _
  rw [hmoney]
  rfl

theorem startStep_days {q : StartSeq} (hpower : s.psv.power = .battery) (hseq : s.psv.seq = some q)
    (hnext : q.next = 5) (herase : s.stc.erase = none) :
      let m := s.ce.money
      let fixed := (s.bat.clock / 86400 - m.lastDay) * s.cau.settings.fixed
      let taken := min fixed (m.b + 2000000).toNat
      ∃ t, exec (.settleTimerExpiry v 5) s = .next t ∧ t.psv.seq = some ⟨6, 5, v⟩ ∧ t.swc = s.swc ∧ t.bat = s.bat ∧
        t.flash = s.flash ∧ (¬DaysMissed s → t.ce = s.ce ∧ t.ee = s.ee) ∧
        (DaysMissed s → t.ce.money = { m with
          b := m.b - taken, u := min 4294967295 (m.u + (fixed - taken)), lastDay := s.bat.clock / 86400 }) := by
  intro m fixed taken
  obtain ⟨hswc, hbat, hflash, hpsv⟩ := missedDays_frame (startAsked 5 v s)
  have hzseq : (nextStep 6 (missedDays (startAsked 5 v s))).psv.seq = some ⟨6, 5, v⟩ :=
    nextStep_seq (by rw [hpsv]; rfl)
  refine ⟨_, exec_startStep hpower hseq hnext herase rfl hzseq (by decide), refresh_seq hzseq, ?_⟩
  simp only [refresh_toModules, refresh_bat, refresh_flash]
  refine ⟨hswc, hbat, hflash, fun h => ?_, fun h => missedDays_money (s := startAsked 5 v s) h⟩
  have hstill := missedDays_still (s := startAsked 5 v s) h
  exact ⟨(congrArg (fun x : State => x.ce) hstill :), (congrArg (fun x : State => x.ee) hstill :)⟩

/-! ### Step 6 (R21) -/

theorem storeTakes_asked (n : Nat) (hpower : s.psv.power = .battery) : storeTakes (startAsked n v s).psv = true := by
  unfold storeTakes
  rw [show (startAsked n v s).psv.power = .battery from hpower]
  rfl

/-- A rolled interval leaves a new one open, whether an entry is made of the old one or not. -/
theorem rollInterval_opens (e n : Nat) (f : ProfileFlags → ProfileFlags) (t : Nat) (s : State) :
    (rollInterval e n f t s).ee.interval = some (newInterval t s) := by
  unfold rollInterval
  split
  · split
    · rfl
    · exact congrArg Ee.interval (arrive_parts _ _).2.2.2.2.1
  · rfl

/-- The entry made of the interval that an outage cut (R21). -/
def outageEntry (w : Interval) (s : State) : ProfileEntry :=
  profileEntry w w.lastBilled (lenOf s) (fun g => { g with powerOut := true }) s

theorem outageEntry_eq {w : Interval} (h : w.start < w.lastBilled) (s : State) : outageEntry w s = {
      endTime := w.lastBilled, imp := w.imp, exp := w.exp, fb := w.fb,
      credit := w.credit, balance := s.ce.money.b, maxW := w.maxW,
      length := (w.lastBilled - w.start + 59) / 60,
      flags := { w.flags with
        powerOut := true,
        short := w.flags.short || decide (w.lastBilled - w.start < s.cau.settings.intervalLen * 60) } } := by
  have hshort : decide ((w.lastBilled : Int) - w.start < (lenOf s * 60 : Nat)) =
      decide (w.lastBilled - w.start < s.cau.settings.intervalLen * 60) := by
    show decide ((w.lastBilled : Int) - w.start < (s.cau.settings.intervalLen * 60 : Nat)) = _
    congr 1
    exact propext (by omega)
  unfold outageEntry profileEntry closingFlags
  rw [entryLength_forward (Nat.le_of_lt h)]
  dsimp only
  rw [hshort]

theorem rollInterval_entry {w : Interval} (hinterval : s.ee.interval = some w) (h : w.start < w.lastBilled)
    (hfault : s.stc.fault = false) (htakes : storeTakes s.psv = true)
    (hroom : (s.stc.queue.filter isAppend).length < 32) (t : Nat) :
    EntryTaken (.profile (outageEntry w s))
      (rollInterval w.lastBilled (lenOf s) (fun g => { g with powerOut := true }) t s).stc := by
  unfold rollInterval
  rw [hinterval]
  dsimp only
  rw [if_neg (by omega)]
  exact opTaken_entry (opTaken_arrive_new _ _ (fun _ _ _ => nofun) hfault htakes nofun (fun _ => hroom))

/-- What step 6 leaves, where the interval's nominal end has passed. -/
theorem startStep_interval {q : StartSeq} (hpower : s.psv.power = .battery) (hseq : s.psv.seq = some q)
    (hnext : q.next = 6) (herase : s.stc.erase = none) :
      let len := s.cau.settings.intervalLen * 60
      ∃ t, exec (.settleTimerExpiry v 6) s = .next t ∧ t.psv.seq = some ⟨7, 6, v⟩ ∧ t.ce = s.ce ∧ t.swc = s.swc ∧
        t.bat = s.bat ∧ t.flash = s.flash ∧ (s.ee.interval = none → t.ee = s.ee) ∧
        ∀ w, s.ee.interval = some w →
          (s.bat.clock < w.nominalEnd → t.ee = s.ee) ∧
          (w.nominalEnd ≤ s.bat.clock →
            (∃ x, t.ee.interval = some x ∧ x.start = s.bat.clock ∧ x.lastBilled = s.bat.clock ∧
              x.nominalEnd = (s.bat.clock / len + 1) * len ∧ x.imp = 0 ∧ x.exp = 0 ∧ x.fb = 0 ∧ x.credit = 0) ∧
            (w.start < w.lastBilled → s.stc.fault = false → (s.stc.queue.filter isAppend).length < 32 →
              EntryTaken (.profile (outageEntry w s)) t.stc)) := by
  intro len
  by_cases hpassed : ∃ w, s.ee.interval = some w ∧ w.nominalEnd ≤ s.bat.clock
  · obtain ⟨w, hw, hend⟩ := hpassed
    have hstep : startStep 6 v (startAsked 6 v s) = nextStep 7 (rollInterval w.lastBilled (lenOf (startAsked 6 v s))
        (fun g => { g with powerOut := true }) s.bat.clock (startAsked 6 v s)) := by
      show stepInterval _ = _
      unfold stepInterval
      rw [show (startAsked 6 v s).ee.interval = some w from hw]
      exact congrArg (nextStep 7) (if_pos hend)
    obtain ⟨hce, -, hswc, hbat, -, hflash, hpsv⟩ := rollInterval_parts w.lastBilled (lenOf (startAsked 6 v s))
      (fun g => { g with powerOut := true }) s.bat.clock (startAsked 6 v s)
    have hopens := rollInterval_opens w.lastBilled (lenOf (startAsked 6 v s))
      (fun g => { g with powerOut := true }) s.bat.clock (startAsked 6 v s)
    have hentry := fun h1 h2 h3 => rollInterval_entry (s := startAsked 6 v s) hw h1 h2 (storeTakes_asked 6 hpower) h3
      s.bat.clock
    generalize rollInterval w.lastBilled _ _ _ _ = z at *
    have hzseq : (nextStep 7 z).psv.seq = some ⟨7, 6, v⟩ := nextStep_seq (by rw [hpsv]; rfl)
    refine ⟨_, exec_startStep hpower hseq hnext herase hstep hzseq (by decide), refresh_seq hzseq, ?_⟩
    simp only [refresh_toModules, refresh_bat, refresh_flash]
    refine ⟨hce, hswc, hbat, hflash, fun hnone => ?_, fun w' hw' => ?_⟩
    · rw [hw] at hnone; cases hnone
    · rw [hw] at hw'
      cases hw'
      exact ⟨fun hlate => absurd hend (by omega), fun _ => ⟨⟨_, hopens, rfl, rfl, rfl, rfl, rfl, rfl, rfl⟩, hentry⟩⟩
  · have hstep : startStep 6 v (startAsked 6 v s) = nextStep 7 (startAsked 6 v s) := by
      show stepInterval _ = _
      unfold stepInterval
      refine congrArg (nextStep 7) ?_
      split
      · next w hw => exact if_neg (fun hend => hpassed ⟨w, hw, hend⟩)
      · rfl
    have hzseq : (nextStep 7 (startAsked 6 v s)).psv.seq = some ⟨7, 6, v⟩ := nextStep_seq rfl
    refine ⟨_, exec_startStep hpower hseq hnext herase hstep hzseq (by decide), refresh_seq hzseq, ?_⟩
    simp only [refresh_toModules, refresh_bat, refresh_flash]
    exact ⟨rfl, rfl, rfl, rfl, fun _ => rfl, fun w hw => ⟨fun _ => rfl, fun hend => absurd ⟨w, hw, hend⟩ hpassed⟩⟩

/-! ### Step 7 (R103, R104) -/

theorem setSwitch_frame (w : SwitchState) (s : State) : (setSwitch w s).swc.sw = w ∧
    (setSwitch w s).swc.drive = s.swc.drive ∧ (setSwitch w s).swc.lastSense = s.swc.lastSense ∧
    (setSwitch w s).ce = s.ce ∧ (setSwitch w s).bat = s.bat ∧ (setSwitch w s).flash = s.flash ∧
    (setSwitch w s).psv = s.psv := by
  unfold setSwitch; dsimp only; split <;> exact ⟨rfl, rfl, rfl, rfl, rfl, rfl, rfl⟩

/-- The switch state that a start finds confirmed by its sense. -/
def confirmedState (w : Swc) : SwitchState :=
  match wantedDir w with
  | .toClose => .closed
  | .toOpen => if noReason w.set then .ready else .opened

theorem startConfirm_sensed (hservice : s.psv.inService = false) (v : PerPhase PhaseVolts) :
    startConfirm v s = setSwitch (sensedState (senseOf v)) { s with swc := { s.swc with lastSense := v } } :=
  if_neg (by simp [hservice])

theorem startConfirm_matches (hservice : s.psv.inService = true)
    (h : senseMatches (senseOf v) (wantedDir s.swc) = true) :
    startConfirm v s = setSwitch (confirmedState s.swc) { s with swc := { s.swc with lastSense := v } } :=
  (if_pos hservice).trans (if_pos h)

theorem startConfirm_drives (hservice : s.psv.inService = true)
    (h : senseMatches (senseOf v) (wantedDir s.swc) = false) :
    startConfirm v s = beginDrive (wantedDir s.swc) { s with swc := { s.swc with lastSense := v } } :=
  (if_pos hservice).trans (if_neg fun hmatch => Bool.noConfusion (h.symm.trans hmatch))

theorem startStep_confirm {q : StartSeq} (hpower : s.psv.power = .battery) (hseq : s.psv.seq = some q)
    (hnext : q.next = 7) (herase : s.stc.erase = none) :
      ∃ t, exec (.settleTimerExpiry v 7) s = .next t ∧ t.psv.seq = some ⟨8, 7, v⟩ ∧ t.swc.lastSense = v ∧
        t.swc.set = s.swc.set ∧ t.swc.consent = s.swc.consent ∧ t.ce = s.ce ∧ t.bat = s.bat ∧ t.flash = s.flash ∧
        (s.psv.inService = false → t.swc.drive = s.swc.drive ∧ t.swc.sw = sensedState (senseOf v)) ∧
        (s.psv.inService = true → senseMatches (senseOf v) (wantedDir s.swc) = true → t.swc.drive = s.swc.drive ∧
          t.swc.sw = confirmedState s.swc) ∧
        (s.psv.inService = true → senseMatches (senseOf v) (wantedDir s.swc) = false →
          t.swc.drive = some ⟨wantedDir s.swc, 1, false, false, none⟩ ∧ t.swc.sw = movingState (wantedDir s.swc)) := by
  have settled : ∀ w, startConfirm v (startAsked 7 v s) =
      setSwitch w { startAsked 7 v s with swc := { (startAsked 7 v s).swc with lastSense := v } } →
      ∃ t, exec (.settleTimerExpiry v 7) s = .next t ∧ t.psv.seq = some ⟨8, 7, v⟩ ∧ t.swc.lastSense = v ∧
        t.swc.set = s.swc.set ∧ t.swc.consent = s.swc.consent ∧ t.ce = s.ce ∧ t.bat = s.bat ∧ t.flash = s.flash ∧
        t.swc.drive = s.swc.drive ∧ t.swc.sw = w := by
    intro w hw
    obtain ⟨hsw, hdrive, hsense, hce, hbat, hflash, hpsv⟩ := setSwitch_frame w
      { startAsked 7 v s with swc := { (startAsked 7 v s).swc with lastSense := v } }
    obtain ⟨hset, hconsent, -⟩ := setSwitch_keeps_reasons w
      { startAsked 7 v s with swc := { (startAsked 7 v s).swc with lastSense := v } }
    have hstep := congrArg (nextStep 8) hw
    generalize setSwitch w _ = z at *
    have hzseq : (nextStep 8 z).psv.seq = some ⟨8, 7, v⟩ := nextStep_seq (by rw [hpsv]; rfl)
    refine ⟨_, exec_startStep hpower hseq hnext herase hstep hzseq (by decide), refresh_seq hzseq, ?_⟩
    simp only [refresh_toModules, refresh_bat, refresh_flash]
    exact ⟨hsense, hset, hconsent, hce, hbat, hflash, hdrive, hsw⟩
  cases hservice : s.psv.inService with
  | false =>
    obtain ⟨t, ht, h1, h2, h3, h4, h5, h6, h7, hdrive, hsw⟩ :=
      settled _ (startConfirm_sensed (s := startAsked 7 v s) hservice v)
    exact ⟨t, ht, h1, h2, h3, h4, h5, h6, h7, fun _ => ⟨hdrive, hsw⟩, nofun, nofun⟩
  | true =>
    cases hmatch : senseMatches (senseOf v) (wantedDir s.swc) with
    | true =>
      obtain ⟨t, ht, h1, h2, h3, h4, h5, h6, h7, hdrive, hsw⟩ :=
        settled _ (startConfirm_matches (s := startAsked 7 v s) hservice hmatch)
      exact ⟨t, ht, h1, h2, h3, h4, h5, h6, h7, nofun, fun _ _ => ⟨hdrive, hsw⟩, nofun⟩
    | false =>
      have hdrives := startConfirm_drives (s := startAsked 7 v s) hservice hmatch
      rw [beginDrive_eq] at hdrives
      have hexec := exec_startStep (v := v) (m := 8) hpower hseq hnext herase (congrArg (nextStep 8) hdrives)
        (nextStep_seq rfl) (by decide)
      refine ⟨_, hexec, refresh_seq (nextStep_seq rfl), ?_⟩
      simp only [refresh_toModules, refresh_bat, refresh_flash]
      exact ⟨rfl, rfl, rfl, rfl, rfl, rfl, nofun, nofun, fun _ _ => ⟨rfl, rfl⟩⟩

/-! ### Step 8 (R158, R187) -/

/-- The state in which the exchange is initialized and EXCHANGE_START has been posted. -/
def exchangeStarted (s : State) : State :=
  let x := initExchange true s
  drawFree (post (.exchangeStart x.psv.startKind (outageLength x) x.psv.recordFound x.stc.fault x.psv.inService) x)

theorem exchangeStarted_parts (s : State) :
    (exchangeStarted s).exc.live = true ∧ (exchangeStarted s).exc.takeCtr = 1 ∧ (exchangeStarted s).exc.mem = [] ∧
      (exchangeStarted s).exc.standing = [] ∧ (exchangeStarted s).exc.notices.head? = some ⟨1, s.bat.clock,
        .exchangeStart s.psv.startKind (outageLength s) s.psv.recordFound s.stc.fault s.psv.inService⟩ ∧
      (exchangeStarted s).psv = s.psv :=
  ⟨rfl, rfl, rfl, rfl, rfl, rfl⟩

theorem outageLength_cold (h : s.psv.startKind = .cold) : outageLength s = 0xFFFFFFFF := by
  unfold outageLength
  rw [h]

theorem outageLength_warm {t0 : Nat} (h : s.psv.startKind = .warm) (hbegin : s.bat.holdBegin = some t0) :
    outageLength s = BitVec.ofInt 32 ((s.bat.clock : Int) - t0) := by
  unfold outageLength
  rw [h, hbegin]

theorem startStep_exchange {q : StartSeq} (hpower : s.psv.power = .battery) (hseq : s.psv.seq = some q)
    (hnext : q.next = 8) (herase : s.stc.erase = none) :
      ∃ t len, exec (.settleTimerExpiry v 8) s = .next t ∧ t.exc.live = true ∧ t.exc.takeCtr = 1 ∧ t.exc.mem = [] ∧
        t.exc.standing = [] ∧ t.exc.notices.head? = some ⟨1, s.bat.clock,
          .exchangeStart s.psv.startKind len s.psv.recordFound s.stc.fault s.psv.inService⟩ ∧
        (s.psv.startKind = .cold → len = 0xFFFFFFFF) ∧
        (∀ t0, s.psv.startKind = .warm → s.bat.holdBegin = some t0 →
          len = BitVec.ofInt 32 ((s.bat.clock : Int) - t0)) ∧ t.psv.power = .battery := by
  obtain ⟨hlive, hctr, hmem, hstanding, hhead, hpsv⟩ := exchangeStarted_parts (startAsked 8 v s)
  have hstep : startStep 8 v (startAsked 8 v s) = nextStep 9 (postAll
      ((exchangeStarted (startAsked 8 v s)).psv.startNotices.filter isStoreFault)
      { exchangeStarted (startAsked 8 v s) with psv := { (exchangeStarted (startAsked 8 v s)).psv with
        startNotices := (exchangeStarted (startAsked 8 v s)).psv.startNotices.filter (fun b => !isStoreFault b) } }) :=
    rfl
  generalize exchangeStarted (startAsked 8 v s) = x at *
  obtain ⟨hzhead, hzlive, hzctr, hzmem, hzstanding, hzpsv⟩ := postAll_head (x.psv.startNotices.filter isStoreFault)
    { x with psv := { x.psv with startNotices := x.psv.startNotices.filter (fun b => !isStoreFault b) } } _ hhead
  generalize postAll (x.psv.startNotices.filter isStoreFault) _ = z at *
  have hzseq : (nextStep 9 z).psv.seq = some ⟨9, 8, v⟩ := nextStep_seq (by rw [hzpsv, hpsv]; rfl)
  refine ⟨_, outageLength (startAsked 8 v s),
    exec_startStep hpower hseq hnext herase hstep hzseq (by decide), ?_⟩
  simp only [refresh_live, refresh_takeCtr, refresh_mem, refresh_standing, refresh_notices, refresh_psv]
  refine ⟨hzlive.trans hlive, hzctr.trans hctr, hzmem.trans hmem, hzstanding.trans hstanding, hzhead,
    fun h => outageLength_cold h, fun t0 h hbegin => outageLength_warm h hbegin, ?_⟩
  show z.psv.power = _
  rw [hzpsv, hpsv]
  exact hpower

/-! ### Step 9 (R15, R95, R159) -/

theorem postAll_toModules : ∀ (l : List NoticeBody) (s : State), (postAll l s).toModules = s.toModules
  | [], _ => rfl
  | b :: rest, s => postAll_toModules rest (post b s)

theorem enterRunEnergy_open (s : State) : (enterRunEnergy s).ee.interval.isSome = true := by
  unfold enterRunEnergy
  split
  · next v hv => rw [hv]; rfl
  · rfl

/-- The entry to RUN keeps what an open interval's entry keeps. -/
theorem enterRunEnergy_frame (s : State) : (enterRunEnergy s).stc = s.stc ∧ (enterRunEnergy s).rlr = s.rlr ∧
    (enterRunEnergy s).swc = s.swc ∧ (enterRunEnergy s).flash = s.flash ∧ (enterRunEnergy s).exc = s.exc ∧
    (enterRunEnergy s).psv = s.psv ∧ (enterRunEnergy s).ce = s.ce := by
  unfold enterRunEnergy; split <;> exact ⟨rfl, rfl, rfl, rfl, rfl, rfl, rfl⟩

theorem runFrame_switch (s : State) : RunFrame s (enterRunSwitch s) := runFrame_ite runFrame_of (runFrame_refl s)

theorem enterRunSwitch_recovery (h : s.swc.set.loadLimit = true) : (enterRunSwitch s).swc.recovery = ⟨60, false⟩ := by
  unfold enterRunSwitch
  rw [if_pos h]
  rfl

/-- The power state, the timers and the radio as RUN begins, before each module's entry to it. -/
def runBegun (s : State) : State :=
  { s with
    psv := { s.psv with power := .run, seq := none, dropped := none, startNotices := [] },
    stc := { s.stc with periodic := startTimer 900 }, rlr := { s.rlr with rx := .hunt 0 } }

theorem runSteps_succ {fuel : Nat} {q : StartSeq} (hseq : s.psv.seq = some q) (hwaits : startWaits s.stc = false)
    (hnext : q.next ≤ q.upTo) : runSteps (fuel + 1) s = runSteps fuel (startStep q.next q.volts s) := by
  rw [runSteps, hseq]
  exact if_neg (by simp [hwaits, hnext])

theorem startStep_run {q : StartSeq} (hpower : s.psv.power = .battery) (hseq : s.psv.seq = some q)
    (hnext : q.next = 9) (herase : s.stc.erase = none) :
      ∃ t, exec (.settleTimerExpiry v 9) s = .next t ∧ t.psv.power = .run ∧ t.psv.seq = none ∧
        t.stc.periodic = ⟨900, false⟩ ∧ t.rlr.rx = .hunt 0 ∧ t.ce.money = s.ce.money ∧ t.ee.interval.isSome = true ∧
        (s.swc.set.loadLimit = true → t.swc.recovery = ⟨60, false⟩) ∧ t.flash = s.flash ∧ t.exc.mem = s.exc.mem := by
  obtain ⟨hstc, hrlr, hswc, hflash, hexc, hpsv, hce⟩ := enterRunEnergy_frame (runBegun (startAsked 9 v s))
  have hopen := enterRunEnergy_open (runBegun (startAsked 9 v s))
  have hstep : stepRun (startAsked 9 v s) = postAll s.psv.startNotices
      (enterRunSwitch (enterRunCredit (enterRunEnergy (runBegun (startAsked 9 v s))))) := rfl
  generalize enterRunEnergy (runBegun (startAsked 9 v s)) = x at *
  have hcredit := runFrame_credit x
  generalize enterRunCredit x = y at *
  have hframe := runFrame_trans hcredit (runFrame_trans (runFrame_switch y)
    (runFrame_postAll s.psv.startNotices (enterRunSwitch y)))
  have hmods := postAll_toModules s.psv.startNotices (enterRunSwitch y)
  generalize postAll s.psv.startNotices (enterRunSwitch y) = z at *
  have hend : z.psv.seq = none := by rw [hframe.psv, hpsv]; rfl
  have hexec : exec (.settleTimerExpiry v 9) s = .next (refresh z) := by
    have hruns : settleExpiry v 9 s = runSteps 9 (startAsked 9 v s) := by
      obtain ⟨next, upTo, volts⟩ := q
      cases hnext
      unfold settleExpiry
      rw [hpower, hseq]
      rfl
    have hwaits : startWaits (startAsked 9 v s).stc = false := by
      show startWaits s.stc = false
      unfold startWaits
      rw [herase]
    have hone : runSteps 9 (startAsked 9 v s) = runSteps 8 (stepRun (startAsked 9 v s)) :=
      runSteps_succ rfl hwaits (Nat.le_refl _)
    have hrest : runSteps 8 z = z := by
      unfold runSteps
      rw [hend]
    show done (settleExpiry v 9 s) = _
    rw [hruns, hone, hstep, hrest]
    rfl
  refine ⟨_, hexec, ?_⟩
  simp only [refresh_toModules, refresh_flash, refresh_psv, refresh_mem]
  rw [hframe.psv, hpsv, hframe.stc, hstc, hframe.rlr, hrlr, hframe.money, hce, hframe.some, hframe.flash, hflash,
    hframe.mem, hexc]
  refine ⟨rfl, rfl, rfl, rfl, rfl, hopen, fun hload => ?_, rfl, rfl⟩
  rw [show z.swc = (enterRunSwitch y).swc from congrArg Modules.swc hmods]
  exact enterRunSwitch_recovery (by rw [hcredit.load, hswc]; exact hload)

end Start

/-- Settles O52. -/
theorem startLoadsTheNewestRecord : Obligations.StartLoadsTheNewestRecord := by
  intro v s hpower
  refine ⟨fun hseq hdue n => settleExpiry_waits hpower hseq hdue n,
    fun hseq hdue herase => startStep_load hpower hseq hdue herase,
    fun q hseq hnext herase => startStep_domain hpower hseq hnext herase,
    fun q hseq hnext herase => startStep_tamper hpower hseq hnext herase, mem_startupErases s,
    fun q hseq hnext herase => ?_, fun q hseq hnext herase => startStep_days hpower hseq hnext herase,
    fun q hseq hnext herase => ?_, fun q hseq hnext herase => ?_,
    fun q hseq hnext herase => startStep_exchange hpower hseq hnext herase,
    fun q hseq hnext herase => startStep_run hpower hseq hnext herase⟩
  case refine_1 =>
    exact ⟨startStep_store_bare hpower hseq hnext herase, fun h =>
      ⟨fun b rest herases => startStep_store_erases hpower hseq hnext herase h herases,
        fun herases => startStep_store_passes hpower hseq hnext herase h herases⟩⟩
  case refine_2 =>
    obtain ⟨t, ht, htseq, htce, htswc, htbat, htflash, htnone, htsome⟩ :=
      startStep_interval (v := v) hpower hseq hnext herase
    refine ⟨t, ht, htseq, htce, htswc, htbat, htflash, htnone, fun w hw => ⟨(htsome w hw).1, fun hend => ?_⟩⟩
    obtain ⟨hopens, hentry⟩ := (htsome w hw).2 hend
    refine ⟨hopens, fun hbilled hfault hroom => ?_⟩
    rw [← outageEntry_eq hbilled]
    exact hentry hbilled hfault hroom
  case refine_3 =>
    obtain ⟨t, ht, htseq, hsense, hset, hconsent, hce, hbat, hflash, hout, hmatch, hdrive⟩ :=
      startStep_confirm (v := v) hpower hseq hnext herase
    refine ⟨t, ht, htseq, hsense, hset, hconsent, hce, hbat, hflash, fun h => ?_, hmatch, fun h hm => ?_⟩
    · refine ⟨(hout h).1, (hout h).2.trans ?_⟩
      cases senseOf v <;> rfl
    · refine ⟨(hdrive h hm).1, (hdrive h hm).2.trans ?_⟩
      cases wantedDir s.swc <;> rfl

end Sys2Proof.Machine

/-! PROOF. What the host reads: O53 (R168 to R170, sections 10.1 and 10.4). -/

namespace Sys2Proof.Machine

open Sys2Proof

/-! ### READ -/

theorem refresh_pageFresh {s : State} (hidle : s.exc.bus = .idle) (hfresh : PageFresh s) : refresh s = s := by
  have hreading : isReading s.exc = false := by unfold isReading; rw [hidle]
  cases hlive : s.exc.live with
  | true =>
    obtain ⟨hpage, himage⟩ := hfresh hlive hreading
    exact refresh_fresh s hpage himage
  | false =>
    unfold refresh
    rw [hlive]
    rfl

theorem refresh_sendOut {s : State} (hidle : s.exc.bus = .idle) (hfresh : PageFresh s) (bs : List Byte) :
    refresh (sendOut bs s) = sendOut bs s :=
  refresh_pageFresh (s := sendOut bs s) hidle (pageFresh_sendOut bs hfresh)

theorem portPowered_of_acts {s : State} (h : portActs s = true) : portPowered s.psv = true := by
  simp only [portActs, Bool.and_eq_true] at h
  exact h.1.1

/-- A READ whose address is given begins, sends and ends: nothing else changes. -/
theorem exec_read {s : State} (a : BitVec 16) (n : Nat) (hidle : s.exc.bus = .idle) (hdeferred : s.exc.deferred = [])
    (hpowered : portPowered s.psv = true) (hfresh : PageFresh s) : exec (.read (some a) n true) s =
      .next (sendOut (busRead (a.toNat % 8192) n { s with exc := { s.exc with bus := .reading (a.toNat % 8192) } }) s) := by
  have htxn : readTxn (some a) n true s =
      sendOut (busRead (a.toNat % 8192) n { s with exc := { s.exc with bus := .reading (a.toNat % 8192) } }) s := by
    have hclose : closeBus s = s := by unfold closeBus; rw [hidle]
    unfold readTxn
    rw [if_pos hpowered]
    dsimp only
    rw [hclose, refresh_pageFresh hidle hfresh]
    exact endRead_eq _ _ s hidle hdeferred
  show Host.Outcome.next (refresh (readTxn (some a) n true s)) = _
  rw [htxn]
  exact congrArg Host.Outcome.next (refresh_sendOut hidle hfresh _)

theorem read_acts {s : State} {a : BitVec 16} {n : Nat} (hidle : s.exc.bus = .idle) (hdeferred : s.exc.deferred = [])
    (hacts : portActs s = true) (hfresh : PageFresh s) : exec (.read (some a) n true) s = .next (sendOut
      ((List.range n).map (fun k => regionByte (pageBytes s.exc.page) s ((a.toNat % 8192 + k) % 8192))) s) := by
  rw [exec_read a n hidle hdeferred (portPowered_of_acts hacts) hfresh]
  refine congrArg (fun l => Host.Outcome.next (sendOut l s)) ?_
  exact if_pos hacts

theorem read_idle_port {s : State} {a : BitVec 16} {n : Nat} (hidle : s.exc.bus = .idle)
    (hdeferred : s.exc.deferred = []) (hpowered : portPowered s.psv = true)
    (hsilent : s.exc.live = false ∨ s.exc.xrst = true) (hfresh : PageFresh s) :
    exec (.read (some a) n true) s = .next (sendOut (List.replicate n 0) s) := by
  have hacts : portActs s = false := by
    rcases hsilent with h | h <;> simp [portActs, h]
  rw [exec_read a n hidle hdeferred hpowered hfresh]
  refine congrArg (fun l => Host.Outcome.next (sendOut l s)) (if_neg ?_)
  show ¬ portActs s = true
  rw [hacts]
  decide

/-! ### The regions (R170) -/

section Regions

variable (page : List Byte) (s : State) {x : Nat}

theorem regionByte_page (h : x < 256) : regionByte page s x = page.getD x 0 := by
  unfold regionByte; rw [if_pos h]

theorem regionByte_mark_low : regionByte page s 256 = BitVec.ofNat 8 (s.exc.markReg % 256) := rfl

theorem regionByte_mark_high : regionByte page s 257 = BitVec.ofNat 8 (s.exc.markReg / 256) := rfl

theorem regionByte_control (h : 258 ≤ x) (h' : x < 512) : regionByte page s x = 0 := by
  unfold regionByte
  rw [if_neg (by omega), if_neg (by omega), if_neg (by omega), if_pos h']

theorem regionByte_mem (h : (512 ≤ x ∧ x < 1536) ∨ 4096 ≤ x) : regionByte page s x = readByte s.exc.mem x := by
  unfold regionByte
  rw [if_neg (by omega), if_neg (by omega), if_neg (by omega), if_neg (by omega)]
  rcases h with h | h
  · rw [if_pos h.2]
  · rw [if_neg (by omega), if_neg (by omega), if_neg (by omega), if_neg (by omega)]

theorem regionByte_image (h : 1536 ≤ x) (h' : x < 2048) : regionByte page s x =
    (imagePosition s.exc.image ((x - 1536) / 16)).getD ((x - 1536) % 16) 0 := by
  unfold regionByte
  rw [if_neg (by omega), if_neg (by omega), if_neg (by omega), if_neg (by omega), if_neg (by omega), if_pos h']

theorem regionByte_capture (h : 2048 ≤ x) (h' : x < 2112) : regionByte page s x = s.rlr.capture.getD (x - 2048) 0 := by
  unfold regionByte
  rw [if_neg (by omega), if_neg (by omega), if_neg (by omega), if_neg (by omega), if_neg (by omega),
    if_neg (by omega), if_pos h']

theorem regionByte_reserved (h : 2112 ≤ x) (h' : x < 4096) : regionByte page s x = 0 := by
  unfold regionByte
  rw [if_neg (by omega), if_neg (by omega), if_neg (by omega), if_neg (by omega), if_neg (by omega),
    if_neg (by omega), if_neg (by omega), if_pos h']

end Regions

/-! ### The summary page (section 10.4) -/

theorem keys_slice {l : List Byte} (h : l.length ≤ 18) : slice l 0 18 = l ++ List.replicate (18 - l.length) 0 := by
  unfold slice padTo zeros
  rw [List.drop_zero, List.take_of_length_le h]

/-- The states of the kinds, in the page's order. -/
theorem states_bytes (k : PerKind KindRec) : (k.map fun r => r.state).toList.map (fun x => byte (kindStateCode x)) =
    kinds.map fun j => byte (kindStateCode (k.get j).state) := rfl

theorem counters_bytes (k : PerKind KindRec) : (k.map fun r => r.counter).toList.map byte =
    kinds.map fun j => byte (k.get j).counter := rfl

theorem fallbackInForce_eq (s : State) : fallbackInForce s = decide (s.bat.kinds.magnet.state ≠ .quiet) := by
  unfold fallbackInForce
  cases s.bat.kinds.magnet.state <;> rfl

theorem attemptShown_eq (w : Swc) : attemptShown w = (w.drive.map fun d => d.attempt).getD 0 := by
  unfold attemptShown
  cases w.drive <;> rfl

theorem setCode_bits (p : Reasons) : byte (setCode p) =
    BitVec.ofNat 8 ([p.credit, p.loadLimit, p.lockout, p.tamper, p.remote].foldr (fun x n => flagNat x + 2 * n) 0) :=
  (setBits_five _ _ _ _ _).symm

/-- Settles O53. -/
theorem readSendsTheRegions : Obligations.ReadSendsTheRegions := by
  refine ⟨fun a n s hidle hdeferred => ⟨fun hacts hfresh => read_acts hidle hdeferred hacts hfresh,
      fun hpowered hsilent hfresh => read_idle_port hidle hdeferred hpowered hsilent hfresh⟩,
    fun page s x => ⟨regionByte_page page s, fun h => ?_, fun h => ?_, regionByte_control page s, regionByte_mem page s,
      regionByte_image page s, regionByte_capture page s, regionByte_reserved page s⟩,
    fun n s hpowered => ⟨?_, fun c => ?_⟩, fun s => ?_, fun s => status_bits _ _ _ _ _ _ _ _⟩
  case refine_1 => rw [h]; exact regionByte_mark_low page s
  case refine_2 => rw [h]; exact regionByte_mark_high page s
  case refine_3 => exact congrArg (fun l => Host.Outcome.next (sendOut l s)) (if_pos hpowered)
  case refine_4 => exact congrArg (fun l => Host.Outcome.next (sendOut l s)) (if_pos hpowered)
  case refine_5 =>
    intro page at_ phase live money bits c
    obtain ⟨hlength, hend, ha, hb, hc, hres, htprime, hx, himp, hexp, hfb, hrems, hbal, hcres, hu, hd, hflags, hprice,
      htime, hclock, hkeys, hset, hstates, hcounters, htamper, hstore, hlast, hzero⟩ := pageBytes_layout (summaryOf s)
    refine ⟨hlength, hend, ha, hb, hc, hres, htprime, hx, himp, hexp, hfb, hrems, hbal, hcres, hu, hd, hflags,
      hprice.trans ?_, htime, hclock.trans ?_, fun hshort => hkeys.trans ?_, hset.trans ?_, hstates.trans ?_, hcounters,
      htamper.trans ?_, hstore.trans ?_, hlast, hzero⟩
    case refine_1 => exact congrArg (le 4) (show priceOf s.cau.settings s.ce.band = _ from rfl)
    case refine_2 =>
      show [_, byte (clockSourceCode s.bat.clockSource)] ++ _ = _
      cases s.bat.clockSource <;> rfl
    case refine_3 =>
      refine congrArg (byte s.kps.buf.length :: ·) ((keys_slice (by rw [List.length_map]; exact hshort)).trans ?_)
      rw [List.length_map]
      rfl
    case refine_4 =>
      show [0, byte (setCode s.swc.set), byte (switchCode s.swc.sw), byte (attemptShown s.swc), _] = _
      rw [attemptShown_eq, setCode_bits]
      cases s.swc.sw <;> rfl
    case refine_5 =>
      refine (states_bytes s.bat.kinds).trans (List.map_congr_left fun k _ => ?_)
      cases (s.bat.kinds.get k).state <;> rfl
    case refine_6 =>
      show [byte (flagNat (freezeInForce s) + 2 * flagNat (tamperRequired s) + 4 * flagNat (fallbackInForce s))] = _
      rw [← setBits_three, fallbackInForce_eq]
    case refine_7 =>
      show [_, _, _, byte (startKindCode s.psv.startKind), 0] = _
      cases s.psv.startKind <;> rfl

end Sys2Proof.Machine

/-! PROOF. What the host writes: O54 (R168, R170, R172, R173, R185). -/

namespace Sys2Proof.Machine

open Sys2Proof

/-! ### The state byte of a slot (R173) -/

theorem writeState_legal {i : Fin 16} {v : Byte} {s : State} (h : legalChange (slotState s.exc.mem i) v.toNat = true) :
    writeState i v s = { s with exc := { s.exc with mem := putState s.exc.mem i v.toNat } } := if_pos h

theorem writeState_same {i : Fin 16} {v : Byte} {s : State} (h : slotState s.exc.mem i = v.toNat) :
    writeState i v s = s := by
  have hillegal : legalChange (slotState s.exc.mem i) v.toNat = false := by
    rw [← h, ← Bool.not_eq_true, legal_iff]
    simp only [FREE, POSTED, TAKEN, PAUSED, DONE, CANCEL]
    omega
  unfold writeState
  dsimp only
  rw [hillegal]
  exact if_pos h

theorem writeState_illegal {i : Fin 16} {v : Byte} {s : State}
    (h : legalChange (slotState s.exc.mem i) v.toNat = false) (hne : slotState s.exc.mem i ≠ v.toNat) :
    writeState i v s = post (.slotFault i.val (slotState s.exc.mem i) v.toNat) s := by
  unfold writeState
  dsimp only
  rw [h]
  exact if_neg hne

/-! ### The regions (R170, R172) -/

section Regions

variable {x : Nat} (b : Byte) (s : State)

theorem writeRegion_mark_low :
    writeRegion 256 b s = { s with exc := { s.exc with markReg := s.exc.markReg / 256 * 256 + b.toNat } } := rfl

theorem writeRegion_mark_high :
    writeRegion 257 b s = { s with exc := { s.exc with markReg := b.toNat * 256 + s.exc.markReg % 256 } } := rfl

theorem writeRegion_ignored (h : x < 256 ∨ 258 ≤ x ∧ x < 512 ∨ 1536 ≤ x ∧ x < 4096) : writeRegion x b s = s := by
  unfold writeRegion
  rw [if_neg (by omega), if_neg (by omega), if_neg (by omega)]

theorem writeRegion_mem (h : 4096 ≤ x) :
    writeRegion x b s = { s with exc := { s.exc with mem := writeByte s.exc.mem x b } } := by
  unfold writeRegion
  rw [if_neg (by omega), if_neg (by omega), if_pos h]

theorem writeRegion_slot (i : Fin 16) (h1 : slotAddr i ≤ x) (h2 : x < slotAddr i + 64) : writeRegion x b s =
    if x = slotAddr i then writeState i b s
    else if bodyOpen (slotState s.exc.mem i) then { s with exc := { s.exc with mem := writeByte s.exc.mem x b } }
    else s := by
  obtain ⟨hindex, hstate, hlow, hhigh⟩ := slot_at i x h1 h2
  have hi : (⟨(x - 512) / 64 % 16, Nat.mod_lt _ (by decide)⟩ : Fin 16) = i := Fin.ext hindex
  unfold writeRegion
  rw [if_neg (by omega), if_pos ⟨hlow, hhigh⟩]
  unfold writeSlot
  dsimp only
  rw [hi]
  simp only [hstate]

theorem writeRegion_state (i : Fin 16) : writeRegion (slotAddr i) b s = writeState i b s :=
  (writeRegion_slot b s i (Nat.le_refl _) (by omega)).trans (if_pos rfl)

theorem bodyOpen_iff (n : Nat) : bodyOpen n = true ↔ n = FREE ∨ n = POSTED ∨ n = DONE := by
  simp [bodyOpen, or_assoc]

theorem writeRegion_body (i : Fin 16) (h1 : slotAddr i < x) (h2 : x < slotAddr i + 64) :
    (writeRegion x b s).exc.notices = s.exc.notices ∧ (writeRegion x b s).exc.mem =
      if slotState s.exc.mem i = FREE ∨ slotState s.exc.mem i = POSTED ∨ slotState s.exc.mem i = DONE then
        writeByte s.exc.mem x b
      else s.exc.mem := by
  rw [writeRegion_slot b s i (Nat.le_of_lt h1) h2, if_neg (by omega)]
  by_cases h : bodyOpen (slotState s.exc.mem i) = true
  · rw [if_pos h, if_pos ((bodyOpen_iff _).mp h)]
    exact ⟨rfl, rfl⟩
  · rw [if_neg h, if_neg (fun hopen => h ((bodyOpen_iff _).mpr hopen))]
    exact ⟨rfl, rfl⟩

end Regions

/-! ### WRITE -/

/-- The state in which a WRITE has been opened at an address. -/
def writeOpened (x : Nat) (s : State) : State :=
  { s with exc := { s.exc with
    dataOut := [], bus := .writing ⟨x, slotStates s.exc.mem, false, false, false⟩ } }

/-- The bus with a transaction open, or none. -/
def setBus (bus : Bus) (s : State) : State := { s with exc := { s.exc with bus := bus } }

theorem writeTxn_byte {s : State} (a : BitVec 16) (b : Byte) (hacts : portActs s = true) (hidle : s.exc.bus = .idle) :
    ∃ bus, writeTxn (some a) [b] false s =
      setBus bus (writeRegion (a.toNat % 8192) b (writeOpened (a.toNat % 8192) s)) := by
  have hclose : closeBus s = s := by unfold closeBus; rw [hidle]
  have hopen : openWrite (writeOpened (a.toNat % 8192) s).exc =
      some ⟨a.toNat % 8192, slotStates s.exc.mem, false, false, false⟩ := rfl
  have hacts' : portActs (writeOpened (a.toNat % 8192) s) = true := hacts
  have hmore : writeTxn (some a) [b] false s = writeMore [b] false (writeOpened (a.toNat % 8192) s) := by
    unfold writeTxn
    rw [if_pos (portPowered_of_acts hacts)]
    dsimp only
    rw [hclose]
    rfl
  rw [hmore]
  unfold writeMore
  rw [hopen, hacts']
  exact ⟨_, rfl⟩

/-- One byte of a WRITE that goes on: what its region does with it. -/
theorem exec_write_byte {s : State} (a : BitVec 16) (b : Byte) (hacts : portActs s = true) (hidle : s.exc.bus = .idle) :
    ∃ t, exec (.write (some a) [b] false) s = .next t ∧ ∀ w,
      w = writeRegion (a.toNat % 8192) b (writeOpened (a.toNat % 8192) s) →
      t.toModules = w.toModules ∧ t.bat = w.bat ∧ t.flash = w.flash ∧ t.exc.mem = w.exc.mem ∧
        t.exc.markReg = w.exc.markReg ∧ t.exc.notices = w.exc.notices := by
  obtain ⟨bus, h⟩ := writeTxn_byte a b hacts hidle
  refine ⟨_, congrArg done h, fun w hw => ?_⟩
  rw [← hw]
  simp only [refresh_toModules, refresh_bat, refresh_flash, refresh_mem, refresh_markReg, refresh_notices]
  exact ⟨rfl, rfl, rfl, rfl, rfl, rfl⟩

theorem write_state_byte {i : Fin 16} {b : Byte} {s y : State} (hmem : y.exc.mem = s.exc.mem)
    (hnotices : y.exc.notices = s.exc.notices) (hlive : y.exc.live = s.exc.live) (holdest : y.exc.oldest = s.exc.oldest)
    (hclock : y.bat.clock = s.bat.clock) :
    (legalChange (slotState s.exc.mem i) b.toNat = true →
      (writeState i b y).exc.mem = putState s.exc.mem i b.toNat ∧ (writeState i b y).exc.notices = s.exc.notices) ∧
    (slotState s.exc.mem i = b.toNat →
      (writeState i b y).exc.mem = s.exc.mem ∧ (writeState i b y).exc.notices = s.exc.notices) ∧
    (legalChange (slotState s.exc.mem i) b.toNat = false → slotState s.exc.mem i ≠ b.toNat →
      (writeState i b y).exc.mem = s.exc.mem ∧ (writeState i b y).exc.notices =
        (s.exc.post s.bat.clock (.slotFault i.val (slotState s.exc.mem i) b.toNat)).notices) := by
  rw [← hmem]
  refine ⟨fun h => ?_, fun h => ?_, fun h hne => ?_⟩
  · rw [writeState_legal h]
    exact ⟨rfl, hnotices⟩
  · rw [writeState_same h]
    exact ⟨rfl, hnotices⟩
  · rw [writeState_illegal h hne, ← hclock]
    exact ⟨(post_exc_parts _ y).1, post_notices_congr hlive holdest hnotices _ _⟩

/-! ### Single writes of a state byte -/

theorem exec_slotFree {i : Fin 16} {s : State} (hacts : portActs s = true) (hidle : s.exc.bus = .idle)
    (hdone : slotState s.exc.mem i = DONE) : exec (.slotFree i) s = .next (refresh { s with
      exc := Exc.recomputeAttn { s.exc with mem := putState s.exc.mem i FREE } }) := by
  have hlegal : legalChange (slotState s.exc.mem i) (0 : Byte).toNat = true := by rw [hdone]; rfl
  have hfree : slotFree i s =
      settleAttn { s with exc := { s.exc with mem := putState s.exc.mem i (0 : Byte).toNat } } := by
    rw [← writeState_legal hlegal]
    exact if_pos (by rw [hacts, hdone]; rfl)
  have hclosed : openWrite { s.exc with mem := putState s.exc.mem i (0 : Byte).toNat } = none := by
    unfold openWrite; dsimp only; rw [hidle]
  refine congrArg done (hfree.trans ?_)
  unfold settleAttn
  rw [hclosed]
  rfl

theorem exec_exchangeFault {i : Fin 16} {v : Byte} {s : State} (hacts : portActs s = true)
    (hne : slotState s.exc.mem i ≠ v.toNat) (h : legalChange (slotState s.exc.mem i) v.toNat = false) :
    exec (.exchangeFault i v) s =
      .next (refresh (post (.slotFault i.val (slotState s.exc.mem i) v.toNat) s)) :=
  congrArg done ((if_pos (by rw [hacts, h]; rfl)).trans (writeState_illegal h hne))

/-- Settles O54. -/
theorem writeStoresByRegion : Obligations.WriteStoresByRegion := by
  unfold Obligations.WriteStoresByRegion
  intro legal
  have legal_false : ∀ {old new : Nat}, ¬ legal old new → legalChange old new = false := fun h =>
    Bool.not_eq_true _ ▸ fun hl => h ((legal_iff _ _).mp hl)
  refine ⟨fun a b s hacts hidle => ?_, fun i s hacts hidle hdone => exec_slotFree hacts hidle hdone,
    fun i v s hacts hne hillegal => exec_exchangeFault hacts hne (legal_false hillegal)⟩
  intro x
  obtain ⟨hmods, hbat, hflash⟩ := writeRegion_frame x b (writeOpened x s)
  obtain ⟨t, ht, hparts⟩ := exec_write_byte a b hacts hidle
  obtain ⟨htmods, htbat, htflash, htmem, htmark, htnotices⟩ := hparts _ rfl
  change t.exc.mem = (writeRegion x b (writeOpened x s)).exc.mem at htmem
  change t.exc.markReg = (writeRegion x b (writeOpened x s)).exc.markReg at htmark
  change t.exc.notices = (writeRegion x b (writeOpened x s)).exc.notices at htnotices
  refine ⟨t, ht, htmods.trans hmods, htbat.trans hbat, htflash.trans hflash, ?_⟩
  rw [htmem, htmark, htnotices]
  refine ⟨fun h => ?_, fun h => ?_, fun h => ?_, fun h => ?_, fun i h1 h2 => ?_, fun i h => ?_⟩
  case refine_1 =>
    rw [writeRegion_ignored b _ h]
    exact ⟨rfl, rfl, rfl⟩
  case refine_2 =>
    rw [h, writeRegion_mark_low]
    exact ⟨rfl, rfl⟩
  case refine_3 =>
    rw [h, writeRegion_mark_high]
    exact ⟨rfl, rfl⟩
  case refine_4 =>
    rw [writeRegion_mem b _ h]
    exact ⟨rfl, rfl⟩
  case refine_5 => exact writeRegion_body b (writeOpened x s) i h1 h2
  case refine_6 =>
    rw [h, writeRegion_state]
    obtain ⟨hlegal, hsame, hillegal⟩ :=
      write_state_byte (i := i) (b := b) (s := s) (y := writeOpened (slotAddr i) s) rfl rfl rfl rfl rfl
    exact ⟨fun hl => hlegal ((legal_iff _ _).mpr hl), hsame, fun hl hne => hillegal (legal_false hl) hne⟩

end Sys2Proof.Machine

/-! PROOF. The acts of the chip-select rise on the slots: O55 (R174, R177, R180). -/

namespace Sys2Proof.Machine

open Sys2Proof

/-! ### What a take, a continue and a cancel do (R174, R177, R180) -/

/-- The memory in which a slot has been stamped at its take. -/
def stampedMem (i : Fin 16) (s : State) : Memory := writeBytes s.exc.mem (slotAddr i + 2) (le 2 s.exc.takeCtr)

/-- The kind that a stamped slot asks for. -/
def stampedKind (i : Fin 16) (s : State) : Option ReqKind :=
  reqKind (readByte (stampedMem i s) (slotAddr i + 1)).toNat

/-- The request that a take latches. -/
def takenRequest (i : Fin 16) (k : ReqKind) (s : State) : Request :=
  ⟨i, k, readBytes (stampedMem i s) (slotAddr i + 8) 56, snapshotOf k s⟩

theorem takeSlot_bad {i : Fin 16} {s : State} (h : stampedKind i s = none) :
    (takeSlot i s).exc.takeCtr = (s.exc.takeCtr + 1) % 65536 ∧
      (takeSlot i s).exc.mem = doneMem i .badRequest 0 0 [] (stampedMem i s) ∧
      (takeSlot i s).exc.code = s.exc.code ∧ (takeSlot i s).exc.control = s.exc.control ∧
      (takeSlot i s).exc.query = s.exc.query ∧ (takeSlot i s).toModules = s.toModules := by
  change reqKind (readByte (writeBytes s.exc.mem (slotAddr i + 2) (le 2 s.exc.takeCtr)) (slotAddr i + 1)).toNat =
    none at h
  unfold takeSlot
  dsimp only
  rw [h]
  exact ⟨rfl, rfl, rfl, rfl, rfl, rfl⟩

theorem secretBytes_eq (k : ReqKind) : secretBytes k =
    if k = .calibrate ∨ k = .identify ∨ k = .installKey ∨ k = .commission then 56 else 0 := by
  cases k <;> rfl

/-- The parameters that a take clears, so that the slot shows only its results (R161). -/
theorem clearedMem (k : ReqKind) (i : Fin 16) (m : Memory) :
    writeBytes m (slotAddr i + 8) (zeros (secretBytes k)) =
      if k = .calibrate ∨ k = .identify ∨ k = .installKey ∨ k = .commission then
        writeBytes m (slotAddr i + 8) (List.replicate 56 0)
      else m := by
  rw [secretBytes_eq]
  split <;> rfl

theorem takeSlot_request {i : Fin 16} {k : ReqKind} {s : State} (h : stampedKind i s = some k) :
    (takeSlot i s).exc.takeCtr = (s.exc.takeCtr + 1) % 65536 ∧
      (takeSlot i s).exc.mem = putState (if k = .calibrate ∨ k = .identify ∨ k = .installKey ∨ k = .commission then
        writeBytes (stampedMem i s) (slotAddr i + 8) (List.replicate 56 0) else stampedMem i s) i TAKEN ∧
      (takeSlot i s).exc.code = (joinLane (takenRequest i k s) s.exc).code ∧
      (takeSlot i s).exc.control = (joinLane (takenRequest i k s) s.exc).control ∧
      (takeSlot i s).exc.query = (joinLane (takenRequest i k s) s.exc).query ∧
      (takeSlot i s).toModules = s.toModules := by
  change reqKind (readByte (writeBytes s.exc.mem (slotAddr i + 2) (le 2 s.exc.takeCtr)) (slotAddr i + 1)).toNat =
    some k at h
  have htake : takeSlot i s = { s with exc := joinLane (takenRequest i k s) { s.exc with
      mem := putState (writeBytes (stampedMem i s) (slotAddr i + 8) (zeros (secretBytes k))) i TAKEN,
      takeCtr := (s.exc.takeCtr + 1) % 65536 } } := by
    unfold takeSlot
    dsimp only
    rw [h]
    rfl
  obtain ⟨hctr, hmem⟩ := joinLane_parts (takenRequest i k s) { s.exc with
    mem := putState (writeBytes (stampedMem i s) (slotAddr i + 8) (zeros (secretBytes k))) i TAKEN,
    takeCtr := (s.exc.takeCtr + 1) % 65536 }
  obtain ⟨hcode, hcontrol, hquery⟩ := joinLane_lanes (takenRequest i k s) { s.exc with
    mem := putState (writeBytes (stampedMem i s) (slotAddr i + 8) (zeros (secretBytes k))) i TAKEN,
    takeCtr := (s.exc.takeCtr + 1) % 65536 } s.exc rfl rfl rfl
  rw [htake, ← clearedMem]
  exact ⟨hctr, hmem, hcode, hcontrol, hquery, rfl⟩

theorem continueSlot_paused {i : Fin 16} {b : BulkRun} {s : State} (hbulk : s.exc.bulk = some b) (hslot : b.slot = i)
    (hpaused : b.paused = true) : continueSlot i s = { s with exc := { s.exc with
      mem := putState s.exc.mem i TAKEN, bulk := some { b with paused := false, pause := ⟨0, false⟩ } } } := by
  unfold continueSlot
  rw [hbulk]
  exact if_pos ⟨hslot, hpaused⟩

section Cancel

variable {i : Fin 16} {s : State}

theorem cancelSlot_code (h : atHead i s.exc.code = true) :
    cancelSlot i s = if codeOccupied s.cau then cancelQueued i s else ignoreCancel i s := if_pos h

theorem cancelSlot_control (hcode : atHead i s.exc.code = false) (h : atHead i s.exc.control = true) :
    cancelSlot i s = if controlOccupied s then cancelQueued i s else ignoreCancel i s :=
  (if_neg (Bool.not_eq_true _ ▸ hcode)).trans (if_pos h)

/-- A cancel of a slot that heads neither the CODE lane nor the CONTROL lane. -/
theorem cancelSlot_elsewhere (h : atHead i s.exc.code = false ∧ atHead i s.exc.control = false) : cancelSlot i s =
    if atHead i s.exc.query then
      match s.exc.bulk with
      | some b => readsDone (finishQuery i .cancelled 0 b.total [] s)
      | none => if headIsSingle s.exc.query then ignoreCancel i s else cancelQueued i s
    else if inLane i s.exc.code || inLane i s.exc.control || inLane i s.exc.query then cancelQueued i s
    else cancelStanding i s :=
  (if_neg (Bool.not_eq_true _ ▸ h.1)).trans ((if_neg (Bool.not_eq_true _ ▸ h.2)).trans rfl)

theorem atHead_cons {r : Request} {rest : List Request} {l : Lane} (hqueue : l.queue = r :: rest) (hslot : r.slot = i) :
    atHead i l = true := by
  unfold atHead
  rw [hqueue]
  exact decide_eq_true hslot

theorem headIsSingle_iff {r : Request} {rest : List Request} {l : Lane} (hqueue : l.queue = r :: rest) :
    headIsSingle l = true ↔ r.kind = .readEvidence ∨ (r.kind = .readLive ∧ r.par 10 2 = 0) := by
  unfold headIsSingle
  rw [hqueue]
  show singleResult r = true ↔ _
  unfold singleResult
  split
  · next hkind => simp [hkind]
  · next hkind => simp [hkind]
  · next hlive hevidence =>
    exact ⟨nofun, fun h => h.elim (fun hk => (hevidence hk).elim) (fun hk => (hlive hk.1).elim)⟩

end Cancel

/-! ### The acts of the rise -/

section Rise

variable {i : Fin 16} {w : WriteTxn} {s : State}

/-- A slot is due to be taken: the host posted it in the transaction that rises. -/
def TakeDue (w : WriteTxn) (s : State) (j : Fin 16) : Prop := slotState s.exc.mem j = POSTED ∧ stateBefore w j = FREE

theorem slotTake_later (hopen : WriteOpen w s) (hlower : ∃ j, j < i ∧ TakeDue w s j) :
    exec (.slotTake i) s = .next (refresh s) := by
  refine congrArg done (rise_none hopen _ _ _ _ ?_)
  obtain ⟨j, hj, hdue⟩ := hlower
  rw [← Bool.not_eq_true, takesNext_iff]
  exact fun h => h.2 j hj ((takes_iff w s.exc.mem j).mpr hdue)

theorem slotTake_next (hopen : WriteOpen w s) (hdue : TakeDue w s i) (hnext : ∀ j, j < i → ¬ TakeDue w s j) :
    ∃ t, exec (.slotTake i) s = .next t ∧ ExchangeFrame (takeSlot i s).exc t.exc ∧
      t.toModules = (takeSlot i s).toModules := by
  have hcond : takesNext w s.exc.mem i = true := (takesNext_iff _ _ _).mpr
    ⟨(takes_iff _ _ _).mpr hdue, fun j hj htakes => hnext j hj ((takes_iff _ _ _).mp htakes)⟩
  obtain ⟨t, ht, hframe, hmods, -⟩ := rise_act hopen (.slotTake i) (fun t m => takesNext t m i) (fun t => t.mark)
    (fun t => t.capture) (takeSlot i) rfl hcond
  exact ⟨t, ht, hframe, hmods⟩

theorem slotContinue_act {b : BulkRun} (hopen : WriteOpen w s) (hposted : slotState s.exc.mem i = POSTED)
    (hbulk : s.exc.bulk = some b) (hslot : b.slot = i) (hpaused : b.paused = true) :
    ∃ t, exec (.slotContinue i) s = .next t ∧ t.exc.mem = putState s.exc.mem i TAKEN ∧
      t.exc.bulk = some { b with paused := false, pause := ⟨0, false⟩ } ∧ t.toModules = s.toModules := by
  have hcond : continues s.exc.bulk s.exc.mem i = true := by
    simp [continues, hposted, hbulk, hslot, hpaused]
  obtain ⟨t, ht, hframe, hmods, -⟩ := rise_act hopen (.slotContinue i) (fun _ m => continues s.exc.bulk m i)
    (fun t => t.mark) (fun t => t.capture) (continueSlot i) rfl hcond
  rw [continueSlot_paused hbulk hslot hpaused] at hframe hmods
  exact ⟨t, ht, hframe.mem, hframe.bulk, hmods⟩

theorem slotCancel_act (hopen : WriteOpen w s) (hcancel : slotState s.exc.mem i = CANCEL) :
    ∃ t, exec (.slotCancel i) s = .next t ∧ ExchangeFrame (cancelSlot i s).exc t.exc ∧
      t.toModules = (cancelSlot i s).toModules ∧ t.flash = (cancelSlot i s).flash := by
  have hcond : cancels s.exc.mem i = true := by simp [cancels, hcancel]
  obtain ⟨t, ht, hframe, hmods, -, hflash, -⟩ := rise_act hopen (.slotCancel i) (fun _ m => cancels m i)
    (fun t => t.mark) (fun t => t.capture) (cancelSlot i) rfl hcond
  exact ⟨t, ht, hframe, hmods, hflash⟩

theorem slotCancel_removed (hopen : WriteOpen w s) (hcancel : slotState s.exc.mem i = CANCEL)
    (h : cancelSlot i s = cancelQueued i s) : ∃ t, exec (.slotCancel i) s = .next t ∧
      t.exc.mem = doneMem i .cancelled 0 0 [] s.exc.mem ∧ t.exc.code = s.exc.code.remove i ∧
      t.exc.control = s.exc.control.remove i ∧ t.exc.query = s.exc.query.remove i ∧ t.toModules = s.toModules := by
  obtain ⟨t, ht, hframe, hmods, -⟩ := slotCancel_act hopen hcancel
  rw [h] at hframe hmods
  exact ⟨t, ht, hframe.mem, hframe.code, hframe.control, hframe.query, hmods⟩

theorem slotCancel_ignored (hopen : WriteOpen w s) (hcancel : slotState s.exc.mem i = CANCEL)
    (h : cancelSlot i s = ignoreCancel i s) : ∃ t, exec (.slotCancel i) s = .next t ∧
      t.exc.mem = putState s.exc.mem i TAKEN ∧ t.exc.code = s.exc.code ∧ t.exc.control = s.exc.control ∧
      t.exc.query = s.exc.query ∧ t.toModules = s.toModules := by
  obtain ⟨t, ht, hframe, hmods, -⟩ := slotCancel_act hopen hcancel
  rw [h] at hframe hmods
  exact ⟨t, ht, hframe.mem, hframe.code, hframe.control, hframe.query, hmods⟩

/-- The bulk request in execution is cancelled: DONE with the total delivered so far. -/
theorem slotCancel_bulk {b : BulkRun} (hopen : WriteOpen w s) (hcancel : slotState s.exc.mem i = CANCEL)
    (h : atHead i s.exc.code = false ∧ atHead i s.exc.control = false) (hquery : atHead i s.exc.query = true)
    (hbulk : s.exc.bulk = some b) : ∃ t, exec (.slotCancel i) s = .next t ∧
      t.exc.mem = doneMem i .cancelled 0 b.total [] s.exc.mem ∧ t.exc.bulk = none ∧
      t.exc.query = ⟨s.exc.query.queue.tail, false⟩ ∧ t.ce = s.ce ∧ t.flash = s.flash := by
  have hact : cancelSlot i s = readsDone (finishQuery i .cancelled 0 b.total [] s) := by
    rw [cancelSlot_elsewhere h, if_pos hquery, hbulk]
  obtain ⟨t, ht, hframe, hmods, hflash⟩ := slotCancel_act hopen hcancel
  obtain ⟨hexc, hrflash, hce, -⟩ := readsDone_parts (finishQuery i .cancelled 0 b.total [] s)
  obtain ⟨hmem, hnone, hqueue⟩ := finishQuery_parts i .cancelled 0 b.total [] s
  rw [hact] at hframe hmods hflash
  rw [hexc] at hframe
  exact ⟨t, ht, hframe.mem.trans hmem, hframe.bulk.trans hnone, hframe.query.trans hqueue,
    (congrArg Modules.ce hmods).trans hce, hflash.trans hrflash⟩

theorem slotCancel_standing (hopen : WriteOpen w s) (hcancel : slotState s.exc.mem i = CANCEL)
    (h : atHead i s.exc.code = false ∧ atHead i s.exc.control = false) (hquery : atHead i s.exc.query = false)
    (hwaits : (inLane i s.exc.code || inLane i s.exc.control || inLane i s.exc.query) = false) :
    ∃ t, exec (.slotCancel i) s = .next t ∧
      t.exc.mem = putState (putFields s.exc.mem i [(4, [6]), (5, [0])]) i DONE ∧
      t.exc.standing = s.exc.standing.filter (fun q => decide (q.slot ≠ i)) ∧ t.toModules = s.toModules := by
  have hact : cancelSlot i s = cancelStanding i s := by
    rw [cancelSlot_elsewhere h, hquery, hwaits]
    rfl
  obtain ⟨t, ht, hframe, hmods, -⟩ := slotCancel_act hopen hcancel
  rw [hact] at hframe hmods
  exact ⟨t, ht, hframe.mem, hframe.standing, hmods⟩

end Rise

/-- Settles O55. -/
theorem slotActs : Obligations.SlotActs := by
  intro i w s hopen m kind due
  refine ⟨fun _ hlower => slotTake_later hopen hlower, fun hdue hnext => ?_,
    fun b hposted hbulk hslot hpaused => slotContinue_act hopen hposted hbulk hslot hpaused, fun hcancel => ?_⟩
  case refine_1 =>
    obtain ⟨t, ht, hframe, hmods⟩ := slotTake_next hopen hdue hnext
    refine ⟨fun hkind => ?_, fun k hkind => ?_⟩
    · obtain ⟨hctr, hmem, hcode, hcontrol, hquery, hsame⟩ := takeSlot_bad hkind
      exact ⟨t, ht, hframe.takeCtr.trans hctr, hframe.mem.trans hmem, hframe.code.trans hcode,
        hframe.control.trans hcontrol, hframe.query.trans hquery, hmods.trans hsame⟩
    · obtain ⟨hctr, hmem, hcode, hcontrol, hquery, hsame⟩ := takeSlot_request hkind
      exact ⟨t, ht, hframe.takeCtr.trans hctr, hframe.mem.trans hmem, ⟨hframe.code.trans hcode,
        hframe.control.trans hcontrol, hframe.query.trans hquery⟩, hmods.trans hsame⟩
  case refine_2 =>
    intro elsewhere waits removed ignored
    refine ⟨fun hhead hocc => slotCancel_removed hopen hcancel ?_,
      fun hhead hocc => slotCancel_ignored hopen hcancel ?_,
      fun hcode hhead hocc => slotCancel_removed hopen hcancel ?_,
      fun hcode hhead hocc => slotCancel_ignored hopen hcancel ?_,
      fun h hquery hwaits => slotCancel_removed hopen hcancel ?_, fun r rest h hqueue hslot hbulk => ?_,
      fun b h hquery hbulk => slotCancel_bulk hopen hcancel h hquery hbulk,
      fun q _ _ h hquery hwaits => slotCancel_standing hopen hcancel h hquery hwaits⟩
    case refine_1 => rw [cancelSlot_code hhead, if_pos hocc]
    case refine_2 => rw [cancelSlot_code hhead, hocc]; rfl
    case refine_3 => rw [cancelSlot_control hcode hhead, if_pos hocc]
    case refine_4 => rw [cancelSlot_control hcode hhead, hocc]; rfl
    case refine_5 =>
      rw [cancelSlot_elsewhere h, hquery]
      exact (if_neg (by decide)).trans (if_pos hwaits)
    case refine_6 =>
      have hact : cancelSlot i s =
          if headIsSingle s.exc.query then ignoreCancel i s else cancelQueued i s := by
        rw [cancelSlot_elsewhere h, if_pos (atHead_cons hqueue hslot), hbulk]
      refine ⟨fun hsingle => slotCancel_ignored hopen hcancel ?_, fun hsingle => slotCancel_removed hopen hcancel ?_⟩
      · rw [hact, if_pos ((headIsSingle_iff hqueue).mpr hsingle)]
      · rw [hact, if_neg (fun h => hsingle ((headIsSingle_iff hqueue).mp h))]

end Sys2Proof.Machine

/-! PROOF. Notice and capture release, and exchange reset: O56 (R45, R69, R184, R186, R187). -/

namespace Sys2Proof.Machine

open Sys2Proof

/-! ### Notice release and capture release (R69, R184) -/

/-- How many notices the release mark releases. -/
def releasedCount (s : State) : Nat := (s.exc.markReg + 65537 - s.exc.oldest) % 65536

section Release

variable {w : WriteTxn} {s : State}

theorem releaseNotices_none (h : releasedCount s = 0) : releaseNotices s = s := if_pos h

theorem releaseNotices_some (h1 : 1 ≤ releasedCount s) (h2 : releasedCount s ≤ s.exc.notices.length) :
    releaseNotices s = { s with exc := Exc.recomputeAttn { s.exc with
      notices := s.exc.notices.drop (releasedCount s), oldest := (s.exc.oldest + releasedCount s) % 65536,
      overflow := false } } :=
  (if_neg (show ¬ releasedCount s = 0 by omega)).trans (if_pos h2)

theorem releaseNotices_fault (h : s.exc.notices.length < releasedCount s) :
    releaseNotices s = post (.markFault s.exc.markReg s.exc.oldest s.exc.notices.length) s :=
  (if_neg (show ¬ releasedCount s = 0 by omega)).trans (if_neg (show ¬ releasedCount s ≤ _ by omega))

theorem noticeRelease_act (hopen : WriteOpen w s) (hmark : w.mark = true) : ∃ t, exec .noticeRelease s = .next t ∧
    ExchangeFrame (releaseNotices s).exc t.exc ∧ t.toModules = (releaseNotices s).toModules := by
  obtain ⟨t, ht, hframe, hmods, -⟩ := rise_act hopen .noticeRelease (fun t _ => t.mark) (fun _ => false)
    (fun t => t.capture) releaseNotices rfl hmark
  exact ⟨t, ht, hframe, hmods⟩

theorem noticeRelease_parts (hopen : WriteOpen w s) (hmark : w.mark = true) :
    (releasedCount s = 0 → ∃ t, exec .noticeRelease s = .next t ∧ t.exc.notices = s.exc.notices ∧
      t.exc.oldest = s.exc.oldest ∧ t.exc.mem = s.exc.mem ∧ t.toModules = s.toModules) ∧
    (1 ≤ releasedCount s → releasedCount s ≤ s.exc.notices.length → ∃ t, exec .noticeRelease s = .next t ∧
      t.exc.notices = s.exc.notices.drop (releasedCount s) ∧
      t.exc.oldest = (s.exc.oldest + releasedCount s) % 65536 ∧ t.exc.overflow = false ∧
      t.exc.mem = s.exc.mem ∧ t.toModules = s.toModules) ∧
    (s.exc.notices.length < releasedCount s → ∃ t, exec .noticeRelease s = .next t ∧
      t.exc.notices = (s.exc.post s.bat.clock
        (.markFault s.exc.markReg s.exc.oldest s.exc.notices.length)).notices ∧
      t.exc.mem = s.exc.mem ∧ t.toModules = s.toModules) := by
  obtain ⟨t, ht, hframe, hmods⟩ := noticeRelease_act hopen hmark
  refine ⟨fun h => ?_, fun h1 h2 => ?_, fun h => ?_⟩
  · rw [releaseNotices_none h] at hframe hmods
    exact ⟨t, ht, hframe.notices, hframe.oldest, hframe.mem, hmods⟩
  · rw [releaseNotices_some h1 h2] at hframe hmods
    exact ⟨t, ht, hframe.notices, hframe.oldest, hframe.overflow, hframe.mem, hmods⟩
  · rw [releaseNotices_fault h] at hframe hmods
    exact ⟨t, ht, hframe.notices, hframe.mem.trans (post_exc_parts _ s).1, hmods⟩

theorem captureRelease_act (hopen : WriteOpen w s) (hcapture : w.capture = true) :
    ∃ t, exec .captureRelease s = .next t ∧ t.rlr = { s.rlr with captureHeld := false, capture := [] } ∧
      t.exc.wake = false ∧ t.exc.mem = s.exc.mem ∧ t.exc.notices = s.exc.notices ∧ t.ce = s.ce := by
  obtain ⟨t, ht, hframe, hmods, -⟩ := rise_act hopen .captureRelease (fun t _ => t.capture) (fun t => t.mark)
    (fun _ => false) clearCapture rfl hcapture
  exact ⟨t, ht, (congrArg Modules.rlr hmods :), hframe.wake, hframe.mem, hframe.notices, (congrArg Modules.ce hmods :)⟩

end Release

/-! ### Exchange reset (R186, R187) -/

section Reset

variable {s : State}

/-- The state in which the reset line is asserted and every request has lost its slot. -/
def slotsLost (s : State) : State := loseSlots { s with exc := { s.exc with xrst := true } }

theorem dropReads_frame (s : State) : (dropReads s).exc = s.exc ∧ (dropReads s).bat = s.bat ∧
    (dropReads s).ce = s.ce ∧ (dropReads s).psv = s.psv ∧ (dropReads s).ee = s.ee ∧ (dropReads s).cau = s.cau ∧
    (dropReads s).swc = s.swc ∧ (dropReads s).rlr = s.rlr ∧ (dropReads s).flash = s.flash ∧
    (dropReads s).stc.fault = s.stc.fault := by
  unfold dropReads
  split
  · obtain ⟨hexc, hbat, hce, hpsv, hee, hcau, hswc, hflash, -⟩ := runArbiter_parts
      { s with stc := { s.stc with
        readWait := false,
        erase := s.stc.erase.map (fun e =>
          if e.suspended && s.psv.power == .run then { e with suspended := false, guarded := true } else e) } }
    have houtside := (outside_arb { s with stc := { s.stc with
        readWait := false,
        erase := s.stc.erase.map (fun e =>
          if e.suspended && s.psv.power == .run then { e with suspended := false, guarded := true } else e) } }).stc
    refine ⟨hexc, hbat, hce, hpsv, hee, hcau, hswc, ?_, hflash, houtside.fault⟩
    unfold readsDone runArbiter
    dsimp only
    split <;> rfl
  · exact ⟨rfl, rfl, rfl, rfl, rfl, rfl, rfl, rfl, rfl, rfl⟩

/-- The first notice after an exchange reset. -/
def resetNotice (s : State) : Notice :=
  ⟨1, s.bat.clock, .exchangeStart .xrst 0 s.psv.recordFound s.stc.fault s.psv.inService⟩

/-- The state in which the exchange has been emptied and EXCHANGE_START posted, before a taken SET_TIME acts. -/
def exchangeReset (s : State) : State :=
  post (.exchangeStart .xrst 0 s.psv.recordFound s.stc.fault s.psv.inService)
    (initExchange true (dropReads (slotsLost s)))

theorem initExchange_parts (s : State) : (initExchange true s).exc.live = true ∧
    (initExchange true s).exc.xrst = s.exc.xrst ∧ (initExchange true s).exc.mem = [] ∧
    (initExchange true s).exc.takeCtr = 1 ∧ (initExchange true s).exc.standing = [] ∧
    (initExchange true s).exc.code = Lane.empty ∧ (initExchange true s).exc.control = Lane.empty ∧
    (initExchange true s).exc.query = Lane.empty ∧ (initExchange true s).exc.bulk = none ∧
    (initExchange true s).exc.wake = false :=
  ⟨rfl, rfl, rfl, rfl, rfl, rfl, rfl, rfl, rfl, rfl⟩

theorem post_first (b : NoticeBody) (s : State) :
    (post b (initExchange true s)).exc.notices = [⟨1, s.bat.clock, b⟩] := rfl

/-- What an exchange reset leaves of the exchange and of the modules that a taken SET_TIME does not touch. -/
structure ExchangeReset (s t : State) : Prop where
  live : t.exc.live = true
  xrst : t.exc.xrst = true
  mem : t.exc.mem = []
  takeCtr : t.exc.takeCtr = 1
  standing : t.exc.standing = []
  code : t.exc.code = Lane.empty
  control : t.exc.control = Lane.empty
  query : t.exc.query = Lane.empty
  bulk : t.exc.bulk = none
  head : t.exc.notices.head? = some (resetNotice s)
  capture : t.rlr.captureHeld = false
  wake : t.exc.wake = false
  queue : t.cau.queue = s.cau.queue.map (fun e => { e with slot := none })
  pkg : t.cau.pkg = s.cau.pkg.map (fun p => { p with slot := none })
  req : t.psv.req = s.psv.req.map (fun q => { q with slot := none })
  flash : t.flash = s.flash

theorem exchangeReset_parts (s : State) : ExchangeReset s (exchangeReset s) ∧
    (exchangeReset s).exc.notices = [resetNotice s] ∧ (exchangeReset s).ce = s.ce ∧ (exchangeReset s).ee = s.ee ∧
    (exchangeReset s).bat = s.bat ∧
    (exchangeReset s).swc = { s.swc with drive := s.swc.drive.map (fun d => { d with slot := none }) } ∧
    (exchangeReset s).psv.inService = s.psv.inService := by
  obtain ⟨hexc, hbat, hce, hpsv, hee, hcau, hswc, -, hflash, -⟩ := dropReads_frame (slotsLost s)
  unfold exchangeReset
  generalize dropReads (slotsLost s) = x at *
  generalize hbody : NoticeBody.exchangeStart .xrst 0 s.psv.recordFound s.stc.fault s.psv.inService = body
  have hnotices := post_first body x
  rw [hbat, ← hbody] at hnotices
  obtain ⟨hmem, hcontrol, hcode, hquery, hlive, hbulk, -⟩ := post_exc_parts body (initExchange true x)
  have htime := timeSet_post body (initExchange true x)
  refine ⟨⟨hlive, ?_, hmem, htime.takeCtr, htime.standing, hcode, hcontrol, hquery, hbulk, ?_, rfl, htime.wake, ?_, ?_,
    ?_, hflash⟩, ?_, hce, hee, hbat, hswc, (congrArg Psv.inService hpsv :)⟩
  · exact htime.xrst.trans (congrArg Exc.xrst hexc)
  · rw [← hbody, hnotices]; rfl
  · exact (congrArg Cau.queue hcau :)
  · exact (congrArg Cau.pkg hcau :)
  · exact (congrArg Psv.req hpsv :)
  · rw [← hbody, hnotices]; rfl

theorem xrstAssert_run (hxrst : s.exc.xrst = false) (hpower : s.psv.power = .run) :
    xrstAssert s = s.exc.control.queue.foldl timeApplied (exchangeReset s) := by
  unfold xrstAssert
  rw [hxrst]
  simp only [Bool.false_eq_true, if_false, hpower]
  rfl

theorem xrstAssert_hold (hxrst : s.exc.xrst = false) (hpower : s.psv.power = .hold) :
    xrstAssert s = initExchange false (slotsLost s) := by
  unfold xrstAssert
  rw [hxrst]
  simp only [Bool.false_eq_true, if_false, hpower]
  rfl

theorem xrstAssert_noted (hxrst : s.exc.xrst = false) (hpower : s.psv.power = .battery ∨ s.psv.power = .off) :
    xrstAssert s = { s with exc := { s.exc with xrst := true } } := by
  unfold xrstAssert
  rw [hxrst]
  rcases hpower with h | h <;> simp only [Bool.false_eq_true, if_false, h]

/-- Taken SET_TIMEs leave the emptied exchange, and its first notice, as they are (R45). -/
theorem exchangeReset_timed {x y : State} (h : ExchangeReset s x) (houtside : OutsideFrame x y)
    (htime : TimeSetFrame x y) : ExchangeReset s y where
  live := houtside.live.trans h.live
  xrst := htime.xrst.trans h.xrst
  mem := houtside.mem.trans h.mem
  takeCtr := htime.takeCtr.trans h.takeCtr
  standing := htime.standing.trans h.standing
  code := htime.code.trans h.code
  control := houtside.control.trans h.control
  query := htime.query.trans h.query
  bulk := htime.bulk.trans h.bulk
  head := htime.head _ h.head
  capture := by rw [htime.rlr]; exact h.capture
  wake := htime.wake.trans h.wake
  queue := by rw [houtside.cau]; exact h.queue
  pkg := by rw [houtside.cau]; exact h.pkg
  req := by rw [houtside.psv]; exact h.req
  flash := houtside.flash.trans h.flash

theorem exchangeReset_refresh {x : State} (h : ExchangeReset s x) : ExchangeReset s (refresh x) := by
  obtain ⟨h1, h2, h3, h4, h5, h6, h7, h8, h9, h10, h11, h12, h13, h14, h15, h16⟩ := h
  constructor <;>
    simp only [refresh_toModules, refresh_flash, refresh_psv, refresh_live, refresh_xrst, refresh_mem,
      refresh_takeCtr, refresh_standing, refresh_code, refresh_control, refresh_query, refresh_bulk, refresh_notices,
      refresh_wake] <;>
    assumption

/-- A taken SET_TIME in DELTA mode still moves a valid clock (R40, R45). -/
theorem timeApplied_delta {r : Request} (hkind : r.kind = .setTime) (hmode : r.par 8 1 = 0)
    (hvalid : s.bat.clockValid = true) (hrange : s.bat.clock ≤ 4294967295) :
    let x := signed32 (r.par 12 4)
    let left : Int := max (900 - s.bat.steerUsed) 0
    ((timeApplied s r).bat.clock : Int) = s.bat.clock +
      max (-(s.bat.clock : Int)) (min (max (-left) (min x left)) (4294967295 - s.bat.clock)) := by
  intro x left
  have happlied := applied_eq x s.bat hrange
  have hsteer : timeApplied s r = steer (appliedStep x s.bat) s := by
    unfold timeApplied
    rw [if_pos hkind, hmode]
    exact if_pos hvalid
  obtain ⟨-, -, -, -, hbat⟩ := steer_all (appliedStep x s.bat) s
  have hclock : (steer (appliedStep x s.bat) s).bat.clock = ((s.bat.clock : Int) + appliedStep x s.bat).toNat := by
    rw [hbat]; split <;> rfl
  have hnonneg : (((s.bat.clock : Int) + appliedStep x s.bat).toNat : Int) = s.bat.clock + appliedStep x s.bat := by
    rw [happlied]
    exact Int.toNat_of_nonneg (by omega)
  rw [hsteer, hclock, hnonneg, happlied]

/-- A taken SET_TIME in ABSOLUTE mode still sets a clock that it may set (R41, R45). -/
theorem timeApplied_absolute {r : Request} (hkind : r.kind = .setTime) (hmode : r.par 8 1 = 1)
    (h : s.bat.clockValid = false ∨ s.psv.inService = false) : (timeApplied s r).bat.clock = r.par 12 4 ∧
      (timeApplied s r).bat.clockValid = true ∧ (timeApplied s r).bat.clockSource = .hostSet := by
  have hset : timeApplied s r = setClock .hostSet (r.par 12 4) s := by
    unfold timeApplied
    rw [if_pos hkind, hmode]
    exact if_neg (by rcases h with h | h <;> simp [h])
  rw [hset, (setClock_parts .hostSet (r.par 12 4) s).1]
  exact ⟨rfl, rfl, rfl⟩

end Reset

/-- Settles O56. -/
theorem releasesAndResets : Obligations.ReleasesAndResets := by
  refine ⟨fun w s hopen => ⟨fun hmark => noticeRelease_parts hopen hmark,
      fun hcapture => captureRelease_act hopen hcapture⟩,
    fun s hxrst => congrArg done (if_pos hxrst), fun s hxrst hpower => ?_, fun s hxrst hpower => ?_,
    fun s hxrst hpower => congrArg done (xrstAssert_noted hxrst hpower), fun s => rfl⟩
  case refine_1 =>
    intro start
    obtain ⟨hreset, hnotices, hce, hee, hbat, hswc, hservice⟩ := exchangeReset_parts s
    have hexec := congrArg done (xrstAssert_run hxrst hpower)
    have houtside := outside_foldl outside_time s.exc.control.queue (exchangeReset s)
    have htime := timeSet_foldl timeSet_time s.exc.control.queue (exchangeReset s)
    have h := exchangeReset_refresh (exchangeReset_timed hreset houtside htime)
    refine ⟨_, hexec, h.live, h.xrst, h.mem, h.takeCtr, h.standing, h.code, h.control, h.query, h.bulk, h.head,
      h.capture, h.wake, h.queue, h.pkg, h.req, h.flash, fun hnone => ?_, fun r hqueue hkind => ?_⟩
    · simp only [refresh_toModules, refresh_bat, refresh_notices]
      rw [time_none _ _ hnone]
      exact ⟨hnotices, hce, hee, hbat, hswc⟩
    · simp only [refresh_bat]
      rw [hqueue]
      show (_ → _ → _ → ((timeApplied (exchangeReset s) r).bat.clock : Int) = _) ∧
        (_ → _ → (timeApplied (exchangeReset s) r).bat.clock = _ ∧ (timeApplied (exchangeReset s) r).bat.clockValid = _ ∧
          (timeApplied (exchangeReset s) r).bat.clockSource = _)
      rw [← hbat, ← hservice]
      exact ⟨fun hmode hvalid hrange => timeApplied_delta hkind hmode hvalid hrange,
        fun hmode hmay => timeApplied_absolute hkind hmode hmay⟩
  case refine_2 =>
    refine ⟨_, congrArg done (xrstAssert_hold hxrst hpower), ?_⟩
    simp only [refresh_toModules, refresh_bat, refresh_flash, refresh_psv, refresh_live, refresh_xrst, refresh_mem,
      refresh_notices, refresh_standing, refresh_code, refresh_control, refresh_query, refresh_bulk, refresh_attn,
      refresh_wake]
    exact ⟨rfl, rfl, rfl, rfl, rfl, rfl, rfl, rfl, rfl, rfl, rfl, rfl, hpower, rfl, rfl, rfl, rfl, rfl, rfl⟩

end Sys2Proof.Machine

/-! PROOF. The QUERY lane: O57, O58 (R13, R14, R126, R176, R178, R179). -/

namespace Sys2Proof.Machine

open Sys2Proof

/-! ### READ_LIVE (R13, R14) -/

section Live

variable {r : Request} {s : State}

theorem readLive_bad (hready : QueryReady .readLive r s) (h : 1 < r.par 8 1 ∨ 3600 < r.par 10 2) :
    readLive s = finishQuery r.slot .badRequest 0 0 [] s := by
  unfold readLive
  rw [query_ready hready]
  exact if_pos h

/-- A READ_LIVE in range answers once, or becomes a standing request where one finds room. -/
theorem readLive_good (hready : QueryReady .readLive r s) (hpart : r.par 8 1 ≤ 1) (hevery : r.par 10 2 ≤ 3600) :
    readLive s =
      if r.par 10 2 = 0 then
        finishQuery r.slot .ok 0 1 [(12, liveResult (decide (r.par 8 1 = 1)) s.ee.live)] s
      else if 4 ≤ s.exc.standing.length then finishQuery r.slot .noRoom 0 0 [] s
      else beginStanding r (decide (r.par 8 1 = 1)) (r.par 10 2) s := by
  unfold readLive
  rw [query_ready hready]
  exact if_neg (by omega)

end Live

/-! ### READ_EVIDENCE (R126) -/

section Evidence

variable {r : Request} {s : State}

theorem kinds_at_kindIndex (k : Kind) : kinds[kindIndex k]? = some k := by cases k <;> rfl

theorem kindIndex_le (k : Kind) : kindIndex k ≤ 7 := by cases k <;> decide

theorem readEvidence_bad (hready : QueryReady .readEvidence r s) (h : 8 < r.par 8 1) :
    readEvidence s = finishQuery r.slot .badRequest 0 0 [] s := by
  unfold readEvidence
  rw [query_ready hready]
  exact if_pos h

theorem readEvidence_kind {k : Kind} (hready : QueryReady .readEvidence r s) (h : r.par 8 1 = kindIndex k) :
    readEvidence s = finishQuery r.slot .ok 0 1 [(12, kindEvidence k s)] s := by
  have hle := kindIndex_le k
  unfold readEvidence
  rw [query_ready hready]
  dsimp only
  rw [if_neg (by omega), h, kinds_at_kindIndex]

theorem readEvidence_all (hready : QueryReady .readEvidence r s) (h : r.par 8 1 = 8) :
    readEvidence s = finishQuery r.slot .ok 0 1 [(12, allEvidence s)] s := by
  unfold readEvidence
  rw [query_ready hready]
  dsimp only
  rw [if_neg (by omega), h]
  rfl

end Evidence

/-- Settles O57. -/
theorem liveAndEvidenceAnswer : Obligations.LiveAndEvidenceAnswer := by
  refine ⟨fun r s hready => ?_, fun r s hready => ?_⟩
  · refine ⟨fun hbad => congrArg done (readLive_bad hready hbad), fun hpart hevery => congrArg done ?_,
      fun hpart h1 h2 hfull => congrArg done ?_, fun hpart h1 h2 hroom => congrArg done ?_⟩
    · exact (readLive_good hready hpart (by omega)).trans (if_pos hevery)
    · exact (readLive_good hready hpart h2).trans ((if_neg (by omega)).trans (if_pos hfull))
    · exact (readLive_good hready hpart h2).trans ((if_neg (by omega)).trans (if_neg (by omega)))
  · exact ⟨fun hbad => congrArg done (readEvidence_bad hready hbad),
      fun k hk => congrArg done (readEvidence_kind hready hk), fun hall => congrArg done (readEvidence_all hready hall)⟩

/-! ### Bulk requests begin (R178, R179) -/

section Bulk

variable {k : ReqKind} {r : Request} {s : State} {bad : Request → Bool} {a : Area} {sel : Request → Selector}
  {gaps : Bool}

/-- The window a bulk request names has places, at the least one. -/
theorem windowRoom_none {off len : Nat} (h : 4096 ≤ off ∨ min len (4096 - off) / 32 = 0) :
    windowRoom off len = none := by
  by_cases hoff : 4096 ≤ off
  · exact if_pos hoff
  · exact (if_neg hoff).trans (if_pos (h.resolve_left hoff))

theorem windowRoom_some {off len : Nat} (hoff : off < 4096) (hroom : min len (4096 - off) / 32 ≠ 0) :
    windowRoom off len = some (min len (4096 - off) / 32) :=
  (if_neg (by omega)).trans (if_neg hroom)

theorem startBulk_refused (hready : QueryReady k r s)
    (h : 4096 ≤ r.par 16 2 ∨ min (r.par 18 2) (4096 - r.par 16 2) / 32 = 0 ∨ bad r = true) :
    startBulk k bad a sel gaps s = finishQuery r.slot .badRequest 0 0 [] s := by
  unfold startBulk
  rw [query_ready hready]
  dsimp only
  by_cases hwindow : 4096 ≤ r.par 16 2 ∨ min (r.par 18 2) (4096 - r.par 16 2) / 32 = 0
  · rw [windowRoom_none hwindow]
  · have hbad : bad r = true := (or_assoc.mpr h).resolve_left hwindow
    rw [windowRoom_some (by omega) (by omega)]
    exact if_pos hbad

theorem startBulk_begins (hready : QueryReady k r s) (hoff : r.par 16 2 < 4096)
    (hroom : min (r.par 18 2) (4096 - r.par 16 2) / 32 ≠ 0) (hgood : bad r = false) :
    startBulk k bad a sel gaps s =
      beginBulk r (min (r.par 18 2) (4096 - r.par 16 2) / 32) (bulkSource a (sel r) r.snap s) gaps s := by
  unfold startBulk
  rw [query_ready hready]
  dsimp only
  rw [windowRoom_some hoff hroom, hgood]
  rfl

theorem bulkSource_prepared {x : Selector} {l : List (List Byte)} (h : r.snap = .prepared l) :
    bulkSource a x r.snap s = .entries l := by
  unfold bulkSource
  rw [h]

end Bulk

/-- Settles O58. -/
theorem bulkRequestsBegin : Obligations.BulkRequestsBegin := by
  intro r s off room cases
  have prepared : ∀ k (c : Instr) l, QueryReady k r s → r.snap = .prepared l →
      exec c s = done (startBulk k (fun _ => false) .log (fun _ => .log 0) false s) →
      cases c False (.entries l) false := by
    intro k c l hready hsnap hexec
    refine ⟨fun h => ?_, fun hoff hroom _ => ?_⟩
    · exact hexec.trans (congrArg done (startBulk_refused hready (h.imp_right (Or.imp_right False.elim))))
    · refine hexec.trans (congrArg done ((startBulk_begins hready hoff hroom rfl).trans ?_))
      rw [bulkSource_prepared hsnap]
      rfl
  refine ⟨fun hready => ⟨fun h => congrArg done ?_, fun hoff hroom hgood => congrArg done ?_⟩,
    fun hready => ⟨fun h => congrArg done ?_, fun hoff hroom hgood => congrArg done ?_⟩,
    fun l hsnap hready => prepared _ _ l hready hsnap rfl, fun l hsnap hready => prepared _ _ l hready hsnap rfl⟩
  · exact startBulk_refused hready (h.imp_right (Or.imp_right decide_eq_true))
  · exact startBulk_begins hready hoff hroom (decide_eq_false hgood)
  · exact startBulk_refused hready (h.imp_right (Or.imp_right decide_eq_true))
  · exact startBulk_begins hready hoff hroom (decide_eq_false hgood)

end Sys2Proof.Machine

/-! PROOF. The chunks of a bulk request (R179 to R182). -/

namespace Sys2Proof.Machine

open Sys2Proof

/-! ### One step of the chunk loop -/

section Chunk

variable {b : BulkRun} {s : State} {n : Nat} {a : Area} {sel : Selector} {x place bound : Nat}

/-- Entries remain to be delivered. -/
def SourceRemains (b : BulkRun) : Prop :=
  (∃ e rest, b.source = .entries (e :: rest)) ∨ ∃ a sel x place bound, b.source = .scan a sel x place bound

theorem chunkLoop_ends (hbulk : s.exc.bulk = some b) (hpaused : b.paused = false)
    (hsource : b.source = .finished ∨ b.source = .entries []) : chunkLoop n s = chunkDone b s := by
  unfold chunkLoop
  rcases hsource with hsource | hsource <;> simp [hbulk, hpaused, hsource]

theorem chunkLoop_full (hbulk : s.exc.bulk = some b) (hpaused : b.paused = false) (hsource : SourceRemains b)
    (hfull : b.filled = b.room) : chunkLoop n s = chunkPaused b s := by
  unfold chunkLoop
  rcases hsource with ⟨e, rest, hsource⟩ | ⟨a, sel, x, place, bound, hsource⟩ <;> simp [hbulk, hpaused, hsource, hfull]

theorem chunkLoop_delivers {e : List Byte} {rest : List (List Byte)} (hbulk : s.exc.bulk = some b)
    (hpaused : b.paused = false) (hsource : b.source = .entries (e :: rest)) (hroom : b.filled ≠ b.room) :
    chunkLoop (n + 1) s = chunkLoop n (deliver e { b with source := .entries rest } s) := by
  conv => lhs; unfold chunkLoop
  simp [hbulk, hpaused, hsource, hroom]

theorem chunkLoop_examines (hbulk : s.exc.bulk = some b) (hpaused : b.paused = false)
    (hsource : b.source = .scan a sel x place bound) (hroom : b.filled ≠ b.room)
    (hread : canRead s.stc (placeBlock a place) = true) :
    chunkLoop (n + 1) s = chunkLoop n (examine a sel x place bound b s) := by
  conv => lhs; unfold chunkLoop
  simp [hbulk, hpaused, hsource, hroom, hread]

theorem chunkLoop_waits (hbulk : s.exc.bulk = some b) (hpaused : b.paused = false)
    (hsource : b.source = .scan a sel x place bound) (hroom : b.filled ≠ b.room)
    (hread : canRead s.stc (placeBlock a place) = false) : chunkLoop (n + 1) s = waitForRead s := by
  unfold chunkLoop
  simp [hbulk, hpaused, hsource, hroom, hread]

/-! ### One place of the scan -/

theorem examine_entry {bytes : List Byte} (h : readPlace s a place = .entry x bytes) :
    examine a sel x place bound b s =
      if selects sel bytes = true then deliver bytes { b with source := advanceScan a sel x place bound } s
      else setBulk { b with source := advanceScan a sel x place bound } s := by
  unfold examine
  rw [h]
  exact if_pos rfl

theorem examine_damaged (h : readPlace s a place = .damaged) : examine a sel x place bound b s =
    setBulk { b with source := .scan a sel x (nextPlaceIn a place) bound } s := by
  unfold examine
  rw [h]

/-- The answer at the expected place says that the entry is gone (R181). -/
def EntryGone (s : State) (a : Area) (x place : Nat) : Prop :=
  readPlace s a place = .removed ∨ readPlace s a place = .erased ∨
    ∃ y bytes, readPlace s a place = .entry y bytes ∧ y ≠ x

theorem examine_gone (h : EntryGone s a x place) :
    examine a sel x place bound b s = skipRemoved a sel x bound b s := by
  unfold examine
  rcases h with h | h | ⟨y, bytes, h, hother⟩ <;> rw [h]
  exact if_neg hother

theorem skipRemoved_none (h : oldestPresent s a = none) : skipRemoved a sel x bound b s =
    setBulk { b with source := .finished, skipped := b.skipped + (bound + 65536 - x) % 65536 + 1 } s := by
  unfold skipRemoved
  rw [h]

theorem skipRemoved_beyond {y : Nat} (h : oldestPresent s a = some y)
    (hspan : (bound + 65536 - x) % 65536 < (y + 65536 - x) % 65536) : skipRemoved a sel x bound b s =
    setBulk { b with source := .finished, skipped := b.skipped + (bound + 65536 - x) % 65536 + 1 } s := by
  unfold skipRemoved
  rw [h]
  exact if_pos hspan

theorem skipRemoved_resumes {y : Nat} (h : oldestPresent s a = some y)
    (hspan : (y + 65536 - x) % 65536 ≤ (bound + 65536 - x) % 65536) : skipRemoved a sel x bound b s =
    setBulk { b with source := .scan a sel y (placeOfSeq s a y) bound, skipped := b.skipped + (y + 65536 - x) % 65536 }
      s := by
  unfold skipRemoved
  rw [h]
  exact if_neg (by omega)

/-! ### BULK_CHUNK while the exchange runs -/

theorem exec_bulkChunk (hruns : ExchangeRuns s) (n : Nat) : exec (.bulkChunk n) s = done (chunkLoop n s) :=
  congrArg done (if_pos (lanesRun_of_runs hruns))

/-- A step of the loop that leaves the exchange running is a BULK_CHUNK with one step less. -/
theorem exec_bulkChunk_step {t : State} (hruns : ExchangeRuns s) (hruns' : ExchangeRuns t)
    (h : chunkLoop (n + 1) s = chunkLoop n t) : exec (.bulkChunk (n + 1)) s = exec (.bulkChunk n) t := by
  rw [exec_bulkChunk hruns, exec_bulkChunk hruns', h]

theorem chunkDone_parts (b : BulkRun) (s : State) :
    (chunkDone b s).exc.mem = doneMem b.slot .ok (chunkFlags b) b.filled (chunkResults b) s.exc.mem ∧
    (chunkDone b s).exc.bulk = none ∧ (chunkDone b s).exc.query = ⟨s.exc.query.queue.tail, false⟩ ∧
    (chunkDone b s).ce = s.ce ∧ (chunkDone b s).ee = s.ee ∧ (chunkDone b s).flash = s.flash := by
  obtain ⟨hexc, hflash, hce, hee⟩ :=
    readsDone_parts (finishQuery b.slot .ok (chunkFlags b) b.filled (chunkResults b) s)
  obtain ⟨hmem, hbulk, hquery⟩ := finishQuery_parts b.slot .ok (chunkFlags b) b.filled (chunkResults b) s
  unfold chunkDone
  rw [hexc]
  exact ⟨hmem, hbulk, hquery, hce, hee, hflash⟩

theorem chunkPaused_parts (b : BulkRun) (s : State) :
    (chunkPaused b s).exc.mem = putState (putFields s.exc.mem b.slot
      ((5, [byte (chunkFlags b)]) :: (6, le 2 b.filled) :: chunkResults b)) b.slot PAUSED ∧
    (chunkPaused b s).exc.bulk = some { b with
      total := b.total + b.filled, filled := 0, skipped := 0, paused := true, pause := ⟨60, false⟩ } ∧
    (chunkPaused b s).ce = s.ce ∧ (chunkPaused b s).ee = s.ee ∧ (chunkPaused b s).flash = s.flash := by
  unfold chunkPaused
  dsimp only
  generalize hpaused : setBulk _ _ = y
  obtain ⟨hexc, hflash, hce, hee⟩ := readsDone_parts y
  rw [hexc, hflash, hce, hee, ← hpaused]
  exact ⟨rfl, rfl, rfl, rfl, rfl⟩

theorem pauseExpiry_due (hruns : ExchangeRuns s) (hbulk : s.exc.bulk = some b) (hpaused : b.paused = true)
    (hdue : b.pause.due = true) : pauseExpiry s = finishQuery b.slot .timeout 0 b.total [] s := by
  unfold pauseExpiry
  rw [hbulk]
  exact if_pos (by simp [lanesRun_of_runs hruns, hpaused, hdue])

end Chunk

/-- Settles O59. -/
theorem bulkChunksFillTheWindow : Obligations.BulkChunksFillTheWindow := by
  intro b s hruns hbulk put results flags
  refine ⟨fun hpaused => ⟨fun hsource n => ?_, fun hsource hfull n => ?_, fun e rest n hsource hroom => ?_,
    ?_, ?_, fun a sel x place bound n hsource hroom hread => ?_⟩, fun hpaused hdue => ?_⟩
  · obtain ⟨hmem, hnone, hquery, hce, hee, hflash⟩ := chunkDone_parts b s
    refine ⟨_, (exec_bulkChunk hruns n).trans (congrArg done (chunkLoop_ends hbulk hpaused hsource)), ?_⟩
    simp only [refresh_mem, refresh_bulk, refresh_query, refresh_toModules, refresh_flash]
    exact ⟨hmem, hnone, hquery, hce, hee, hflash⟩
  · obtain ⟨hmem, hsome, hce, hee, hflash⟩ := chunkPaused_parts b s
    refine ⟨_, (exec_bulkChunk hruns n).trans (congrArg done (chunkLoop_full hbulk hpaused hsource hfull)), ?_⟩
    simp only [refresh_mem, refresh_bulk, refresh_toModules, refresh_flash]
    exact ⟨hmem, hsome, hce, hee, hflash⟩
  · exact exec_bulkChunk_step (t := put { b with source := .entries rest } e) hruns hruns
      (chunkLoop_delivers hbulk hpaused hsource hroom)
  · intro a sel x place bound n bytes hsource hroom hread hentry next
    have hstep := (chunkLoop_examines (n := n) hbulk hpaused hsource hroom hread).trans
      (congrArg (chunkLoop n) (examine_entry hentry))
    by_cases hselects : selects sel bytes = true
    · rw [if_pos hselects] at hstep ⊢
      exact exec_bulkChunk_step hruns hruns hstep
    · rw [if_neg hselects] at hstep ⊢
      exact exec_bulkChunk_step hruns hruns hstep
  · intro a sel x place bound n hsource hroom hread goes span gone
    have hexamine := chunkLoop_examines (n := n) hbulk hpaused hsource hroom hread
    refine ⟨fun hdamaged => ?_, fun hgone hnone => ?_, fun y hgone hsome => ⟨fun hspan => ?_, fun hspan => ?_⟩⟩ <;>
      refine exec_bulkChunk_step hruns hruns (hexamine.trans (congrArg (chunkLoop n) ?_))
    · exact examine_damaged hdamaged
    · exact (examine_gone hgone).trans (skipRemoved_none hnone)
    · exact (examine_gone hgone).trans (skipRemoved_beyond hsome hspan)
    · exact (examine_gone hgone).trans (skipRemoved_resumes hsome hspan)
  · exact (exec_bulkChunk hruns (n + 1)).trans (congrArg done (chunkLoop_waits hbulk hpaused hsource hroom hread))
  · exact congrArg done (pauseExpiry_due hruns hbulk hpaused hdue)

end Sys2Proof.Machine

/-! PROOF. The lifecycle requests that act: CALIBRATE, IDENTIFY, INSTALL_KEY, COMMISSION (R162 to R165). -/

namespace Sys2Proof.Machine

open Sys2Proof

/-! ### A lifecycle request that is taken -/

/-- The first operation of a lifecycle request is a save, or a bit not yet programmed. -/
def FirstOp (o : StoreOp) (x : State) : Prop :=
  o = .save .lifecycle ∨ ∃ b, o = .bit b ∧ bitOf x.stc.copy b = false

theorem opTaken_takeLifecycle {q : Lifecycle} {i : Fin 16} {o : StoreOp} {x : State} (hop : FirstOp o x)
    (hpower : x.psv.power = .run) (hfault : x.stc.fault = false) : OpTaken o (takeLifecycle q i o x).stc := by
  refine opTaken_arrive_new o _ (fun b c g h => ?_) hfault (storeTakes_run hpower) (fun b h => ?_) (fun ⟨e, h⟩ => ?_)
  · rcases hop with rfl | ⟨b', rfl, _⟩ <;> cases h
  · rcases hop with rfl | ⟨b', rfl, hbit⟩ <;> cases h
    exact hbit
  · rcases hop with rfl | ⟨b', rfl, _⟩ <;> cases h

/-- What stands after an instruction that takes a lifecycle request, from the state with the request's data loaded. -/
theorem exec_takeLifecycle {c : Instr} {q : Lifecycle} {i : Fin 16} {o : StoreOp} {s x : State}
    (h : exec c s = done (takeLifecycle q i o x)) (hop : FirstOp o x) (hpower : x.psv.power = .run)
    (hfault : x.stc.fault = false) :
    ∃ t, exec c s = .next t ∧ t.psv = { x.psv with req := some ⟨q, some i⟩ } ∧
      t.exc.control = { x.exc.control with begun := true } ∧ t.ce = x.ce ∧ t.swc = x.swc ∧ t.bat = x.bat ∧
      t.flash = x.flash ∧ t.exc.mem = x.exc.mem ∧
      t.cau = x.cau ∧ t.rlr = x.rlr ∧ t.ee = x.ee ∧ OpTaken o t.stc := by
  obtain ⟨hpsv, hcontrol, hce, hswc, hbat, hflash, hmem, hcau, hrlr, hee⟩ := take_parts q i o x
  refine ⟨_, h, ?_⟩
  simp only [refresh_psv, refresh_control, refresh_toModules, refresh_bat, refresh_flash, refresh_mem]
  exact ⟨hpsv, hcontrol, hce, hswc, hbat, hflash, hmem, hcau, hrlr, hee, opTaken_takeLifecycle hop hpower hfault⟩

/-! ### CALIBRATE, IDENTIFY, INSTALL_KEY, COMMISSION at the head of the CONTROL lane -/

section Lifecycle

variable {r : Request} {s : State}

theorem calibrate_ready (hready : ControlReady .calibrate r s) : calibrate s =
    if s.psv.inService then finishControl r.slot .notNow 0 [] s
    else if s.stc.fault then finishControl r.slot .storeFault 0 [] s
    else takeLifecycle .calibrate r.slot (.save .lifecycle) { s with ee := { s.ee with gains := gainsOf r } } := by
  unfold calibrate
  rw [control_ready hready]

theorem identify_ready (hready : ControlReady .identify r s) : identify s =
    if s.psv.inService then finishControl r.slot .notNow 0 [] s
    else if s.stc.fault then finishControl r.slot .storeFault 0 [] s
    else takeLifecycle .identify r.slot (.save .lifecycle)
      { s with cau := { s.cau with serial := r.par 8 4 }, rlr := { s.rlr with radioAddr := slice r.params 4 6 } } := by
  unfold identify
  rw [control_ready hready]

theorem installKey_ready (hready : ControlReady .installKey r s) : installKey s =
    if s.psv.inService || s.stc.copy.keyInstalled then finishControl r.slot .notNow 0 [] s
    else if s.stc.fault then finishControl r.slot .storeFault 0 [] s
    else takeLifecycle .installKey r.slot (.save .lifecycle)
      { s with cau := { s.cau with key := BitVec.ofNat 128 (r.par 8 16) } } := by
  unfold installKey
  rw [control_ready hready]

theorem commission_ready (hready : ControlReady .commission r s) : commission s =
    if s.psv.inService then finishControl r.slot .notNow 0 [(8, [1])] s
    else if !s.stc.copy.keyInstalled then finishControl r.slot .notNow 0 [(8, [2])] s
    else if !s.bat.clockValid then finishControl r.slot .notNow 0 [(8, [3])] s
    else if s.stc.fault then finishControl r.slot .storeFault 0 [(8, [0])] s
    else takeLifecycle (.commission 0) r.slot (.bit .commissioned) s := by
  unfold commission
  rw [control_ready hready]

end Lifecycle

/-- Settles O60. -/
theorem lifecycleRequestsAct : Obligations.LifecycleRequestsAct := by
  intro r s refused taken
  refine ⟨fun hready => ?_, fun hready => ?_, fun hready => ?_, fun hready => ?_⟩
  · have hexec := congrArg done (calibrate_ready hready)
    refine ⟨fun hservice => ?_, fun hservice hfault => ?_, fun hservice hfault => ?_⟩
    · exact hexec.trans (congrArg done (if_pos hservice))
    · rw [hservice, hfault] at hexec
      exact hexec
    · rw [hservice, hfault, if_neg Bool.false_ne_true, if_neg Bool.false_ne_true] at hexec
      obtain ⟨t, ht, hpsv, hcontrol, hce, hswc, hbat, hflash, hmem, hcau, hrlr, hee, hop⟩ :=
        exec_takeLifecycle (c := .calibrate) hexec (.inl rfl) hready.1.1 hfault
      exact ⟨t, ht, hpsv, hcontrol, hce, hswc, hbat, hflash, hmem, hee, hcau, hrlr, opTaken_save hop⟩
  · have hexec := congrArg done (identify_ready hready)
    refine ⟨fun hservice => ?_, fun hservice hfault => ?_, fun hservice hfault => ?_⟩
    · exact hexec.trans (congrArg done (if_pos hservice))
    · rw [hservice, hfault] at hexec
      exact hexec
    · rw [hservice, hfault, if_neg Bool.false_ne_true, if_neg Bool.false_ne_true] at hexec
      obtain ⟨t, ht, hpsv, hcontrol, hce, hswc, hbat, hflash, hmem, hcau, hrlr, hee, hop⟩ :=
        exec_takeLifecycle (c := .identify) hexec (.inl rfl) hready.1.1 hfault
      exact ⟨t, ht, hpsv, hcontrol, hce, hswc, hbat, hflash, hmem, hcau, hrlr, hee, opTaken_save hop⟩
  · have hexec := congrArg done (installKey_ready hready)
    refine ⟨fun hnot => ?_, fun hservice hkey hfault => ?_, fun hservice hkey hfault => ?_⟩
    · exact hexec.trans (congrArg done (if_pos (Bool.or_eq_true_iff.2 hnot)))
    · rw [hservice, hkey, hfault] at hexec
      exact hexec
    · rw [hservice, hkey, hfault, Bool.or_false, if_neg Bool.false_ne_true, if_neg Bool.false_ne_true] at hexec
      obtain ⟨t, ht, hpsv, hcontrol, hce, hswc, hbat, hflash, hmem, hcau, hrlr, hee, hop⟩ :=
        exec_takeLifecycle (c := .installKey) hexec (.inl rfl) hready.1.1 hfault
      exact ⟨t, ht, hpsv, hcontrol, hce, hswc, hbat, hflash, hmem, hcau, hrlr, hee, opTaken_save hop⟩
  · have hexec := congrArg done (commission_ready hready)
    refine ⟨fun hservice => ?_, fun hservice hkey => ?_, fun hservice hkey hclock => ?_,
      fun hservice hkey hclock hfault => ?_, fun hservice hkey hclock hfault hnew => ?_⟩
    · exact hexec.trans (congrArg done (if_pos hservice))
    · rw [hservice, hkey] at hexec
      exact hexec
    · rw [hservice, hkey, hclock] at hexec
      exact hexec
    · rw [hservice, hkey, hclock, hfault] at hexec
      exact hexec
    · rw [hservice, hkey, hclock, hfault, Bool.not_true, if_neg Bool.false_ne_true,
        if_neg Bool.false_ne_true, if_neg Bool.false_ne_true, if_neg Bool.false_ne_true] at hexec
      obtain ⟨t, ht, hpsv, hcontrol, hce, hswc, hbat, hflash, hmem, hcau, hrlr, hee, hop⟩ :=
        exec_takeLifecycle (c := .commission) hexec (.inr ⟨_, rfl, hnew⟩) hready.1.1 hfault
      exact ⟨t, ht, hpsv, hcontrol, hce, hswc, hbat, hflash, hmem, hcau, hrlr, hee, opTaken_bit hop⟩

end Sys2Proof.Machine
